-- ==== Sys2Proof/Word.lean ====
section
/-! DEFINITION. The word types of the Keriec and the small operand types that instructions carry (R4, R6, R86, R101). -/

namespace Sys2Proof

/-- A byte (R4). -/
abbrev Byte := BitVec 8
/-- A doubleword: the width of a scalar register, a system register and a virtual address (R4, R18). -/
abbrev Word := BitVec 64
/-- A register number field of an instruction word: s0–s63, p0–p63, v0–v63 (R86). -/
abbrev Reg := BitVec 6

/-- The operand kinds K of a vector word (R101). Values 110 and 111 name no kind and are illegal. -/
inductive VKind where
  /-- 000: D, A, B and C name vector registers where used. -/
  | vec
  /-- 001: B names a captured scalar register. -/
  | scalarB
  /-- 010: B is I14, sign-extended. -/
  | immB
  /-- 011: B names an accumulator register. -/
  | accB
  /-- 100: A names an accumulator register. -/
  | accA
  /-- 101: D names an accumulator register. -/
  | accD
  deriving DecidableEq, Repr

/-- The fields of a vector word other than VOP and F (R101). -/
structure VArgs where
  /-- CR: triple issue with majority vote. -/
  cr : Bool
  d : Reg
  a : Reg
  b : Reg
  c : Reg
  /-- P: guard predicate, 0 means unguarded. -/
  p : Reg
  /-- Z: zero masked-off elements. -/
  z : Bool
  k : VKind
  imm : BitVec 14
  deriving DecidableEq, Repr

/-- The three masters of the register block (R57). -/
inductive Master where
  | host0
  | host1
  | mc
  deriving DecidableEq, Repr

/-- Names one strand of the device: its launch's handle, its crew and its strand id (R36). -/
structure SId where
  lid : Word
  cid : BitVec 16
  sid : BitVec 2
  deriving DecidableEq, Repr

/-- A command packet as the command processor reads it from ring slot `(stamp − 1) mod 2^(SZ+6)` of queue `q` (R66). -/
structure Packet where
  q : BitVec 3
  opc : Byte
  /-- The reserved fields at 0x01 and 0x04 are zero. -/
  rsvZero : Bool
  ctx : BitVec 16
  b0 : Word
  b1 : Word
  b2 : Word
  b3 : Word
  b4 : Word
  b5 : Word
  stamp : Word
  deriving DecidableEq, Repr

/-- A fabric message: the header of R371 without MT, LEN and the reserved fields, and its body. -/
structure Msg where
  sdev : BitVec 9
  ddev : BitVec 9
  ctx : BitVec 16
  tid : Word
  stamp : Word
  body : List Byte
  deriving DecidableEq, Repr

/-- An incoming RDMA request or response, as the Ethernet engine parses it (R395 to R398). -/
structure RdmaPkt where
  /-- Queue-pair context index, 0 to 4095. -/
  qp : BitVec 12
  psn : BitVec 24
  raddr : Word
  rkey : BitVec 32
  imm : BitVec 32
  /-- The message carries immediate data; in an acknowledgement, it is a NAK of remote access error. -/
  hasImm : Bool
  /-- A packet of it was marked as having met congestion. -/
  ecn : Bool
  data : List Byte
  /-- Bytes asked for by an RDMA READ. -/
  len : Word
  deriving DecidableEq, Repr

/-- An internal store of R420 whose error is uncorrectable, or was corrected. -/
inductive ErrSite where
  /-- A 64-byte block of a vector register of a strand. -/
  | vreg (k : SId) (v : Reg) (block : Nat)
  /-- A 64-byte block of an accumulator of a strand. -/
  | acc (k : SId) (m : BitVec 4) (block : Nat)
  | sreg (k : SId) (r : Reg)
  | pred (k : SId) (p : Reg)
  | ka (k : SId) (e : BitVec 12)
  | kb (k : SId) (e : BitVec 12)
  /-- Entry `i` from the head of queue register `q` of the crew of `k`. -/
  | queue (k : SId) (q : BitVec 3) (i : Nat)
  /-- A sector of the scalar L1 data cache of a core: context and virtual sector number. -/
  | l1d (core : BitVec 7) (ctx : BitVec 16) (sector : Nat)
  | l1i (core : BitVec 7) (ctx : BitVec 16) (sector : Nat)
  | replay (k : SId) (addr : Word)
  /-- A sector of core scratch, pool, HBM4E or LPDDR, by physical byte number. -/
  | mem (key : Nat)
  deriving DecidableEq, Repr

/-- The end of one training of a fabric link (R364, R367). -/
structure Trained where
  /-- Lanes that trained: 1 or 2. -/
  lanes : Nat
  /-- Measured round trip in ns. -/
  rttNs : Nat
  pdev : BitVec 9
  pport : BitVec 6
  deriving DecidableEq, Repr

end Sys2Proof
end

