-- ==== Sys2Proof/Syntax.lean ====
section
/-! DEFINITION. The steps of the Keriec: one constructor per row of spec/opcode_table.json.
Scalar instructions (R88 to R100) carry their operand fields; vector instructions (R101 to R115) carry the fields of the
vector format; the steps of the device that no word encodes carry what arrives with them. -/

namespace Sys2Proof

/-- One step of the device: a scalar instruction, a vector instruction, or a step of one of its engines. -/
inductive Instr where
  /-- Writes the 64-bit sum of two scalar registers to the destination (R155). -/
  | add (d a b : Reg)
  /-- Writes the 64-bit difference of two scalar registers to the destination (R155). -/
  | sub (d a b : Reg)
  /-- Writes the bitwise AND of two scalar registers to the destination (R155). -/
  | and (d a b : Reg)
  /-- Writes the bitwise OR of two scalar registers to the destination (R155). -/
  | or (d a b : Reg)
  /-- Writes the bitwise XOR of two scalar registers to the destination (R155). -/
  | xor (d a b : Reg)
  /-- Writes a AND NOT b to the destination (R155). -/
  | andn (d a b : Reg)
  /-- Writes a OR NOT b to the destination (R155). -/
  | orn (d a b : Reg)
  /-- Writes NOT (a XOR b) to the destination (R155). -/
  | xnor (d a b : Reg)
  /-- Shifts a left by b mod 64 (R155). -/
  | shl (d a b : Reg)
  /-- Shifts a right logically by b mod 64 (R155). -/
  | shr (d a b : Reg)
  /-- Shifts a right arithmetically by b mod 64 (R155). -/
  | sha (d a b : Reg)
  /-- Rotates a right by b mod 64 (R155). -/
  | ror (d a b : Reg)
  /-- Writes the low 64 bits of the product (R155). -/
  | mul (d a b : Reg)
  /-- Writes the high 64 bits of the signed product (R155). -/
  | mulh (d a b : Reg)
  /-- Writes the high 64 bits of the unsigned product (R155). -/
  | mulhu (d a b : Reg)
  /-- Signed division truncated toward zero, never trapping (R156). -/
  | div (d a b : Reg)
  /-- Unsigned division, never trapping (R156). -/
  | divu (d a b : Reg)
  /-- Signed remainder with the sign of a, never trapping (R156). -/
  | rem (d a b : Reg)
  /-- Unsigned remainder, never trapping (R156). -/
  | remu (d a b : Reg)
  /-- Writes the signed minimum (R155). -/
  | min (d a b : Reg)
  /-- Writes the signed maximum (R155). -/
  | max (d a b : Reg)
  /-- Writes the unsigned minimum (R155). -/
  | minu (d a b : Reg)
  /-- Writes the unsigned maximum (R155). -/
  | maxu (d a b : Reg)
  /-- Writes 1 if a equals b, else 0 (R155). -/
  | seq (d a b : Reg)
  /-- Writes 1 if a differs from b, else 0 (R155). -/
  | sne (d a b : Reg)
  /-- Writes 1 if a < b signed (R155). -/
  | slt (d a b : Reg)
  /-- Writes 1 if a < b unsigned (R155). -/
  | sltu (d a b : Reg)
  /-- Writes 1 if a <= b signed (R155). -/
  | sle (d a b : Reg)
  /-- Writes 1 if a <= b unsigned (R155). -/
  | sleu (d a b : Reg)
  /-- Counts leading zero bits of a (R155). -/
  | clz (d a : Reg)
  /-- Counts trailing zero bits of a (R155). -/
  | ctz (d a : Reg)
  /-- Counts one bits of a (R155). -/
  | popc (d a : Reg)
  /-- Reverses the bits of a (R155). -/
  | brev (d a : Reg)
  /-- Reverses the bytes of a (R155). -/
  | bswap (d a : Reg)
  /-- Adds and sign-extends the low 32 bits (R155). -/
  | addw (d a b : Reg)
  /-- Subtracts and sign-extends the low 32 bits (R155). -/
  | subw (d a b : Reg)
  /-- Multiplies and sign-extends the low 32 bits (R155). -/
  | mulw (d a b : Reg)
  /-- Computes the invertible hash mixing step of a and b (R157). -/
  | hmix (d a b : Reg)
  /-- Adds a sign-extended immediate (R158). -/
  | addi (d a : Reg) (imm : BitVec 14)
  /-- ANDs with a sign-extended immediate (R158). -/
  | andi (d a : Reg) (imm : BitVec 14)
  /-- ORs with a sign-extended immediate (R158). -/
  | ori (d a : Reg) (imm : BitVec 14)
  /-- XORs with a sign-extended immediate (R158). -/
  | xori (d a : Reg) (imm : BitVec 14)
  /-- Shifts left by an immediate amount (R159). -/
  | shli (d a : Reg) (n : BitVec 6)
  /-- Shifts right logically by an immediate amount (R159). -/
  | shri (d a : Reg) (n : BitVec 6)
  /-- Shifts right arithmetically by an immediate amount (R159). -/
  | shai (d a : Reg) (n : BitVec 6)
  /-- Rotates right by an immediate amount (R159). -/
  | rori (d a : Reg) (n : BitVec 6)
  /-- Writes 1 if a < immediate signed (R158). -/
  | slti (d a : Reg) (imm : BitVec 14)
  /-- Writes 1 if a < immediate unsigned (R158). -/
  | sltui (d a : Reg) (imm : BitVec 14)
  /-- Multiplies by a sign-extended immediate (R158). -/
  | muli (d a : Reg) (imm : BitVec 14)
  /-- Loads a sign-extended upper immediate shifted by 12 (R160). -/
  | lui (d : Reg) (imm : BitVec 20)
  /-- Replaces bits 63:44 of the destination with the immediate (R160). -/
  | lhi (d : Reg) (imm : BitVec 20)
  /-- Adds a shifted immediate to its own address (R160). -/
  | addpc (d : Reg) (imm : BitVec 20)
  /-- Adds an immediate and sign-extends the low 32 bits (R158). -/
  | addiw (d a : Reg) (imm : BitVec 14)
  /-- Branches when a equals b (R161). -/
  | beq (a b : Reg) (off : BitVec 14)
  /-- Branches when a differs from b (R161). -/
  | bne (a b : Reg) (off : BitVec 14)
  /-- Branches when a < b signed (R161). -/
  | blt (a b : Reg) (off : BitVec 14)
  /-- Branches when a >= b signed (R161). -/
  | bge (a b : Reg) (off : BitVec 14)
  /-- Branches when a < b unsigned (R161). -/
  | bltu (a b : Reg) (off : BitVec 14)
  /-- Branches when a >= b unsigned (R161). -/
  | bgeu (a b : Reg) (off : BitVec 14)
  /-- Waits for the predicate and VL, then branches if any bit below VL is set (R162). -/
  | bpany (a : Reg) (off : BitVec 14)
  /-- Waits for the predicate and VL, then branches if no bit below VL is set (R162). -/
  | bpnone (a : Reg) (off : BitVec 14)
  /-- Jumps PC-relative (R163). -/
  | j (off : BitVec 26)
  /-- Jumps PC-relative and links into s63 (R163). -/
  | jal (off : BitVec 26)
  /-- Jumps to register plus offset and links (R163). -/
  | jalr (d a : Reg) (imm : BitVec 14)
  /-- Loads a sign-extended byte (R164). -/
  | ldb (d a : Reg) (imm : BitVec 14)
  /-- Loads a zero-extended byte (R164). -/
  | ldbu (d a : Reg) (imm : BitVec 14)
  /-- Loads a sign-extended half (R164). -/
  | ldh (d a : Reg) (imm : BitVec 14)
  /-- Loads a zero-extended half (R164). -/
  | ldhu (d a : Reg) (imm : BitVec 14)
  /-- Loads a sign-extended word (R164). -/
  | ldw (d a : Reg) (imm : BitVec 14)
  /-- Loads a zero-extended word (R164). -/
  | ldwu (d a : Reg) (imm : BitVec 14)
  /-- Loads a doubleword (R164). -/
  | ldd (d a : Reg) (imm : BitVec 14)
  /-- Stores a byte, logging the old value (R164). -/
  | stb (a b : Reg) (off : BitVec 14)
  /-- Stores a half, logging the old value (R164). -/
  | sth (a b : Reg) (off : BitVec 14)
  /-- Stores a word, logging the old value (R164). -/
  | stw (a b : Reg) (off : BitVec 14)
  /-- Stores a doubleword, logging the old value (R164). -/
  | std (a b : Reg) (off : BitVec 14)
  /-- Single-copy-atomic load with scope and optional acquire (R168). -/
  | lda (d a : Reg) (sc : BitVec 4) (ord : BitVec 2) (dw : Bool)
  /-- Single-copy-atomic store with scope and optional release (R168). -/
  | str (a b : Reg) (sc : BitVec 4) (ord : BitVec 2) (dw : Bool)
  /-- Atomically swaps memory with b and returns the old value (R168). -/
  | swap (d a b : Reg) (sc : BitVec 4) (ord : BitVec 2) (dw : Bool)
  /-- Atomically adds b to memory and returns the old value (R168). -/
  | aadd (d a b : Reg) (sc : BitVec 4) (ord : BitVec 2) (dw : Bool)
  /-- Atomically ANDs b into memory (R168). -/
  | aand (d a b : Reg) (sc : BitVec 4) (ord : BitVec 2) (dw : Bool)
  /-- Atomically ORs b into memory (R168). -/
  | aor (d a b : Reg) (sc : BitVec 4) (ord : BitVec 2) (dw : Bool)
  /-- Atomically XORs b into memory (R168). -/
  | axor (d a b : Reg) (sc : BitVec 4) (ord : BitVec 2) (dw : Bool)
  /-- Atomic signed minimum (R168). -/
  | amin (d a b : Reg) (sc : BitVec 4) (ord : BitVec 2) (dw : Bool)
  /-- Atomic signed maximum (R168). -/
  | amax (d a b : Reg) (sc : BitVec 4) (ord : BitVec 2) (dw : Bool)
  /-- Atomic unsigned minimum (R168). -/
  | aminu (d a b : Reg) (sc : BitVec 4) (ord : BitVec 2) (dw : Bool)
  /-- Atomic unsigned maximum (R168). -/
  | amaxu (d a b : Reg) (sc : BitVec 4) (ord : BitVec 2) (dw : Bool)
  /-- Compares memory with the expected value and writes b on a match (R169). -/
  | cas (d a b : Reg) (sc : BitVec 4) (ord : BitVec 2) (dw : Bool)
  /-- Orders the strand's accesses of the masked kinds at a scope (R171). -/
  | fence (sc : BitVec 4) (mask : BitVec 4)
  /-- Waits for the vector queue, then declares vector registers and sets MVL (R205). -/
  | vdecl (d a b : Reg)
  /-- Sets VT to a valid value and clamps VL (R206). -/
  | vsett (d a : Reg)
  /-- Sets VL to min(S(A), VLMAX) (R207). -/
  | vsetl (d a : Reg)
  /-- Reads a dimension descriptor and merges contiguous dimensions into VL (R209). -/
  | vcoll (d a : Reg)
  /-- Reads or replays a vector block, captures state and enqueues its instructions (R129). -/
  | vfetch (a : Reg)
  /-- Switches protected mode and resizes the declaration (R422). -/
  | vprot (d a : Reg)
  /-- Saves vector-state parts to memory or foreign units to their owners' frames (R418). -/
  | vsave (d a b : Reg)
  /-- Restores vector-state parts from an image or the strand's frame (R419). -/
  | vload (d a b : Reg)
  /-- Starts an asynchronous linear copy with a ticket (R319). -/
  | cpy (d a b : Reg)
  /-- Resumes a linear copy from its recorded progress (R323). -/
  | cpyR (d a b : Reg)
  /-- Starts an asynchronous two-dimensional copy (R319). -/
  | cpy2 (d a : Reg)
  /-- Resumes a two-dimensional copy from its progress (R323). -/
  | cpy2R (d a : Reg)
  /-- Opens a stream that fetches strips into core scratch (R333). -/
  | stream (d a : Reg)
  /-- Ends an open stream after its in-flight strips land (R335). -/
  | streamx (a : Reg)
  /-- Reads a collective descriptor and starts a collective on Sheepdog (R380). -/
  | coll (d a : Reg)
  /-- Returns the done value of a timeline (R326). -/
  | tlread (d a : Reg)
  /-- Waits until a timeline reaches a count, then acquires (R327). -/
  | tlwait (a b : Reg)
  /-- Waits until a sync word's generation passes a value, then acquires (R331). -/
  | syncw (d a b : Reg)
  /-- Presents a launch descriptor to the command processor (R172). -/
  | launch (d a : Reg)
  /-- Presents a graph image to the command processor (R172). -/
  | graph (d a : Reg)
  /-- Cancels the object named by a handle (R173). -/
  | cancel (d a : Reg)
  /-- Waits until an object's OUT falls to a value or it completes (R174). -/
  | cwait (d a b : Reg)
  /-- Atomically adds to a word as a release and wakes the job's waiters (R175). -/
  | signal (d a b : Reg)
  /-- Appends a value with its clock stamp to a queue register (R148). -/
  | qpush (a : Reg) (q : BitVec 3)
  /-- Removes the head of a queue register (R148). -/
  | qpop (d : Reg) (q : BitVec 3)
  /-- Reads the head of a queue register without removing it (R148). -/
  | qpeek (d : Reg) (q : BitVec 3)
  /-- Removes the head if present, without waiting (R148). -/
  | qtry (d : Reg) (q : BitVec 3)
  /-- Reads a system register (R97). -/
  | sysr (d : Reg) (y : BitVec 12)
  /-- Writes a system register (R97). -/
  | sysw (a : Reg) (y : BitVec 12)
  /-- Indivisibly returns and sets bits of a system register (R97). -/
  | sysset (d a : Reg) (y : BitVec 12)
  /-- Indivisibly returns and clears bits of a system register (R97). -/
  | sysclr (d a : Reg) (y : BitVec 12)
  /-- Raises the TRAP code with an immediate (R176). -/
  | trap (n : BitVec 6)
  /-- Opens a Retriever window and writes a checkpoint (R182). -/
  | wmark (d : Reg)
  /-- Advances LCLK and appends a trace mark record (R183). -/
  | tmark (a : Reg)
  /-- Raises the BREAK code for a debugger or handler (R176). -/
  | break (n : BitVec 6)
  /-- Element-wise integer add, wrapping or saturating (R221). -/
  | vadd (v : VArgs)
  /-- Element-wise integer subtract (R221). -/
  | vsub (v : VArgs)
  /-- Element-wise integer multiply (R221). -/
  | vmul (v : VArgs)
  /-- Element-wise high half of integer product (R221). -/
  | vmulh (v : VArgs)
  /-- Element-wise signed minimum (R221). -/
  | vmin (v : VArgs)
  /-- Element-wise signed maximum (R221). -/
  | vmax (v : VArgs)
  /-- Element-wise unsigned minimum (R221). -/
  | vminu (v : VArgs)
  /-- Element-wise unsigned maximum (R221). -/
  | vmaxu (v : VArgs)
  /-- Element-wise integer absolute value (R221). -/
  | vabs (v : VArgs)
  /-- Element-wise integer negation (R221). -/
  | vneg (v : VArgs)
  /-- Element-wise saturating add (R221). -/
  | vsadd (v : VArgs)
  /-- Element-wise saturating subtract (R221). -/
  | vssub (v : VArgs)
  /-- Element-wise integer division that never traps (R222). -/
  | vdiv (v : VArgs)
  /-- Element-wise bitwise AND (R223). -/
  | vand (v : VArgs)
  /-- Element-wise bitwise OR (R223). -/
  | vor (v : VArgs)
  /-- Element-wise bitwise XOR (R223). -/
  | vxor (v : VArgs)
  /-- Element-wise a AND NOT b (R223). -/
  | vandn (v : VArgs)
  /-- Element-wise bitwise NOT (R223). -/
  | vnot (v : VArgs)
  /-- Element-wise left shift (R223). -/
  | vshl (v : VArgs)
  /-- Element-wise logical right shift (R223). -/
  | vshr (v : VArgs)
  /-- Element-wise arithmetic right shift (R223). -/
  | vsha (v : VArgs)
  /-- Element-wise leading-zero count (R223). -/
  | vclz (v : VArgs)
  /-- Element-wise population count (R223). -/
  | vpopc (v : VArgs)
  /-- Element-wise floating add with one rounding (R224). -/
  | vfadd (v : VArgs)
  /-- Element-wise floating subtract (R224). -/
  | vfsub (v : VArgs)
  /-- Element-wise floating multiply (R224). -/
  | vfmul (v : VArgs)
  /-- Element-wise floating minimum preferring numbers (R225). -/
  | vfmin (v : VArgs)
  /-- Element-wise floating maximum preferring numbers (R225). -/
  | vfmax (v : VArgs)
  /-- Clears each element's sign bit (R226). -/
  | vfabs (v : VArgs)
  /-- Inverts each element's sign bit (R226). -/
  | vfneg (v : VArgs)
  /-- Copies the sign of b onto a (R226). -/
  | vfsgn (v : VArgs)
  /-- Element-wise 2 to the power a (R232). -/
  | vexp2 (v : VArgs)
  /-- Element-wise base-2 logarithm (R232). -/
  | vlog2 (v : VArgs)
  /-- Element-wise reciprocal (R232). -/
  | vrcp (v : VArgs)
  /-- Element-wise reciprocal square root (R232). -/
  | vrsq (v : VArgs)
  /-- Element-wise correctly rounded square root (R232). -/
  | vsqrt (v : VArgs)
  /-- Element-wise correctly rounded division (R232). -/
  | vfdiv (v : VArgs)
  /-- Fused a·b + c with one rounding (R227). -/
  | vfma (v : VArgs)
  /-- Fused a·b − c with one rounding (R227). -/
  | vfms (v : VArgs)
  /-- Fused −a·b + c with one rounding (R227). -/
  | vfnma (v : VArgs)
  /-- Fused −a·b − c with one rounding (R227). -/
  | vfnms (v : VArgs)
  /-- Writes predicate bits where integer elements are equal (R228). -/
  | vcmpeq (v : VArgs)
  /-- Integer not-equal compare into a predicate (R228). -/
  | vcmpne (v : VArgs)
  /-- Signed less-than compare into a predicate (R228). -/
  | vcmplt (v : VArgs)
  /-- Signed less-or-equal compare (R228). -/
  | vcmple (v : VArgs)
  /-- Signed greater-than compare (R228). -/
  | vcmpgt (v : VArgs)
  /-- Signed greater-or-equal compare (R228). -/
  | vcmpge (v : VArgs)
  /-- Unsigned less-than compare (R228). -/
  | vcmpltu (v : VArgs)
  /-- Unsigned less-or-equal compare (R228). -/
  | vcmpleu (v : VArgs)
  /-- Unsigned greater-than compare (R228). -/
  | vcmpgtu (v : VArgs)
  /-- Unsigned greater-or-equal compare (R228). -/
  | vcmpgeu (v : VArgs)
  /-- Floating equal compare into a predicate (R228). -/
  | vfcmpeq (v : VArgs)
  /-- Floating not-equal compare (R228). -/
  | vfcmpne (v : VArgs)
  /-- Floating less-than compare (R228). -/
  | vfcmplt (v : VArgs)
  /-- Floating less-or-equal compare (R228). -/
  | vfcmple (v : VArgs)
  /-- Floating greater-than compare (R228). -/
  | vfcmpgt (v : VArgs)
  /-- Floating greater-or-equal compare (R228). -/
  | vfcmpge (v : VArgs)
  /-- Floating unordered compare (R228). -/
  | vfcmpun (v : VArgs)
  /-- Converts elements from a named format to the captured VT format (R229). -/
  | vcvt (v : VArgs)
  /-- Multiplies elements by ka scale entries with one rounding (R231). -/
  | vscaleKa (v : VArgs)
  /-- Multiplies elements by kb scale entries with one rounding (R231). -/
  | vscaleKb (v : VArgs)
  /-- Copies elements bit for bit with poison (R235). -/
  | vmov (v : VArgs)
  /-- Writes a scalar or immediate to every active element (R235). -/
  | vsplat (v : VArgs)
  /-- Writes each element's index (R235). -/
  | viota (v : VArgs)
  /-- Selects elements from A or B by a predicate (R235). -/
  | vsel (v : VArgs)
  /-- Reads one element into a scalar register (R236). -/
  | vgete (v : VArgs)
  /-- Writes one element from a scalar register (R236). -/
  | vsete (v : VArgs)
  /-- Tree-ordered sum reduction into a scalar (R238). -/
  | vrsum (v : VArgs)
  /-- Ascending-order sum reduction into a scalar (R238). -/
  | vrsumo (v : VArgs)
  /-- Maximum reduction into a scalar (R239). -/
  | vrmax (v : VArgs)
  /-- Minimum reduction into a scalar (R239). -/
  | vrmin (v : VArgs)
  /-- AND reduction into a scalar (R239). -/
  | vrand (v : VArgs)
  /-- OR reduction into a scalar (R239). -/
  | vror (v : VArgs)
  /-- Inclusive prefix sums of active elements (R240). -/
  | vscan (v : VArgs)
  /-- Permutes elements by an index vector (R242). -/
  | vperm (v : VArgs)
  /-- Slides elements up by an amount (R242). -/
  | vslup (v : VArgs)
  /-- Slides elements down by an amount (R242). -/
  | vsldn (v : VArgs)
  /-- Packs active elements to the bottom (R243). -/
  | vcmpr (v : VArgs)
  /-- Expands elements into active positions (R243). -/
  | vexpd (v : VArgs)
  /-- Reverses elements below VL (R242). -/
  | vrev (v : VArgs)
  /-- Marks active elements whose value repeats an earlier one (R244). -/
  | vconfl (v : VArgs)
  /-- Predicate AND (R245). -/
  | pand (v : VArgs)
  /-- Predicate OR (R245). -/
  | por (v : VArgs)
  /-- Predicate XOR (R245). -/
  | pxor (v : VArgs)
  /-- Predicate a AND NOT b (R245). -/
  | pandn (v : VArgs)
  /-- Predicate NOT (R245). -/
  | pnot (v : VArgs)
  /-- Sets predicate bits (R245). -/
  | pset (v : VArgs)
  /-- Clears predicate bits (R245). -/
  | pclr (v : VArgs)
  /-- Keeps only the first active set bit (R245). -/
  | pfirst (v : VArgs)
  /-- Counts active set predicate bits into a scalar (R245). -/
  | pcnt (v : VArgs)
  /-- Sets predicate bits below a bound (R245). -/
  | plt (v : VArgs)
  /-- Unit-stride vector load (R310). -/
  | vld (v : VArgs)
  /-- Strided vector load (R310). -/
  | vlds (v : VArgs)
  /-- Fault-only-first load that trims VL (R313). -/
  | vldff (v : VArgs)
  /-- Segment load of record fields into registers (R314). -/
  | vldseg (v : VArgs)
  /-- Ordered unit-stride vector store (R311). -/
  | vst (v : VArgs)
  /-- Unordered unit-stride vector store (R311). -/
  | vstu (v : VArgs)
  /-- Ordered strided vector store (R311). -/
  | vsts (v : VArgs)
  /-- Ordered segment store of whole records (R314). -/
  | vstseg (v : VArgs)
  /-- Gather load by index vector (R316). -/
  | vldx (v : VArgs)
  /-- Scatter store by index vector (R316). -/
  | vstx (v : VArgs)
  /-- Scatter-add performed at each element's home (R317). -/
  | vstxa (v : VArgs)
  /-- Loads entries of scale bank ka from memory (R318). -/
  | vscldKa (v : VArgs)
  /-- Loads entries of scale bank kb from memory (R318). -/
  | vscldKb (v : VArgs)
  /-- Claims lane groups, drains them and forms a systolic array (R249). -/
  | mmode (v : VArgs)
  /-- Discards the array and returns its lane groups (R253). -/
  | mfree (v : VArgs)
  /-- Loads a weight tile with its scales and A format (R260). -/
  | mwld (v : VArgs)
  /-- Weight-stationary multiply-accumulate into accumulator rows (R261). -/
  | mmac (v : VArgs)
  /-- Result-stationary multiply-accumulate into cell accumulators (R262). -/
  | mrsmac (v : VArgs)
  /-- Copies cell accumulators into accumulator rows (R263). -/
  | mdrain (v : VArgs)
  /-- Zeroes an accumulator register and its poison (R264). -/
  | mzeroMd (v : VArgs)
  /-- Zeroes the cells or the loaded tile of the array (R264). -/
  | mzeroArray (v : VArgs)
  /-- Joins or leaves a chain of arrays across cores (R265). -/
  | mchain (v : VArgs)
  /-- Command packet with no effect (R71). -/
  | nopPacket (p : Packet)
  /-- Creates a job with its tables, keys and Retriever policy (R71). -/
  | jobnew (p : Packet)
  /-- Cancels, drains and destroys a job, freeing its context (R460). -/
  | jobend (p : Packet)
  /-- Closes the job's open phase and opens a new one (R71). -/
  | phase (p : Packet)
  /-- Presents a graph image into the open phase (R71). -/
  | graphPacket (p : Packet)
  /-- Creates a one-node graph and presents a launch descriptor (R71). -/
  | launchPacket (p : Packet)
  /-- Cancels the object named by a handle (R71). -/
  | cancelPacket (p : Packet)
  /-- Changes the job's reservation of priority-7 cores (R80). -/
  | reserve (p : Packet)
  /-- Returns the current completion word of a handle (R71). -/
  | query (p : Packet)
  /-- Command processor fetches the next packet when SQTAIL exceeds SQHEAD (R67). -/
  | packetFetch (q : BitVec 3)
  /-- Re-fetches a slot whose stamp mismatched after at least 100 ns (R67). -/
  | packetRefetch (q : BitVec 3)
  /-- Claims, hands over or releases device ownership (R60). -/
  | ownerWrite (m : Master) (v : Word)
  /-- Holder's write restarts the heartbeat timer and clears LAPSED (R61). -/
  | heartbeat (m : Master) (v : Word)
  /-- Submits packets up to the written sequence number (R65). -/
  | sqtailWrite (m : Master) (q : BitVec 3) (v : Word)
  /-- Enables a queue, setting SQTAIL to SQHEAD and clearing its fault (R64). -/
  | sqEnable (m : Master) (q : BitVec 3) (v : Word)
  /-- Disables a queue after any matched packet finishes acceptance (R64). -/
  | sqDisable (m : Master) (q : BitVec 3) (v : Word)
  /-- A write to a control register with no row of its own, judged against the holder (R62). -/
  | registerWrite (m : Master) (off : BitVec 14) (v : Word)
  /-- Sets a die-to-die link's idle interval from its next idle period (R17). -/
  | linkidleWrite (m : Master) (l : BitVec 4) (v : Word)
  /-- Management-interface private write that writes a register (R28). -/
  | i3cRegisterWrite (bytes : List Byte)
  /-- Management-interface transfer that reads a register (R28). -/
  | i3cRegisterRead (bytes : List Byte)
  /-- Checks and commits the staged region table, advancing GEN (R285). -/
  | rtCommit (m : Master) (v : Word)
  /-- Drops translations and cached lines of a range or context (R294). -/
  | shootDown (m : Master) (v : Word)
  /-- Discards a buffer's lines and advances its version (R297). -/
  | bufvAdvance (m : Master) (v : Word)
  /-- Turns pool regions between cache and scratch (R293). -/
  | poolcfgWrite (m : Master) (die : BitVec 2) (hi : Bool) (v : Word)
  /-- Sets the pod device number and pod participation (R363). -/
  | podcfgWrite (m : Master) (v : Word)
  /-- Configures the save store while no frame is in use (R416). -/
  | vsscfgWrite (m : Master) (v : Word)
  /-- Raises a waiting launch's effective priority every 2 ms (R74). -/
  | epAging (slot : BitVec 13)
  /-- A group unplaced 20 ms at EP 6 claims the device (R79). -/
  | placementClaim (slot : BitVec 13)
  /-- Starts a placed crew's strands once scratch is filled or restored (R78). -/
  | strandStart (k : SId)
  /-- Stops a victim strand at its boundary and saves its state (R411). -/
  | preemptStop (k : SId)
  /-- Writes the completion word to the launch's NOTIFY address (R508). -/
  | notifyWrite (slot : BitVec 13)
  /-- Decides a graph node after its predecessors settle, running or skipping it (R53). -/
  | nodeDecide (g : BitVec 13) (n : BitVec 12)
  /-- Reads a word with acquire and completes when its condition holds (R52). -/
  | waitNodePoll (g : BitVec 13) (n : BitVec 12)
  /-- Fails a wait node with CODE 0xFF when TMO passes (R52). -/
  | waitNodeTimeout (g : BitVec 13) (n : BitVec 12)
  /-- A hub copy engine finishes or faults a copy node (R52). -/
  | copyNodeComplete (g : BitVec 13) (n : BitVec 12)
  /-- Squashes the window of a trapping vector instruction and traps at the next boundary (R407). -/
  | vectorTrap (k : SId)
  /-- Delivers CANCEL to a concerned strand at a boundary with ACT clear (R424). -/
  | cancelDelivery (k : SId)
  /-- Ends a strand 1 ms after its CANCEL was due (R425). -/
  | cancelTimeout (k : SId)
  /-- A lane group grants its issue slot by deficit round robin (R141). -/
  | laneGroupIssue (core : BitVec 7) (lg : BitVec 4)
  /-- A vector instruction retires in queue order and ORs its flags into NM (R135). -/
  | vectorRetire (k : SId)
  /-- A home answers a stale-GEN request and the requester reissues it (R286). -/
  | retarget (k : SId) (ticket : Word)
  /-- A copy completes or stops and writes its status word (R321). -/
  | copyComplete (k : SId) (ticket : Word)
  /-- Counts landed bytes in a sync word and advances its generation (R330). -/
  | syncWordUpdate (k : SId) (ticket : Word)
  /-- A stream strip lands in its slot and is counted (R333). -/
  | stripLand (k : SId) (ticket : Word)
  /-- MCHAIN partners not arriving within 2^20 cycles raise CHAIN (R266). -/
  | chainTimeout (k : SId)
  /-- A chained MMAC start not joined within 2^20 cycles raises CHAIN (R267). -/
  | chainStartTimeout (k : SId)
  /-- WFE completes after 65,536 cycles without an event (R180). -/
  | wfeTimeout (k : SId)
  /-- A die-to-die link sleeps after its idle interval (R16). -/
  | linkSleep (l : BitVec 4)
  /-- A request starts a link wake, holding traffic until awake (R16). -/
  | linkWake (l : BitVec 4)
  /-- A link finishes waking and delivers held requests in order (R16). -/
  | linkWakeComplete (l : BitVec 4)
  /-- Resends a held snoop at 2, 4, 6 and 8 µs (R298). -/
  | snoopResend (l : BitVec 4)
  /-- A wake not complete after 8 µs starts a retrain (R298). -/
  | wakeFail (l : BitVec 4)
  /-- Declares a die failed after three failures over 20 ms (R299). -/
  | dieFailed (die : BitVec 4)
  /-- An internal store detects an uncorrectable error and poisons or traps (R420). -/
  | uncorrectableError (e : ErrSite)
  /-- Scrubber reads, corrects or poisons memory sectors (R421). -/
  | scrubPass (die : BitVec 2) (fixed bad : List Nat)
  /-- Receiver checks a flit and accepts it or sends NAK (R366). -/
  | flitAccept (port : BitVec 6) (bytes : List Byte)
  /-- 20 µs without ACK advance sends the link to training (R366). -/
  | ackTimeout (port : BitVec 6)
  /-- Training completes up or degraded and sets PORTSTAT (R367). -/
  | linkTrained (port : BitVec 6) (t : Trained)
  /-- A training attempt fails after 5 ms; three failures take the link down (R367). -/
  | trainingAttemptTimeout (port : BitVec 6)
  /-- Hub retries training of a down link every second (R367). -/
  | linkDownRetry (port : BitVec 6)
  /-- A replica row with no notice for 50 ms is taken as down (R375). -/
  | rowStale (dev : BitVec 9)
  /-- Reissues a transaction with no response within 100 µs (R370). -/
  | transactionReissue (tid : Word)
  /-- Resends an admission request after the retry wait (R369). -/
  | admitRetry (tid : Word)
  /-- Remote read request performed at the home device (R372). -/
  | readMsg (msg : Msg)
  /-- Remote write request performed at the home device (R372). -/
  | writeMsg (msg : Msg)
  /-- Remote atomic, CAS or SIGNAL performed at the home (R372). -/
  | atomicMsg (msg : Msg)
  /-- Remote scatter-add element performed at the home (R372). -/
  | addMsg (msg : Msg)
  /-- Completes a remote request, with status, poison and flags (R372). -/
  | responseMsg (msg : Msg)
  /-- Asks the destination to admit a transaction's bytes (R373). -/
  | admitMsg (msg : Msg)
  /-- Accepts an admission or asks to retry later (R373). -/
  | admitansMsg (msg : Msg)
  /-- Replaces a replica row and forwards a newer notice (R375). -/
  | noticeMsg (msg : Msg)
  /-- Rank 0 compares a member's collective parameters or JOIN list (R387). -/
  | matchMsg (msg : Msg)
  /-- Stops a collective with a fault code (R374). -/
  | stopMsg (msg : Msg)
  /-- A member asks rank 0 to start an agreement (R377). -/
  | agreqMsg (msg : Msg)
  /-- Rank 0 proposes a new generation; members answer (R377). -/
  | proposeMsg (msg : Msg)
  /-- A member reports its links and done chunks to rank 0 (R377). -/
  | answerMsg (msg : Msg)
  /-- Members adopt the generation, derive trees and settle chunks (R377). -/
  | commitMsg (msg : Msg)
  /-- A member acknowledges a COMMIT (R377). -/
  | cackMsg (msg : Msg)
  /-- Members start or resume collectives under the generation (R377). -/
  | resumeMsg (msg : Msg)
  /-- A member silent 20 ms after PROPOSE is lost (R377). -/
  | memberLost (ctx grp : BitVec 16) (rank : BitVec 9)
  /-- Combines or writes a chunk's data up or down a tree (R388). -/
  | chunkMsg (msg : Msg)
  /-- Tells the root a recipient wrote a chunk (R374). -/
  | writtenMsg (msg : Msg)
  /-- Marks a chunk done at a member and completes the collective when all are done (R389). -/
  | doneMsg (msg : Msg)
  /-- Ethernet engine reads doorbells at least every 10 µs (R398). -/
  | doorbellPoll (qp : BitVec 12)
  /-- Ethernet engine takes a send-ring entry and sends it (R398). -/
  | sendRingEntry (qp : BitVec 12)
  /-- Places an incoming SEND into the oldest RECV or answers RNR (R398). -/
  | incomingSend (p : RdmaPkt)
  /-- Checks key and range and writes incoming RDMA data (R398). -/
  | incomingRdmaWrite (p : RdmaPkt)
  /-- Checks key and range and returns requested bytes (R398). -/
  | incomingRdmaRead (p : RdmaPkt)
  /-- Waits the RNR time and resends, up to RRC times (R398). -/
  | rnrNakReceived (p : RdmaPkt)
  /-- Completes the entry with STATUS 8 and errors the context (R398). -/
  | invalidRequestNak (p : RdmaPkt)
  /-- Retransmits go-back-N after a sequence NAK (R395). -/
  | sequenceNak (p : RdmaPkt)
  /-- Retransmits after 100 µs, at most 7 times (R395). -/
  | rdmaRetransmitTimeout (qp : BitVec 12)
  /-- Halves the queue pair's rate (R395). -/
  | cnpReceived (qp : BitVec 12)
  /-- Adds 1% of port rate after 50 µs without a CNP (R395). -/
  | rateIncrease (qp : BitVec 12)
  /-- Opens a debug session for a context (R441). -/
  | dbgOpen (m : Master) (v : Word)
  /-- Holds the job's strands and work (R442). -/
  | dbgHold (m : Master) (v : Word)
  /-- Writing HOLD = 0 resumes every strand as ERET would (R442). -/
  | dbgResume (m : Master) (v : Word)
  /-- Clearing OPEN ends the session and releases any hold (R441). -/
  | dbgClose (m : Master) (v : Word)
  /-- Writes the held target's selected register (R443). -/
  | dbgdataWrite (m : Master) (v : Word)
  /-- Rewinds the target and re-runs it alone for N−1 instructions (R446). -/
  | rstep (m : Master) (v : Word)
  /-- Applies old values back to a window and restores the start point (R445). -/
  | rwind (m : Master) (v : Word)
  /-- Releases windows up to w and frees log room (R447). -/
  | rdrop (m : Master) (v : Word)
  /-- Opens a trace session, snapshotting capture buffers (R450). -/
  | traceOpen (m : Master) (v : Word)
  /-- Writes pending records and closes the session (R450). -/
  | traceClose (m : Master) (v : Word)
  /-- Writes a signed attestation quote at ATTBUF (R469). -/
  | attestGo (m : Master) (v : Word)
  /-- Lowers the core clock to keep the module within 3,800 W (R32). -/
  | clockThrottle (mhz : BitVec 16)
  /-- Samples each domain's hottest sensor once a second (R463). -/
  | temperatureSample (temps : List Int)
  /-- Lowers a domain's voltage by 10 mV after a quiet 24 h (R466). -/
  | undervoltStep (d : BitVec 6)
  /-- Returns to nominal and re-measures, or sets PF, on a rate crossing (R466). -/
  | errorRateCrossing (d : BitVec 6)
  /-- After 10 minutes sets RATE and PF or HOLD (R466). -/
  | remeasureEnd (d : BitVec 6)
  /-- Clears a domain's 7-day HOLD (R466). -/
  | holdExpiry (d : BitVec 6)
  /-- Host's power-management write puts a host port in D3hot (R470). -/
  | d3hotEntry (m : Master)
  /-- Host's write of D0 returns the port to full service (R470). -/
  | d0Entry (m : Master)
  /-- A fetched scalar word that names no instruction raises ILLEGAL with TINFO and TADDR set (R85). -/
  | illegalWord (w : BitVec 32)
  /-- A fetch at a new PC that is non-canonical, untranslated, non-executable or poisoned raises XLATE, PROT or POISON with TPC = TADDR = that PC (R163). -/
  | instructionFetchFault (code : Byte)
  /-- A die-to-die link retrain attempt ends, either bringing the link awake or counting as a failure toward a die failure (R298). -/
  | linkRetrainEnd (l : BitVec 4) (ok : Bool)
  /-- An internal store corrects a single-bit error and counts it in the lifetime records and the domain's error rate (R420). -/
  | correctedError (e : ErrSite)
  /-- A domain's rail falling more than 3 % below its setpoint for at least 10 ns is counted in the lifetime records (R463). -/
  | voltageDroop (d : BitVec 6)
  /-- The bus controller assigns the management interface a dynamic address, after which it no longer answers only at static address 0x5A (R28). -/
  | i3cDynamicAddress (addr : BitVec 7)
  /-- An incoming acknowledgement completes send-ring entries and writes their completion entries (R397). -/
  | rdmaAckReceived (p : RdmaPkt)
  /-- An incoming RDMA READ response writes the returned data to local memory and completes the read entry (R395). -/
  | rdmaReadResponse (p : RdmaPkt)
  /-- An incoming atomic or memory-window request is answered with a NAK of invalid request (R395). -/
  | incomingAtomicRequest (p : RdmaPkt)
  /-- After the RNR wait the requester sends again from the NAKed PSN, or completes the entry with STATUS 6 once RRC is exhausted (R398). -/
  | rnrTimerExpiry (qp : BitVec 12)
  /-- A received IEEE 802.1Qbb priority flow control frame pauses or resumes transmission on a priority of an Ethernet port (R395). -/
  | pfcPauseFrame (port : BitVec 2) (prio : BitVec 3) (paused : Bool)
  /-- Returns a held squashed vector window to issue (R410). -/
  | vreplay
  /-- Waits until the vector queue is empty and its accesses performed (R137). -/
  | vsync
  /-- Returns from a handler, or ends the strand when FAIL is set (R404). -/
  | eret
  /-- Waits for the strand's work to drain and ends the strand (R178). -/
  | halt
  /-- Clears the strand's arbiter credit and pauses scalar issue (R179). -/
  | yield
  /-- Waits for and clears the strand's event flag (R180). -/
  | wfe
  /-- Invalidates the instruction cache and the replay buffer (R181). -/
  | iflush
  /-- Ends a vector block (R116). -/
  | vstop
  /-- Occupies a queue entry and completes with no effect (R135). -/
  | vnop
  /-- One second without a heartbeat sets LAPSED (R61). -/
  | heartbeatLapse
  /-- Places crews of eligible launches in priority order onto fitting cores (R75). -/
  | placerPass
  /-- Originates a link-state notice every 10 ms or on change (R375). -/
  | noticeOriginate
  /-- Sets HELD once strands stopped and copies finished (R442). -/
  | holdComplete
  /-- Ends an RSTEP whose target blocks for 1 ms (R446). -/
  | rstepBlockTimeout
  /-- After 10 µs writes TRUNCATED and closes the session (R456). -/
  | queueResetTruncate
  /-- Resets the device and runs the verified boot stages (R467). -/
  | deviceReset
  /-- Writes lifetime counts to non-volatile storage every 60 s (R464). -/
  | lifetimeFlush
  /-- Each hour of power advances the powered-hours lifetime record (R463). -/
  | poweredHour
  /-- At an orderly power-down, lifetime counts are written to non-volatile storage (R464). -/
  | orderlyPowerDown
  /-- A sudden loss of power loses counts not yet written, up to 60 s of them (R464). -/
  | powerLoss
  deriving DecidableEq, Repr

end Sys2Proof
end

