-- ==== Sys2Proof/WellFormed.lean ====
section
/-! DEFINITION. Which instructions are well formed: the operand values that the encodings chapter admits (R85 to R115, R303). -/

namespace Sys2Proof

/-- The operand forms of the vector instructions (R103 to R115). -/
inductive VForm where
  /-- VSTOP and VNOP: no field. -/
  | bare
  /-- `op xd, xa, xb` (R104). -/
  | bin
  /-- `op xd, xa`. -/
  | un
  /-- `op xd, xa, xb, vc` (R105). -/
  | fma
  /-- `op pd, xa, xb` (R106). -/
  | cmp
  /-- `vcvt xd, xa, fmt` (R107). -/
  | cvt
  /-- `vsplat vd, xb`. -/
  | splat
  /-- `viota xd`. -/
  | iota
  /-- `vsel xd, xa, xb, pc`. -/
  | sel
  /-- `vgete sd, xa, sc`. -/
  | gete
  /-- `vsete vd, sb, sc`. -/
  | sete
  /-- `op sd, xa` (R109). -/
  | red
  /-- `vperm vd, va, vb`. -/
  | perm
  /-- `op vd, va, xb`, scalar or immediate. -/
  | slide
  /-- `op vd, va` and `pcnt sd, pa`: vector or predicate source, no special operand. -/
  | mv
  /-- `vconfl pd, va`, `pnot pd, pa`, `pfirst pd, pa`. -/
  | confl
  /-- `op pd, pa, pb` (R111). -/
  | pbin
  /-- `op pd`. -/
  | pnul
  /-- `plt pd, xb`. -/
  | plt
  /-- `op vd, imm(sa)`, a load (R112). -/
  | ld
  /-- `vlds vd, imm(sa), sb`. -/
  | lds
  /-- `vldseg vd, (sa), n, w`. -/
  | seg
  /-- `op vd, imm(sa)`, a store. -/
  | st
  | sts
  | stseg
  /-- `vldx vd, (sa), vb, sh` (R113). -/
  | idx
  | idxst
  /-- `vscld k, (sa), sb, first` (R114). -/
  | scl
  | mmode
  | mfree
  | mwld
  /-- `mmac md, va, rows`. -/
  | mmac
  /-- `mdrain md, row`. -/
  | mdrain
  | mrsmac
  | mzeroMd
  | mzeroArray
  | mchain
  deriving DecidableEq, Repr

/-- The operand kinds each form allows (R104 to R115). -/
def VForm.kinds : VForm → List VKind
  | .bin => [.vec, .scalarB, .immB, .accB, .accA, .accD]
  | .fma => [.vec, .scalarB, .immB, .accB, .accA, .accD]
  | .un => [.vec, .accA, .accD]
  | .cvt => [.vec, .accA, .accD]
  | .cmp => [.vec, .scalarB, .immB, .accB, .accA]
  | .splat => [.scalarB, .immB]
  | .slide => [.scalarB, .immB]
  | .plt => [.scalarB, .immB]
  | .iota => [.vec, .accD]
  | .sel => [.vec, .accB, .accA, .accD]
  | .gete => [.vec, .accA]
  | .red => [.vec, .accA]
  | .sete => [.scalarB]
  | .lds => [.scalarB]
  | .sts => [.scalarB]
  | .scl => [.scalarB]
  | .mchain => [.scalarB]
  | .mmac => [.accD]
  | .mdrain => [.accD]
  | .mzeroMd => [.accD]
  | .bare => [.vec]
  | .perm => [.vec]
  | .mv => [.vec]
  | .confl => [.vec]
  | .pbin => [.vec]
  | .pnul => [.vec]
  | .ld => [.vec]
  | .seg => [.vec]
  | .st => [.vec]
  | .stseg => [.vec]
  | .idx => [.vec]
  | .idxst => [.vec]
  | .mmode => [.vec]
  | .mfree => [.vec]
  | .mwld => [.vec]
  | .mrsmac => [.vec]
  | .mzeroArray => [.vec]

/-- The fields a form does not use are zero, and those it uses hold values it admits (R102 to R115, R303). -/
def VForm.fieldsOk (f : VForm) (v : VArgs) : Bool :=
  let immOnlyK := v.k == .immB || v.imm == 0#14
  let bImm := v.k != .immB || v.b == 0#6
  match f with
  | .bare => v.d == 0 && v.a == 0 && v.b == 0 && v.c == 0 && v.imm == 0
  | .bin => v.c == 0 && immOnlyK && bImm
  | .un => v.b == 0 && v.c == 0 && v.imm == 0
  | .fma => immOnlyK && bImm
  | .cmp => v.d != 0 && v.c == 0 && immOnlyK && bImm
  | .cvt => v.b == 0 && v.c == 0 && decide (v.imm.toNat < 4096)
  | .splat => v.a == 0 && v.c == 0 && immOnlyK && bImm
  | .iota => v.a == 0 && v.b == 0 && v.c == 0 && v.imm == 0
  | .sel => v.imm == 0
  | .gete => v.b == 0 && v.imm == 0
  | .sete => v.a == 0 && v.imm == 0
  | .red => v.b == 0 && v.c == 0 && v.imm == 0
  | .perm => v.c == 0 && v.imm == 0
  | .slide => v.c == 0 && immOnlyK && bImm
  | .mv => v.b == 0 && v.c == 0 && v.imm == 0
  | .confl => v.d != 0 && v.b == 0 && v.c == 0 && v.imm == 0
  | .pbin => v.d != 0 && v.c == 0 && v.imm == 0
  | .pnul => v.d != 0 && v.a == 0 && v.b == 0 && v.c == 0 && v.imm == 0
  | .plt => v.d != 0 && v.a == 0 && v.c == 0 && immOnlyK && bImm
  | .ld => v.b == 0 && v.c == 0
  | .lds => v.c == 0
  | .seg => v.b == 0 && decide (2 ≤ v.c.toNat ∧ v.c.toNat ≤ 8 ∧ v.imm.toNat < 4 ∧ v.d.toNat + v.c.toNat ≤ 64)
  | .st => v.b == 0 && v.c == 0 && !v.z
  | .sts => v.c == 0 && !v.z
  | .stseg => v.b == 0 && !v.z && decide (2 ≤ v.c.toNat ∧ v.c.toNat ≤ 8 ∧ v.imm.toNat < 4 ∧ v.d.toNat + v.c.toNat ≤ 64)
  | .idx => v.c == 0 && decide (v.imm.toNat < 4)
  | .idxst => v.c == 0 && !v.z && decide (v.imm.toNat < 4)
  | .scl => v.d == 0 && v.c == 0 && decide (v.imm.toNat < 4096)
  | .mmode => v.d == 0 && v.a == 0 && v.b == 0 && v.c == 0 &&
      decide (v.imm.toNat < 256 ∧ v.imm.toNat % 4 ≠ 0 ∧ v.imm.toNat / 8 % 2 = 0 ∧
        (v.imm.toNat / 16) % (2 ^ (v.imm.toNat % 4 + 1)) = 0)
  | .mfree => v.d == 0 && v.a == 0 && v.b == 0 && v.c == 0 && v.imm == 0
  | .mwld => v.d == 0 && v.b == 0 && v.c == 0 && decide (v.imm.toNat < 4096)
  | .mmac => v.b == 0 && v.c == 0 && decide (v.imm.toNat < 256)
  | .mdrain => v.a == 0 && v.b == 0 && v.c == 0 && decide (v.imm.toNat < 256)
  | .mrsmac => v.d == 0 && v.c == 0 && decide (1 ≤ v.imm.toNat ∧ v.imm.toNat ≤ 8192)
  | .mzeroMd => v.a == 0 && v.b == 0 && v.c == 0 && v.imm == 0
  | .mzeroArray => v.d == 0 && v.a == 0 && v.b == 0 && v.c == 0 && v.imm == 1
  | .mchain => v.d == 0 && v.a == 0 && v.c == 0 && v.imm == 0

/-- An accumulator field holds 0 to 15 (R86, R102). -/
def accFieldOk (v : VArgs) : Bool :=
  match v.k with
  | .accB => decide (v.b.toNat < 16)
  | .accA => decide (v.a.toNat < 16)
  | .accD => decide (v.d.toNat < 16)
  | .vec => true
  | .scalarB => true
  | .immB => true

/-- The VOPs in which CR = 1 is illegal: memory groups and MATRIX (R102). -/
def noCr (vop : BitVec 7) : Bool := vop == 0x18#7 || vop == 0x19#7 || vop == 0x1A#7 || vop == 0x1B#7 || vop == 0x20#7

/-- The decode rules of R102 for a word of group `vop` in form `f`. -/
def vargsOk (vop : BitVec 7) (f : VForm) (v : VArgs) : Bool :=
  f.kinds.contains v.k && f.fieldsOk v && accFieldOk v && (v.p != 0 || !v.z) && (!v.cr || !noCr vop) &&
    (vop != 0x20#7 || v.p == 0) && (f != .bare || (v.p == 0 && !v.z && !v.cr))

/-- The VOP, F and form of a vector instruction, with its fields (R103 to R115). -/
structure VParts where
  vop : BitVec 7
  f : BitVec 8
  form : VForm
  args : VArgs
  deriving DecidableEq, Repr

/-- The fields of VSTOP and VNOP: all zero (R103). -/
def VArgs.zero : VArgs := ⟨false, 0, 0, 0, 0, 0, false, .vec, 0⟩

/-- The VOP, F code, form and fields of a vector instruction; none of any other step. -/
def Instr.vparts : Instr → Option VParts
  | .add _ _ _ => none
  | .sub _ _ _ => none
  | .and _ _ _ => none
  | .or _ _ _ => none
  | .xor _ _ _ => none
  | .andn _ _ _ => none
  | .orn _ _ _ => none
  | .xnor _ _ _ => none
  | .shl _ _ _ => none
  | .shr _ _ _ => none
  | .sha _ _ _ => none
  | .ror _ _ _ => none
  | .mul _ _ _ => none
  | .mulh _ _ _ => none
  | .mulhu _ _ _ => none
  | .div _ _ _ => none
  | .divu _ _ _ => none
  | .rem _ _ _ => none
  | .remu _ _ _ => none
  | .min _ _ _ => none
  | .max _ _ _ => none
  | .minu _ _ _ => none
  | .maxu _ _ _ => none
  | .seq _ _ _ => none
  | .sne _ _ _ => none
  | .slt _ _ _ => none
  | .sltu _ _ _ => none
  | .sle _ _ _ => none
  | .sleu _ _ _ => none
  | .clz _ _ => none
  | .ctz _ _ => none
  | .popc _ _ => none
  | .brev _ _ => none
  | .bswap _ _ => none
  | .addw _ _ _ => none
  | .subw _ _ _ => none
  | .mulw _ _ _ => none
  | .hmix _ _ _ => none
  | .addi _ _ _ => none
  | .andi _ _ _ => none
  | .ori _ _ _ => none
  | .xori _ _ _ => none
  | .shli _ _ _ => none
  | .shri _ _ _ => none
  | .shai _ _ _ => none
  | .rori _ _ _ => none
  | .slti _ _ _ => none
  | .sltui _ _ _ => none
  | .muli _ _ _ => none
  | .lui _ _ => none
  | .lhi _ _ => none
  | .addpc _ _ => none
  | .addiw _ _ _ => none
  | .beq _ _ _ => none
  | .bne _ _ _ => none
  | .blt _ _ _ => none
  | .bge _ _ _ => none
  | .bltu _ _ _ => none
  | .bgeu _ _ _ => none
  | .bpany _ _ => none
  | .bpnone _ _ => none
  | .j _ => none
  | .jal _ => none
  | .jalr _ _ _ => none
  | .ldb _ _ _ => none
  | .ldbu _ _ _ => none
  | .ldh _ _ _ => none
  | .ldhu _ _ _ => none
  | .ldw _ _ _ => none
  | .ldwu _ _ _ => none
  | .ldd _ _ _ => none
  | .stb _ _ _ => none
  | .sth _ _ _ => none
  | .stw _ _ _ => none
  | .std _ _ _ => none
  | .lda _ _ _ _ _ => none
  | .str _ _ _ _ _ => none
  | .swap _ _ _ _ _ _ => none
  | .aadd _ _ _ _ _ _ => none
  | .aand _ _ _ _ _ _ => none
  | .aor _ _ _ _ _ _ => none
  | .axor _ _ _ _ _ _ => none
  | .amin _ _ _ _ _ _ => none
  | .amax _ _ _ _ _ _ => none
  | .aminu _ _ _ _ _ _ => none
  | .amaxu _ _ _ _ _ _ => none
  | .cas _ _ _ _ _ _ => none
  | .fence _ _ => none
  | .vdecl _ _ _ => none
  | .vsett _ _ => none
  | .vsetl _ _ => none
  | .vcoll _ _ => none
  | .vfetch _ => none
  | .vprot _ _ => none
  | .vsave _ _ _ => none
  | .vload _ _ _ => none
  | .cpy _ _ _ => none
  | .cpyR _ _ _ => none
  | .cpy2 _ _ => none
  | .cpy2R _ _ => none
  | .stream _ _ => none
  | .streamx _ => none
  | .coll _ _ => none
  | .tlread _ _ => none
  | .tlwait _ _ => none
  | .syncw _ _ _ => none
  | .launch _ _ => none
  | .graph _ _ => none
  | .cancel _ _ => none
  | .cwait _ _ _ => none
  | .signal _ _ _ => none
  | .qpush _ _ => none
  | .qpop _ _ => none
  | .qpeek _ _ => none
  | .qtry _ _ => none
  | .sysr _ _ => none
  | .sysw _ _ => none
  | .sysset _ _ _ => none
  | .sysclr _ _ _ => none
  | .trap _ => none
  | .wmark _ => none
  | .tmark _ => none
  | .break _ => none
  | .vadd v => some ⟨0x08#7, 0x00#8, .bin, v⟩
  | .vsub v => some ⟨0x08#7, 0x01#8, .bin, v⟩
  | .vmul v => some ⟨0x08#7, 0x02#8, .bin, v⟩
  | .vmulh v => some ⟨0x08#7, 0x03#8, .bin, v⟩
  | .vmin v => some ⟨0x08#7, 0x04#8, .bin, v⟩
  | .vmax v => some ⟨0x08#7, 0x05#8, .bin, v⟩
  | .vminu v => some ⟨0x08#7, 0x06#8, .bin, v⟩
  | .vmaxu v => some ⟨0x08#7, 0x07#8, .bin, v⟩
  | .vabs v => some ⟨0x08#7, 0x08#8, .un, v⟩
  | .vneg v => some ⟨0x08#7, 0x09#8, .un, v⟩
  | .vsadd v => some ⟨0x08#7, 0x0A#8, .bin, v⟩
  | .vssub v => some ⟨0x08#7, 0x0B#8, .bin, v⟩
  | .vdiv v => some ⟨0x08#7, 0x0C#8, .bin, v⟩
  | .vand v => some ⟨0x09#7, 0x00#8, .bin, v⟩
  | .vor v => some ⟨0x09#7, 0x01#8, .bin, v⟩
  | .vxor v => some ⟨0x09#7, 0x02#8, .bin, v⟩
  | .vandn v => some ⟨0x09#7, 0x03#8, .bin, v⟩
  | .vnot v => some ⟨0x09#7, 0x04#8, .un, v⟩
  | .vshl v => some ⟨0x09#7, 0x05#8, .bin, v⟩
  | .vshr v => some ⟨0x09#7, 0x06#8, .bin, v⟩
  | .vsha v => some ⟨0x09#7, 0x07#8, .bin, v⟩
  | .vclz v => some ⟨0x09#7, 0x08#8, .un, v⟩
  | .vpopc v => some ⟨0x09#7, 0x09#8, .un, v⟩
  | .vfadd v => some ⟨0x0A#7, 0x00#8, .bin, v⟩
  | .vfsub v => some ⟨0x0A#7, 0x01#8, .bin, v⟩
  | .vfmul v => some ⟨0x0A#7, 0x02#8, .bin, v⟩
  | .vfmin v => some ⟨0x0A#7, 0x03#8, .bin, v⟩
  | .vfmax v => some ⟨0x0A#7, 0x04#8, .bin, v⟩
  | .vfabs v => some ⟨0x0A#7, 0x05#8, .un, v⟩
  | .vfneg v => some ⟨0x0A#7, 0x06#8, .un, v⟩
  | .vfsgn v => some ⟨0x0A#7, 0x07#8, .bin, v⟩
  | .vexp2 v => some ⟨0x0E#7, 0x00#8, .un, v⟩
  | .vlog2 v => some ⟨0x0E#7, 0x01#8, .un, v⟩
  | .vrcp v => some ⟨0x0E#7, 0x02#8, .un, v⟩
  | .vrsq v => some ⟨0x0E#7, 0x03#8, .un, v⟩
  | .vsqrt v => some ⟨0x0E#7, 0x04#8, .un, v⟩
  | .vfdiv v => some ⟨0x0E#7, 0x05#8, .bin, v⟩
  | .vfma v => some ⟨0x0B#7, 0x00#8, .fma, v⟩
  | .vfms v => some ⟨0x0B#7, 0x01#8, .fma, v⟩
  | .vfnma v => some ⟨0x0B#7, 0x02#8, .fma, v⟩
  | .vfnms v => some ⟨0x0B#7, 0x03#8, .fma, v⟩
  | .vcmpeq v => some ⟨0x0C#7, 0x00#8, .cmp, v⟩
  | .vcmpne v => some ⟨0x0C#7, 0x01#8, .cmp, v⟩
  | .vcmplt v => some ⟨0x0C#7, 0x02#8, .cmp, v⟩
  | .vcmple v => some ⟨0x0C#7, 0x03#8, .cmp, v⟩
  | .vcmpgt v => some ⟨0x0C#7, 0x04#8, .cmp, v⟩
  | .vcmpge v => some ⟨0x0C#7, 0x05#8, .cmp, v⟩
  | .vcmpltu v => some ⟨0x0C#7, 0x06#8, .cmp, v⟩
  | .vcmpleu v => some ⟨0x0C#7, 0x07#8, .cmp, v⟩
  | .vcmpgtu v => some ⟨0x0C#7, 0x08#8, .cmp, v⟩
  | .vcmpgeu v => some ⟨0x0C#7, 0x09#8, .cmp, v⟩
  | .vfcmpeq v => some ⟨0x0C#7, 0x10#8, .cmp, v⟩
  | .vfcmpne v => some ⟨0x0C#7, 0x11#8, .cmp, v⟩
  | .vfcmplt v => some ⟨0x0C#7, 0x12#8, .cmp, v⟩
  | .vfcmple v => some ⟨0x0C#7, 0x13#8, .cmp, v⟩
  | .vfcmpgt v => some ⟨0x0C#7, 0x14#8, .cmp, v⟩
  | .vfcmpge v => some ⟨0x0C#7, 0x15#8, .cmp, v⟩
  | .vfcmpun v => some ⟨0x0C#7, 0x16#8, .cmp, v⟩
  | .vcvt v => some ⟨0x0D#7, 0x00#8, .cvt, v⟩
  | .vscaleKa v => some ⟨0x0D#7, 0x01#8, .un, v⟩
  | .vscaleKb v => some ⟨0x0D#7, 0x02#8, .un, v⟩
  | .vmov v => some ⟨0x10#7, 0x00#8, .un, v⟩
  | .vsplat v => some ⟨0x10#7, 0x01#8, .splat, v⟩
  | .viota v => some ⟨0x10#7, 0x02#8, .iota, v⟩
  | .vsel v => some ⟨0x10#7, 0x03#8, .sel, v⟩
  | .vgete v => some ⟨0x10#7, 0x04#8, .gete, v⟩
  | .vsete v => some ⟨0x10#7, 0x05#8, .sete, v⟩
  | .vrsum v => some ⟨0x11#7, 0x00#8, .red, v⟩
  | .vrsumo v => some ⟨0x11#7, 0x01#8, .red, v⟩
  | .vrmax v => some ⟨0x11#7, 0x02#8, .red, v⟩
  | .vrmin v => some ⟨0x11#7, 0x03#8, .red, v⟩
  | .vrand v => some ⟨0x11#7, 0x04#8, .red, v⟩
  | .vror v => some ⟨0x11#7, 0x05#8, .red, v⟩
  | .vscan v => some ⟨0x11#7, 0x06#8, .un, v⟩
  | .vperm v => some ⟨0x12#7, 0x00#8, .perm, v⟩
  | .vslup v => some ⟨0x12#7, 0x01#8, .slide, v⟩
  | .vsldn v => some ⟨0x12#7, 0x02#8, .slide, v⟩
  | .vcmpr v => some ⟨0x12#7, 0x03#8, .mv, v⟩
  | .vexpd v => some ⟨0x12#7, 0x04#8, .mv, v⟩
  | .vrev v => some ⟨0x12#7, 0x05#8, .mv, v⟩
  | .vconfl v => some ⟨0x12#7, 0x06#8, .confl, v⟩
  | .pand v => some ⟨0x13#7, 0x00#8, .pbin, v⟩
  | .por v => some ⟨0x13#7, 0x01#8, .pbin, v⟩
  | .pxor v => some ⟨0x13#7, 0x02#8, .pbin, v⟩
  | .pandn v => some ⟨0x13#7, 0x03#8, .pbin, v⟩
  | .pnot v => some ⟨0x13#7, 0x04#8, .confl, v⟩
  | .pset v => some ⟨0x13#7, 0x05#8, .pnul, v⟩
  | .pclr v => some ⟨0x13#7, 0x06#8, .pnul, v⟩
  | .pfirst v => some ⟨0x13#7, 0x07#8, .confl, v⟩
  | .pcnt v => some ⟨0x13#7, 0x08#8, .mv, v⟩
  | .plt v => some ⟨0x13#7, 0x09#8, .plt, v⟩
  | .vld v => some ⟨0x18#7, 0x00#8, .ld, v⟩
  | .vlds v => some ⟨0x18#7, 0x01#8, .lds, v⟩
  | .vldff v => some ⟨0x18#7, 0x02#8, .ld, v⟩
  | .vldseg v => some ⟨0x18#7, 0x03#8, .seg, v⟩
  | .vst v => some ⟨0x19#7, 0x00#8, .st, v⟩
  | .vstu v => some ⟨0x19#7, 0x01#8, .st, v⟩
  | .vsts v => some ⟨0x19#7, 0x02#8, .sts, v⟩
  | .vstseg v => some ⟨0x19#7, 0x03#8, .stseg, v⟩
  | .vldx v => some ⟨0x1A#7, 0x00#8, .idx, v⟩
  | .vstx v => some ⟨0x1A#7, 0x01#8, .idxst, v⟩
  | .vstxa v => some ⟨0x1A#7, 0x02#8, .idxst, v⟩
  | .vscldKa v => some ⟨0x1B#7, 0x00#8, .scl, v⟩
  | .vscldKb v => some ⟨0x1B#7, 0x01#8, .scl, v⟩
  | .mmode v => some ⟨0x20#7, 0x00#8, .mmode, v⟩
  | .mfree v => some ⟨0x20#7, 0x01#8, .mfree, v⟩
  | .mwld v => some ⟨0x20#7, 0x02#8, .mwld, v⟩
  | .mmac v => some ⟨0x20#7, 0x03#8, .mmac, v⟩
  | .mrsmac v => some ⟨0x20#7, 0x04#8, .mrsmac, v⟩
  | .mdrain v => some ⟨0x20#7, 0x05#8, .mdrain, v⟩
  | .mzeroMd v => some ⟨0x20#7, 0x06#8, .mzeroMd, v⟩
  | .mzeroArray v => some ⟨0x20#7, 0x06#8, .mzeroArray, v⟩
  | .mchain v => some ⟨0x20#7, 0x07#8, .mchain, v⟩
  | .nopPacket _ => none
  | .jobnew _ => none
  | .jobend _ => none
  | .phase _ => none
  | .graphPacket _ => none
  | .launchPacket _ => none
  | .cancelPacket _ => none
  | .reserve _ => none
  | .query _ => none
  | .packetFetch _ => none
  | .packetRefetch _ => none
  | .ownerWrite _ _ => none
  | .heartbeat _ _ => none
  | .sqtailWrite _ _ _ => none
  | .sqEnable _ _ _ => none
  | .sqDisable _ _ _ => none
  | .registerWrite _ _ _ => none
  | .linkidleWrite _ _ _ => none
  | .i3cRegisterWrite _ => none
  | .i3cRegisterRead _ => none
  | .rtCommit _ _ => none
  | .shootDown _ _ => none
  | .bufvAdvance _ _ => none
  | .poolcfgWrite _ _ _ _ => none
  | .podcfgWrite _ _ => none
  | .vsscfgWrite _ _ => none
  | .epAging _ => none
  | .placementClaim _ => none
  | .strandStart _ => none
  | .preemptStop _ => none
  | .notifyWrite _ => none
  | .nodeDecide _ _ => none
  | .waitNodePoll _ _ => none
  | .waitNodeTimeout _ _ => none
  | .copyNodeComplete _ _ => none
  | .vectorTrap _ => none
  | .cancelDelivery _ => none
  | .cancelTimeout _ => none
  | .laneGroupIssue _ _ => none
  | .vectorRetire _ => none
  | .retarget _ _ => none
  | .copyComplete _ _ => none
  | .syncWordUpdate _ _ => none
  | .stripLand _ _ => none
  | .chainTimeout _ => none
  | .chainStartTimeout _ => none
  | .wfeTimeout _ => none
  | .linkSleep _ => none
  | .linkWake _ => none
  | .linkWakeComplete _ => none
  | .snoopResend _ => none
  | .wakeFail _ => none
  | .dieFailed _ => none
  | .uncorrectableError _ => none
  | .scrubPass _ _ _ => none
  | .flitAccept _ _ => none
  | .ackTimeout _ => none
  | .linkTrained _ _ => none
  | .trainingAttemptTimeout _ => none
  | .linkDownRetry _ => none
  | .rowStale _ => none
  | .transactionReissue _ => none
  | .admitRetry _ => none
  | .readMsg _ => none
  | .writeMsg _ => none
  | .atomicMsg _ => none
  | .addMsg _ => none
  | .responseMsg _ => none
  | .admitMsg _ => none
  | .admitansMsg _ => none
  | .noticeMsg _ => none
  | .matchMsg _ => none
  | .stopMsg _ => none
  | .agreqMsg _ => none
  | .proposeMsg _ => none
  | .answerMsg _ => none
  | .commitMsg _ => none
  | .cackMsg _ => none
  | .resumeMsg _ => none
  | .memberLost _ _ _ => none
  | .chunkMsg _ => none
  | .writtenMsg _ => none
  | .doneMsg _ => none
  | .doorbellPoll _ => none
  | .sendRingEntry _ => none
  | .incomingSend _ => none
  | .incomingRdmaWrite _ => none
  | .incomingRdmaRead _ => none
  | .rnrNakReceived _ => none
  | .invalidRequestNak _ => none
  | .sequenceNak _ => none
  | .rdmaRetransmitTimeout _ => none
  | .cnpReceived _ => none
  | .rateIncrease _ => none
  | .dbgOpen _ _ => none
  | .dbgHold _ _ => none
  | .dbgResume _ _ => none
  | .dbgClose _ _ => none
  | .dbgdataWrite _ _ => none
  | .rstep _ _ => none
  | .rwind _ _ => none
  | .rdrop _ _ => none
  | .traceOpen _ _ => none
  | .traceClose _ _ => none
  | .attestGo _ _ => none
  | .clockThrottle _ => none
  | .temperatureSample _ => none
  | .undervoltStep _ => none
  | .errorRateCrossing _ => none
  | .remeasureEnd _ => none
  | .holdExpiry _ => none
  | .d3hotEntry _ => none
  | .d0Entry _ => none
  | .illegalWord _ => none
  | .instructionFetchFault _ => none
  | .linkRetrainEnd _ _ => none
  | .correctedError _ => none
  | .voltageDroop _ => none
  | .i3cDynamicAddress _ => none
  | .rdmaAckReceived _ => none
  | .rdmaReadResponse _ => none
  | .incomingAtomicRequest _ => none
  | .rnrTimerExpiry _ => none
  | .pfcPauseFrame _ _ _ => none
  | .vreplay => none
  | .vsync => none
  | .eret => none
  | .halt => none
  | .yield => none
  | .wfe => none
  | .iflush => none
  | .vstop => some ⟨0x01#7, 0x00#8, .bare, VArgs.zero⟩
  | .vnop => some ⟨0x02#7, 0x00#8, .bare, VArgs.zero⟩
  | .heartbeatLapse => none
  | .placerPass => none
  | .noticeOriginate => none
  | .holdComplete => none
  | .rstepBlockTimeout => none
  | .queueResetTruncate => none
  | .deviceReset => none
  | .lifetimeFlush => none
  | .poweredHour => none
  | .orderlyPowerDown => none
  | .powerLoss => none

/-- The system register numbers of R98. -/
def sysRegExists (y : BitVec 12) : Bool :=
  decide (y.toNat ≤ 5 ∨ y.toNat = 8 ∨ y.toNat = 9 ∨ (16 ≤ y.toNat ∧ y.toNat ≤ 21) ∨
    (0x100 ≤ y.toNat ∧ y.toNat ≤ 0x105) ∨ (0x110 ≤ y.toNat ∧ y.toNat ≤ 0x11F))

/-- A scope field names a scope (R91). -/
def scopeOk (sc : BitVec 4) : Bool := decide (sc.toNat ≤ 8)

/-- The operand values the encodings chapter admits. A step of the device that no word encodes is always well formed. -/
def Instr.wf (i : Instr) : Bool :=
  match i.vparts with
  | some p => vargsOk p.vop p.form p.args
  | none =>
    match i with
    | .lda _ _ sc ord _ => scopeOk sc && decide (ord.toNat < 2)
    | .str _ _ sc ord _ => scopeOk sc && decide (ord.toNat % 2 = 0)
    | .swap _ _ _ sc _ _ => scopeOk sc
    | .aadd _ _ _ sc _ _ => scopeOk sc
    | .aand _ _ _ sc _ _ => scopeOk sc
    | .aor _ _ _ sc _ _ => scopeOk sc
    | .axor _ _ _ sc _ _ => scopeOk sc
    | .amin _ _ _ sc _ _ => scopeOk sc
    | .amax _ _ _ sc _ _ => scopeOk sc
    | .aminu _ _ _ sc _ _ => scopeOk sc
    | .amaxu _ _ _ sc _ _ => scopeOk sc
    | .cas _ _ _ sc _ _ => scopeOk sc
    | .fence sc mask => scopeOk sc && mask != 0
    | .vcoll d _ => decide (1 ≤ d.toNat ∧ d.toNat ≤ 61)
    | .cpy _ a _ => decide (a.toNat ≤ 62)
    | .cpyR _ a _ => decide (a.toNat ≤ 62)
    | .cpy2 d a => decide (a.toNat ≤ 62 ∧ d.toNat ≤ 60)
    | .cpy2R d a => decide (a.toNat ≤ 62 ∧ d.toNat ≤ 60)
    | .qtry d _ => decide (1 ≤ d.toNat ∧ d.toNat ≤ 62)
    | .sysr _ y => sysRegExists y
    | .sysw _ y => sysRegExists y
    | .sysset _ _ y => sysRegExists y
    | .sysclr _ _ y => sysRegExists y
    | _ => true

end Sys2Proof
end

