-- ==== Sys2Proof/Decode.lean ====
section
/-! DEFINITION. The decoder of scalar words and of vector words, total on any bits, and the encoder, both written from
the formats and code tables of the encodings chapter (R84 to R115). A word that names no instruction decodes to none,
which the fetch turns into ILLEGAL (R85). -/

namespace Sys2Proof

/-- An R-format word (R88). -/
def encR (op : BitVec 6) (d a b : Reg) (f : BitVec 8) : BitVec 32 := op ++ d ++ a ++ b ++ f

/-- An I-format or B-format word: two register fields and fourteen bits (R88). -/
def encI (op : BitVec 6) (d a : Reg) (imm : BitVec 14) : BitVec 32 := op ++ d ++ a ++ imm

/-- A U-format word (R88). -/
def encU (op : BitVec 6) (d : Reg) (imm : BitVec 20) : BitVec 32 := op ++ d ++ imm

/-- An X-format word (R88). -/
def encX (op : BitVec 6) (d a b : Reg) (sc : BitVec 4) (ord : BitVec 2) (dw : Bool) : BitVec 32 :=
  op ++ d ++ a ++ b ++ sc ++ ord ++ BitVec.ofBool dw ++ 0#1

/-- An S-format word (R88, R97). -/
def encS (d a : Reg) (k : BitVec 2) (y : BitVec 12) : BitVec 32 := 0x3C#6 ++ d ++ a ++ k ++ y

/-- The K field of a vector word (R101). -/
def VKind.bits : VKind → BitVec 3
  | .vec => 0
  | .scalarB => 1
  | .immB => 2
  | .accB => 3
  | .accA => 4
  | .accD => 5

/-- The kind that a K field names; 110 and 111 name none (R101). -/
def VKind.ofBits (b : BitVec 3) : Option VKind :=
  match b with
  | 0#3 => some .vec
  | 1#3 => some .scalarB
  | 2#3 => some .immB
  | 3#3 => some .accB
  | 4#3 => some .accA
  | 5#3 => some .accD
  | _ => none

/-- A vector word (R101). -/
def encV (vop : BitVec 7) (f : BitVec 8) (v : VArgs) : BitVec 64 :=
  BitVec.ofBool v.cr ++ vop ++ v.d ++ v.a ++ v.b ++ v.c ++ v.p ++ BitVec.ofBool v.z ++ v.k.bits ++ f ++ v.imm

/-- The 32-bit word of a scalar instruction (R88 to R100); none of a vector instruction or of a step without a word. -/
def encode32 : Instr → Option (BitVec 32)
  | .add d a b => some (encR 0x01#6 d a b 0x00#8)
  | .sub d a b => some (encR 0x01#6 d a b 0x01#8)
  | .and d a b => some (encR 0x01#6 d a b 0x02#8)
  | .or d a b => some (encR 0x01#6 d a b 0x03#8)
  | .xor d a b => some (encR 0x01#6 d a b 0x04#8)
  | .andn d a b => some (encR 0x01#6 d a b 0x05#8)
  | .orn d a b => some (encR 0x01#6 d a b 0x06#8)
  | .xnor d a b => some (encR 0x01#6 d a b 0x07#8)
  | .shl d a b => some (encR 0x01#6 d a b 0x08#8)
  | .shr d a b => some (encR 0x01#6 d a b 0x09#8)
  | .sha d a b => some (encR 0x01#6 d a b 0x0A#8)
  | .ror d a b => some (encR 0x01#6 d a b 0x0B#8)
  | .mul d a b => some (encR 0x01#6 d a b 0x10#8)
  | .mulh d a b => some (encR 0x01#6 d a b 0x11#8)
  | .mulhu d a b => some (encR 0x01#6 d a b 0x12#8)
  | .div d a b => some (encR 0x01#6 d a b 0x13#8)
  | .divu d a b => some (encR 0x01#6 d a b 0x14#8)
  | .rem d a b => some (encR 0x01#6 d a b 0x15#8)
  | .remu d a b => some (encR 0x01#6 d a b 0x16#8)
  | .min d a b => some (encR 0x01#6 d a b 0x18#8)
  | .max d a b => some (encR 0x01#6 d a b 0x19#8)
  | .minu d a b => some (encR 0x01#6 d a b 0x1A#8)
  | .maxu d a b => some (encR 0x01#6 d a b 0x1B#8)
  | .seq d a b => some (encR 0x01#6 d a b 0x20#8)
  | .sne d a b => some (encR 0x01#6 d a b 0x21#8)
  | .slt d a b => some (encR 0x01#6 d a b 0x22#8)
  | .sltu d a b => some (encR 0x01#6 d a b 0x23#8)
  | .sle d a b => some (encR 0x01#6 d a b 0x24#8)
  | .sleu d a b => some (encR 0x01#6 d a b 0x25#8)
  | .clz d a => some (encR 0x01#6 d a 0#6 0x28#8)
  | .ctz d a => some (encR 0x01#6 d a 0#6 0x29#8)
  | .popc d a => some (encR 0x01#6 d a 0#6 0x2A#8)
  | .brev d a => some (encR 0x01#6 d a 0#6 0x2B#8)
  | .bswap d a => some (encR 0x01#6 d a 0#6 0x2C#8)
  | .addw d a b => some (encR 0x01#6 d a b 0x30#8)
  | .subw d a b => some (encR 0x01#6 d a b 0x31#8)
  | .mulw d a b => some (encR 0x01#6 d a b 0x32#8)
  | .hmix d a b => some (encR 0x01#6 d a b 0x38#8)
  | .addi d a imm => some (encI 0x02#6 d a imm)
  | .andi d a imm => some (encI 0x03#6 d a imm)
  | .ori d a imm => some (encI 0x04#6 d a imm)
  | .xori d a imm => some (encI 0x05#6 d a imm)
  | .shli d a n => some (encI 0x06#6 d a (0#2 ++ 0#6 ++ n))
  | .shri d a n => some (encI 0x06#6 d a (1#2 ++ 0#6 ++ n))
  | .shai d a n => some (encI 0x06#6 d a (2#2 ++ 0#6 ++ n))
  | .rori d a n => some (encI 0x06#6 d a (3#2 ++ 0#6 ++ n))
  | .slti d a imm => some (encI 0x07#6 d a imm)
  | .sltui d a imm => some (encI 0x08#6 d a imm)
  | .muli d a imm => some (encI 0x09#6 d a imm)
  | .lui d imm => some (encU 0x0A#6 d imm)
  | .lhi d imm => some (encU 0x0B#6 d imm)
  | .addpc d imm => some (encU 0x0C#6 d imm)
  | .addiw d a imm => some (encI 0x0D#6 d a imm)
  | .beq a b off => some (encI 0x10#6 a b off)
  | .bne a b off => some (encI 0x11#6 a b off)
  | .blt a b off => some (encI 0x12#6 a b off)
  | .bge a b off => some (encI 0x13#6 a b off)
  | .bltu a b off => some (encI 0x14#6 a b off)
  | .bgeu a b off => some (encI 0x15#6 a b off)
  | .bpany a off => some (encI 0x16#6 a 0#6 off)
  | .bpnone a off => some (encI 0x17#6 a 0#6 off)
  | .j off => some (0x18#6 ++ off)
  | .jal off => some (0x19#6 ++ off)
  | .jalr d a imm => some (encI 0x1A#6 d a imm)
  | .ldb d a imm => some (encI 0x20#6 d a imm)
  | .ldbu d a imm => some (encI 0x21#6 d a imm)
  | .ldh d a imm => some (encI 0x22#6 d a imm)
  | .ldhu d a imm => some (encI 0x23#6 d a imm)
  | .ldw d a imm => some (encI 0x24#6 d a imm)
  | .ldwu d a imm => some (encI 0x25#6 d a imm)
  | .ldd d a imm => some (encI 0x26#6 d a imm)
  | .stb a b off => some (encI 0x27#6 a b off)
  | .sth a b off => some (encI 0x28#6 a b off)
  | .stw a b off => some (encI 0x29#6 a b off)
  | .std a b off => some (encI 0x2A#6 a b off)
  | .lda d a sc ord dw => some (encX 0x2B#6 d a 0#6 sc ord dw)
  | .str a b sc ord dw => some (encX 0x2C#6 0#6 a b sc ord dw)
  | .swap d a b sc ord dw => some (encX 0x2D#6 d a b sc ord dw)
  | .aadd d a b sc ord dw => some (encX 0x2E#6 d a b sc ord dw)
  | .aand d a b sc ord dw => some (encX 0x2F#6 d a b sc ord dw)
  | .aor d a b sc ord dw => some (encX 0x30#6 d a b sc ord dw)
  | .axor d a b sc ord dw => some (encX 0x31#6 d a b sc ord dw)
  | .amin d a b sc ord dw => some (encX 0x32#6 d a b sc ord dw)
  | .amax d a b sc ord dw => some (encX 0x33#6 d a b sc ord dw)
  | .aminu d a b sc ord dw => some (encX 0x34#6 d a b sc ord dw)
  | .amaxu d a b sc ord dw => some (encX 0x35#6 d a b sc ord dw)
  | .cas d a b sc ord dw => some (encX 0x36#6 d a b sc ord dw)
  | .fence sc mask => some (encR 0x37#6 0#6 0#6 0#6 (sc ++ mask))
  | .vdecl d a b => some (encR 0x38#6 d a b 0x01#8)
  | .vsett d a => some (encR 0x38#6 d a 0#6 0x02#8)
  | .vsetl d a => some (encR 0x38#6 d a 0#6 0x03#8)
  | .vcoll d a => some (encR 0x38#6 d a 0#6 0x04#8)
  | .vfetch a => some (encR 0x38#6 0#6 a 0#6 0x05#8)
  | .vprot d a => some (encR 0x38#6 d a 0#6 0x08#8)
  | .vsave d a b => some (encR 0x38#6 d a b 0x09#8)
  | .vload d a b => some (encR 0x38#6 d a b 0x0A#8)
  | .cpy d a b => some (encR 0x39#6 d a b 0x01#8)
  | .cpyR d a b => some (encR 0x39#6 d a b 0x81#8)
  | .cpy2 d a => some (encR 0x39#6 d a 0#6 0x02#8)
  | .cpy2R d a => some (encR 0x39#6 d a 0#6 0x82#8)
  | .stream d a => some (encR 0x39#6 d a 0#6 0x03#8)
  | .streamx a => some (encR 0x39#6 0#6 a 0#6 0x04#8)
  | .coll d a => some (encR 0x39#6 d a 0#6 0x05#8)
  | .tlread d a => some (encR 0x39#6 d a 0#6 0x06#8)
  | .tlwait a b => some (encR 0x39#6 0#6 a b 0x07#8)
  | .syncw d a b => some (encR 0x39#6 d a b 0x08#8)
  | .launch d a => some (encR 0x3A#6 d a 0#6 0x01#8)
  | .graph d a => some (encR 0x3A#6 d a 0#6 0x02#8)
  | .cancel d a => some (encR 0x3A#6 d a 0#6 0x03#8)
  | .cwait d a b => some (encR 0x3A#6 d a b 0x04#8)
  | .signal d a b => some (encR 0x3A#6 d a b 0x05#8)
  | .qpush a q => some (encR 0x3B#6 0#6 a (q.setWidth 6) 0x01#8)
  | .qpop d q => some (encR 0x3B#6 d 0#6 (q.setWidth 6) 0x02#8)
  | .qpeek d q => some (encR 0x3B#6 d 0#6 (q.setWidth 6) 0x03#8)
  | .qtry d q => some (encR 0x3B#6 d 0#6 (q.setWidth 6) 0x04#8)
  | .sysr d y => some (encS d 0#6 0#2 y)
  | .sysw a y => some (encS 0#6 a 1#2 y)
  | .sysset d a y => some (encS d a 2#2 y)
  | .sysclr d a y => some (encS d a 3#2 y)
  | .trap n => some (encR 0x3D#6 0#6 n 0#6 0x01#8)
  | .wmark d => some (encR 0x3D#6 d 0#6 0#6 0x07#8)
  | .tmark a => some (encR 0x3D#6 0#6 a 0#6 0x08#8)
  | .break n => some (encR 0x3D#6 0#6 n 0#6 0x09#8)
  | .vadd _ => none
  | .vsub _ => none
  | .vmul _ => none
  | .vmulh _ => none
  | .vmin _ => none
  | .vmax _ => none
  | .vminu _ => none
  | .vmaxu _ => none
  | .vabs _ => none
  | .vneg _ => none
  | .vsadd _ => none
  | .vssub _ => none
  | .vdiv _ => none
  | .vand _ => none
  | .vor _ => none
  | .vxor _ => none
  | .vandn _ => none
  | .vnot _ => none
  | .vshl _ => none
  | .vshr _ => none
  | .vsha _ => none
  | .vclz _ => none
  | .vpopc _ => none
  | .vfadd _ => none
  | .vfsub _ => none
  | .vfmul _ => none
  | .vfmin _ => none
  | .vfmax _ => none
  | .vfabs _ => none
  | .vfneg _ => none
  | .vfsgn _ => none
  | .vexp2 _ => none
  | .vlog2 _ => none
  | .vrcp _ => none
  | .vrsq _ => none
  | .vsqrt _ => none
  | .vfdiv _ => none
  | .vfma _ => none
  | .vfms _ => none
  | .vfnma _ => none
  | .vfnms _ => none
  | .vcmpeq _ => none
  | .vcmpne _ => none
  | .vcmplt _ => none
  | .vcmple _ => none
  | .vcmpgt _ => none
  | .vcmpge _ => none
  | .vcmpltu _ => none
  | .vcmpleu _ => none
  | .vcmpgtu _ => none
  | .vcmpgeu _ => none
  | .vfcmpeq _ => none
  | .vfcmpne _ => none
  | .vfcmplt _ => none
  | .vfcmple _ => none
  | .vfcmpgt _ => none
  | .vfcmpge _ => none
  | .vfcmpun _ => none
  | .vcvt _ => none
  | .vscaleKa _ => none
  | .vscaleKb _ => none
  | .vmov _ => none
  | .vsplat _ => none
  | .viota _ => none
  | .vsel _ => none
  | .vgete _ => none
  | .vsete _ => none
  | .vrsum _ => none
  | .vrsumo _ => none
  | .vrmax _ => none
  | .vrmin _ => none
  | .vrand _ => none
  | .vror _ => none
  | .vscan _ => none
  | .vperm _ => none
  | .vslup _ => none
  | .vsldn _ => none
  | .vcmpr _ => none
  | .vexpd _ => none
  | .vrev _ => none
  | .vconfl _ => none
  | .pand _ => none
  | .por _ => none
  | .pxor _ => none
  | .pandn _ => none
  | .pnot _ => none
  | .pset _ => none
  | .pclr _ => none
  | .pfirst _ => none
  | .pcnt _ => none
  | .plt _ => none
  | .vld _ => none
  | .vlds _ => none
  | .vldff _ => none
  | .vldseg _ => none
  | .vst _ => none
  | .vstu _ => none
  | .vsts _ => none
  | .vstseg _ => none
  | .vldx _ => none
  | .vstx _ => none
  | .vstxa _ => none
  | .vscldKa _ => none
  | .vscldKb _ => none
  | .mmode _ => none
  | .mfree _ => none
  | .mwld _ => none
  | .mmac _ => none
  | .mrsmac _ => none
  | .mdrain _ => none
  | .mzeroMd _ => none
  | .mzeroArray _ => none
  | .mchain _ => none
  | .nopPacket _ => none
  | .jobnew _ => none
  | .jobend _ => none
  | .phase _ => none
  | .graphPacket _ => none
  | .launchPacket _ => none
  | .cancelPacket _ => none
  | .reserve _ => none
  | .query _ => none
  | .packetFetch _ => none
  | .packetRefetch _ => none
  | .ownerWrite _ _ => none
  | .heartbeat _ _ => none
  | .sqtailWrite _ _ _ => none
  | .sqEnable _ _ _ => none
  | .sqDisable _ _ _ => none
  | .registerWrite _ _ _ => none
  | .linkidleWrite _ _ _ => none
  | .i3cRegisterWrite _ => none
  | .i3cRegisterRead _ => none
  | .rtCommit _ _ => none
  | .shootDown _ _ => none
  | .bufvAdvance _ _ => none
  | .poolcfgWrite _ _ _ _ => none
  | .podcfgWrite _ _ => none
  | .vsscfgWrite _ _ => none
  | .epAging _ => none
  | .placementClaim _ => none
  | .strandStart _ => none
  | .preemptStop _ => none
  | .notifyWrite _ => none
  | .nodeDecide _ _ => none
  | .waitNodePoll _ _ => none
  | .waitNodeTimeout _ _ => none
  | .copyNodeComplete _ _ => none
  | .vectorTrap _ => none
  | .cancelDelivery _ => none
  | .cancelTimeout _ => none
  | .laneGroupIssue _ _ => none
  | .vectorRetire _ => none
  | .retarget _ _ => none
  | .copyComplete _ _ => none
  | .syncWordUpdate _ _ => none
  | .stripLand _ _ => none
  | .chainTimeout _ => none
  | .chainStartTimeout _ => none
  | .wfeTimeout _ => none
  | .linkSleep _ => none
  | .linkWake _ => none
  | .linkWakeComplete _ => none
  | .snoopResend _ => none
  | .wakeFail _ => none
  | .dieFailed _ => none
  | .uncorrectableError _ => none
  | .scrubPass _ _ _ => none
  | .flitAccept _ _ => none
  | .ackTimeout _ => none
  | .linkTrained _ _ => none
  | .trainingAttemptTimeout _ => none
  | .linkDownRetry _ => none
  | .rowStale _ => none
  | .transactionReissue _ => none
  | .admitRetry _ => none
  | .readMsg _ => none
  | .writeMsg _ => none
  | .atomicMsg _ => none
  | .addMsg _ => none
  | .responseMsg _ => none
  | .admitMsg _ => none
  | .admitansMsg _ => none
  | .noticeMsg _ => none
  | .matchMsg _ => none
  | .stopMsg _ => none
  | .agreqMsg _ => none
  | .proposeMsg _ => none
  | .answerMsg _ => none
  | .commitMsg _ => none
  | .cackMsg _ => none
  | .resumeMsg _ => none
  | .memberLost _ _ _ => none
  | .chunkMsg _ => none
  | .writtenMsg _ => none
  | .doneMsg _ => none
  | .doorbellPoll _ => none
  | .sendRingEntry _ => none
  | .incomingSend _ => none
  | .incomingRdmaWrite _ => none
  | .incomingRdmaRead _ => none
  | .rnrNakReceived _ => none
  | .invalidRequestNak _ => none
  | .sequenceNak _ => none
  | .rdmaRetransmitTimeout _ => none
  | .cnpReceived _ => none
  | .rateIncrease _ => none
  | .dbgOpen _ _ => none
  | .dbgHold _ _ => none
  | .dbgResume _ _ => none
  | .dbgClose _ _ => none
  | .dbgdataWrite _ _ => none
  | .rstep _ _ => none
  | .rwind _ _ => none
  | .rdrop _ _ => none
  | .traceOpen _ _ => none
  | .traceClose _ _ => none
  | .attestGo _ _ => none
  | .clockThrottle _ => none
  | .temperatureSample _ => none
  | .undervoltStep _ => none
  | .errorRateCrossing _ => none
  | .remeasureEnd _ => none
  | .holdExpiry _ => none
  | .d3hotEntry _ => none
  | .d0Entry _ => none
  | .illegalWord _ => none
  | .instructionFetchFault _ => none
  | .linkRetrainEnd _ _ => none
  | .correctedError _ => none
  | .voltageDroop _ => none
  | .i3cDynamicAddress _ => none
  | .rdmaAckReceived _ => none
  | .rdmaReadResponse _ => none
  | .incomingAtomicRequest _ => none
  | .rnrTimerExpiry _ => none
  | .pfcPauseFrame _ _ _ => none
  | .vreplay => some (encR 0x38#6 0#6 0#6 0#6 0x06#8)
  | .vsync => some (encR 0x38#6 0#6 0#6 0#6 0x07#8)
  | .eret => some (encR 0x3D#6 0#6 0#6 0#6 0x02#8)
  | .halt => some (encR 0x3D#6 0#6 0#6 0#6 0x03#8)
  | .yield => some (encR 0x3D#6 0#6 0#6 0#6 0x04#8)
  | .wfe => some (encR 0x3D#6 0#6 0#6 0#6 0x05#8)
  | .iflush => some (encR 0x3D#6 0#6 0#6 0#6 0x06#8)
  | .vstop => none
  | .vnop => none
  | .heartbeatLapse => none
  | .placerPass => none
  | .noticeOriginate => none
  | .holdComplete => none
  | .rstepBlockTimeout => none
  | .queueResetTruncate => none
  | .deviceReset => none
  | .lifetimeFlush => none
  | .poweredHour => none
  | .orderlyPowerDown => none
  | .powerLoss => none

/-- The 64-bit word of a vector instruction (R101 to R115). -/
def encode64 (i : Instr) : Option (BitVec 64) := i.vparts.map fun p => encV p.vop p.f p.args

/-- The bytes of a 32-bit word as memory holds them (R2). -/
def bytes32 (w : BitVec 32) : List Byte := [w.extractLsb' 0 8, w.extractLsb' 8 8, w.extractLsb' 16 8, w.extractLsb' 24 8]

/-- The bytes of a 64-bit word as memory holds them (R2). -/
def bytes64 (w : BitVec 64) : List Byte := bytes32 (w.extractLsb' 0 32) ++ bytes32 (w.extractLsb' 32 32)

/-- The little-endian number that a list of bytes holds (R2). -/
def leNat : List Byte → Nat
  | [] => 0
  | b :: bs => b.toNat + 256 * leNat bs

/-- The bytes of an instruction's word; empty of a step that has no word. -/
def encode (i : Instr) : List Byte :=
  match encode32 i with
  | some w => bytes32 w
  | none =>
    match encode64 i with
    | some w => bytes64 w
    | none => []

/-- The fields of a scalar word are those the instruction leaves zero (R89, R90, R93 to R96, R100). -/
def zeroOr (fields : List Reg) (i : Instr) : Option Instr := if fields.all (· == 0) then some i else none

/-- The ALU-R group (R90). -/
def decAlu (d a b : Reg) (f : BitVec 8) : Option Instr :=
  match f with
  | 0x00#8 => some (.add d a b)
  | 0x01#8 => some (.sub d a b)
  | 0x02#8 => some (.and d a b)
  | 0x03#8 => some (.or d a b)
  | 0x04#8 => some (.xor d a b)
  | 0x05#8 => some (.andn d a b)
  | 0x06#8 => some (.orn d a b)
  | 0x07#8 => some (.xnor d a b)
  | 0x08#8 => some (.shl d a b)
  | 0x09#8 => some (.shr d a b)
  | 0x0A#8 => some (.sha d a b)
  | 0x0B#8 => some (.ror d a b)
  | 0x10#8 => some (.mul d a b)
  | 0x11#8 => some (.mulh d a b)
  | 0x12#8 => some (.mulhu d a b)
  | 0x13#8 => some (.div d a b)
  | 0x14#8 => some (.divu d a b)
  | 0x15#8 => some (.rem d a b)
  | 0x16#8 => some (.remu d a b)
  | 0x18#8 => some (.min d a b)
  | 0x19#8 => some (.max d a b)
  | 0x1A#8 => some (.minu d a b)
  | 0x1B#8 => some (.maxu d a b)
  | 0x20#8 => some (.seq d a b)
  | 0x21#8 => some (.sne d a b)
  | 0x22#8 => some (.slt d a b)
  | 0x23#8 => some (.sltu d a b)
  | 0x24#8 => some (.sle d a b)
  | 0x25#8 => some (.sleu d a b)
  | 0x28#8 => zeroOr [b] (.clz d a)
  | 0x29#8 => zeroOr [b] (.ctz d a)
  | 0x2A#8 => zeroOr [b] (.popc d a)
  | 0x2B#8 => zeroOr [b] (.brev d a)
  | 0x2C#8 => zeroOr [b] (.bswap d a)
  | 0x30#8 => some (.addw d a b)
  | 0x31#8 => some (.subw d a b)
  | 0x32#8 => some (.mulw d a b)
  | 0x38#8 => some (.hmix d a b)
  | _ => none

/-- The VCTL group (R93). -/
def decVctl (d a b : Reg) (f : BitVec 8) : Option Instr :=
  match f with
  | 0x01#8 => some (.vdecl d a b)
  | 0x02#8 => zeroOr [b] (.vsett d a)
  | 0x03#8 => zeroOr [b] (.vsetl d a)
  | 0x04#8 => zeroOr [b] (.vcoll d a)
  | 0x05#8 => zeroOr [d, b] (.vfetch a)
  | 0x06#8 => zeroOr [d, a, b] (.vreplay)
  | 0x07#8 => zeroOr [d, a, b] (.vsync)
  | 0x08#8 => zeroOr [b] (.vprot d a)
  | 0x09#8 => some (.vsave d a b)
  | 0x0A#8 => some (.vload d a b)
  | _ => none

/-- The ASYNC group; F[7] is the resume flag (R94). -/
def decAsync (d a b : Reg) (f : BitVec 8) : Option Instr :=
  match f with
  | 0x01#8 => some (.cpy d a b)
  | 0x81#8 => some (.cpyR d a b)
  | 0x02#8 => zeroOr [b] (.cpy2 d a)
  | 0x82#8 => zeroOr [b] (.cpy2R d a)
  | 0x03#8 => zeroOr [b] (.stream d a)
  | 0x04#8 => zeroOr [d, b] (.streamx a)
  | 0x05#8 => zeroOr [b] (.coll d a)
  | 0x06#8 => zeroOr [b] (.tlread d a)
  | 0x07#8 => zeroOr [d] (.tlwait a b)
  | 0x08#8 => some (.syncw d a b)
  | _ => none

/-- The WORK group (R95). -/
def decWork (d a b : Reg) (f : BitVec 8) : Option Instr :=
  match f with
  | 0x01#8 => zeroOr [b] (.launch d a)
  | 0x02#8 => zeroOr [b] (.graph d a)
  | 0x03#8 => zeroOr [b] (.cancel d a)
  | 0x04#8 => some (.cwait d a b)
  | 0x05#8 => some (.signal d a b)
  | _ => none

/-- The QMOV group; B names a queue register, 0 to 7 (R96). -/
def decQmov (d a b : Reg) (f : BitVec 8) : Option Instr :=
  let q : BitVec 3 := b.setWidth 3
  if b.toNat ≥ 8 then none else
  match f with
  | 0x01#8 => zeroOr [d] (.qpush a q)
  | 0x02#8 => zeroOr [a] (.qpop d q)
  | 0x03#8 => zeroOr [a] (.qpeek d q)
  | 0x04#8 => zeroOr [a] (.qtry d q)
  | _ => none

/-- The CTRL group (R100). -/
def decCtrl (d a b : Reg) (f : BitVec 8) : Option Instr :=
  match f with
  | 0x01#8 => zeroOr [d, b] (.trap a)
  | 0x02#8 => zeroOr [d, a, b] (.eret)
  | 0x03#8 => zeroOr [d, a, b] (.halt)
  | 0x04#8 => zeroOr [d, a, b] (.yield)
  | 0x05#8 => zeroOr [d, a, b] (.wfe)
  | 0x06#8 => zeroOr [d, a, b] (.iflush)
  | 0x07#8 => zeroOr [a, b] (.wmark d)
  | 0x08#8 => zeroOr [d, b] (.tmark a)
  | 0x09#8 => zeroOr [d, b] (.break a)
  | _ => none

/-- The SYS operations (R97). -/
def decSys (d a : Reg) (k : BitVec 2) (y : BitVec 12) : Option Instr :=
  match k with
  | 0#2 => zeroOr [a] (.sysr d y)
  | 1#2 => zeroOr [d] (.sysw a y)
  | 2#2 => some (.sysset d a y)
  | _ => some (.sysclr d a y)

/-- The immediate shifts (R89). -/
def decShi (d a : Reg) (imm : BitVec 14) : Option Instr :=
  let sh : BitVec 6 := imm.extractLsb' 0 6
  if imm.extractLsb' 6 6 != 0#6 then none else
  match imm.extractLsb' 12 2 with
  | 0#2 => some (.shli d a sh)
  | 1#2 => some (.shri d a sh)
  | 2#2 => some (.shai d a sh)
  | _ => some (.rori d a sh)

/-- The instruction that a major opcode and the other fields of a scalar word name, before the operand checks (R89). -/
def decScalarRaw (w : BitVec 32) : Option Instr :=
  let d : Reg := w.extractLsb' 20 6
  let a : Reg := w.extractLsb' 14 6
  let b : Reg := w.extractLsb' 8 6
  let f : BitVec 8 := w.extractLsb' 0 8
  let imm : BitVec 14 := w.extractLsb' 0 14
  let i20 : BitVec 20 := w.extractLsb' 0 20
  let o26 : BitVec 26 := w.extractLsb' 0 26
  let sc : BitVec 4 := w.extractLsb' 4 4
  let fk : BitVec 4 := w.extractLsb' 0 4
  let ord : BitVec 2 := w.extractLsb' 2 2
  let dw : Bool := w.getLsbD 1
  let y : BitVec 12 := w.extractLsb' 0 12
  let x (i : Instr) : Option Instr := if w.getLsbD 0 then none else some i
  match (w.extractLsb' 26 6 : BitVec 6) with
  | 0x01#6 => decAlu d a b f
  | 0x02#6 => some (.addi d a imm)
  | 0x03#6 => some (.andi d a imm)
  | 0x04#6 => some (.ori d a imm)
  | 0x05#6 => some (.xori d a imm)
  | 0x06#6 => decShi d a imm
  | 0x07#6 => some (.slti d a imm)
  | 0x08#6 => some (.sltui d a imm)
  | 0x09#6 => some (.muli d a imm)
  | 0x0A#6 => some (.lui d i20)
  | 0x0B#6 => some (.lhi d i20)
  | 0x0C#6 => some (.addpc d i20)
  | 0x0D#6 => some (.addiw d a imm)
  | 0x10#6 => some (.beq d a imm)
  | 0x11#6 => some (.bne d a imm)
  | 0x12#6 => some (.blt d a imm)
  | 0x13#6 => some (.bge d a imm)
  | 0x14#6 => some (.bltu d a imm)
  | 0x15#6 => some (.bgeu d a imm)
  | 0x16#6 => zeroOr [a] (.bpany d imm)
  | 0x17#6 => zeroOr [a] (.bpnone d imm)
  | 0x18#6 => some (.j o26)
  | 0x19#6 => some (.jal o26)
  | 0x1A#6 => some (.jalr d a imm)
  | 0x20#6 => some (.ldb d a imm)
  | 0x21#6 => some (.ldbu d a imm)
  | 0x22#6 => some (.ldh d a imm)
  | 0x23#6 => some (.ldhu d a imm)
  | 0x24#6 => some (.ldw d a imm)
  | 0x25#6 => some (.ldwu d a imm)
  | 0x26#6 => some (.ldd d a imm)
  | 0x27#6 => some (.stb d a imm)
  | 0x28#6 => some (.sth d a imm)
  | 0x29#6 => some (.stw d a imm)
  | 0x2A#6 => some (.std d a imm)
  | 0x2B#6 => if b != 0 then none else x (.lda d a sc ord dw)
  | 0x2C#6 => if d != 0 then none else x (.str a b sc ord dw)
  | 0x2D#6 => x (.swap d a b sc ord dw)
  | 0x2E#6 => x (.aadd d a b sc ord dw)
  | 0x2F#6 => x (.aand d a b sc ord dw)
  | 0x30#6 => x (.aor d a b sc ord dw)
  | 0x31#6 => x (.axor d a b sc ord dw)
  | 0x32#6 => x (.amin d a b sc ord dw)
  | 0x33#6 => x (.amax d a b sc ord dw)
  | 0x34#6 => x (.aminu d a b sc ord dw)
  | 0x35#6 => x (.amaxu d a b sc ord dw)
  | 0x36#6 => x (.cas d a b sc ord dw)
  | 0x37#6 => zeroOr [d, a, b] (.fence sc fk)
  | 0x38#6 => decVctl d a b f
  | 0x39#6 => decAsync d a b f
  | 0x3A#6 => decWork d a b f
  | 0x3B#6 => decQmov d a b f
  | 0x3C#6 => decSys d a (w.extractLsb' 12 2) y
  | 0x3D#6 => decCtrl d a b f
  | _ => none

/-- The decoder of scalar words: none of a word that R85 makes illegal. -/
def decodeScalar (w : BitVec 32) : Option Instr := (decScalarRaw w).filter (·.wf)

/-- The vector instruction that VOP and F name, with its fields (R103 to R115). MZERO's two forms share F = 0x06. -/
def decVop (vop : BitVec 7) (f : BitVec 8) (v : VArgs) : Option Instr :=
  match vop with
  | 0x01#7 =>
    match f with
    | 0x00#8 => if v = VArgs.zero then some .vstop else none
    | _ => none
  | 0x02#7 =>
    match f with
    | 0x00#8 => if v = VArgs.zero then some .vnop else none
    | _ => none
  | 0x08#7 =>
    match f with
    | 0x00#8 => some (.vadd v)
    | 0x01#8 => some (.vsub v)
    | 0x02#8 => some (.vmul v)
    | 0x03#8 => some (.vmulh v)
    | 0x04#8 => some (.vmin v)
    | 0x05#8 => some (.vmax v)
    | 0x06#8 => some (.vminu v)
    | 0x07#8 => some (.vmaxu v)
    | 0x0A#8 => some (.vsadd v)
    | 0x0B#8 => some (.vssub v)
    | 0x0C#8 => some (.vdiv v)
    | 0x08#8 => some (.vabs v)
    | 0x09#8 => some (.vneg v)
    | _ => none
  | 0x09#7 =>
    match f with
    | 0x00#8 => some (.vand v)
    | 0x01#8 => some (.vor v)
    | 0x02#8 => some (.vxor v)
    | 0x03#8 => some (.vandn v)
    | 0x05#8 => some (.vshl v)
    | 0x06#8 => some (.vshr v)
    | 0x07#8 => some (.vsha v)
    | 0x04#8 => some (.vnot v)
    | 0x08#8 => some (.vclz v)
    | 0x09#8 => some (.vpopc v)
    | _ => none
  | 0x0A#7 =>
    match f with
    | 0x00#8 => some (.vfadd v)
    | 0x01#8 => some (.vfsub v)
    | 0x02#8 => some (.vfmul v)
    | 0x03#8 => some (.vfmin v)
    | 0x04#8 => some (.vfmax v)
    | 0x07#8 => some (.vfsgn v)
    | 0x05#8 => some (.vfabs v)
    | 0x06#8 => some (.vfneg v)
    | _ => none
  | 0x0B#7 =>
    match f with
    | 0x00#8 => some (.vfma v)
    | 0x01#8 => some (.vfms v)
    | 0x02#8 => some (.vfnma v)
    | 0x03#8 => some (.vfnms v)
    | _ => none
  | 0x0C#7 =>
    match f with
    | 0x00#8 => some (.vcmpeq v)
    | 0x01#8 => some (.vcmpne v)
    | 0x02#8 => some (.vcmplt v)
    | 0x03#8 => some (.vcmple v)
    | 0x04#8 => some (.vcmpgt v)
    | 0x05#8 => some (.vcmpge v)
    | 0x06#8 => some (.vcmpltu v)
    | 0x07#8 => some (.vcmpleu v)
    | 0x08#8 => some (.vcmpgtu v)
    | 0x09#8 => some (.vcmpgeu v)
    | 0x10#8 => some (.vfcmpeq v)
    | 0x11#8 => some (.vfcmpne v)
    | 0x12#8 => some (.vfcmplt v)
    | 0x13#8 => some (.vfcmple v)
    | 0x14#8 => some (.vfcmpgt v)
    | 0x15#8 => some (.vfcmpge v)
    | 0x16#8 => some (.vfcmpun v)
    | _ => none
  | 0x0D#7 =>
    match f with
    | 0x00#8 => some (.vcvt v)
    | 0x01#8 => some (.vscaleKa v)
    | 0x02#8 => some (.vscaleKb v)
    | _ => none
  | 0x0E#7 =>
    match f with
    | 0x00#8 => some (.vexp2 v)
    | 0x01#8 => some (.vlog2 v)
    | 0x02#8 => some (.vrcp v)
    | 0x03#8 => some (.vrsq v)
    | 0x04#8 => some (.vsqrt v)
    | 0x05#8 => some (.vfdiv v)
    | _ => none
  | 0x10#7 =>
    match f with
    | 0x00#8 => some (.vmov v)
    | 0x01#8 => some (.vsplat v)
    | 0x02#8 => some (.viota v)
    | 0x03#8 => some (.vsel v)
    | 0x04#8 => some (.vgete v)
    | 0x05#8 => some (.vsete v)
    | _ => none
  | 0x11#7 =>
    match f with
    | 0x00#8 => some (.vrsum v)
    | 0x01#8 => some (.vrsumo v)
    | 0x02#8 => some (.vrmax v)
    | 0x03#8 => some (.vrmin v)
    | 0x04#8 => some (.vrand v)
    | 0x05#8 => some (.vror v)
    | 0x06#8 => some (.vscan v)
    | _ => none
  | 0x12#7 =>
    match f with
    | 0x00#8 => some (.vperm v)
    | 0x01#8 => some (.vslup v)
    | 0x02#8 => some (.vsldn v)
    | 0x03#8 => some (.vcmpr v)
    | 0x04#8 => some (.vexpd v)
    | 0x05#8 => some (.vrev v)
    | 0x06#8 => some (.vconfl v)
    | _ => none
  | 0x13#7 =>
    match f with
    | 0x00#8 => some (.pand v)
    | 0x01#8 => some (.por v)
    | 0x02#8 => some (.pxor v)
    | 0x03#8 => some (.pandn v)
    | 0x04#8 => some (.pnot v)
    | 0x05#8 => some (.pset v)
    | 0x06#8 => some (.pclr v)
    | 0x07#8 => some (.pfirst v)
    | 0x08#8 => some (.pcnt v)
    | 0x09#8 => some (.plt v)
    | _ => none
  | 0x18#7 =>
    match f with
    | 0x00#8 => some (.vld v)
    | 0x01#8 => some (.vlds v)
    | 0x02#8 => some (.vldff v)
    | 0x03#8 => some (.vldseg v)
    | _ => none
  | 0x19#7 =>
    match f with
    | 0x00#8 => some (.vst v)
    | 0x01#8 => some (.vstu v)
    | 0x02#8 => some (.vsts v)
    | 0x03#8 => some (.vstseg v)
    | _ => none
  | 0x1A#7 =>
    match f with
    | 0x00#8 => some (.vldx v)
    | 0x01#8 => some (.vstx v)
    | 0x02#8 => some (.vstxa v)
    | _ => none
  | 0x1B#7 =>
    match f with
    | 0x00#8 => some (.vscldKa v)
    | 0x01#8 => some (.vscldKb v)
    | _ => none
  | 0x20#7 =>
    match f with
    | 0x00#8 => some (.mmode v)
    | 0x01#8 => some (.mfree v)
    | 0x02#8 => some (.mwld v)
    | 0x03#8 => some (.mmac v)
    | 0x04#8 => some (.mrsmac v)
    | 0x05#8 => some (.mdrain v)
    | 0x06#8 => some (if v.imm.getLsbD 0 then .mzeroArray v else .mzeroMd v)
    | 0x07#8 => some (.mchain v)
    | _ => none
  | _ => none

/-- The decoder of vector words: none of a word that R85 and R102 make illegal. -/
def decodeVector (w : BitVec 64) : Option Instr :=
  match VKind.ofBits (w.extractLsb' 22 3) with
  | none => none
  | some k =>
    (decVop (w.extractLsb' 56 7) (w.extractLsb' 14 8)
      { cr := w.getLsbD 63, d := w.extractLsb' 50 6, a := w.extractLsb' 44 6, b := w.extractLsb' 38 6,
        c := w.extractLsb' 32 6, p := w.extractLsb' 26 6, z := w.getLsbD 25, k := k,
        imm := w.extractLsb' 0 14 }).filter (·.wf)

/-- The instruction in the first word of a list of bytes of the scalar stream, with the rest of the list. -/
def decodeScalarBytes : List Byte → Option (Instr × List Byte)
  | b0 :: b1 :: b2 :: b3 :: rest => (decodeScalar (b3 ++ b2 ++ b1 ++ b0)).map fun i => (i, rest)
  | _ => none

/-- The instruction in the first word of a list of bytes of a vector block, with the rest of the list. -/
def decodeVectorBytes : List Byte → Option (Instr × List Byte)
  | b0 :: b1 :: b2 :: b3 :: b4 :: b5 :: b6 :: b7 :: rest =>
    (decodeVector (b7 ++ b6 ++ b5 ++ b4 ++ b3 ++ b2 ++ b1 ++ b0)).map fun i => (i, rest)
  | _ => none

/-- What the decoder reads from an instruction whose bits are `w`: a 32-bit word stands in the scalar stream, a
64-bit word in a vector block, and no instruction has another width (R84). -/
def decodeTableWord (nbits w : Nat) : Option Instr :=
  if nbits = 32 then (decodeScalarBytes (bytes32 (BitVec.ofNat 32 w))).map (·.1)
  else if nbits = 64 then (decodeVectorBytes (bytes64 (BitVec.ofNat 64 w))).map (·.1)
  else none

end Sys2Proof
end

