-- ==== Sys2Proof/Config.lean ====
section
/-! DEFINITION. What the manual leaves to the implementation or leaves undefined: constants without a body, so that
nothing can be proved about their values (R10, R11), and the constants that the KR-128 fixes (R18, R22, R33). -/

namespace Sys2Proof.Config

/-- An undefined value of R10 that fills a register or a memory word; the argument is the state's free-value counter. -/
opaque freeWord : Nat → Word

/-- An undefined byte of R10. -/
opaque freeByte : Nat → Byte

/-- A choice the manual leaves open among finitely many outcomes; the reader reduces it to the range of the choice. -/
opaque freeChoice : Nat → Nat

/-- An undefined byte of R10 that a read of memory gives: tag read with, tag of the sector, number of the byte (R293, R297). It does not
depend on what the sector held. -/
opaque voidByte : Nat → Nat → Nat → Byte

/-- SHAKE256 of a list of bytes, with an output of so many bytes (R467, R469). -/
opaque shake256 : List Byte → Nat → List Byte

/-- The check of a Falcon-1024 signature: public key, message, signature (R467). -/
opaque falconVerify : List Byte → List Byte → List Byte → Bool

/-- The device's identity signature over a message (R469). -/
opaque identitySign : List Byte → List Byte

/-- The device's identity public key (R469). -/
opaque identityKey : List Byte

/-- Pleryn's certificate of the identity key (R469). -/
opaque identityCert : List Byte

/-- The 256-bit root digest fused at manufacture (R467). -/
opaque rootDigest : List Byte

/-- The bytes of save-image sections 4 and 5, whose layout only FORMAT names (R417): instance of the image, section, offset. -/
opaque imageByte : Nat → Nat → Nat → Byte

/-- Cores of the package (R21). -/
def numCores : Nat := 128
/-- Lane groups of a core (R22). -/
def numLg : Nat := 16
/-- The largest vector length (R202). -/
def maxVl : Nat := 8192
/-- Live launches, graphs and jobs at once (R33). -/
def maxLaunches : Nat := 4096
def maxGraphs : Nat := 1024
def maxJobs : Nat := 256
/-- Slots of the launch, graph, phase and job tables (R459). -/
def launchSlots : Nat := 8192
def graphSlots : Nat := 2048
def phaseSlots : Nat := 512
def jobSlots : Nat := 256

end Sys2Proof.Config
end

