-- ==== Sys2Proof/Machine/State.lean ====
section
/-! DEFINITION. The state of one KR-128: the strand whose turn it is with its crew and core, every other strand, crew and
core, the tables of the command processor, memory, the register block, the fabric, and what moves next. Plain data. -/

namespace Sys2Proof.Machine

/-- Bytes by address: addresses strictly rising, no byte 0 listed; an unlisted address reads 0. -/
abbrev Mem := List Host.Cell

/-- The canonical form of a byte map. -/
def Mem.wf : Mem → Bool
  | [] => true
  | [c] => c.2 != 0
  | c :: d :: rest => c.2 != 0 && decide (c.1 < d.1) && Mem.wf (d :: rest)

/-! ### A strand's registers -/

/-- The trap registers of a strand (R98, R269, R401). -/
structure TrapRegs where
  tcause : Word := 0
  tpc : Word := 0
  tinfo : Word := 0
  taddr : Word := 0
  mrp : Word := 0
  tvec : Word := 0
  /-- TLG0 to TLG15. -/
  tlg : Vector Word 16 := Vector.replicate 16 0
  deriving DecidableEq, Repr

/-- The vector configuration that VFETCH captures (R98, R130, R195, R201). -/
structure VCfg where
  vl : Word := 0
  mvl : Word := 0
  vt : BitVec 32 := 0x00100054
  nm : Word := 0x10
  vslip : BitVec 4 := 0
  vpm : Bool := false
  deriving DecidableEq, Repr

/-- One vector register (R204, R215): bit i of `live` says that element i was written since it last lay at or above
the mark; `bad` lists the poisoned 64-byte blocks, rising. -/
structure VReg where
  mark : Nat := 0
  live : Nat := 0
  data : Mem := []
  bad : List Nat := []
  /-- Elements that read undefined values since a VLOAD (R419), and the free-value counter at that VLOAD. -/
  undef : Nat := 0
  salt : Nat := 0
  deriving DecidableEq, Repr

/-- One accumulator register of 32 KiB with its block poison (R212). -/
structure Acc where
  data : Mem := []
  bad : List Nat := []
  deriving DecidableEq, Repr

/-- Parts 0 to 3 of a strand's vector state (R415): the declaration (register count and storage bits) and the vector
registers, the accumulators, the predicates (entry 0 is not used: p0 reads all ones) and the scale banks, whose entry e
lies at bytes 2e and 2e + 1. -/
structure VState where
  cnt : Nat := 0
  bits : Nat := 0
  regs : Vector VReg 64 := Vector.replicate 64 {}
  accs : Vector Acc 16 := Vector.replicate 16 {}
  preds : Vector (BitVec 8192) 64 := Vector.replicate 64 0
  ka : Mem := []
  kb : Mem := []
  deriving DecidableEq, Repr

/-! ### The vector queue -/

/-- What VFETCH captures for its block (R130). -/
structure Snap where
  regs : Vector Word 64 := Vector.replicate 64 0
  cfg : VCfg := {}
  deriving DecidableEq, Repr

/-- A trap that a vector instruction raised and that is still to be taken (R407). -/
structure VFault where
  code : Byte
  info : Word
  /-- TADDR, where the rule names it (R402). -/
  addr : Option Word
  /-- The restart indices for TLG0 to TLG15 (R216, R308). -/
  tlg : List Nat
  deriving DecidableEq, Repr

/-- The progress of an instruction that stopped: the lane groups it was mapped on and, per lane group, the lowest
index not performed (R408, R409). -/
structure Progress where
  lanes : List Nat
  tlg : List Nat
  /-- Elements performed before the instruction was last mapped, as a bit mask. -/
  gone : Nat := 0
  deriving DecidableEq, Repr

/-- One entry of a strand's vector queue (R135, R136). -/
structure QEntry where
  instr : Instr
  word : Word
  /-- Address of the VFETCH block and word index within it (R136). -/
  block : Word
  idx : Nat
  /-- Which VFETCH enqueued it: entries of one VFETCH share the VL that VLDFF trims (R131). -/
  fetch : Nat
  snap : Snap
  /-- The lane groups that serve it, once formed (R138). -/
  lanes : Option (List Nat) := none
  /-- Lane groups that granted it their issue slot (R141). -/
  started : List Nat := []
  /-- What remains of an instruction that stopped part-way (R409). -/
  rest : Option Progress := none
  /-- It has completed and waits to retire (R135). -/
  done : Bool := false
  /-- It is the instruction whose trap formed the held window: VREPLAY reads TLG for it (R409, R410). -/
  taken : Bool := false
  /-- It has made its EXTERNAL mark (R438). -/
  marked : Bool := false
  /-- A profile sample is written when it retires (R453). -/
  probe : Bool := false
  fault : Option VFault := none
  /-- Elements that it has written to its destination so far, without and with poison, as bit masks (R215). -/
  clean : Nat := 0
  soiled : Nat := 0
  /-- Sticky flags to OR into NM at retirement (R132). -/
  flags : Word := 0
  deriving DecidableEq, Repr

/-- A decoded block of the replay buffer (R133): its address and its words with their instructions, without VSTOP. -/
structure RBlock where
  addr : Word
  insns : List (Word × Instr)
  deriving DecidableEq, Repr

/-! ### Asynchronous commands of a strand -/

/-- An unfinished copy (R319, R320). -/
structure Copy where
  ticket : Word
  /-- The instruction word that issued it, and whether at user level (R291, R432). -/
  word : Word
  user : Bool
  dst : Reg
  src : Word
  to_ : Word
  /-- Bytes per row, rows and strides; a CPY has one row. -/
  rowb : Nat
  rows : Nat
  sstr : Int
  dstr : Int
  /-- Sync word index, 0 for none (R329). -/
  swi : Nat
  /-- Bytes moved, in the order of R319. -/
  prog : Nat
  /-- Bytes moved that the sync word has not counted yet (R330). -/
  uncounted : Nat
  /-- The region-table generation its requests carry (R286). -/
  gen : BitVec 32
  /-- LCLK at issue (R328). -/
  stamp : Word
  /-- It has made its EXTERNAL mark (R438). -/
  marked : Bool := false
  /-- A cancel asked it to stop at the next sector boundary with this FC (R321). -/
  stop : Option Byte := none
  deriving DecidableEq, Repr

/-- An open stream (R332 to R336). -/
structure Stream where
  ticket : Word
  word : Word
  user : Bool
  dst : Reg
  desc : Word
  total : Nat
  strip : Nat
  buf : Nat
  ns : Nat
  leb : Nat
  swi : Nat
  bases : List (Word × Word)
  delivered : Nat
  /-- Strips released by SYNCW (R334). -/
  released : Nat
  /-- Row-activate hints sent for strips below this one. -/
  hinted : Nat
  /-- SYNCWs whose release waits for the earlier accesses of their strand (R334): strand, its VFETCHes before it, and the
  strips below which it releases. -/
  pend : List (SId × Nat × Nat) := []
  /-- STREAMX, or HALT, ends it after so many strips (R335). -/
  ending : Option Nat := none
  stamp : Word
  deriving DecidableEq, Repr

/-- A finished copy or stream (R321, R322): its status word, the address at which a fault stopped it, and whether that
fault is still unreported; its completion stamp (R328). -/
structure Finished where
  ticket : Word
  status : Word
  faultAt : Word
  unreported : Bool
  stamp : Word
  deriving DecidableEq, Repr

/-- One entry of a strand's launch timeline (R325): the handle of an accepted LAUNCH or GRAPH, or none when refused, and the
command processor's clock when it was refused or last changed the object's completion word. -/
structure LtEntry where
  handle : Option Word
  stamp : Word
  /-- The structure is still to be accepted or rejected (R172). -/
  asked : Bool := false
  deriving DecidableEq, Repr

/-- A structure that LAUNCH or GRAPH presented and that the command processor has still to read whole (R172): the destination register, its
address, the strand's clock, and its place on the launch timeline. -/
structure Submit where
  dst : Reg
  graph : Bool
  at_ : Word
  stamp : Word
  place : Nat
  deriving DecidableEq, Repr

/-- The asynchronous commands of a strand. -/
structure Asyncs where
  copies : List Copy := []
  streams : List Stream := []
  fins : List Finished := []
  /-- Scalar registers that still hold a copy status, with the ticket (R322). -/
  stat : List (Reg × Word) := []
  /-- The launch timeline, oldest first (R325). -/
  ltl : List LtEntry := []
  /-- Structures presented and not yet accepted or rejected, oldest first (R172). -/
  subs : List Submit := []
  /-- Destinations of unfinished collectives: register, context, group and number (R380, R386). -/
  colls : List (Reg × BitVec 16 × BitVec 16 × Nat) := []
  /-- The sync words of streams that stopped on a fault: address, ticket and strips delivered (R336). -/
  stopped : List (Word × Word × Nat) := []
  deriving DecidableEq, Repr

/-! ### Arrays, cores and crews -/

/-- A loaded weight tile (R247, R260): weight (k, c) is an element pattern at bytes 8·(32k + c); the kb entries kept
with it; the poisoned weights by 32k + c. -/
structure Tile where
  fmt : BitVec 12
  afmt : BitVec 12
  bl : Nat
  scf : Bool
  l : Nat
  weights : Mem
  kb : Mem
  bad : List Nat
  deriving DecidableEq, Repr

/-- The accumulator formats of a product stream (R255). -/
inductive Acf where
  | fp64
  | int32
  | fp32
  deriving DecidableEq, Repr

/-- A systolic array that exists on a core (R247, R506). Cell (i, c) holds its pattern at bytes 8·(32i + c). -/
structure Arr where
  owner : SId
  lg : Nat
  g : Nat
  /-- Result-stationary. -/
  rs : Bool
  vpm : Bool
  tile : Option Tile := none
  cells : Mem := []
  cellBad : List Nat := []
  cf : Option Acf := none
  /-- The chain word of a formed chain (R265), and the owners of all its arrays in the order of POS. -/
  chain : Option Word := none
  peers : List SId := []
  /-- A chain the array belonged to dissolved and its next chained MMAC is still to raise CHAIN (R266). -/
  broken : Bool := false
  /-- The chain word of an MCHAIN that waits for its partners, and the cycle of its arrival (R266). -/
  arrived : Option (Word × Nat) := none
  /-- The cycle at which a chained MMAC arrived at its start, with its rows, its accumulator format and its first row (R261, R267). -/
  ready : Option (Nat × Nat × Acf × Nat) := none
  deriving DecidableEq, Repr

/-- The arbiter of one lane group (R141). -/
structure LgArb where
  cur : BitVec 2 := 0
  dc : Vector Nat 4 := Vector.replicate 4 0
  deriving DecidableEq, Repr

/-- A sector of the L1 instruction cache, tagged by context and virtual sector number (R279). -/
structure ILine where
  ctx : BitVec 16
  sector : Nat
  data : List Byte
  /-- It was fetched at user level, so that its leaf admits that level (R291). -/
  user : Bool := false
  deriving DecidableEq, Repr

/-- A sector that a core's scalar L1 data cache holds (R280). The bytes stand once, in `MemSys.ram`. -/
structure L1Tag where
  ctx : BitVec 16
  sector : Nat
  key : Nat
  dirty : Bool
  deriving DecidableEq, Repr

/-- What a core holds besides its strands and crews (R18). -/
structure Core where
  num : BitVec 7 := 0
  arrays : List Arr := []
  arbs : Vector LgArb 16 := Vector.replicate 16 {}
  icache : List ILine := []
  l1 : List L1Tag := []
  /-- The core keeps the scalar writes of its strands in its stage until they leave it (R343). -/
  staging : Bool := false
  /-- Lane groups that an MMODE has claimed and still drains (R249, R250). -/
  claims : List (SId × List Nat) := []
  deriving DecidableEq, Repr

/-- One entry of a queue register: value and LCLK stamp (R147), and whether its storage holds an uncorrectable error (R420). -/
structure QCell where
  val : Word
  stamp : Word
  bad : Bool := false
  deriving DecidableEq, Repr

/-- A crew that is placed or was pre-empted (R33, R39 to R42, R76). -/
structure Crew where
  lid : Word := 0
  cid : BitVec 16 := 0
  ctx : BitVec 16 := 0
  launch : Nat := 0
  prio : Nat := 0
  placed : Bool := false
  core : BitVec 7 := 0
  /-- Strands of the crew, and how many have not ended. -/
  strands : Nat := 1
  live : Nat := 1
  /-- QH of the launch (R42). -/
  qh : Nat := 0
  /-- Core scratch in 4 KiB units: size and base on the core (R40, R278). -/
  scr : Nat := 0
  scrBase : Nat := 0
  /-- q0 to q7, oldest entry first (R147). -/
  queues : Vector (List QCell) 8 := Vector.replicate 8 []
  /-- The frame that holds its scratch while it is pre-empted (R413), and whether the scratch has been copied there. -/
  frame : Option Nat := none
  stored : Bool := false
  /-- Order of placement, later is larger (R81). -/
  order : Nat := 0
  /-- Code of the first strand of it that failed (R48); 0 when none. -/
  code : Byte := 0
  deriving DecidableEq, Repr

/-! ### Strands -/

/-- Whether and how a strand runs. -/
inductive Run where
  /-- No strand: nothing is placed here. -/
  | idle
  /-- Placed, its scratch not yet filled (R78). -/
  | starting
  | running
  /-- Stopped by a debug hold (R442). -/
  | held
  /-- Pre-empted: it holds no core (R411). -/
  | preempted
  | ended
  deriving DecidableEq, Repr

/-- The checkpoint of a WMARK (R436). -/
structure Ckpt where
  pc : Word
  regs : Vector Word 64
  cfg : VCfg
  lclk : Word
  tlc : Word
  vs : VState
  arr : Option Arr
  deriving DecidableEq, Repr

/-- Events due at a strand's next boundary (R405, R424, R439) and the debugger's records (R442). -/
structure Due where
  /-- The handle a cancel named, and when it became due in ns. -/
  cancel : Option (Word × Nat) := none
  /-- CANCEL was delivered; the time it became due (R424, R425). -/
  cancelled : Option Nat := none
  /-- A trap of a vector instruction that completed and retired (R272). -/
  vec : Option VFault := none
  /-- EXTERNAL after a mark under XSTOP: the mark's word and DETAIL (R439). -/
  ext : Option (Word × Word) := none
  /-- The restart trap of R419 is due; a window that a pre-emption formed resumes by itself (R507). -/
  restart : Bool := false
  resume : Bool := false
  /-- Stopped for the debugger by a trap of this code (R442). -/
  stop : Option Byte := none
  /-- It is being ended by force with this code, and its copies are still to stop (R403). -/
  forced : Option Byte := none
  /-- Its vector work is to stop and starts no further request at another device (R308, R408). -/
  halting : Bool := false
  /-- Its next checked vector instruction computes this element group differently twice over (R218, R219, R252). -/
  sdc : Option Nat := none
  deriving DecidableEq, Repr

/-- What the placer gave a strand (R41, R76) and who owns what of it (R415). -/
structure Alloc where
  weight : Nat := 1
  vrb : Nat := 0
  accn : Nat := 0
  /-- The 16 KiB units of the register file and the accumulators of its core that it was given, as bit masks. -/
  vrfSet : Nat := 0
  accSet : Nat := 0
  /-- The 2 MiB frame of the save store taken for it (R416). -/
  frame : Option Nat := none
  /-- Units and accumulators among these that it no longer owns (R415, R418), and the parts 2, 3 and 5 that it did not own when it
  was pre-empted, as masks. -/
  lostVrf : Nat := 0
  lostAcc : Nat := 0
  void : Nat := 0
  deriving DecidableEq, Repr

/-- What of a strand's vector state lies in its save frame (R415 to R419): the parts, and their contents. -/
structure Kept where
  parts : BitVec 6 := 0
  vs : VState := {}
  accn : Nat := 0
  mvl : Word := 0
  vpm : Bool := false
  arr : Option Arr := none
  win : List QEntry := []
  deriving DecidableEq, Repr

/-- Registers whose storage holds an uncorrectable error (R420): scalar registers, predicates, entries of ka and kb. -/
structure Spoiled where
  sregs : List Reg := []
  preds : List Reg := []
  ka : List Nat := []
  kb : List Nat := []
  deriving DecidableEq, Repr

/-- A strand that waits on a queue register: its order among those that wait, whether in QPUSH, QPOP or QPEEK (0, 1, 2), and the
register of that instruction (R149). -/
structure QWait where
  queue : BitVec 3
  order : Nat
  kind : BitVec 2
  reg : Reg
  deriving DecidableEq, Repr

/-- A strand that waits in TLWAIT: the selector, the count, and, once a release of its group found the count reached, the
largest completion stamp (R327, R328). -/
structure TlWait where
  sel : Word
  n : Word
  met : Option Word
  deriving DecidableEq, Repr

/-- One strand (R18, R36, R37, R98, R412). -/
structure Strand where
  id : SId := ⟨0, 0, 0⟩
  ctx : BitVec 16 := 0
  run : Run := .idle
  core : BitVec 7 := 0
  slot : BitVec 2 := 0
  pc : Word := 0
  /-- s0 to s63; entry 0 is not used: s0 reads 0. -/
  regs : Vector Word 64 := Vector.replicate 64 0
  /-- System level (R400). -/
  sys : Bool := true
  tr : TrapRegs := {}
  cfg : VCfg := {}
  vs : VState := {}
  lclk : Word := 0
  tlc : Word := 0
  /-- The event flag of R175. -/
  event : Bool := false
  /-- ICNT (R435). -/
  icnt : Nat := 0
  /-- The vector queue, oldest first (R135), and the held window (R407). -/
  q : List QEntry := []
  win : List QEntry := []
  /-- The entry of the queue that is performed before its turn, with the elements that this turn performs of a memory access (R346). -/
  picked : Option (Nat × Option Nat) := none
  /-- VFETCHes executed: numbers the blocks of the queue. -/
  fetches : Nat := 0
  /-- Vector instructions enqueued while the strand's context was traced (R453). -/
  traced : Nat := 0
  /-- The replay buffer, most recently named first (R133). -/
  replay : List RBlock := []
  as : Asyncs := {}
  due : Due := {}
  alloc : Alloc := {}
  kept : Kept := {}
  spoiled : Spoiled := {}
  /-- Start point (R435): its window, and the checkpoint unless it is the launch's start. -/
  startWin : Nat := 0
  ckpt : Option Ckpt := none
  /-- The checkpoints of earlier windows still held, newest first (R445). -/
  ckpts : List (Nat × Ckpt) := []
  /-- The cycle at which a WFE began to wait (R180). -/
  wfeSince : Option Nat := none
  /-- The queue-register wait it is in (R149). -/
  qwait : Option QWait := none
  /-- The timeline wait it is in (R327). -/
  tlWait : Option TlWait := none
  /-- A fence at host scope or wider orders its later writes to host memory after its earlier ones (R345). -/
  hostOrd : Bool := false
  /-- Cycles for which YIELD keeps it from issuing, as the cycle it ends (R179). -/
  yieldUntil : Nat := 0
  deriving DecidableEq, Repr

/-! ### Jobs, phases, graphs, launches -/

/-- A Retriever policy (R428). -/
structure Policy where
  en : Bool := false
  /-- 0 trap, 1 drop oldest window, 2 stall. -/
  pol : Nat := 0
  xstop : Bool := false
  seg : Nat := 20
  bases : Vector Nat 4 := Vector.replicate 4 0
  deriving DecidableEq, Repr

/-- One entry of a Retriever log segment (R431, R432): its place counted in bytes since JOBNEW, and its fields. -/
structure LogRec where
  seg : Nat
  at_ : Nat
  len : Nat
  hdr : Word
  w1 : Word
  w2 : Word
  w3 : Word
  /-- The old bytes of KIND 1 and 2. -/
  old : List Byte
  deriving DecidableEq, Repr

/-- A job's Retriever state (R434, R437, R440). -/
structure Retr where
  /-- The last window number issued (R434), the highest and the lowest window held. -/
  issued : Nat := 0
  whigh : Nat := 0
  wlow : Nat := 0
  head : Vector Nat 4 := Vector.replicate 4 0
  tail : Vector Nat 4 := Vector.replicate 4 0
  log : List LogRec := []
  deriving DecidableEq, Repr

/-- A job (R33, R46, R71). -/
structure Job where
  slot : Nat
  gen : Nat
  live : Bool
  ctx : BitVec 16
  root : Nat
  buft : Nat
  /-- The key block as read at JOBNEW: 16 slots of 64 bytes (R295). -/
  keys : List Byte
  rsv : Nat
  policy : Policy
  retr : Retr
  code : Byte
  out : Nat
  clk : Word
  /-- Slot of the open phase. -/
  phase : Nat
  cancelled : Bool
  /-- When it was destroyed, in order (R459). -/
  endSeq : Nat
  /-- The final completion word after JOBEND (R71). -/
  final : Word
  deriving DecidableEq, Repr

/-- The parent of a launch, a graph or a phase (R34), by slot. -/
inductive Parent where
  | job (slot : Nat)
  | phase (slot : Nat)
  | graph (slot : Nat)
  | launch (slot : Nat)
  deriving DecidableEq, Repr

/-- A launch (R39 to R46, R73 to R79). -/
structure Launch where
  slot : Nat
  gen : Nat
  ctx : BitVec 16
  parent : Parent
  /-- The graph node whose launch it is. -/
  node : Option (Nat × Nat)
  entry : Word
  arg : Word
  shape : Word
  strands : Word
  notify : Word
  tag : Word
  state : BitVec 4
  code : Byte
  out : Nat
  /-- The command processor's clock when the completion word last changed (R154). -/
  clk : Word
  /-- ELIG in ns, and an order among equal times. -/
  elig : Nat
  /-- Lowest CID never placed, and the groups that pre-emption returned, in order (R75). -/
  nextCid : Nat
  returned : List (List Nat)
  /-- Time of its last placed group, or ELIG (R79). -/
  lastPlaced : Nat
  /-- Its eligibility has come (R73); its first crew was placed, with this window opened, 0 without Retriever (R434). -/
  eligible : Bool
  opened : Bool
  win : Nat := 0
  failed : Bool
  /-- A cancel was accepted (R56). -/
  cancelled : Bool
  /-- The NOTIFY write is still to be made (R508). -/
  notifyDue : Bool
  /-- When it completed, in order (R459); none while live. -/
  doneSeq : Option Nat
  /-- Its job was destroyed: no handle names it. -/
  orphan : Bool := false
  deriving DecidableEq, Repr

/-- The state of a graph node (R53). -/
inductive NodeState where
  | pending
  | running
  | completed
  | failed
  | skipped
  deriving DecidableEq, Repr

/-- A node of a graph (R50, R52). -/
structure Node where
  kind : Nat
  any : Bool
  npred : Nat
  efirst : Nat
  /-- The body: 56 bytes from offset 0x08. -/
  body : List Byte
  st : NodeState
  code : Byte
  /-- A conditional node read a nonzero word. -/
  taken : Bool
  /-- When it began to run, in ns (wait nodes). -/
  since : Nat
  /-- A collective node's number on the group timeline, once issued (R394). -/
  coll : Option Nat
  /-- The STATE of its launch, or of its copy, when it completed. -/
  result : BitVec 4
  /-- The progress of a copy node. -/
  copy : Option Copy := none
  deriving DecidableEq, Repr

/-- A graph (R49 to R53). -/
structure Graph where
  slot : Nat
  gen : Nat
  ctx : BitVec 16
  parent : Parent
  tag : Word
  nodes : List Node
  /-- Edge entries: ON and PIDX (R51). -/
  edges : List (Nat × Nat)
  state : BitVec 4
  code : Byte
  out : Nat
  clk : Word
  cancelled : Bool
  /-- A node failed (R53). -/
  failed : Bool
  doneSeq : Option Nat
  orphan : Bool := false
  deriving DecidableEq, Repr

/-- A phase (R46). -/
structure Phase where
  slot : Nat
  gen : Nat
  ctx : BitVec 16
  closed : Bool
  state : BitVec 4
  code : Byte
  out : Nat
  clk : Word
  cancelled : Bool
  /-- A graph of it failed. -/
  failed : Bool
  /-- Every earlier phase of the job has completed (R34). -/
  opened : Bool
  /-- Order of submission within the job. -/
  order : Nat
  doneSeq : Option Nat
  orphan : Bool := false
  deriving DecidableEq, Repr

/-! ### Memory -/

/-- A line sector that a home die holds with its recorded translation and leaf bits (R288). -/
structure PLine where
  ctx : BitVec 16
  sector : Nat
  /-- Physical number of the sector's first byte. -/
  key : Nat
  /-- The leaf entry as recorded, and where it lies. -/
  leaf : Word
  leafAt : Nat
  /-- The encryption tag of the buffer: none when not encrypted (R295, R296). -/
  tag : Nat
  die : Nat
  deriving DecidableEq, Repr

/-- A translation that a die caches (R288): the page by its number, the width of its offset, the leaf and where it lies. -/
structure Tlb where
  die : Nat
  ctx : BitVec 16
  page : Nat
  lo : Nat
  leaf : Word
  leafAt : Nat
  deriving DecidableEq, Repr

/-- A scalar write that waits in the stage of a core (R343): the strand's name as requester, where the bytes go, and the bytes. -/
structure Staged where
  core : BitVec 7
  own : List Nat
  key : Nat
  tag : Nat
  data : List Byte
  deriving DecidableEq, Repr

/-- A write on its way to a host (R345): where its bytes go, whether they are poisoned, and whether it carries the relaxed-ordering
attribute. -/
structure Posted where
  key : Nat
  data : List Byte
  poison : Bool
  relaxed : Bool
  /-- The operation whose bytes count together, and its nibbles of each byte (R306). -/
  own : List Nat := []
  nibs : Nat := 3
  deriving DecidableEq, Repr

/-- What one operation has written of a poisoned sector (R306): a bit for each nibble that it wrote from unpoisoned data, and whether it wrote
poisoned data there too. -/
structure Heal where
  sector : Nat
  own : List Nat
  mask : Nat
  lost : Bool
  deriving DecidableEq, Repr

/-- A strip slot into which a stream fetches (R337): the stream's name with strip and stream number, the slot's bytes, and whether a store met
them. -/
structure Watch where
  own : List Nat
  key : Nat
  len : Nat
  hit : Bool := false
  deriving DecidableEq, Repr

/-- A region-table entry (R283). -/
structure Rte where
  w0 : Word := 0
  w1 : Word := 0
  deriving DecidableEq, Repr

/-- A save image that a VSAVE wrote: only the device reads its sections 4 and 5, whose bytes its instance number tells
apart (R417). -/
structure Img where
  inst : Nat
  arr : Option Arr
  win : List QEntry
  deriving DecidableEq, Repr

/-- Memory and what maps it. `ram` numbers bytes as `Ops` states: device physical addresses, pool scratch, core scratch,
host memory. -/
structure MemSys where
  ram : Mem := []
  /-- Poisoned 256-byte sectors, rising (R306). -/
  bad : List Nat := []
  heal : List Heal := []
  /-- Strip slots being filled (R337). -/
  watch : List Watch := []
  /-- The encryption tag each sector was last written under (R296); unlisted 0. -/
  enc : List (Nat × Nat) := []
  /-- The staged and the live region table (R285). -/
  staged : Vector Rte 256 := Vector.replicate 256 {}
  live : Vector Rte 256 := Vector.replicate 256 {}
  gen : BitVec 32 := 0
  rtErr : Bool := false
  rtErrIdx : Byte := 0
  /-- COMMIT of RTCTL: a commit waits for an access that a held snoop keeps (R285, R301). -/
  committing : Bool := false
  /-- The translations that the dies cache (R288). -/
  tlbs : List Tlb := []
  /-- What waits in the stages of the cores, oldest first (R343). -/
  stage : List Staged := []
  /-- Writes under way to the hosts, oldest first, and whether PCI Express still holds such writes (R345). -/
  posted : List Posted := []
  hostHold : Bool := false
  /-- 4 KiB pages behind the host ports that answer requests with an error of PCI Express (R68, R170, R508). -/
  hostDead : List Nat := []
  /-- Lines that the home dies hold (R279, R288). -/
  lines : List PLine := []
  /-- POOLCFGL and POOLCFGH of the memory dies (R293). -/
  poolcfg : Vector (BitVec 96) 4 := Vector.replicate 4 0
  xinva : Word := 0
  xinvc : Word := 0
  bufv : Word := 0
  mstatErr : Bool := false
  /-- Failed dies: 0 to 7 compute, 8 to 11 memory (R299). -/
  failed : List Nat := []
  vssbase : Word := 0
  vsscfg : Word := 0
  /-- Frames of the save store in use (R416). -/
  frames : List Nat := []
  /-- The stamp of the update that last advanced each sync word, by its byte number (R331). -/
  syncs : List (Nat × Nat) := []
  imgs : List Img := []
  deriving DecidableEq, Repr

/-! ### The register block, queues, links -/

/-- OWNER and HEARTBEAT (R59 to R62). -/
structure Owner where
  epoch : BitVec 32 := 0
  lapsed : Bool := false
  holder : Option Master := none
  /-- When the holder last wrote HEARTBEAT, in ns. -/
  beat : Nat := 0
  drops : Nat := 0
  deriving DecidableEq, Repr

/-- A submission queue (R58, R63 to R68). -/
structure SubQ where
  sqbase : Word := 0
  sqcfg : Word := 0
  tail : Word := 0
  head : Word := 0
  cqbase : Word := 0
  /-- STATE: 0 disabled, 1 running, 2 faulted. -/
  st : BitVec 2 := 0
  fcode : Byte := 0
  fseq : BitVec 32 := 0
  /-- Re-fetches made of the current slot, and when it was last read in ns (R67). -/
  refetch : Nat := 0
  lastRead : Option Nat := none
  /-- A JOBEND that holds the queue until its job's OUT is 0 (R69, R71), with the completion word of its cancel. -/
  ending : Option (Packet × Bool) := none
  /-- A packet whose stamp has matched and whose acceptance waits: for a phase, or for what is read of its structure (R69). -/
  held : Option Packet := none
  /-- In replay mode: the handle of the object the queue waits for (R455). -/
  waitFor : Option Word := none
  /-- A completion entry that waits for room in the log (R70): sequence number, RESULT, the packet's context. -/
  owed : Option (Word × Word × BitVec 16) := none
  deriving DecidableEq, Repr

/-- The state of a die-to-die link (R16, R298). -/
inductive LinkSt where
  | awake
  | asleep
  /-- Waking since this time in ns. -/
  | waking (since : Nat)
  /-- Retraining since this time in ns. -/
  | retraining (since : Nat)
  deriving DecidableEq, Repr

/-- A die-to-die link (R15 to R17, R298, R299). -/
structure DieLink where
  st : LinkSt := .awake
  idle : BitVec 20 := 50
  /-- Time in ns since which no traffic passed, and the interval that idle period is measured against. -/
  idleSince : Nat := 0
  idleNow : BitVec 20 := 50
  /-- Requests held during a wake, in arrival order, and those delivered. -/
  held : List Nat := []
  delivered : List Nat := []
  /-- The agents whose accesses the link holds, in order of arrival, with the region-table generation each was routed under (R16, R286). -/
  waits : List (List Nat × BitVec 32) := []
  /-- A snoop held since this time, and how often it was sent again. -/
  snoop : Option (Nat × Nat) := none
  /-- Failed wakes and retrains, and when the first of them started. -/
  fails : Nat := 0
  firstFail : Nat := 0
  deriving DecidableEq, Repr

/-- The management interface (R28). -/
structure I3c where
  addr : BitVec 7 := 0x5A
  dynamic : Bool := false
  /-- The offset a later private read returns, none when the last write was ignored. -/
  sel : Option (BitVec 14) := none
  out : List Byte := []
  deriving DecidableEq, Repr

/-! ### Fabric and collectives -/

/-- A fabric port (R364 to R368). -/
structure Port where
  /-- PORTSTAT: the port's own link entry. -/
  stat : Word := 0
  /-- SEQ of the last flit accepted, and of the last flit sent. -/
  rxSeq : BitVec 12 := 0
  txSeq : BitVec 12 := 0
  /-- Messages started whose flits are not all acknowledged, oldest first: type, contents, flits still to be acknowledged. -/
  unacked : List (Byte × Msg × Nat) := []
  /-- Of these flits, the newest ones that are still to be sent for the first time (R366, R368). -/
  unsent : Nat := 0
  /-- Messages that are still to be started. -/
  queue : List (Byte × Msg) := []
  /-- NAKs in a row naming one SEQ. -/
  nakSeq : BitVec 12 := 0
  naks : Nat := 0
  /-- The peer asked for a pause (R368). -/
  paused : Bool := false
  /-- Time of the last advance of ACK, in ns. -/
  ackAt : Nat := 0
  /-- Failed attempts of the training under way, and its start or the start of down, in ns. -/
  attempts : Nat := 0
  since : Nat := 0
  /-- Payload bytes of a message that is still arriving, and the type of its flits. -/
  rx : List Byte := []
  rxType : Byte := 0
  /-- The next flit sent says NAK: a flit that arrived was discarded (R366). -/
  nak : Bool := false
  /-- The round trip measured at the last training, in ns (R368). -/
  rtt : Nat := 0
  /-- Accepted flits that lie in the receive buffer, oldest first: type and payload; the hub takes none of them while it is busy (R368). -/
  buf : List (Byte × List Byte) := []
  busy : Bool := false
  deriving DecidableEq, Repr

/-- A transaction that this device started and whose response has not arrived (R369, R370). -/
structure Tx where
  /-- The requester: an instruction of a strand, a copy, a node, a collective. -/
  own : List Nat
  tid : Word
  mt : Byte
  msg : Msg
  /-- Time of the last send in ns; whether it was admitted; tries; the wait the destination gave, in µs. -/
  at_ : Nat
  admitted : Bool
  tries : Nat
  wait : Nat
  resp : Option Msg
  /-- The segment of its context's log in which room is promised to its EXTERNAL mark (R438). -/
  room : Option Nat := none
  deriving DecidableEq, Repr

/-- A message sent to the pod: its type and contents, and the port it left by. -/
structure Sent where
  mt : Byte
  msg : Msg
  port : Nat
  deriving DecidableEq, Repr

/-- A row of the link table replica (R375). -/
structure Row where
  dev : BitVec 9
  seq : BitVec 32
  entries : List Word
  at_ : Nat
  deriving DecidableEq, Repr

/-- The fabric side of the hub (R363 to R375). -/
structure Fabric where
  podcfg : Word := 0
  qptab : Word := 0
  ethmac : Vector Word 3 := Vector.replicate 3 0
  ethip : Vector (BitVec 128) 3 := Vector.replicate 3 0
  ports : Vector Port 64 := Vector.replicate 64 {}
  replica : List Row := []
  noticeSeq : BitVec 32 := 0
  noticeAt : Nat := 0
  nextTid : Word := 1
  txs : List Tx := []
  /-- Answers given to transactions of other devices, for repeats (R370): device, TID, message. -/
  served : List (BitVec 9 × Word × Msg) := []
  /-- Admissions given and waiting: device, TID, bytes, first attempt in ns, admitted (R369). -/
  admits : List (BitVec 9 × Word × Nat × Nat × Bool) := []
  /-- Bytes of the receive pool in use. -/
  pool : Nat := 0
  /-- Every message started, newest first. -/
  out : List Sent := []
  /-- Every flit sent, newest first: the port and its 256 bytes (R365). -/
  wire : List (Nat × List Byte) := []
  /-- Collective messages of this device to itself that are still to be taken, oldest first. -/
  loop : List (Byte × Msg) := []
  /-- MATCHes of JOINs that found no JOIN of their group here yet, and the groups whose JOINs this device, as rank 0, refuses
  since their lists differed (R509). -/
  joins : List Msg := []
  differ : List (BitVec 16 × BitVec 16) := []
  /-- Collective messages taken, with what answered each: type, device, TID (R370). -/
  heard : List (Byte × BitVec 9 × Word × Option (Byte × Msg)) := []
  /-- Messages that have no route and that no source sends again: they wait in the hub for one. -/
  stranded : List (Byte × Msg) := []
  deriving DecidableEq, Repr

/-- Bytes of a chunk that a member holds: from a child on their way up, or the final value on its way down (R374). -/
structure CPiece where
  chunk : Nat
  src : Nat
  down : Bool
  off : Nat
  data : List Byte
  /-- The poisoned bytes of `data`. -/
  bad : List Nat
  /-- This member has done with it what it has to write in DST. -/
  put : Bool := false
  deriving DecidableEq, Repr

/-- A span of bytes for comparing where accesses lie (R384, R399): in core scratch by byte number, elsewhere by virtual address. -/
structure Area where
  window : Bool
  lo : Nat
  hi : Nat
  deriving DecidableEq, Repr

/-- A running or finished collective at this member (R380 to R393). -/
structure Coll where
  num : Nat
  /-- The descriptor: CTL, COUNT, SRC, DST, PROG, STAGE, SYNC. -/
  ctl : Word
  count : Nat
  src : Word
  dst : Word
  prog : Word
  stage : Word
  sync : Word
  /-- The member list of a JOIN. -/
  list : List (BitVec 9)
  /-- The issuing strand and its destination register, or the node that issued it. -/
  strand : Option (SId × Reg)
  node : Option (Nat × Nat)
  /-- Where it was issued, for the windows, and whether at user level. -/
  core : BitVec 7
  slot : BitVec 2
  lid : Word
  cid : BitVec 16
  user : Bool
  nm : Word
  flags : Word
  /-- Marks of its chunks (R389). -/
  marks : List (BitVec 2)
  /-- Pieces of chunks received under the current generation, and those that this member, as a root, formed. -/
  parts : List CPiece
  /-- Chunks whose contribution lies in STAGE (R390), and chunks that this member has written whole. -/
  staged : List Nat
  wrote : List Nat
  /-- Chunks this member, as root, holds WRITTEN for: chunk and ranks. -/
  written : List (Nat × Nat)
  /-- The members agreed to begin (R387). -/
  begun : Bool
  /-- Finished with this FC. -/
  fc : Option Byte
  stamp : Word
  /-- A cancel asked it to stop (R393). -/
  cancel : Bool
  /-- Rank 0 said that it does not begin. -/
  skip : Bool := false
  /-- The marks are still to be written to the progress array, as this member's beginning or a COMMIT asks (R387, R391). -/
  rewrite : Bool := false
  /-- Chunks whose subtree value this member has formed under the current generation, those of which DONE has come, and those with a step that
  waits for memory. -/
  risen : List Nat := []
  told : List Nat := []
  waiting : List Nat := []
  /-- The chunks that a COMMIT has settled, as a bit mask (R391). -/
  settled : Nat := 0
  /-- It completed here during an agreement and passes on chunks that the others form again (R391). -/
  helps : Bool := false
  /-- What it reads and writes at this member, and the bytes of it that are undefined: where these overlap, and where the program wrote while
  the collective ran (R384, R399). -/
  areas : List Area := []
  loose : List Area := []
  deriving DecidableEq, Repr

/-- A collective group of a job on this device (R376, R377). -/
structure Group where
  ctx : BitVec 16
  grp : BitVec 16
  members : List (BitVec 9)
  rank : Nat
  /-- Joined: an agreement has completed. -/
  joined : Bool
  /-- A member was lost (R393). -/
  lost : Bool
  gen : BitVec 32
  /-- Highest generation proposed by rank 0, or answered by this member. -/
  proposed : BitVec 32
  answered : BitVec 32
  /-- Rank 0: the answers and acknowledgements of the agreement under way. -/
  answers : List (Nat × Msg)
  acks : List Nat
  proposedAt : Nat
  /-- An agreement runs: chunk transfers are paused (R391). -/
  agreeing : Bool
  /-- Rank 0: links of the current trees seen failed when it last proposed, and the hub's clock then. -/
  downs : Nat := 0
  proposedStamp : Word := 0
  /-- COMMIT was taken, and RESUME has not come (R377). -/
  committed : Bool := false
  /-- The generation for which this member last asked for an agreement. -/
  asked : BitVec 32 := 0
  /-- Messages to rank 0 sent while an agreement ran, without their prefix: they go again when it ends. -/
  later : List (Byte × List Byte) := []
  /-- Rank 0: every collective up to this number was compared and begun, or stopped, and the numbers that were stopped (R387, R393). -/
  matched : Nat := 0
  stopped : List Nat := []
  /-- The link table of the current generation: per rank, 64 link entries. -/
  table : List (List Word)
  /-- Parent of each rank in each tree: none at the root (R379). -/
  trees : List (List (Option Nat))
  /-- Issued count I of the group timeline (R325). -/
  issued : Nat
  /-- Rank 0: the MATCHes it holds, by rank and number, and the members that left, with the number of their LEAVE. -/
  calls : List (Nat × Nat × Msg)
  left : List (Nat × Nat)
  colls : List Coll
  deriving DecidableEq, Repr

/-! ### RDMA, debug, trace, housekeeping -/

/-- A send-ring entry taken and not completed (R395 to R398): its number, operation, first PSN and packets, what its completion
needs, and what was sent. -/
structure Flight where
  num : Nat
  op : Byte
  psn : Nat
  pkts : Nat
  wrid : Word
  report : Bool
  laddr : Word
  len : Nat
  pkt : RdmaPkt
  deriving DecidableEq, Repr

/-- A message of the transport that is arriving in packets (R395). -/
structure Coming where
  op : Byte
  pkts : Nat
  pkt : RdmaPkt
  deriving DecidableEq, Repr

/-- What the Ethernet engine keeps of a queue pair beyond its context in memory (R395 to R398). -/
structure QpSide where
  qp : BitVec 12
  /-- Send-ring entries taken, the doorbell's count, completions written, receive entries used. -/
  sent : Nat := 0
  posted : Nat := 0
  completions : Nat := 0
  received : Nat := 0
  /-- Requests sent and not acknowledged, oldest first. -/
  flight : List Flight := []
  retries : Nat := 0
  rnrTries : Nat := 0
  /-- An RNR NAK makes it wait: until this time in ns, then to send again from this PSN. -/
  rnr : Option (Nat × Nat) := none
  /-- The message of which packets are arriving: its opcode without the place of the packet in it, its first PSN, its packets and bytes so far. -/
  coming : Option Coming := none
  /-- Rate as a share of 10^6 of the port rate, and the time of its last change in ns. -/
  rate : Nat := 1000000
  rateAt : Nat := 0
  sentAt : Nat := 0
  deriving DecidableEq, Repr

/-- A completion entry that is still to be written (R397). -/
structure Cqe where
  qp : BitVec 12
  num : Nat
  wrid : Word
  bytes : Nat
  status : Byte
  op : Byte
  deriving DecidableEq, Repr

/-- The Ethernet side (R395 to R398). -/
structure Rdma where
  qps : List QpSide := []
  /-- Completion entries to write, oldest first; packets whose access waits for memory, by operation. -/
  cqes : List Cqe := []
  kept : List (Byte × RdmaPkt) := []
  /-- Ethernet frames sent, newest first: the port and the bytes, without the check sequence of the link. -/
  frames : List (Nat × List Byte) := []
  /-- Packets sent: queue pair, operation, data. -/
  out : List (BitVec 12 × Byte × RdmaPkt) := []
  /-- Paused priorities of each Ethernet port. -/
  paused : Vector Byte 3 := Vector.replicate 3 0
  deriving DecidableEq, Repr

/-- The debug session (R440 to R448). -/
structure Debug where
  ctl : Word := 0
  trap : Word := 0
  sel : Word := 0
  res : Byte := 0
  busy : Bool := false
  mix : Bool := false
  xm : Bool := false
  /-- DBGCMD as last written. -/
  cmd : Word := 0
  /-- A running RSTEP: its strand, N, FORCE, and the ICNT last seen with the time in ns when it was first seen. -/
  rstep : Option (SId × Nat × Bool × Nat × Nat) := none
  /-- An RSTEP or RWIND whose restoring writes wait for memory: the command. -/
  again : Option Word := none
  deriving DecidableEq, Repr

/-- A trace record (R451). -/
structure TrcRec where
  type : Byte
  src : BitVec 16
  aux : BitVec 32
  stamp : Word
  a : Word
  b : Word
  more : List Byte
  deriving DecidableEq, Repr

/-- Trace, profiling and replay (R450 to R456). -/
structure Trace where
  base : Word := 0
  cfg : Word := 0
  tail : Nat := 0
  open_ : Bool := false
  trunc : Bool := false
  lost : Nat := 0
  /-- Records made, newest first. -/
  recs : List TrcRec := []
  /-- A queue reset struck: its stamp, time in ns, records dropped (R456). -/
  reset : Option (Word × Nat × Nat) := none
  /-- Captured packets whose object has no check record yet: sequence number and handle (R454). -/
  checks : List (Word × Word) := []
  /-- Listed buffers that are still to be copied to their SNAPs, before the session accepts its first packet (R454). -/
  snaps : List Copy := []
  deriving DecidableEq, Repr

/-- A voltage domain (R465, R466). -/
structure Domain where
  rate : Nat := 0
  offs : Nat := 0
  hold : Bool := false
  /-- A second crossing holds it for good; otherwise the time the hold ends, in ns. -/
  holdForever : Bool := false
  holdUntil : Nat := 0
  meas : Bool := false
  measSince : Nat := 0
  measErrs : Nat := 0
  pf : Bool := false
  uven : Bool := true
  crossings : Nat := 0
  /-- An SDC was raised in the domain since the last crossing. -/
  sdc : Bool := false
  /-- Times in ns of the errors that RATE counts. -/
  errs : List Nat := []
  quietSince : Nat := 0
  deriving DecidableEq, Repr

/-- Lifetime records, boot, attestation and power (R462 to R470). -/
structure House where
  ltsel : Word := 0
  /-- Counts by CLASS·2^16 + INDEX, and those in non-volatile storage. -/
  counts : List (Nat × Nat) := []
  stored : List (Nat × Nat) := []
  pfthr : BitVec 32 := 100
  domains : Vector Domain 37 := Vector.replicate 37 {}
  bootStage : BitVec 4 := 0
  bootReady : Bool := false
  bootErr : Byte := 0
  /-- The image slots of non-volatile storage: stage 1 slot A, stage 1 slot B, … stage 3 slot B. -/
  images : List (List Byte) := []
  /-- Fused minimum security versions of stages 1 to 3, and the versions accepted. -/
  minSvn : Vector (BitVec 32) 3 := Vector.replicate 3 0
  svn : Vector (BitVec 32) 3 := Vector.replicate 3 0
  measure : List Byte := List.replicate 64 0
  attctl : BitVec 3 := 0
  nonce : BitVec 256 := 0
  attbuf : Word := 0
  mhz : BitVec 16 := 1400
  /-- When the temperature was last sampled, and the last powered hour was counted, in ns. -/
  sampledAt : Nat := 0
  hourAt : Nat := 0
  /-- Host ports in D3hot. -/
  d3hot : Vector Bool 2 := Vector.replicate 2 false
  powered : Bool := true
  deriving DecidableEq, Repr

/-- The clocks of the device: wall-clock time in ns, core cycles, and the Lamport clocks of its agents (R5, R452). -/
structure Clocks where
  ns : Nat := 0
  cyc : Nat := 0
  /-- The part of a nanosecond that the cycles so far have taken beyond `ns`, in units of 1 / MHz (R31). -/
  frac : Nat := 0
  cp : Word := 0
  hub : Word := 0
  sheepdog : Word := 0
  hubCopy : Word := 0
  /-- Core copy engines by core. -/
  copy : List (BitVec 7 × Word) := []
  deriving DecidableEq, Repr

/-- The tables of the command processor (R33, R57 to R83). -/
structure Cp where
  jobs : List Job := []
  launches : List Launch := []
  graphs : List Graph := []
  phases : List Phase := []
  queues : Vector SubQ 8 := Vector.replicate 8 {}
  /-- Cores reserved for priority 7, by core: the context (R80), in the order they were taken. -/
  reserved : List (BitVec 7 × BitVec 16) := []
  /-- The launch that claims the device (R79). -/
  claim : Option Nat := none
  /-- Completions and placements counted, for the orders of R81 and R459. -/
  seq : Nat := 0
  /-- Strands chosen for pre-emption that have not stopped yet (R82). -/
  victims : List SId := []
  /-- The launch for whose group crews were pre-empted last, until that group is placed (R83). -/
  preemptFor : Option Nat := none
  /-- Launches whose slot another took while their NOTIFY write was still to be made, oldest first (R459, R508). -/
  owed : List Launch := []
  /-- The queue whose turn it is (R69). -/
  turn : Nat := 0
  deriving DecidableEq, Repr

/-! ### The device -/

/-- What happens at a step: which agent moves. -/
inductive Turn where
  /-- A strand executes the scalar instruction at its PC, or takes what is due at its boundary. -/
  | scalar (k : SId)
  /-- The oldest vector instruction of a strand that has not completed is issued. -/
  | vector (k : SId)
  /-- The oldest entry of a strand's vector queue retires. -/
  | retire (k : SId)
  /-- A copy engine moves so many bytes of an unfinished copy. -/
  | copyBytes (k : SId) (ticket : Word) (n : Nat)
  /-- A hub copy engine moves so many bytes of a running copy node. -/
  | nodeBytes (g n k : Nat)
  /-- Time passes: nanoseconds and core cycles. -/
  | elapse (ns cyc : Nat)
  /-- A cached instruction sector of a core leaves its L1 instruction cache. -/
  | evictI (core : BitVec 7) (ctx : BitVec 16) (sector : Nat)
  /-- The copies of a strand's next checked vector instruction disagree in the element group of this element (R218, R219). -/
  | disagree (k : SId) (i : Nat)
  /-- The vote on three copies corrected one at this pair of lane groups of a core (R218). -/
  | voted (core : BitVec 7) (pair : Nat)
  /-- A block leaves a strand's replay buffer. -/
  | evictReplay (k : SId) (addr : Word)
  /-- A home die drops a line with its recorded translation. -/
  | evictLine (ctx : BitVec 16) (sector : Nat)
  /-- A sector leaves a core's scalar L1 data cache. -/
  | evictD (core : BitVec 7) (ctx : BitVec 16) (sector : Nat)
  /-- A die forgets the translation of an address of a context (R288). -/
  | forget (die : Nat) (ctx : BitVec 16) (va : Nat)
  /-- A core begins, or ceases, to keep scalar writes in its stage (R343). -/
  | staging (core : BitVec 7) (on : Bool)
  /-- The staged write at this place leaves its stage (R343). -/
  | leave (n : Nat)
  /-- PCI Express begins, or ceases, to hold writes to the hosts (R345). -/
  | hostHold (on : Bool)
  /-- The write at this place reaches its host (R345). -/
  | hostArrive (n : Nat)
  /-- A host writes these bytes to its own memory. -/
  | hostWrite (key : Nat) (bytes : List Byte)
  /-- A 4 KiB page behind a host port begins, or ceases, to answer with an error of PCI Express (R68, R170, R508). -/
  | hostDead (page : Nat) (dead : Bool)
  /-- A port with nothing to send sends an idle flit (R366). -/
  | idleFlit (port : Nat)
  /-- A frame arrives at an Ethernet port (R395). -/
  | frame (port : Nat) (bytes : List Byte)
  /-- The peer of a port takes their link to training (R367). -/
  | peerTrains (port : Nat)
  /-- The hub takes nothing from a port's receive buffer, or takes it again (R368). -/
  | hubBusy (port : Nat) (on : Bool)
  /-- So many elements, or those of a mask, of entry n of a strand's vector queue are performed before its turn (R346). -/
  | pick (k : SId) (n : Nat) (mask : Option Nat)
  /-- The command processor goes on with the oldest structure that a strand presented (R172). -/
  | answer (k : SId)
  /-- A step of the device that no word encodes. -/
  | event (i : Instr)
  deriving DecidableEq, Repr

/-- The whole machine. -/
structure State where
  /-- The strand whose turn it is, its crew and its core. -/
  me : Strand := {}
  crew : Crew := {}
  core : Core := {}
  /-- All other strands, crews and cores; a core not listed holds nothing. -/
  strands : List Strand := []
  crews : List Crew := []
  cores : List Core := []
  mem : MemSys := {}
  cp : Cp := {}
  owner : Owner := {}
  links : Vector DieLink 12 := Vector.replicate 12 {}
  i3c : I3c := {}
  fab : Fabric := {}
  groups : List Group := []
  rdma : Rdma := {}
  dbg : Debug := {}
  trc : Trace := {}
  house : House := {}
  clk : Clocks := {}
  /-- Who moves next, in order; when empty, the order that `step` states. -/
  agenda : List Turn := []
  /-- The model's own counter of undefined values drawn (R10); no value of it is observable. -/
  free : Nat := 0
  deriving DecidableEq, Repr

/-- The machine after device reset: every register block at its reset value, no work, no strand placed, memory with
nothing listed. The registers of the strand that is not there hold the values of R37. -/
def State.reset : State := {}

/-- Reasons for which the machine stops. Nothing the manual describes stops it: every trap is a next state. -/
inductive Fault where
  /-- Raised by no instruction of the manual: reserved for a physical number outside every memory. Safe: the machine
  stops where the hardware has no byte. -/
  | noMemory (key : Nat)
  deriving DecidableEq, Repr

/-- Reasons for which the model gives no next state. -/
inductive Refusal where
  /-- An instruction that the model does not know: raised by an arm of `exec` that has no meaning. Safe. -/
  | notModelled (mnemonic : String)
  deriving DecidableEq, Repr

end Sys2Proof.Machine
end

