-- ==== Sys2Proof/Machine/Bits.lean ====
section
/-! DEFINITION. Bit fields, little-endian byte lists, byte maps and sorted sets that every part of the machine uses (R1, R2). -/

namespace Sys2Proof.Machine

/-! ### Fields and bytes -/

/-- Bits hi down to lo of a number (R1). -/
def fld (x hi lo : Nat) : Nat := (x >>> lo) % 2 ^ (hi + 1 - lo)

/-- Bits hi down to lo of a doubleword. -/
def bf (x : Word) (hi lo : Nat) : Nat := fld x.toNat hi lo

/-- Bit n of a doubleword. -/
def bt (x : Word) (n : Nat) : Bool := x.getLsbD n

/-- The doubleword of a number. -/
def w64 (x : Nat) : Word := BitVec.ofNat 64 x

/-- The doubleword of an integer. -/
def wInt (x : Int) : Word := BitVec.ofInt 64 x

/-- A Boolean as a doubleword: 1 or 0. -/
def wBool (b : Bool) : Word := if b then 1 else 0

/-- The low n bits of a number as a two's complement integer. -/
def sgn (n x : Nat) : Int := if x % 2 ^ n < 2 ^ (n - 1) then ((x % 2 ^ n : Nat) : Int) else ((x % 2 ^ n : Nat) : Int) - 2 ^ n

/-- The low n bits of an integer as an unsigned number. -/
def wrapN (n : Nat) (x : Int) : Nat := (x % (2 ^ n : Int)).toNat

/-- The n low bytes of a number, lowest first (R2). -/
def leBytes : Nat → Nat → List Byte
  | 0, _ => []
  | n + 1, x => BitVec.ofNat 8 x :: leBytes n (x / 256)

/-- n bytes of a list from an offset, as a number; bytes past its end count as 0. -/
def numAt (bs : List Byte) (off n : Nat) : Nat := leNat ((bs.drop off).take n)

/-- Replaces the bytes of a list from an offset. -/
def putAt (bs : List Byte) (off : Nat) (new : List Byte) : List Byte := bs.take off ++ new ++ bs.drop (off + new.length)

/-! ### Byte maps -/

/-- The byte at an address: 0 where nothing is listed. -/
def Mem.get : Mem → Nat → Byte
  | [], _ => 0
  | c :: t, a => if c.1 = a then c.2 else Mem.get t a

/-- Lists a byte at an address, in the place that its address has among rising ones. -/
def Mem.put : Mem → Nat → Byte → Mem
  | [], a, b => [(a, b)]
  | c :: t, a, b => if a < c.1 then (a, b) :: c :: t else if a = c.1 then (a, b) :: t else c :: Mem.put t a b

/-- Writes one byte and keeps the canonical form: writing 0 removes the entry. -/
def Mem.set (m : Mem) (a : Nat) (b : Byte) : Mem := if b = 0 then m.filter fun c => decide (c.1 ≠ a) else m.put a b

/-- n bytes from an address. -/
def Mem.read (m : Mem) (a : Nat) : Nat → List Byte
  | 0 => []
  | n + 1 => m.get a :: Mem.read m (a + 1) n

/-- Writes bytes from an address upward. -/
def Mem.write (m : Mem) (a : Nat) : List Byte → Mem
  | [] => m
  | b :: bs => Mem.write (m.set a b) (a + 1) bs

/-- n bytes from address a of a map that lists nothing below a. -/
def Mem.scan : Nat → Mem → Nat → List Byte
  | 0, _, _ => []
  | n + 1, m, a => match m with
    | [] => 0 :: Mem.scan n [] (a + 1)
    | c :: t => if c.1 = a then c.2 :: Mem.scan n t (a + 1) else 0 :: Mem.scan n (c :: t) (a + 1)

/-- n bytes from an address, in one pass over the map. -/
def Mem.dense (m : Mem) (a n : Nat) : List Byte := Mem.scan n (m.dropWhile fun c => decide (c.1 < a)) a

/-- The byte map of a list of bytes that starts at an address. -/
def Mem.ofBytes : Nat → List Byte → Mem
  | _, [] => []
  | a, b :: t => if b = 0 then Mem.ofBytes (a + 1) t else (a, b) :: Mem.ofBytes (a + 1) t

/-- Consecutive numbers of k bytes each, lowest byte first; the fuel bounds them. -/
def numsOf (k : Nat) : Nat → List Byte → List Nat
  | 0, _ => []
  | n + 1, bs => leNat (bs.take k) :: numsOf k n (bs.drop k)

/-- n bytes from an address as a number (R2). -/
def Mem.num (m : Mem) (a n : Nat) : Nat := leNat (m.read a n)

/-- The byte map with n addresses from a set to 0. -/
def Mem.clear (m : Mem) (a n : Nat) : Mem := m.filter fun c => decide (c.1 < a ∨ a + n ≤ c.1)

/-- The byte map that holds what m holds at n addresses from a, moved to start at b. -/
def Mem.slice (m : Mem) (a n b : Nat) : Mem :=
  (m.filter fun c => decide (a ≤ c.1 ∧ c.1 < a + n)).map fun c => (c.1 - a + b, c.2)

/-! ### Sorted sets of numbers -/

/-- Adds a number to a strictly rising list. -/
def setIns : List Nat → Nat → List Nat
  | [], x => [x]
  | y :: t, x => if x < y then x :: y :: t else if x = y then y :: t else y :: setIns t x

/-- Removes a number. -/
def setDel (l : List Nat) (x : Nat) : List Nat := l.filter (· ≠ x)

/-- Replaces the value kept for a key, or adds it. -/
def kvSet (l : List (Nat × Nat)) (k v : Nat) : List (Nat × Nat) := (k, v) :: l.filter (·.1 ≠ k)

/-- The value kept for a key, 0 when none is. -/
def kvGet (l : List (Nat × Nat)) (k : Nat) : Nat := ((l.find? (·.1 = k)).map (·.2)).getD 0

/-- Replaces every element that matches by a new one. -/
def replaceIf {α : Type} (p : α → Bool) (f : α → α) (l : List α) : List α := l.map fun x => if p x then f x else x

/-- A list in order: the elements that `le` puts first stand first, and equal ones keep their order. -/
def insertBy {α : Type} (le : α → α → Bool) (x : α) : List α → List α
  | [] => [x]
  | y :: t => if le x y then x :: y :: t else y :: insertBy le x t

def sortBy {α : Type} (le : α → α → Bool) : List α → List α
  | [] => []
  | x :: t => insertBy le x (sortBy le t)

/-- Entry i of a vector, the given value beyond its end. -/
def vget {α : Type} {n : Nat} (v : Vector α n) (i : Nat) (d : α) : α := v[i]?.getD d

/-- Vector with entry i replaced, unchanged when i is beyond its end. -/
def vset {α : Type} {n : Nat} (v : Vector α n) (i : Nat) (x : α) : Vector α n := v.setIfInBounds i x

/-- The larger of two doublewords, unsigned. -/
def maxW (a b : Word) : Word := if a.toNat < b.toNat then b else a

/-- CRC-64 with the ECMA-182 polynomial, initial value 0, no reflection, no final inversion (R365, R454): one bit. -/
def crcBit (c : Word) (b : Bool) : Word :=
  if (c.getLsbD 63) != b then (c <<< 1) ^^^ 0x42F0E1EBA9EA3693#64 else c <<< 1

/-- CRC-64 over bytes in ascending order. -/
def crc64 (bs : List Byte) : Word :=
  bs.foldl (fun c b => [7, 6, 5, 4, 3, 2, 1, 0].foldl (fun c i => crcBit c (b.getLsbD i)) c) 0

end Sys2Proof.Machine
end

