-- ==== Sys2Proof/Machine/Cipher.lean ====
section
/-! DEFINITION. AES-256 in XTS mode over the 256-byte sector of an encrypted buffer (R295, R296). -/

namespace Sys2Proof.Machine

/-- A byte of GF(2^8) doubled, modulo x^8 + x^4 + x^3 + x + 1. -/
def gfDouble (a : Nat) : Nat := if a < 128 then 2 * a else Nat.xor (2 * a - 256) 0x1B

/-- The product of two bytes of GF(2^8), by the eight bits of the second. -/
def gfMul (a b : Nat) : Nat :=
  ((List.range 8).foldl (fun (x : Nat × Nat) i => (if b.testBit i then Nat.xor x.1 x.2 else x.1, gfDouble x.2)) (0, a)).1

/-- The inverse of a byte of GF(2^8): its power 254; 0 for 0. -/
def gfInv (a : Nat) : Nat :=
  let sq (x : Nat) : Nat := gfMul x x
  let a2 := sq a
  let a4 := sq a2
  let a8 := sq a4
  let a16 := sq a8
  let a32 := sq a16
  let a64 := sq a32
  gfMul (sq a64) (gfMul a64 (gfMul a32 (gfMul a16 (gfMul a8 (gfMul a4 a2)))))

/-- A byte turned left by n bits. -/
def rotByte (a n : Nat) : Nat := a * 2 ^ n % 256 + a / 2 ^ (8 - n)

/-- The substitution of a byte, and its inverse. -/
def subByte (a : Nat) : Nat :=
  let x := gfInv a
  Nat.xor (Nat.xor (Nat.xor x (rotByte x 1)) (Nat.xor (rotByte x 2) (rotByte x 3))) (Nat.xor (rotByte x 4) 0x63)

def unsubByte (a : Nat) : Nat := gfInv (Nat.xor (Nat.xor (rotByte a 1) (Nat.xor (rotByte a 3) (rotByte a 6))) 0x05)

/-- Two lists of bytes, added byte by byte. -/
def xorBytes (a b : List Nat) : List Nat := (a.zip b).map fun x => Nat.xor x.1 x.2

/-- The words of the key schedule that follow eight words given newest first, as many as the first argument says. -/
def keyWords : Nat → Nat → Nat → List (List Nat) → List (List Nat)
  | 0, _, _, ws => ws
  | left + 1, i, rcon, ws =>
    let last := ws.headD []
    let t := if i % 8 = 0 then xorBytes ((last.drop 1 ++ last.take 1).map subByte) [rcon, 0, 0, 0]
      else if i % 8 = 4 then last.map subByte else last
    keyWords left (i + 1) (if i % 8 = 0 then gfDouble rcon else rcon) (xorBytes (ws.getD 7 []) t :: ws)

/-- Lists of n consecutive bytes; the fuel bounds them. -/
def groupsOf (n : Nat) : Nat → List Nat → List (List Nat)
  | 0, _ => []
  | k + 1, bs => bs.take n :: groupsOf n k (bs.drop n)

/-- The fifteen round keys of a 256-bit key, of 16 bytes each. -/
def roundKeys (key : List Nat) : List (List Nat) :=
  groupsOf 16 15 (keyWords 52 8 1 (groupsOf 4 8 key).reverse).reverse.flatten

/-- Row r of the state moves by r columns; byte 4c + r stands in row r of column c. -/
def shiftRows (b : List Nat) : List Nat := (List.range 16).map fun i => b.getD ((i + 4 * (i % 4)) % 16) 0
def unshiftRows (b : List Nat) : List Nat := (List.range 16).map fun i => b.getD ((i + 12 * (i % 4)) % 16) 0

/-- Each column times the polynomial whose coefficients are given. -/
def mixColumns (m : List Nat) (b : List Nat) : List Nat :=
  (List.range 16).map fun i =>
    (List.range 4).foldl (fun acc j => Nat.xor acc (gfMul (b.getD (i / 4 * 4 + j) 0) (m.getD ((j + 4 - i % 4) % 4) 0))) 0

/-- AES-256 on a block of 16 bytes, with the round keys. -/
def aesEncrypt (ks : List (List Nat)) (b : List Nat) : List Nat :=
  let b := (ks.drop 1).take 13 |>.foldl (fun b k => xorBytes (mixColumns [2, 3, 1, 1] (shiftRows (b.map subByte))) k) (xorBytes b (ks.getD 0 []))
  xorBytes (shiftRows (b.map subByte)) (ks.getD 14 [])

/-- Its inverse. -/
def aesDecrypt (ks : List (List Nat)) (b : List Nat) : List Nat :=
  let b := ((ks.drop 1).take 13).reverse.foldl (fun b k => mixColumns [14, 11, 13, 9] (xorBytes ((unshiftRows b).map unsubByte) k)) (xorBytes b (ks.getD 14 []))
  xorBytes ((unshiftRows b).map unsubByte) (ks.getD 0 [])

/-- n bytes of a number, lowest first. -/
def natBytes (n x : Nat) : List Nat := (leBytes n x).map (·.toNat)

/-- The number of a list of bytes, lowest first. -/
def bytesNat (bs : List Nat) : Nat := bs.foldr (fun b acc => b + 256 * acc) 0

/-- The mask of block j of a data unit: the encrypted tweak times x^j, modulo x^128 + x^7 + x^2 + x + 1 (IEEE Std 1619). -/
def xtsMask (tweakKey : List Nat) (tweak j : Nat) : List Nat :=
  natBytes 16 (Nat.repeat (fun t => if t < 2 ^ 127 then 2 * t else Nat.xor (2 * t - 2 ^ 128) 0x87) j
    (bytesNat (aesEncrypt (roundKeys tweakKey) (natBytes 16 tweak))))

/-- One block of a data unit enciphered or deciphered: the data key and the tweak key, the tweak, the number of the block. -/
def xtsBlock (decrypt : Bool) (dataKey tweakKey : List Nat) (tweak j : Nat) (b : List Nat) : List Nat :=
  let mask := xtsMask tweakKey tweak j
  let f := if decrypt then aesDecrypt else aesEncrypt
  xorBytes (f (roundKeys dataKey) (xorBytes b mask)) mask

end Sys2Proof.Machine
end

