-- ==== Sys2Proof/Machine/Memory.lean ====
section
/-! DEFINITION. Memory as the work sees it: windows, homes, translation, permissions, poison, encryption, and the
Retriever log that a write meets (R164 to R167, R277 to R297, R306, R307, R428 to R439). -/

namespace Sys2Proof.Machine

/-! ### Numbers of bytes

`MemSys.ram` holds every byte of the device and of the hosts. A device physical address numbers itself (R289); byte x of
die d's pool scratch is `2^52 + d·2^27 + x`; byte x of core c's scratch is `2^53 + c·2^21 + x`; bus address x behind host
port p is `2^64·(1 + p) + x`. -/

/-- Byte number of a die-local address of HBM4E (T = 0) or LPDDR (T = 1) (R289). -/
def dpaKey (die t loc : Nat) : Nat := die * 2 ^ 50 + t * 2 ^ 49 + loc
def poolKey (die loc : Nat) : Nat := 2 ^ 52 + die * 2 ^ 27 + loc
def scrKey (core off : Nat) : Nat := 2 ^ 53 + core * 2 ^ 21 + off
def hostKey (port a : Nat) : Nat := 2 ^ 64 * (1 + port) + a

/-- The HBM4E stack and the LPDDR channel that hold a die-local address (R26, R292). -/
def hbmStack (die loc : Nat) : Nat := 2 * die + (loc >>> 12) % 2
def lpddrChannel (die loc : Nat) : Nat := 10 * die + (loc >>> 12) % 10

/-- The device physical address breaks no rule of R289. -/
def dpaOk (a : Nat) : Bool :=
  decide (a < 2 ^ 52) && (if fld a 49 49 = 0 then decide (fld a 48 0 < 2 ^ 37) else decide (fld a 48 0 < 2 ^ 39))

/-- The memory die that a device physical address names. -/
def dpaDie (a : Nat) : Nat := fld a 51 50

/-! ### Who asks for what -/

/-- The requester of a memory access. -/
structure Req where
  ctx : BitVec 16
  /-- At user level (R291). -/
  user : Bool
  /-- 0 strand, 1 core copy engine, 2 package agent, 3 remote device or Ethernet peer (R431). -/
  agent : BitVec 2
  core : BitVec 7
  slot : BitVec 2
  /-- The crew, for the windows (R278). -/
  lid : Word
  cid : BitVec 16
  /-- The access goes through the scalar L1 (R280, R281). -/
  scalar : Bool
  /-- The writer's clock (R432) and the instruction word (R432, KIND 5). -/
  stamp : Word
  word : Word
  /-- Names the requester's operation among remote transactions. -/
  own : List Nat
  /-- The access follows the rule of vector accesses at the issuing core's L1 (R281). -/
  evicts : Bool := false
  /-- Its writes to host memory are ordered after earlier ones (R345). -/
  strong : Bool := false
  /-- The writes of the operation count together toward whole sectors (R306). -/
  covers : Bool := false
  /-- It takes answers of other devices, and starts no request there but for what it has performed in part. -/
  quiet : Bool := false
  deriving DecidableEq, Repr

/-- What an access needs of the leaf (R291). -/
structure Need where
  rd : Bool
  wr : Bool
  ex : Bool
  /-- It writes nothing in the end: the leaf's D bit stays (R169, R291). -/
  clean : Bool := false
  deriving DecidableEq, Repr

def Need.read : Need := { rd := true, wr := false, ex := false }
def Need.write : Need := { rd := false, wr := true, ex := false }
def Need.both : Need := { rd := true, wr := true, ex := false }
def Need.fetch : Need := { rd := false, wr := false, ex := true }
/-- The permissions of a CAS that has still to compare (R166, R169). -/
def Need.probe : Need := { rd := true, wr := true, ex := false, clean := true }

/-- The access sets D of its leaf (R291). -/
def Need.dirties (n : Need) : Bool := n.wr && !n.clean

/-- The outcome of an access: performed, refused with a trap code, or waiting for another agent. -/
inductive Att (α : Type) where
  | ok (x : α) (s : State)
  | trap (code : Byte) (s : State)
  | wait (s : State)

/-- Trap codes (R406). -/
def cILLEGAL : Byte := 0x01
def cPRIV : Byte := 0x02
def cMISALIGN : Byte := 0x03
def cXLATE : Byte := 0x04
def cPROT : Byte := 0x05
def cPOISON : Byte := 0x06
def cVSTATE : Byte := 0x07
def cVDECL : Byte := 0x08
def cSCOPE : Byte := 0x09
def cQUEUE : Byte := 0x0A
def cLOGFULL : Byte := 0x0B
def cBREAK : Byte := 0x0C
def cTRAP : Byte := 0x0D
def cCOPYFAULT : Byte := 0x0E
def cMATRIX : Byte := 0x0F
def cCANCEL : Byte := 0x10
def cSDC : Byte := 0x11
def cCHAIN : Byte := 0x12
def cEXTERNAL : Byte := 0x13

/-! ### The parts of the state that an access reads -/

def State.getCore (s : State) (n : BitVec 7) : Core :=
  if s.core.num = n then s.core else (s.cores.find? (·.num = n)).getD { num := n }

def State.setCore (s : State) (c : Core) : State :=
  if s.core.num = c.num then { s with core := c } else { s with cores := c :: s.cores.filter (·.num ≠ c.num) }

/-- Every crew that is placed or was pre-empted. -/
def State.allCrews (s : State) : List Crew := s.crew :: s.crews

/-- The live job of a context (R33). -/
def State.jobOf (s : State) (ctx : BitVec 16) : Option Job := s.cp.jobs.find? fun j => j.live && j.ctx == ctx

def State.setJob (s : State) (j : Job) : State :=
  { s with cp := { s.cp with jobs := replaceIf (·.slot == j.slot) (fun _ => j) s.cp.jobs } }

/-! ### Where an address lies -/

/-- Bits 63:56 all equal bit 55 (R277). -/
def canonical (a : Word) : Bool := bf a 63 55 = 0 || bf a 63 55 = 511

/-- The memory die of R284 under MODE 0: the 23 two-bit pairs from bit 10 upward. -/
def interleave (a : Nat) : Nat := ((List.range 23).map fun i => fld a (11 + 2 * i) (10 + 2 * i)).foldl Nat.xor 0

/-- Whether a region-table entry covers an address for a context (R283, R284). -/
def Rte.covers (e : Rte) (ctx : BitVec 16) (a : Nat) : Bool :=
  bt e.w0 63 && (bt e.w0 60 || bf e.w1 31 16 == ctx.toNat) &&
  decide (bf e.w0 55 30 * 2 ^ 30 ≤ a ∧ a < bf e.w0 55 30 * 2 ^ 30 + (bf e.w0 25 0 + 1) * 2 ^ 30)

/-- The lowest live entry that covers an address (R284). -/
def State.rteOf (s : State) (ctx : BitVec 16) (a : Word) : Option Rte :=
  s.mem.live.toList.find? (·.covers ctx (bf a 55 0))

/-- Who answers an address (R277, R284). -/
inductive Home where
  | window (core : BitVec 7) (key : Nat)
  /-- A memory die; interleaved under MODE 0. -/
  | die (d : Nat) (inter : Bool)
  | remote (dev : BitVec 9)
  | host (d port : Nat)
  | refused (code : Byte)
  deriving DecidableEq, Repr

/-- Byte x of a crew's scratch allocation, refused beyond it (R278). -/
def crewScratch (c : Option Crew) (x : Nat) : Home :=
  match c with
  | some c => if c.placed ∧ x < c.scr * 4096 then .window c.core (scrKey c.core.toNat (c.scrBase * 4096 + x)) else .refused cPROT
  | none => .refused cPROT

/-- The crew of a requester. -/
def State.crewOf (s : State) (r : Req) : Option Crew := s.allCrews.find? fun c => c.lid == r.lid && c.cid == r.cid

/-- The crew of the requester's placement group at position p of its quad (R42, R278). -/
def State.quadCrew (s : State) (r : Req) (p : Nat) : Option Crew :=
  (s.crewOf r).bind fun me => s.allCrews.find? fun c =>
    c.placed && c.lid == me.lid && c.cid.toNat >>> me.qh == me.cid.toNat >>> me.qh
      && c.core.toNat == r.core.toNat / 4 * 4 + p

/-- Who answers address a of requester r; `win` says that windows may be reached (R278: no fetch may). -/
def State.homeOf (s : State) (r : Req) (a : Word) (ex : Bool) : Home :=
  if !canonical a then .refused cXLATE
  else if a.toNat ≥ 0xFFFFFFFFFFE00000 then
    if ex then .refused cPROT else crewScratch (s.crewOf r) (bf a 20 0)
  else if a.toNat ≥ 0xFFFFFFFFFF600000 then
    if ex then .refused cPROT else crewScratch (s.quadCrew r ((a.toNat - 0xFFFFFFFFFF600000) >>> 21)) (bf a 20 0)
  else match s.rteOf r.ctx a with
    | none => .refused cXLATE
    | some e => match bf e.w0 62 61 with
      | 0 => .die (interleave (bf a 55 0)) true
      | 1 => .die (bf e.w1 1 0) false
      | 2 => .remote (BitVec.ofNat 9 (bf e.w1 15 7))
      | _ => .host (bf e.w1 1 0) (bf e.w1 4 4)

/-! ### Poison and encryption -/

def MemSys.poisoned (m : MemSys) (key : Nat) : Bool := m.bad.contains (key / 256)

/-- Marks the sector of a byte poisoned. -/
def MemSys.setPoison (m : MemSys) (key : Nat) : MemSys := { m with bad := setIns m.bad (key / 256) }

def MemSys.clearPoison (m : MemSys) (key : Nat) : MemSys := { m with bad := setDel m.bad (key / 256) }

/-- The tag of an unencrypted buffer (R297): even. Tag 0 is that of structures reached by physical address. -/
def plainTag (ctx : BitVec 16) (buf version : Nat) : Nat := 2 * ((ctx.toNat * 4096 + buf + 1) * 2 ^ 32 + version)

/-- The tag of an encrypted sector (R296): keys, address and version; odd. -/
def cipherTag (key : List Byte) (va version : Nat) : Nat :=
  2 * (leNat key * 2 ^ 96 + fld va 55 8 * 2 ^ 32 + version) + 1

/-- The tag of a sector whose contents are undefined (R293): no reader has it. -/
def voidTag (salt : Nat) : Nat := 2 * (2 ^ 700 + salt) + 1

/-- A sector written under tag w reads as it was written under tag r (R296, R297). -/
def tagAgrees (r w : Nat) : Bool := r == w || (r % 2 == 0 && w % 2 == 0 && r / 2 ^ 33 != w / 2 ^ 33)

/-- A sector written under tag w holds no defined value for a reader under tag r: it was never written since its region turned to
scratch (R293), or it was written under another version of the same buffer (R297). -/
def tagVoid (r w : Nat) : Bool :=
  decide (2 ^ 701 ≤ w) || (r % 2 == w % 2 && r / 2 ^ 33 == w / 2 ^ 33 && r % 2 == 0)
    || (r % 2 == 1 && w % 2 == 1 && r / 2 ^ 33 == w / 2 ^ 33)

/-- Block j of a sector enciphered or deciphered as a tag says; the bytes themselves under a tag of no encryption (R296). -/
def cipherUnder (decrypt : Bool) (tag j : Nat) (b : List Nat) : List Nat :=
  if tag % 2 = 0 then b
  else
    let key := natBytes 64 (tag / 2 ^ 97)
    xtsBlock decrypt (key.take 32) (key.drop 32) (fld tag 96 33 + fld tag 32 1 * 2 ^ 48) j b

/-- One byte as a reader under tag r finds it: the byte written under a tag that agrees, an undefined one where none is defined (R10), else
what the reader's cipher makes of what the writer's cipher left in memory (R296). -/
def MemSys.byteUnder (m : MemSys) (r key : Nat) : Byte :=
  let w := kvGet m.enc (key / 256)
  if tagAgrees r w then m.ram.get key
  else if tagVoid r w then Config.voidByte r w key
  else
    let j := key % 256 / 16
    let b := (m.ram.read (key / 16 * 16) 16).map (·.toNat)
    BitVec.ofNat 8 ((cipherUnder true r j (cipherUnder false w j b)).getD (key % 16) 0)

/-- n bytes as a reader under tag r finds them. -/
def MemSys.bytesUnder (m : MemSys) (r key : Nat) : Nat → List Byte
  | 0 => []
  | n + 1 => m.byteUnder r key :: MemSys.bytesUnder m r (key + 1) n

/-- The sector of a byte brought under a tag, as the writer of a part of it finds the rest. -/
def MemSys.retag (m : MemSys) (t key : Nat) : MemSys :=
  if kvGet m.enc (key / 256) = t then m
  else
    let base := key / 256 * 256
    { m with ram := m.ram.write base (m.bytesUnder t base 256), enc := if t = 0 then m.enc.filter (·.1 ≠ key / 256) else kvSet m.enc (key / 256) t }

/-- Writes bytes of one sector under a tag. -/
def MemSys.putUnder (m : MemSys) (t key : Nat) (bs : List Byte) : MemSys :=
  let m' := m.retag t key
  { m' with ram := m'.ram.write key bs }

/-- Eight bytes at a device physical address (R289). -/
def MemSys.dpa64 (m : MemSys) (a : Nat) : Word := w64 (leNat (m.bytesUnder 0 a 8))

/-- Writes at a device physical address or a host address: unencrypted, sector by sector. -/
def MemSys.putRaw (m : MemSys) (a : Nat) : List Byte → MemSys
  | [] => m
  | b :: bs => MemSys.putRaw (m.putUnder 0 a [b]) (a + 1) bs

/-! ### Translation -/

/-- The walk of R290 from a node: the leaf, where it lies, and the width of the page offset. -/
def MemSys.walk (m : MemSys) (va : Nat) : Nat → Nat → Nat → Except Byte (Word × Nat × Nat)
  | 0, _, _ => .error cXLATE
  | left + 1, lv, node =>
    let lo := 56 - 10 * lv
    let at_ := node + 8 * (fld va (lo + 9) lo)
    if m.failed.contains (8 + dpaDie at_) || m.poisoned at_ then .error cPOISON
    else
      let e := m.dpa64 at_
      if !bt e 0 then .error cXLATE
      else if bf e 3 1 = 0 then
        if bf e 63 52 = 0 ∧ bf e 12 1 = 0 then m.walk va left (lv + 1) (bf e 51 13 * 2 ^ 13) else .error cXLATE
      else if bf e 15 10 ≠ 0 ∨ lv = 1 ∨ (bf e 51 16 * 2 ^ 16) % 2 ^ lo ≠ 0 then .error cXLATE
      else .ok (e, at_, lo)

/-- The buffer entry of a leaf: its tag for the sector of va (R295, R296). -/
def MemSys.bufTag (m : MemSys) (j : Job) (leaf : Word) (va : Nat) : Except Byte Nat :=
  let at_ := j.buft + 8 * bf leaf 63 52
  if m.failed.contains (8 + dpaDie at_) || m.poisoned at_ then .error cPOISON
  else
    let e := m.dpa64 at_
    if bf e 30 20 ≠ 0 ∨ bf e 15 0 ≠ 0 then .error cXLATE
    else if bt e 31 then .ok (cipherTag ((j.keys.drop (64 * bf e 19 16)).take 64) va (bf e 63 32))
    else .ok (plainTag j.ctx (bf leaf 63 52) (bf e 63 32))

/-- Pool region j of die d is configured as scratch (R293). -/
def MemSys.poolScratch (m : MemSys) (d j : Nat) : Bool := (vget m.poolcfg d 0).getLsbD j

/-- Where a leaf puts the byte at va (R292): its number and the home's kind is checked. -/
def MemSys.place (m : MemSys) (h : Home) (leaf : Word) (lo va : Nat) : Except Byte Nat :=
  let p := bf leaf 51 16 * 2 ^ 16
  let off := va % 2 ^ lo
  match h with
  | .host _ port => if bf leaf 9 8 = 2 then .ok (hostKey port (p + off)) else .error cXLATE
  | .die d inter =>
    let loc := if inter then p / 4 + (off >>> 12) * 1024 + off % 1024 else p + off
    match bf leaf 9 8 with
    | 0 => if loc < 2 ^ 37 then .ok (dpaKey d 0 loc) else .error cXLATE
    | 1 => if loc < 2 ^ 39 then .ok (dpaKey d 1 loc) else .error cXLATE
    | 3 => if loc < 96 * 2 ^ 20 ∧ m.poolScratch d (loc / 2 ^ 20) then .ok (poolKey d loc) else .error cXLATE
    | _ => .error cXLATE
  | _ => .error cXLATE

/-- The leaf admits the access (R291). -/
def Need.admits (n : Need) (user : Bool) (leaf : Word) : Bool :=
  (!n.rd || bt leaf 1) && (!n.wr || bt leaf 2) && (!n.ex || bt leaf 3) && (!user || bt leaf 4)

/-- A translated access: the number of its first byte, the sector's tag, whether its page is exempt from logging, and
whether it lies in host memory. -/
structure Spot where
  key : Nat
  tag : Nat
  exempt : Bool
  host : Bool
  deriving DecidableEq, Repr

/-- Where an access of requester r lands. -/
inductive Found where
  /-- In memory; `m` is memory with what the translation recorded. -/
  | spot (p : Spot) (m : MemSys)
  /-- At a failed memory die (R299). -/
  | dead
  | remote (dev : BitVec 9)
  | fault (code : Byte)
  /-- Die-to-die links on its way, or on the way of a snoop that it needs, hold it (R16, R286, R298). -/
  | held (links : List Nat)

/-- Sets A, and D for a write, in the leaf in memory (R291). -/
def MemSys.touchLeaf (m : MemSys) (at_ : Nat) (wr : Bool) : MemSys :=
  let e := m.dpa64 at_
  let e' := e ||| (if wr then 0x60 else 0x20)
  if e' = e then m else m.putRaw at_ (leBytes 8 e'.toNat)

/-- Where a leaf that a walk or a die's cache gave puts va at home h: byte number and tag. -/
def State.landing (s : State) (ctx : BitVec 16) (h : Home) (va : Nat) (leaf : Word) (lo : Nat) : Except Byte (Nat × Nat) :=
  match s.jobOf ctx with
  | none => .error cXLATE
  | some j =>
    match s.mem.place h leaf lo va with
    | .error c => .error c
    | .ok key =>
      if bf leaf 9 8 < 2 then
        match s.mem.bufTag j leaf va with
        | .error c => .error c
        | .ok t => .ok (key, t)
      else .ok (key, 0)

/-- The walk of the tables of a context. -/
def State.walkOf (s : State) (ctx : BitVec 16) (va : Nat) : Except Byte (Word × Nat × Nat) :=
  match s.jobOf ctx with
  | none => .error cXLATE
  | some j => s.mem.walk va 4 1 j.root

/-- The tables' answer for va at home h: leaf, its address, byte number, tag. -/
def State.translate (s : State) (ctx : BitVec 16) (h : Home) (va : Nat) : Except Byte (Word × Nat × Nat × Nat) :=
  match s.walkOf ctx va with
  | .error c => .error c
  | .ok (leaf, at_, lo) => match s.landing ctx h va leaf lo with
    | .error c => .error c
    | .ok (key, tag) => .ok (leaf, at_, key, tag)

/-- The memory die that translates for a home. -/
def Home.die? : Home → Nat
  | .die d _ => d
  | .host d _ => d
  | _ => 0

/-- The 1024-byte lines that a die's pool may cache: 96 MiB less the regions in use as scratch (R25, R293). -/
def MemSys.poolLines (m : MemSys) (d : Nat) : Nat := (96 - ((List.range 96).filter (m.poolScratch d)).length) * 1024

/-- The first elements of a list that lie in at most n different lines; `seen` names those met already. -/
def keepLines {α : Type} (line : α → Nat × Nat) (n : Nat) : List (Nat × Nat) → List α → List α
  | _, [] => []
  | seen, x :: t =>
    if seen.contains (line x) then x :: keepLines line n seen t
    else if seen.length < n then x :: keepLines line n (line x :: seen) t
    else keepLines line n seen t

/-- A pool that holds more lines of a die than it has room for gives up the oldest; no list of sectors as short as the room can. -/
def MemSys.trimPool (m : MemSys) (d : Nat) : MemSys :=
  if m.lines.length ≤ m.poolLines d then m
  else
    let mine := keepLines (fun l : PLine => (l.ctx.toNat, l.sector / 4)) (m.poolLines d) [] (m.lines.filter (·.die == d))
    { m with lines := mine ++ m.lines.filter (·.die != d) }

/-- A sector is filled, or reached, through a leaf: it is checked, the leaf marked, and the sector recorded (R288, R291). -/
def State.fillBy (s : State) (r : Req) (h : Home) (va : Nat) (n : Need) (leaf : Word) (at_ key tag : Nat) : Found :=
  if !n.admits r.user leaf then .fault cPROT
  else
    let m := s.mem.touchLeaf at_ n.dirties
    let p : Spot := ⟨key, tag, bt leaf 7, bf leaf 9 8 = 2⟩
    match h with
    | .die d _ =>
      if bf leaf 9 8 = 3 then .spot p m
      else
        let line : PLine := { ctx := r.ctx, sector := va / 256, key := key - va % 256, leaf := leaf ||| (if n.dirties then 0x60 else 0x20), leafAt := at_, tag := tag, die := d }
        .spot p (({ m with lines := line :: m.lines.filter fun l => !(l.ctx == r.ctx && l.sector == va / 256) } : MemSys).trimPool d)
    | _ => .spot p m

/-- What a die's cache keeps of a walk. -/
def MemSys.noteWalk (m : MemSys) (d : Nat) (ctx : BitVec 16) (va : Nat) (leaf : Word) (at_ lo : Nat) : MemSys :=
  { m with tlbs := ⟨d, ctx, va >>> lo, lo, leaf, at_⟩ :: m.tlbs.filter fun t => !(t.die == d && t.ctx == ctx && t.page == va >>> t.lo) }

/-- A fill or a re-check at the home die by a walk of the tables (R288). -/
def State.fill (s : State) (r : Req) (h : Home) (va : Nat) (n : Need) : Found :=
  match s.translate r.ctx h va with
  | .error c => .fault c
  | .ok (leaf, at_, key, tag) => match s.fillBy r h va n leaf at_ key tag with
    | .spot p m => .spot p (match s.walkOf r.ctx va with
      | .ok (_, _, lo) => m.noteWalk h.die? r.ctx va leaf at_ lo
      | .error _ => m)
    | f => f

/-- The translation of va that a die has cached. -/
def MemSys.cached (m : MemSys) (d : Nat) (ctx : BitVec 16) (va : Nat) : Option Tlb :=
  m.tlbs.find? fun t => t.die == d && t.ctx == ctx && t.page == va >>> t.lo

/-- A sector that misses: translated by what the die has cached, where that admits the access, else by a walk (R288). -/
def State.miss (s : State) (r : Req) (h : Home) (va : Nat) (n : Need) : Found :=
  match s.mem.cached h.die? r.ctx va with
  | none => s.fill r h va n
  | some t =>
    if !n.admits r.user t.leaf then s.fill r h va n
    else match s.landing r.ctx h va t.leaf t.lo with
      | .error c => .fault c
      | .ok (key, tag) => s.fillBy r h va n t.leaf t.leafAt key tag

/-! ### The way of an access (R14, R16, R20, R280, R281, R286, R298) -/

def State.link (s : State) (l : Nat) : DieLink := vget s.links l {}
def State.mapLink (s : State) (l : Nat) (f : DieLink → DieLink) : State := { s with links := vset s.links l (f (s.link l)) }

/-- The links between a requester and a memory die: its own compute die's, for a core's agent, and the memory die's (R14). -/
def Req.linksTo (r : Req) (d : Nat) : List Nat := (if r.agent.toNat < 2 then [r.core.toNat / 16] else []) ++ [8 + d]

/-- The core's L1 serves the access itself: a read of a sector that it holds, or a write of one that it holds writable (R280). -/
def State.l1Serves (s : State) (r : Req) (sector : Nat) (wr : Bool) : Bool :=
  r.scalar && r.agent == 0 && (s.getCore r.core).l1.any fun t => t.ctx == r.ctx && t.sector == sector && (!wr || t.dirty)

/-- The compute dies whose L1s the directory must snoop before an access to a sector (R280, R281): those of other cores that hold it, for a
write, or hold it dirty, for a read. -/
def State.snooped (s : State) (r : Req) (sector : Nat) (wr : Bool) : List Nat :=
  ((s.core :: s.cores).filter fun c => (r.agent != 0 || c.num != r.core) && c.l1.any fun t => t.ctx == r.ctx && t.sector == sector && (wr || t.dirty)).map
    (·.num.toNat / 16)

/-- The links that an access crosses. -/
def State.wayOf (s : State) (r : Req) (a : Word) (n : Need) : List Nat :=
  match s.homeOf r a n.ex with
  | .die d _ => if s.l1Serves r (bf a 55 0 / 256) n.wr then [] else r.linksTo d
  | .host d _ => r.linksTo d
  | .remote _ => if r.agent.toNat < 2 then [r.core.toNat / 16] else []
  | _ => []

/-- The links that a snoop for an access crosses. -/
def State.snoopWay (s : State) (r : Req) (a : Word) (n : Need) : List Nat :=
  match s.homeOf r a n.ex with
  | .die _ _ => if s.l1Serves r (bf a 55 0 / 256) n.wr then [] else s.snooped r (bf a 55 0 / 256) n.wr
  | _ => []

/-- A link holds the request of an agent: it does not carry traffic now, or it held the request under an older generation, under which the
home die answers "retarget" (R16, R286). -/
def DieLink.holds (x : DieLink) (own : List Nat) (gen : BitVec 32) : Bool := x.st != .awake || x.waits.any fun w => w.1 == own && w.2 != gen

/-- The links that hold an access, and those that hold a snoop for it. -/
def State.heldOn (s : State) (r : Req) (a : Word) (n : Need) : List Nat :=
  (s.wayOf r a n).filter fun l => (s.link l).holds r.own s.mem.gen
def State.snoopHeld (s : State) (r : Req) (a : Word) (n : Need) : List Nat :=
  (s.snoopWay r a n).filter fun l => (s.link l).st != .awake || (s.link l).snoop.isSome

/-- A link meets a request that it holds: it begins to wake, and the request stands under the current generation. -/
def DieLink.hold (x : DieLink) (own : List Nat) (gen : BitVec 32) (now : Nat) : DieLink :=
  { x with st := if x.st = .asleep then .waking now else x.st
           waits := if x.waits.any (·.1 == own) then x.waits.map fun w => if w.1 == own then (own, gen) else w else x.waits ++ [(own, gen)] }

/-- A link meets a snoop that it holds (R298). -/
def DieLink.holdSnoop (x : DieLink) (now : Nat) : DieLink :=
  { x with st := if x.st = .asleep then .waking now else x.st, snoop := if x.snoop.isSome then x.snoop else some (now, 0) }

/-- The access waits at the links that hold it or its snoops. -/
def State.holdAt (s : State) (r : Req) (a : Word) (n : Need) : State :=
  let t := (s.heldOn r a n).foldl (fun u l => u.mapLink l fun x => x.hold r.own s.mem.gen s.clk.ns) s
  (s.snoopHeld r a n).foldl (fun u l => u.mapLink l fun x => x.holdSnoop s.clk.ns) t

/-- A link carries a request: its idle period begins anew (R16, R17), and it no longer holds the agent's. -/
def DieLink.carry (x : DieLink) (own : List Nat) (now : Nat) : DieLink :=
  { x with idleSince := now, idleNow := x.idle, waits := x.waits.filter (·.1 != own) }

def State.crossed (s : State) (own : List Nat) (ls : List Nat) : State := ls.foldl (fun u l => u.mapLink l fun x => x.carry own s.clk.ns) s

/-! ### What a running collective makes undefined (R384, R399) -/

def Area.cut (a b : Area) : Area := ⟨a.window, if a.window = b.window then max a.lo b.lo else 0, if a.window = b.window then min a.hi b.hi else 0⟩
def Area.empty (a : Area) : Bool := decide (a.hi ≤ a.lo)
def Area.meets (a b : Area) : Bool := !(a.cut b).empty

/-- The span of n bytes from an address. -/
def State.areaOf (s : State) (r : Req) (a : Word) (n : Nat) : Area :=
  match s.homeOf r a false with
  | .window _ key => ⟨true, key, key + n⟩
  | _ => ⟨false, bf a 55 0, bf a 55 0 + n⟩

/-- The write is one of the program into bytes that a running collective of its job reads or writes. -/
def State.disturbs (s : State) (r : Req) (a : Word) (n : Nat) : Bool :=
  decide (r.agent.toNat < 2) && s.groups.any fun g => g.ctx == r.ctx && g.colls.any fun c => c.fc.isNone && c.areas.any ((s.areaOf r a n).meets ·)

/-- The bytes that such a write leaves, undefined under R10, and the collectives that it meets, which note them (R399). DEDUCED: writes of
strands and of their copies count as the program's. -/
def State.disturbed (s : State) (r : Req) (a : Word) (bs : List Byte) : List Byte × State :=
  if !s.disturbs r a bs.length then (bs, s)
  else
    let x := s.areaOf r a bs.length
    let note (c : Coll) : Coll := if c.fc.isNone && c.areas.any x.meets then { c with loose := x :: c.loose } else c
    ((List.range bs.length).map fun i => Config.freeByte (s.free + i),
      { s with free := s.free + bs.length, groups := s.groups.map fun g => if g.ctx = r.ctx then { g with colls := g.colls.map note } else g })

/-- Where one access of at most one sector lands, with everything R277 to R292 check. -/
def State.find (s : State) (r : Req) (a : Word) (n : Need) : Found :=
  match s.homeOf r a n.ex with
  | .refused c => .fault c
  | .remote dev => match s.heldOn r a n with
    | [] => .remote dev
    | ls => .held ls
  | .window _ key => .spot ⟨key, 0, false, false⟩ s.mem
  | .host d port =>
    if s.mem.failed.contains (8 + d) then .dead
    else match s.heldOn r a n with
      | [] => s.miss r (.host d port) (bf a 55 0) n
      | ls => .held ls
  | .die d inter =>
    if s.mem.failed.contains (8 + d) then .dead
    else match s.heldOn r a n ++ s.snoopHeld r a n with
      | l :: ls => .held (l :: ls)
      | [] =>
        let va := bf a 55 0
        match s.mem.lines.find? fun l => l.ctx == r.ctx && l.sector == va / 256 with
        | some l =>
          if n.admits r.user l.leaf then
            let p : Spot := ⟨l.key + va % 256, l.tag, bt l.leaf 7, false⟩
            if n.dirties ∧ !bt l.leaf 6 then
              let m := s.mem.touchLeaf l.leafAt true
              .spot p { m with lines := replaceIf (fun x => x.ctx == r.ctx && x.sector == va / 256) (fun x => { x with leaf := x.leaf ||| 0x60 }) m.lines }
            else .spot p s.mem
          else s.fill r (.die d inter) va n
        | none => s.miss r (.die d inter) va n

/-! ### The scalar L1 caches (R280, R281) -/

/-- The 1024-byte lines of a 64 KiB cache (R18, R25). -/
def l1Lines : Nat := 64

/-- What the caches hold after an access of r to the sector of va: the newest sectors first, in no more lines than there are. -/
def l1After (r : Req) (sector key : Nat) (wr : Bool) (c : Core) : Core :=
  let hit (t : L1Tag) : Bool := t.ctx == r.ctx && t.sector == sector
  if c.num == r.core && r.agent == 0 && r.scalar then
    let dirty := wr || c.l1.any fun t => hit t && t.dirty
    { c with l1 := keepLines (fun t => (t.ctx.toNat, t.sector / 4)) l1Lines [] (⟨r.ctx, sector, key, dirty⟩ :: c.l1.filter fun t => !hit t) }
  else if wr || (c.num == r.core && r.evicts) then { c with l1 := c.l1.filter fun t => !hit t }
  else { c with l1 := replaceIf hit (fun t => { t with dirty := false }) c.l1 }

/-- Keeps the directory: windows, host and remote locations are not cached (R277, R343). -/
def State.noteL1 (s : State) (r : Req) (a : Word) (p : Spot) (wr : Bool) : State :=
  if p.host || decide (p.key ≥ 2 ^ 53) then s
  else
    let f := l1After r (bf a 55 0 / 256) (p.key / 256 * 256) wr
    let cores := if r.scalar && r.agent == 0 && s.core.num != r.core && !(s.cores.any (·.num == r.core)) then { num := r.core } :: s.cores else s.cores
    { s with core := f s.core, cores := cores.map f }

/-- An access of r that landed at p: the links it crossed carried it, and the directory keeps what the caches hold. -/
def State.passed (s : State) (r : Req) (a : Word) (n : Need) (p : Spot) (wr : Bool) : State :=
  (s.crossed r.own (s.wayOf r a n ++ s.snoopWay r a n)).noteL1 r a p wr

/-! ### Writes that wait: the stages of the cores, and the hosts (R343 to R345, R349 to R352) -/

/-- Whether bytes lie among others. -/
def meets (key n key' n' : Nat) : Bool := decide (key < key' + n' ∧ key' < key + n)

/-- The nibbles of a sector that a write of these nibbles of n bytes from an offset covers. -/
def nibMask (off n nibs : Nat) : Nat := ((List.range n).map fun i => nibs * 4 ^ (off + i)).sum

/-- A write of poisoned data marks the sector (R306). -/
def MemSys.soiled (m : MemSys) (key : Nat) (own : List Nat) : MemSys :=
  let rest := m.heal.filter (·.sector ≠ key / 256)
  { m.setPoison key with heal := if own.isEmpty then rest else ⟨key / 256, own, 0, true⟩ :: rest }

/-- A write of unpoisoned data into a poisoned sector clears it once its operation has written every nibble of it so, and none otherwise (R306). -/
def MemSys.healed (m : MemSys) (key n nibs : Nat) (own : List Nat) : MemSys :=
  if !m.poisoned key then m
  else
    let h : Heal := (m.heal.find? fun h => h.sector == key / 256 && h.own == own).getD ⟨key / 256, own, 0, false⟩
    let mask := Nat.lor (if own.isEmpty then 0 else h.mask) (nibMask (key % 256) n nibs)
    let clear := { m.clearPoison key with heal := m.heal.filter (·.sector ≠ key / 256) }
    if mask = 2 ^ 512 - 1 ∧ !h.lost then clear
    else if own.isEmpty then m
    else { m with heal := { h with mask := mask } :: m.heal.filter fun x => !(x.sector == key / 256 && x.own == own) }

/-- An operation is over: what it covered counts no more. -/
def MemSys.covered (m : MemSys) (own : List Nat) : MemSys := if m.heal.isEmpty then m else { m with heal := m.heal.filter (·.own ≠ own) }

/-- The bytes of one write in memory, with their poison (R306); a strip slot being filled notes a store (R337). -/
def MemSys.landed (m : MemSys) (p : Spot) (bs : List Byte) (poison : Bool) (own : List Nat := []) (nibs : Nat := 3) : MemSys :=
  let m' := m.putUnder p.tag p.key bs
  let m' := if poison then m'.soiled p.key own else m'.healed p.key bs.length nibs own
  if m'.watch.isEmpty then m' else { m' with watch := m'.watch.map fun w => if meets p.key bs.length w.key w.len then { w with hit := true } else w }

/-- Which staged writes a reader sees besides those that have left every stage (R344). -/
inductive View where
  | home
  | core (c : BitVec 7)
  | own (name : List Nat)
  deriving DecidableEq, Repr

def View.sees (v : View) (e : Staged) : Bool :=
  match v with
  | .home => false
  | .core c => e.core == c
  | .own n => e.own == n

/-- The staged write covers the byte. -/
def Staged.covers (e : Staged) (key : Nat) : Bool := decide (e.key ≤ key ∧ key < e.key + e.data.length)

/-- A byte with the staged writes over it that a reader sees, the newest last. -/
def overlay (v : View) (st : List Staged) (key : Nat) (b : Byte) : Byte :=
  st.foldl (fun b e => if v.sees e && e.covers key then e.data.getD (key - e.key) b else b) b

/-- n bytes as a reader finds them. -/
def MemSys.seen (m : MemSys) (v : View) (tag key n : Nat) : List Byte :=
  if m.stage.isEmpty then m.bytesUnder tag key n else (m.bytesUnder tag key n).mapIdx fun i b => overlay v m.stage (key + i) b

/-- Name of the strand that a core's agent acts for. -/
def Req.strand (r : Req) : List Nat := [0, r.lid.toNat, r.cid.toNat, r.slot.toNat]

/-- An access is an acquire at scope quad or wider, a release at such a scope, one at host scope or wider (R92, R344, R350, R351). -/
def ordAcquires (ord : Byte) : Bool := ord.getLsbD 2 && decide (2 ≤ ord.toNat / 16)
def ordReleases (ord : Byte) : Bool := ord.getLsbD 3 && decide (2 ≤ ord.toNat / 16)
def ordHost (ord : Byte) : Bool := ord.getLsbD 3 && decide (5 ≤ ord.toNat / 16)

/-- What a reader sees (R344). -/
def Req.view (r : Req) (ord : Byte) : View :=
  if r.agent = 0 then (if r.scalar && !ordAcquires ord then .core r.core else .own r.strand) else .home

/-- Staged writes leave their stage, in the order in which they entered it (R343). -/
def MemSys.leaveAll (m : MemSys) (es : List Staged) : MemSys :=
  es.foldl (fun m e => m.landed ⟨e.key, e.tag, false, false⟩ e.data false) m

/-- Every write in the stage of a core leaves it. -/
def MemSys.drainCore (m : MemSys) (c : BitVec 7) : MemSys :=
  if m.stage.isEmpty then m
  else { m.leaveAll (m.stage.filter (·.core == c)) with stage := m.stage.filter (·.core != c) }

def MemSys.drainAll (m : MemSys) : MemSys := if m.stage.isEmpty then m else { m.leaveAll m.stage with stage := [] }

/-- Where n bytes are written by a core's agent, the core's staged writes to any of them leave first (R343). -/
def MemSys.drainFor (m : MemSys) (r : Req) (key n : Nat) : MemSys :=
  if r.agent = 0 ∧ m.stage.any fun e => e.core == r.core && decide (e.key < key + n ∧ key < e.key + e.data.length) then m.drainCore r.core else m

/-- The staged write at a place leaves, unless an earlier one of its core has a byte of it (R343). -/
def MemSys.leave (m : MemSys) (n : Nat) : MemSys :=
  match m.stage[n]? with
  | none => m
  | some e =>
    if (m.stage.take n).any fun x => x.core == e.core && decide (x.key < e.key + e.data.length ∧ e.key < x.key + x.data.length) then m
    else { m.leaveAll [e] with stage := m.stage.eraseIdx n }

/-- Writes under way arrive at their hosts. -/
def MemSys.arriveAll (m : MemSys) (es : List Posted) : MemSys := es.foldl (fun m e => m.landed ⟨e.key, 0, false, true⟩ e.data e.poison e.own e.nibs) m

/-- No write to a host is under way: a read of host memory pushes them before it (R345). -/
def MemSys.flushHost (m : MemSys) : MemSys := if m.posted.isEmpty then m else { m.arriveAll m.posted with posted := [] }

/-- The write at a place arrives: at any time with the attribute, else only as the oldest (R345). -/
def MemSys.hostArrive (m : MemSys) (n : Nat) : MemSys :=
  match m.posted[n]? with
  | none => m
  | some e => if e.relaxed ∨ n = 0 then { m.arriveAll [e] with posted := m.posted.eraseIdx n } else m

/-- A byte of a host lies in a page that answers with an error of PCI Express. -/
def MemSys.hostFails (m : MemSys) (key : Nat) : Bool := decide (2 ^ 64 ≤ key) && m.hostDead.contains (key / 4096)

/-- The write is one that the requester's core keeps in its stage (R343): a scalar write to memory or scratch of the device, which no log
takes. -/
def State.stages (s : State) (r : Req) (p : Spot) (log : Bool) : Bool :=
  r.agent == 0 && r.scalar && !p.host && !log && (s.getCore r.core).staging

/-- The bytes of a write go where they perform: into the stage of the core, on their way to a host, or into memory. -/
def State.writeOut (s : State) (r : Req) (p : Spot) (bs : List Byte) (poison staged strong : Bool) (nibs : Nat) : MemSys :=
  let own := if r.covers then r.own else []
  if staged then { s.mem with stage := s.mem.stage ++ [⟨r.core, r.strand, p.key, p.tag, bs⟩] }
  else if p.host then
    if s.mem.hostFails p.key then s.mem
    else if s.mem.hostHold then { s.mem with posted := s.mem.posted ++ [⟨p.key, bs, poison, !strong, own, nibs⟩] }
    else s.mem.flushHost.landed p bs poison own nibs
  else (s.mem.drainFor r p.key bs.length).landed p bs poison own nibs

/-! ### The Retriever log (R428 to R439) -/

/-- The bytes of an entry as they stand in the segment (R431, R432). -/
def LogRec.bytes (e : LogRec) : List Byte :=
  leBytes 8 e.hdr.toNat ++ leBytes 8 e.w1.toNat ++ leBytes 8 e.w2.toNat ++ leBytes 8 e.w3.toNat
    ++ (if bf e.hdr 63 60 = 2 || bf e.hdr 63 60 = 4 then e.old else [])

/-- SRC of R431. -/
def Req.src (r : Req) : Nat := if r.agent.toNat < 2 then r.agent.toNat * 2 ^ 14 + r.core.toNat * 2 ^ 7 + r.slot.toNat else r.agent.toNat * 2 ^ 14

/-- The header of R431. -/
def logHdr (kind sz : Nat) (p : Bool) (src gen win : Nat) : Word :=
  w64 (kind * 2 ^ 60 + sz * 2 ^ 57 + (if p then 2 ^ 56 else 0) + src * 2 ^ 40 + (gen % 256) * 2 ^ 32 + win % 2 ^ 32)

/-- Bytes between a segment's head and tail. -/
def Retr.used (t : Retr) (seg : Nat) : Nat := vget t.tail seg 0 - vget t.head seg 0

/-- Bytes that an entry of len bytes takes at the tail, with the pad that keeps it from straddling the end (R430). -/
def Retr.takes (t : Retr) (log2 seg len : Nat) : Nat :=
  let off := vget t.tail seg 0 % 2 ^ log2
  if off + len ≤ 2 ^ log2 then len else 2 ^ log2 - off + len

/-- Frees every entry of the windows below w; the heads move past them (R437, R447). -/
def Retr.dropBelow (t : Retr) (w : Nat) : Retr :=
  let keep := t.log.filter fun e => w ≤ bf e.hdr 31 0
  let head (m : Nat) : Nat := ((keep.filter (·.seg = m)).map (·.at_)).foldl min (vget t.tail m 0)
  { t with log := keep, head := Vector.ofFn fun m => head m.val, wlow := w }

/-- Makes room for len bytes in a segment, beside `kept` bytes that are promised to marks, by dropping windows, as often as the fuel says
(R437). -/
def Retr.makeRoom (log2 seg len kept : Nat) : Nat → Retr → Option Retr
  | 0, t => if t.used seg + t.takes log2 seg len + kept ≤ 2 ^ log2 then some t else none
  | fuel + 1, t =>
    if t.used seg + t.takes log2 seg len + kept ≤ 2 ^ log2 then some t
    else if t.wlow < t.whigh then Retr.makeRoom log2 seg len kept fuel (t.dropBelow (t.wlow + 1))
    else none

/-- Bytes of a segment promised to the EXTERNAL marks of writes that other devices have still to perform (R153, R438). -/
def State.promised (s : State) (ctx : BitVec 16) (seg : Nat) : Nat := 32 * (s.fab.txs.filter fun t => t.msg.ctx == ctx && t.room == some seg).length

/-- How an append ends (R437). -/
inductive Appended where
  | ok (s : State)
  | full
  | stall

/-- Appends an entry to a segment of a job's log and writes its bytes to the segment (R429 to R432, R437). The bytes after a pad entry's header,
which R432 calls undefined, are free values (log entry 10). -/
def State.append (s : State) (j : Job) (seg : Nat) (hdr w1 w2 w3 : Word) (old : List Byte) : Appended :=
  let log2 := j.policy.seg
  let kind := bf hdr 63 60
  let len := if kind = 2 || kind = 4 then 32 + old.length else 32
  let room := if len > 2 ^ log2 then none else
    Retr.makeRoom log2 seg len (s.promised j.ctx seg) (if j.policy.pol = 1 then j.retr.whigh - j.retr.wlow else 0) j.retr
  match room with
  | none => if j.policy.pol = 2 ∧ len ≤ 2 ^ log2 then .stall else .full
  | some t =>
    let tail := vget t.tail seg 0
    let pad := t.takes log2 seg len - len
    let base := vget j.policy.bases seg 0
    let padRec : List LogRec := if pad = 0 then [] else
      [⟨seg, tail, pad, logHdr 6 0 false (bf hdr 55 40) (bf hdr 39 32) (bf hdr 31 0), 0, 0, 0, []⟩]
    let e : LogRec := ⟨seg, tail + pad, len, hdr, w1, w2, w3, old⟩
    let rest := if pad = 0 then [] else (List.range (pad - 32)).map fun i => Config.freeByte (s.free + 256 + i)
    let mem := (padRec ++ [e]).foldl (fun m x => m.putRaw (base + x.at_ % 2 ^ log2) x.bytes) (s.mem.putRaw (base + (tail + 32) % 2 ^ log2) rest)
    let t' := { t with tail := vset t.tail seg (tail + pad + len), log := e :: padRec ++ t.log }
    .ok (({ s with mem := mem, free := if pad = 0 then s.free else s.free + 256 + pad }).setJob { j with retr := t' })

/-- The segment that takes the entry of a write landing at a byte number: the home die's, or the core's (R429). -/
def logSeg (p : Spot) : Nat :=
  if p.key ≥ 2 ^ 53 then ((p.key - 2 ^ 53) / 2 ^ 21) / 32
  else if p.key ≥ 2 ^ 52 then (p.key - 2 ^ 52) / 2 ^ 27 else dpaDie p.key

/-- Appends the old value of the bytes at p, at most eight to an entry, or one sector entry of 256 (R117, R431, R433). -/
def State.logBytes (s : State) (r : Req) (a : Word) (p : Spot) : List Nat → Appended
  | [] => .ok s
  | n :: rest =>
    match s.jobOf r.ctx with
    | none => .ok s
    | some j =>
      let bad := s.mem.poisoned p.key
      let old := if bad then (List.range n).map fun i => Config.freeByte (s.free + i) else s.mem.bytesUnder p.tag p.key n
      let win := j.retr.whigh
      let out := if n = 256 then
          s.append j (logSeg p) (logHdr 2 0 bad r.src s.mem.gen.toNat win) a r.stamp 0 old
        else
          s.append j (logSeg p) (logHdr 1 (n - 1) bad r.src s.mem.gen.toNat win) a (w64 (leNat old)) r.stamp old
      match out with
      | .ok s' => State.logBytes (if bad then { s' with free := s'.free + n } else s') r (a + w64 n) { p with key := p.key + n } rest
      | o => o

/-- The sizes of the entries that cover n bytes: one sector entry, or entries of at most eight bytes. -/
def logSizes : Nat → Nat → List Nat
  | 0, _ => []
  | fuel + 1, n => if n = 0 then [] else if n = 256 then [256] else if n ≤ 8 then [n] else 8 :: logSizes fuel (n - 8)

/-- Whether writes of a context are logged at all (R428). -/
def State.logs (s : State) (ctx : BitVec 16) : Bool := match s.jobOf ctx with | some j => j.policy.en | none => false

/-- LogOld of R117: collectives and remote-born writes of other agents do not pass here. -/
def State.logOld (s : State) (r : Req) (a : Word) (p : Spot) (n : Nat) : Appended :=
  if !s.logs r.ctx || p.exempt || p.host then .ok s else s.logBytes r a p (logSizes 256 n)

/-- The segment of a mark (R429). -/
def Req.markSeg (r : Req) : Nat := if r.agent.toNat < 2 then r.core.toNat / 32 else 0

/-- One EXTERNAL mark (R438), and under XSTOP the trap that follows at the strand (R439). -/
def State.mark (s : State) (r : Req) (cause : Nat) (detail : Word) : Appended :=
  match s.jobOf r.ctx with
  | none => .ok s
  | some j =>
    if !j.policy.en then .ok s
    else match s.append j r.markSeg (logHdr 5 cause false r.src s.mem.gen.toNat j.retr.whigh) detail r.stamp r.word [] with
      | .ok s' =>
        if j.policy.xstop ∧ r.agent = 0 ∧ cause ≤ 3 ∧ s'.me.ctx = r.ctx ∧ s'.me.core = r.core ∧ s'.me.slot = r.slot then
          .ok { s' with me := { s'.me with due := { s'.me.due with ext := some (r.word, detail) } } }
        else .ok s'
      | o => o

/-! ### Transactions with other devices (R287, R369 to R372) -/

/-- The body of a memory request (R372). -/
def reqBody (va : Word) (n : Nat) (opc ord : Byte) (numf : Nat) (arg exp : Word) (data : List Byte) : List Byte :=
  leBytes 8 va.toNat ++ leBytes 2 n ++ [opc, ord] ++ leBytes 4 numf ++ leBytes 8 arg.toNat ++ leBytes 8 exp.toNat ++ data

/-- This device's number in the pod (R363). -/
def State.dev (s : State) : BitVec 9 := BitVec.ofNat 9 (bf s.fab.podcfg 8 0)

/-- The device takes part in the pod: EN = 1 and no DUP (R363). -/
def State.inPod (s : State) : Bool := bt s.fab.podcfg 63 && !bt s.fab.podcfg 9

/-- A link entry that carries traffic: up or degraded (R364, R378). -/
def linkCarries (e : Word) : Bool := decide (2 ≤ bf e 33 32)

/-- The link entries of a device as the replica holds them: none 50 ms after its last notice (R375). -/
def State.linksOf (s : State) (d : BitVec 9) : List Word :=
  if d = s.dev then s.fab.ports.toList.map (·.stat)
  else match s.fab.replica.find? (·.dev = d) with
    | some r => if s.clk.ns < r.at_ + 50000000 then r.entries else []
    | none => []

/-- A path of R370: where it ends, its total LAT, and its (device, port) steps as numbers. -/
structure Path where
  dev : BitVec 9
  cost : Nat
  hops : List Nat
  deriving DecidableEq, Repr

/-- The order of equal length paths: the lowest sequence of steps. -/
def hopsLt : List Nat → List Nat → Bool
  | [], [] => false
  | [], _ => true
  | _, [] => false
  | a :: s, b :: t => decide (a < b) || (a == b && hopsLt s t)

/-- Keeps the better of two paths to each device. -/
def addPath (ps : List Path) (p : Path) : List Path :=
  match ps.find? (·.dev = p.dev) with
  | none => ps ++ [p]
  | some q => if p.cost < q.cost ∨ (p.cost = q.cost ∧ hopsLt p.hops q.hops) then replaceIf (·.dev == p.dev) (fun _ => p) ps else ps

/-- The paths of one more step. -/
def State.widen (s : State) (ps : List Path) : List Path :=
  ps.foldl (fun acc p => (((s.linksOf p.dev).mapIdx fun i e => (i, e)).filter fun x => linkCarries x.2 && bt x.2 31).foldl
    (fun acc x => addPath acc ⟨BitVec.ofNat 9 (bf x.2 8 0), p.cost + bf x.2 63 48, p.hops ++ [p.dev.toNat * 64 + x.1]⟩) acc) ps

/-- The paths of at most so many steps. -/
def State.paths (s : State) : Nat → List Path
  | 0 => [⟨s.dev, 0, []⟩]
  | n + 1 => s.widen (s.paths n)

/-- The port by which a message to a device leaves (R370). -/
def State.route (s : State) (d : BitVec 9) : Option Nat :=
  ((s.paths 511).find? (·.dev = d)).bind fun p => p.hops.head?.map (· % 64)

/-- Flits of a message (R371). -/
def msgFlits (m : Msg) : Nat := (32 + m.body.length + 239) / 240

/-- TYPE of the flits that carry a message (R371). -/
def flitType (mt : Byte) : Byte := if mt ≤ 0x05 ∨ mt = 0x28 then 1 else 2

/-- A message as it travels: its 32-byte header and its body (R371). -/
def msgBytes (mt : Byte) (m : Msg) : List Byte :=
  [mt, 0] ++ leBytes 2 m.sdev.toNat ++ leBytes 2 m.ddev.toNat ++ leBytes 2 m.ctx.toNat ++ leBytes 4 m.body.length ++ leBytes 4 0
    ++ leBytes 8 m.tid.toNat ++ leBytes 8 m.stamp.toNat ++ m.body

/-- The payload of a flit: bytes after the message's end are zero (R371). -/
def flitPayload (bs : List Byte) : List Byte := (bs ++ List.replicate 240 0).take 240

/-- Flits of a port that were sent and are not acknowledged. -/
def Port.pending (p : Port) : Nat := (p.unacked.map (·.2.2)).sum - p.unsent

/-- Flit number i of those that are not acknowledged: its TYPE and its payload. -/
def flitAt : List (Byte × Msg × Nat) → Nat → Byte × List Byte
  | [], _ => (0, List.replicate 240 0)
  | (mt, m, k) :: t, i => if i < k then (flitType mt, flitPayload ((msgBytes mt m).drop (240 * (msgFlits m - k + i)))) else flitAt t (i - k)

/-- The pause window W (R368): 112 bytes per ns of the round trip, and 16 KiB. -/
def Port.window (p : Port) : Nat := p.rtt * 112 + 16384

/-- PAUSE in the flits that a port sends: the free space of its receive buffer of 1 MiB, of which each flit takes 256 bytes, is below the
window (R368). -/
def Port.pauses (p : Port) : Bool := decide (2 ^ 20 < 256 * p.buf.length + p.window)

/-- The 256 bytes of a flit (R365). -/
def flitOf (p : Port) (seq : BitVec 12) (type : Byte) (payload : List Byte) : List Byte :=
  let head := seq.toNat * 2 ^ 52 + p.rxSeq.toNat * 2 ^ 40 + (if p.nak then 2 ^ 39 else 0) + (if p.pauses then 2 ^ 38 else 0) + type.toNat % 16 * 2 ^ 34
  let bs := leBytes 8 head ++ payload
  bs ++ leBytes 8 (crc64 bs).toNat

/-- A port sends a flit, which says what is to be said to the peer (R365, R366). -/
def State.sendFlit (s : State) (n : Nat) (seq : BitVec 12) (type : Byte) (payload : List Byte) : State :=
  let p := vget s.fab.ports n {}
  { s with fab := { s.fab with wire := (n, flitOf p seq type payload) :: s.fab.wire, ports := vset s.fab.ports n { p with nak := false } } }

/-- An idle flit. -/
def State.sendIdle (s : State) (n : Nat) : State := s.sendFlit n 0 0 (List.replicate 240 0)

/-- A port starts new flits as far as it may: while its link carries traffic, no pause is asked for, and fewer than 2048 flits are
unacknowledged (R366, R368). The flits of a message follow one another (R371). The fuel bounds the flits and the messages. -/
def State.pump (n : Nat) : Nat → State → State
  | 0, s => s
  | fuel + 1, s =>
    let p := vget s.fab.ports n {}
    if !linkCarries p.stat || p.paused || decide (2048 ≤ p.pending) then s
    else if p.unsent = 0 then
      match p.queue with
      | [] => s
      | (mt, msg) :: rest =>
        let p' := { p with queue := rest, unacked := p.unacked ++ [(mt, msg, msgFlits msg)], unsent := msgFlits msg, ackAt := if p.pending = 0 then s.clk.ns else p.ackAt }
        State.pump n fuel { s with fab := { s.fab with out := ⟨mt, msg, n⟩ :: s.fab.out, ports := vset s.fab.ports n p' } }
    else
      let f := flitAt p.unacked p.pending
      let p' := { p with unsent := p.unsent - 1, txSeq := p.txSeq + 1 }
      State.pump n fuel (({ s with fab := { s.fab with ports := vset s.fab.ports n p' } } : State).sendFlit n p'.txSeq f.1 f.2)

/-- More flits and messages than a port can start before 2048 flits are unacknowledged. -/
def pumpFuel : Nat := 4100

/-- One port takes a message to send. -/
def State.emitAt (s : State) (mt : Byte) (msg : Msg) (n : Nat) : State :=
  let p := vget s.fab.ports n {}
  State.pump n pumpFuel { s with fab := { s.fab with ports := vset s.fab.ports n { p with queue := p.queue ++ [(mt, msg)] } } }

/-- Hands a message to ports. -/
def State.emit (s : State) (mt : Byte) (msg : Msg) (ports : List Nat) : State := ports.foldl (fun s n => s.emitAt mt msg n) s

/-- A message that its source sends again until it is answered: a request or its response, an admission, PROPOSE, ANSWER, COMMIT, CACK, CHUNK
(R369, R370, R377). -/
def isRepeated (mt : Byte) : Bool := decide (mt.toNat ≤ 0x11) || [0x23, 0x24, 0x25, 0x26, 0x28].contains mt.toNat

/-- Sends a message to another device by the route now current. Without one, a message that its source repeats is lost; DEDUCED from R366: any
other waits in the hub (R370). -/
def State.send (s : State) (mt : Byte) (msg : Msg) : State :=
  if !s.inPod then s else match s.route msg.ddev with
    | some p => s.emit mt msg [p]
    | none => if isRepeated mt then s else { s with fab := { s.fab with stranded := s.fab.stranded ++ [(mt, msg)] } }

/-- The data bytes of a transaction, which its admission names (R372 to R374): of a chunk from 0x40, of a response from 0x08, of a request from
0x20 of its body. -/
def msgDataBytes (mt : Byte) (body : List Byte) : Nat := body.length - (if mt = 0x28 then 0x40 else if mt = 0x05 then 8 else 0x20)

/-- Starts a transaction: its admission is asked for first (R369), and it takes the next identifier (R371). -/
def State.startTx (s : State) (own : List Nat) (mt : Byte) (dev : BitVec 9) (ctx : BitVec 16) (body : List Byte) (room : Option Nat := none) : State :=
  let hub := s.clk.hub + 1
  let tid := s.fab.nextTid
  let msg : Msg := ⟨s.dev, dev, ctx, tid, hub, body⟩
  let adm : Msg := ⟨s.dev, dev, 0, tid, hub, leBytes 8 (msgDataBytes mt body) ++ leBytes 4 1 ++ leBytes 4 0⟩
  let tx : Tx := { own := own, tid := tid, mt := mt, msg := msg, at_ := s.clk.ns, admitted := false, tries := 1, wait := 0, resp := none, room := room }
  ({ s with clk := { s.clk with hub := hub }, fab := { s.fab with nextTid := tid + 1, txs := s.fab.txs ++ [tx] } }).send 0x10 adm

/-- Transactions whose requester takes no answer to them any more: those under way are performed and answered all the same. -/
def State.disown (s : State) (mine : Tx → Bool) : State :=
  { s with fab := { s.fab with txs := (s.fab.txs.filter fun t => !(mine t && t.resp.isSome)).map fun t => if mine t then { t with own := [15], room := none } else t } }

/-- The trap code of a response's status, if it names one (R372). -/
def respTrap (m : Msg) : Option Byte :=
  match numAt m.body 0 1 with
  | 0x01 => some cXLATE
  | 0x04 => some cXLATE
  | 0x05 => some cPROT
  | 0x06 => some cPOISON
  | _ => none

/-- One request to another device: started once, waited for, and its response taken once; a status that names a trap raises it. -/
def State.remoteCall (s : State) (r : Req) (mt : Byte) (dev : BitVec 9) (body : List Byte) (room : Option Nat := none) : Att Msg :=
  match s.fab.txs.find? fun t => t.own == r.own && t.mt == mt && t.msg.ddev == dev && t.msg.body == body with
  | none => .wait (if r.quiet && !(s.fab.txs.any fun t => t.own == r.own && t.resp.isSome && t.mt != 0x01) then s else s.startTx r.own mt dev r.ctx body room)
  | some t => match t.resp with
    | none => .wait s
    | some m =>
      let s' : State := { s with fab := { s.fab with txs := s.fab.txs.filter (·.tid ≠ t.tid) } }
      match respTrap m with
      | some c => .trap c s'
      | none => .ok m s'

/-- A request that writes at another device, with the EXTERNAL mark of a write that it performs (R438). The mark's room is promised before
the request goes, and the mark made once the response says that the home performed it, so that a refusal there comes before LOGFULL (R153).
Without room the home is asked by a READ of the same bytes whether it refuses them. -/
def State.remoteWrite (s : State) (r : Req) (a : Word) (n : Nat) (mt : Byte) (dev : BitVec 9) (body : List Byte) (marks : Bool) (wrote : Msg → Bool) : Att Msg :=
  let under := s.fab.txs.any fun t => t.own == r.own && t.mt == mt && t.msg.ddev == dev && t.msg.body == body
  match if marks && !under then s.mark r 2 a else .ok s with
  | .stall => .wait s
  | .full => match s.remoteCall r 0x01 dev (reqBody a n 0 0 0 0 0 []) with
    | .ok _ s' => .trap cLOGFULL s'
    | o => o
  | .ok _ =>
    let logs := match s.jobOf r.ctx with | some j => j.policy.en | none => false
    match s.remoteCall r mt dev body (if marks && logs then some r.markSeg else none) with
    | .ok m s' => if marks && wrote m then (match s'.mark r 2 a with | .ok s'' => .ok m s'' | _ => .ok m s') else .ok m s'
    | o => o

/-! ### Reads, writes and read-modify-writes -/

/-- The links carry a request that went to another device since s. -/
def State.sentOn (t s : State) (r : Req) (a : Word) (n : Need) : State :=
  if t.fab.txs.length = s.fab.txs.length then t else t.crossed r.own (s.wayOf r a n)

/-- MemRead of R117 for at most one sector: the bytes and their poison. What a host answers with an error is undefined. -/
def State.memRead (s : State) (r : Req) (a : Word) (n : Nat) (need : Need) (ord : Byte := 0) : Att (List Byte × Bool) :=
  match s.find r a need with
  | .fault c => .trap c s
  | .dead => .ok (List.replicate n 0, true) s
  | .held _ => .wait (s.holdAt r a need)
  | .spot p m =>
    if p.host then
      if m.hostFails p.key then
        .ok ((List.range n).map fun i => Config.freeByte (s.free + i), false) { s with mem := m, free := s.free + n }
      else
        let m := m.flushHost
        .ok (m.bytesUnder p.tag p.key n, m.poisoned p.key) (({ s with mem := m }).passed r a need p false)
    else .ok (m.seen (r.view ord) p.tag p.key n, m.poisoned p.key) (({ s with mem := m }).passed r a need p false)
  | .remote dev =>
    match s.remoteCall r 0x01 dev (reqBody a n 0 ord 0 0 0 []) with
    | .wait s' => .wait (s'.sentOn s r a need)
    | .trap c s' => .trap c s'
    | .ok msg s' => .ok ((msg.body.drop 8).take n, numAt msg.body 1 1 % 2 = 1) s'

/-- What a write must know of the instruction it belongs to: whether it already made its EXTERNAL mark (R438), and
whether old values are logged (collectives and restores log none, R433). -/
structure WMode where
  marked : Bool := false
  log : Bool := true
  /-- The nibbles of each byte that the write changes: 3 for both. -/
  nibs : Nat := 3
  deriving DecidableEq, Repr

/-- What a release does before its write: at quad or wider, every write in the core's stage leaves it (R350). -/
def State.released (s : State) (r : Req) (ord : Byte) : State :=
  if ordReleases ord && r.agent == 0 then { s with mem := s.mem.drainCore r.core } else s

/-- MemWrite of R117 for at most one sector, with LogOld or an EXTERNAL mark before it. DESIGN CHOICE: a page of a host whose leaf has L = 1 takes
the mark like any other: R438 names no exemption, and R165 exempts it from old values. -/
def State.memWrite (s : State) (r : Req) (a : Word) (bs : List Byte) (poison : Bool) (need : Need) (w : WMode) (ord : Byte := 0) : Att Unit :=
  match s.find r a need with
  | .fault c => .trap c s
  | .dead => .trap cPOISON s
  | .held _ => .wait (s.holdAt r a need)
  | .spot p m =>
    let s1 := ({ s with mem := m } : State).released r ord
    let logged := if !w.log then Appended.ok s1
      else if p.host then (if w.marked then .ok s1 else s1.mark r 1 a) else s1.logOld r a p bs.length
    match logged with
    | .full => .trap cLOGFULL s
    | .stall => .wait s
    | .ok s2 =>
      let staged := s2.stages r p (w.log && s2.logs r.ctx && !p.exempt)
      let (bs, s2) := s2.disturbed r a bs
      .ok () (({ s2 with mem := s2.writeOut r p bs poison staged (r.strong || ordHost ord) w.nibs }).passed r a need p true)
  | .remote dev =>
    let body := reqBody a bs.length 0 (ord ||| (if poison then 1 else 0)) 0 0 0 bs
    match (s.released r ord).remoteWrite r a bs.length 0x02 dev body (w.log && !w.marked) (fun _ => true) with
    | .wait s' => .wait (s'.sentOn s r a need)
    | .trap c s' => .trap c s'
    | .ok _ s' => .ok () s'

/-- The new value of an atomic on n bytes, by scalar major opcode; none when nothing is written (R168, R169, R175). -/
def atomicNew (opc n old arg exp : Nat) : Option Nat :=
  let b := arg % 2 ^ (8 * n)
  let so := sgn (8 * n) old
  let sb := sgn (8 * n) b
  match opc with
  | 0x2D => some b
  | 0x2E => some ((old + b) % 2 ^ (8 * n))
  | 0x2F => some (Nat.land old b)
  | 0x30 => some (Nat.lor old b)
  | 0x31 => some (Nat.xor old b)
  | 0x32 => some (if so ≤ sb then old else b)
  | 0x33 => some (if so ≤ sb then b else old)
  | 0x34 => some (min old b)
  | 0x35 => some (max old b)
  | 0x36 => if old = exp % 2 ^ (8 * n) then some b else none
  | _ => some ((old + b) % 2 ^ (8 * n))

/-- The atomics that a host accepts, SIGNAL among them as the AADD.d that it is (R170, R175). -/
def hostAtomic (opc : Nat) : Bool := opc == 0x2D || opc == 0x2E || opc == 0x36 || opc == 0x3A

/-- A read-modify-write of n bytes at home: `new` gives what is written for an old value, nothing for a CAS that does not match; `sure` says
that it always writes. Nothing is written and nothing logged when the old value is poisoned. A host may refuse the operation, or fail and
have performed it or not (R170). -/
def State.modify (s : State) (r : Req) (a : Word) (n : Nat) (ord : Byte) (hostTakes sure : Bool) (new : Nat → Option Nat) : Att Nat :=
  let need : Need := if sure then .both else .probe
  match s.find r a need with
  | .fault c => .trap c s
  | .dead => .trap cPOISON s
  | .held _ => .wait (s.holdAt r a need)
  | .remote _ => .wait s
  | .spot p m0 =>
    let m0 := (if p.host then m0.flushHost else m0.drainFor r p.key n)
    if p.host && !hostTakes then .trap cPROT s
    else if p.host && m0.hostFails p.key then
      let kept : State := { s with mem := m0, free := s.free + 1 }
      match new (leNat (m0.bytesUnder p.tag p.key n)) with
      | some x => .trap cPROT (if Config.freeChoice s.free % 2 = 0 then kept else { kept with mem := m0.landed p (leBytes n x) false })
      | none => .trap cPROT kept
    else if m0.poisoned p.key then .trap cPOISON s
    else
      let old := leNat (m0.bytesUnder p.tag p.key n)
      match new old with
      | none => .ok old (({ s with mem := m0 } : State).passed r a .probe p false)
      | some x => match if sure then Found.spot p m0 else ({ s with mem := m0 } : State).find r a .both with
        | .spot p m =>
          let s1 := ({ s with mem := m } : State).released r ord
          match if p.host then s1.mark r 1 a else s1.logOld r a p n with
          | .full => .trap cLOGFULL s
          | .stall => .wait s
          | .ok s2 =>
            let (bs, s3) := s2.disturbed r a (leBytes n x)
            .ok old (({ s3 with mem := s3.mem.landed p bs false }).passed r a .both p true)
        | _ => .trap cPROT s

/-- An atomic, CAS or SIGNAL: the old value (R168 to R170, R175). -/
def State.memAtomic (s : State) (r : Req) (a : Word) (opc n : Nat) (arg exp : Word) (ord : Byte) : Att Nat :=
  match s.find r a (if opc = 0x36 then .probe else .both) with
  | .remote dev =>
    let body := reqBody a n (BitVec.ofNat 8 opc) ord 0 arg (if opc = 0x36 then exp else 0) []
    let good (m : Msg) : Bool := numAt m.body 1 1 % 2 != 1
    let wrote (m : Msg) : Bool := good m && (atomicNew opc n (numAt m.body 8 n) arg.toNat exp.toNat).isSome
    match (s.released r ord).remoteWrite r a n 0x03 dev body true wrote with
    | .wait s' => .wait (s'.sentOn s r a .both)
    | .trap c s' => .trap c s'
    | .ok m s' => if good m then .ok (numAt m.body 8 n) s' else .trap cPOISON s'
  | _ => s.modify r a n ord (hostAtomic opc) (opc != 0x36) fun old => atomicNew opc n old arg.toNat exp.toNat

/-- R167: the scope of an ordered access holds the agents that can reach the address. -/
def State.scopeOk (s : State) (r : Req) (a : Word) (sc : Nat) : Bool :=
  match s.homeOf r a false with
  | .host _ _ => decide (5 ≤ sc)
  | .remote _ => decide (7 ≤ sc)
  | _ => true

end Sys2Proof.Machine
end

