-- ==== Sys2Proof/Machine/Work.lean ====
section
/-! DEFINITION. The objects of work and their endings: handles, completion words, attachment, completion, cancel, the end of
strands and crews (R33 to R56, R457 to R459), and the trace records that they make (R451). -/

namespace Sys2Proof.Machine

/-! ### Trace records (R451, R456) -/

def TrcRec.bytes (r : TrcRec) : List Byte :=
  let len := (32 + r.more.length) / 32
  leBytes 8 (r.type.toNat * 2 ^ 56 + r.src.toNat * 2 ^ 40 + len * 2 ^ 32 + r.aux.toNat) ++ leBytes 8 r.stamp.toNat
    ++ leBytes 8 r.a.toNat ++ leBytes 8 r.b.toNat ++ r.more

/-- Writes a record to the trace buffer, or counts it as lost when the buffer is full. -/
def State.putRecord (s : State) (r : TrcRec) : State :=
  let n := r.bytes.length
  if s.trc.tail + n ≤ 2 ^ (bf s.trc.cfg 51 48 + 20) then
    { s with trc := { s.trc with recs := r :: s.trc.recs, tail := s.trc.tail + n }
             mem := s.mem.putRaw (s.trc.base.toNat + s.trc.tail) r.bytes }
  else { s with trc := { s.trc with lost := min (2 ^ 32 - 1) (s.trc.lost + 1) } }

/-- Hands a record to the trace unit: dropped without a session, and after a queue reset when its stamp is later (R456). -/
def State.record (s : State) (r : TrcRec) : State :=
  if !s.trc.open_ then s
  else match s.trc.reset with
    | some (rs, t, n) =>
      if r.stamp.toNat ≤ rs.toNat then s.putRecord r else { s with trc := { s.trc with reset := some (rs, t, n + 1) } }
    | none => s.putRecord r

/-- A record of types 1 to 8, made when its type is enabled for the context. -/
def State.trace (s : State) (ctx : BitVec 16) (type : Nat) (src : Nat) (stamp a b : Word) (aux : Nat) (more : List Byte) : State :=
  if s.trc.open_ && bf s.trc.cfg 47 32 == ctx.toNat && bt s.trc.cfg type then
    s.record ⟨BitVec.ofNat 8 type, BitVec.ofNat 16 src, BitVec.ofNat 32 aux, stamp, a, b, more⟩
  else s

/-- SRC of a package agent (R431). -/
def srcPackage : Nat := 0x8000

/-! ### Strands and crews of the state -/

def State.allStrands (s : State) : List Strand := s.me :: s.strands

def State.mapStrands (s : State) (f : Strand → Strand) : State := { s with me := f s.me, strands := s.strands.map f }

def State.mapCrews (s : State) (f : Crew → Crew) : State := { s with crew := f s.crew, crews := s.crews.map f }

def State.mapCores (s : State) (f : Core → Core) : State := { s with core := f s.core, cores := s.cores.map f }

/-- Puts away the strand whose turn it is, with its crew and core, and brings strand k in; unchanged when there is no k. -/
def State.switchTo (s : State) (k : SId) : State :=
  if s.me.id = k ∧ s.me.run ≠ .idle then s
  else match s.strands.find? (·.id = k) with
    | none => s
    | some n =>
      let away := if s.me.run = .idle then [] else [s.me]
      let strands := away ++ s.strands.filter (·.id ≠ k)
      let same (c : Crew) : Bool := c.lid == n.id.lid && c.cid == n.id.cid
      let crews := (if s.crew.strands = 0 ∨ s.me.run = .idle then [] else [s.crew]) ++ s.crews
      let cores := s.core :: s.cores
      { s with me := n, strands := strands, crew := (crews.find? same).getD {}, crews := crews.filter fun c => !same c
               core := (cores.find? (·.num = n.core)).getD { num := n.core }, cores := cores.filter (·.num ≠ n.core) }

/-- A strand on a core that has not ended and is not pre-empted (R140: placed). -/
def Strand.onCore (k : Strand) : Bool := k.run == .starting || k.run == .running || k.run == .held

/-- The strand of a name, wherever it stands. -/
def State.strandOf (s : State) (k : SId) : Option Strand := s.allStrands.find? fun x => x.id == k && x.run != .idle

/-! ### Lifetime records (R463, R466) -/

/-- Adds 1 to a lifetime record, saturating. -/
def State.life (s : State) (cls idx : Nat) : State :=
  let k := cls * 2 ^ 16 + idx
  { s with house := { s.house with counts := kvSet s.house.counts k (min (2 ^ 64 - 1) (kvGet s.house.counts k + 1)) } }

def State.mapDomain (s : State) (d : Nat) (f : Domain → Domain) : State :=
  { s with house := { s.house with domains := vset s.house.domains d (f (vget s.house.domains d {})) } }

/-- RATE at a time: the errors of the last 60 minutes. -/
def Domain.counted (x : Domain) (now : Nat) : Domain :=
  let errs := x.errs.filter fun t => decide (now < t + 3600000000000)
  { x with errs := errs, rate := errs.length }

/-- An error that RATE of a domain counts, against the threshold of PFTHR. -/
def State.domainError (s : State) (d : Nat) : State :=
  let now := s.clk.ns
  s.mapDomain d fun x =>
    let x := ({ x with errs := now :: x.errs, measErrs := if x.meas then x.measErrs + 1 else x.measErrs } : Domain).counted now
    if s.house.pfthr.toNat < 4 * x.rate then { x with quietSince := now } else x

/-- Errors older than 60 minutes leave the RATEs that count them. -/
def State.ageErrors (s : State) : State :=
  let now := s.clk.ns
  let quiet (x : Domain) : Bool := decide (4 * x.rate ≤ s.house.pfthr.toNat)
  let age (x : Domain) : Domain :=
    if x.errs.any fun t => decide (t + 3600000000000 ≤ now) then
      let y := x.counted now
      if quiet y && !quiet x then { y with quietSince := now } else y
    else x
  { s with house := { s.house with domains := s.house.domains.map age } }

/-- A voted correction at a pair of lane groups of a core (R218, R423). -/
def State.votedCorrection (s : State) (core : BitVec 7) (pair : Nat) : State :=
  (s.life 6 (core.toNat * 16 + pair % 8 * 2)).domainError (core.toNat / 4)

/-- An SDC trap at a pair of lane groups of a core (R423, R466). -/
def State.sdcTrap (s : State) (core : BitVec 7) (pair : Nat) : State :=
  (s.life 6 (core.toNat * 16 + pair % 8 * 2 + 1)).mapDomain (core.toNat / 4) fun x => { x with sdc := true }

/-! ### Handles and completion words (R44, R45) -/

def mkHandle (kind gen slot : Nat) : Word := w64 (kind * 2 ^ 60 + (gen % 2 ^ 31) * 2 ^ 13 + slot)

/-- A handle of KIND 0 with a rejection code. -/
def rejectHandle (err : Nat) : Word := w64 (err * 2 ^ 52)

/-- What every operation on a stale or rejected handle reports. -/
def staleWord : Word := 0x1000000000000000

def compWord (st : BitVec 4) (code : Byte) (out : Nat) : Word := w64 (st.toNat * 2 ^ 60 + code.toNat * 2 ^ 52 + out % 2 ^ 48)

def State.launchAt (s : State) (slot : Nat) : Option Launch := s.cp.launches.find? (·.slot = slot)
def State.graphAt (s : State) (slot : Nat) : Option Graph := s.cp.graphs.find? (·.slot = slot)
def State.phaseAt (s : State) (slot : Nat) : Option Phase := s.cp.phases.find? (·.slot = slot)
def State.jobAt (s : State) (slot : Nat) : Option Job := s.cp.jobs.find? (·.slot = slot)

def State.mapLaunch (s : State) (slot : Nat) (f : Launch → Launch) : State :=
  { s with cp := { s.cp with launches := replaceIf (·.slot == slot) f s.cp.launches } }
def State.mapGraph (s : State) (slot : Nat) (f : Graph → Graph) : State :=
  { s with cp := { s.cp with graphs := replaceIf (·.slot == slot) f s.cp.graphs } }
def State.mapPhase (s : State) (slot : Nat) (f : Phase → Phase) : State :=
  { s with cp := { s.cp with phases := replaceIf (·.slot == slot) f s.cp.phases } }
def State.mapJob (s : State) (slot : Nat) (f : Job → Job) : State :=
  { s with cp := { s.cp with jobs := replaceIf (·.slot == slot) f s.cp.jobs } }

/-- The LID of a launch (R36). -/
def Launch.handle (l : Launch) : Word := mkHandle 1 l.gen l.slot
def Graph.handle (g : Graph) : Word := mkHandle 2 g.gen g.slot
def Phase.handle (p : Phase) : Word := mkHandle 3 p.gen p.slot
def Job.handle (j : Job) : Word := mkHandle 4 j.gen j.slot

/-- The object that a handle names for a context: none when it is rejected or stale (R44). -/
def State.object (s : State) (ctx : BitVec 16) (h : Word) : Option Parent :=
  let slot := bf h 12 0
  let gen := bf h 43 13
  if bf h 59 44 ≠ 0 then none
  else match bf h 63 60 with
    | 1 => ((s.launchAt slot).filter fun l => l.gen % 2 ^ 31 == gen && l.ctx == ctx && !l.orphan).map fun _ => .launch slot
    | 2 => ((s.graphAt slot).filter fun g => g.gen % 2 ^ 31 == gen && g.ctx == ctx && !g.orphan).map fun _ => .graph slot
    | 3 => ((s.phaseAt slot).filter fun p => p.gen % 2 ^ 31 == gen && p.ctx == ctx && !p.orphan).map fun _ => .phase slot
    | 4 => ((s.jobAt slot).filter fun j => j.gen % 2 ^ 31 == gen && j.live && j.ctx == ctx).map fun _ => .job slot
    | _ => none

/-- The completion word of an object, and the clock recorded with it (R45, R154). -/
def State.wordOf (s : State) : Parent → Word × Word
  | .launch n => ((s.launchAt n).map fun l => (compWord l.state l.code l.out, l.clk)).getD (staleWord, 0)
  | .graph n => ((s.graphAt n).map fun g => (compWord g.state g.code g.out, g.clk)).getD (staleWord, 0)
  | .phase n => ((s.phaseAt n).map fun p => (compWord p.state p.code p.out, p.clk)).getD (staleWord, 0)
  | .job n => ((s.jobAt n).map fun j => (compWord 0 j.code j.out, j.clk)).getD (staleWord, 0)

/-- A slot for a new object: one never used while any remains, else that of the object completed earliest (R459).
The entries give slot, generation and order of completion. -/
def allocSlot (n : Nat) (used : List (Nat × Nat × Option Nat)) : Nat × Nat :=
  if used.length < n then (used.length, 0)
  else
    let done := used.filterMap fun u => u.2.2.map fun d => (d, u.1, u.2.1)
    match done.foldl (fun (best : Option (Nat × Nat × Nat)) x => match best with
        | none => some x
        | some b => if x.1 < b.1 then some x else some b) none with
    | some (_, slot, gen) => (slot, gen + 1)
    | none => (0, 0)

/-! ### Completion (R46, R48, R56, R459) -/

/-- The command processor's clock after a message with a stamp (R452). -/
def State.cpHears (s : State) (stamp : Word) : State := { s with clk := { s.clk with cp := maxW s.clk.cp stamp } }

def State.cpTick (s : State) : State := { s with clk := { s.clk with cp := s.clk.cp + 1 } }

/-- Sets the event flag of every strand of a context (R175). -/
def State.wake (s : State) (ctx : BitVec 16) : State :=
  s.mapStrands fun k => if k.ctx = ctx ∧ k.run ≠ .idle then { k with event := true } else k

/-- A completion word changed: the command processor's clock advances and is recorded, also on the launch timelines that hold
the object, and event flags are set (R154, R175, R328). -/
def State.changed (s : State) (p : Parent) (ctx : BitVec 16) : State :=
  let s := (s.cpTick).wake ctx
  let h : Option Word := match p with
    | .launch n => (s.launchAt n).map Launch.handle
    | .graph n => (s.graphAt n).map Graph.handle
    | _ => none
  let s := s.mapStrands fun k =>
    if h.isSome ∧ k.ctx = ctx ∧ (k.as.ltl.any fun e => e.handle == h) then
      { k with as := { k.as with ltl := replaceIf (fun e => e.handle == h) (fun e => { e with stamp := s.clk.cp }) k.as.ltl } } else k
  match p with
  | .launch n => s.mapLaunch n fun l => { l with clk := s.clk.cp }
  | .graph n => s.mapGraph n fun g => { g with clk := s.clk.cp }
  | .phase n => s.mapPhase n fun x => { x with clk := s.clk.cp }
  | .job n => s.mapJob n fun j => { j with clk := s.clk.cp }

/-- The state in which an object with these marks completes (R48, R56). -/
def finalState (failed cancelled : Bool) : BitVec 4 := if failed then 3 else if cancelled then 2 else 1

def State.nextSeq (s : State) : State := { s with cp := { s.cp with seq := s.cp.seq + 1 } }

/-- The first failure of a part of a job sets the job's CODE for good (R46). -/
def State.jobFails (s : State) (ctx : BitVec 16) (code : Byte) : State :=
  match s.jobOf ctx with
  | none => s
  | some j => if j.code = 0 then (s.mapJob j.slot fun x => { x with code := code }).changed (.job j.slot) ctx else s

/-- A graph whose node launched this launch counts its children too (R46). -/
def State.graphOfChild (s : State) (p : Parent) : Option Nat :=
  match p with
  | .launch n => (s.launchAt n).bind fun l => l.node.map (·.1)
  | _ => none

/-- The node that a completed launch settles (R52, R53). -/
def State.nodeSettles (s : State) (g n : Nat) (st : BitVec 4) (code : Byte) : State :=
  s.mapGraph g fun x => { x with nodes := x.nodes.mapIdx fun i nd =>
    if i = n then { nd with st := if st = 3 then .failed else .completed, code := code, result := st } else nd }

/-- A phase of a job is opened once every earlier one has completed, and the placer may place the launches that packets put into it (R34).
DEDUCED: R73 dates the eligibility of such a launch at the packet's acceptance, R34 keeps its graph back until then: its ELIG and its place
among the 4096 are those of the acceptance, and it waits unplaced. -/
def State.openPhases (s : State) (ctx : BitVec 16) : State :=
  let mine := s.cp.phases.filter fun p => p.ctx == ctx
  let ready (p : Phase) : Bool := mine.all fun q => decide (p.order ≤ q.order) || q.state != 0
  let s := { s with cp := { s.cp with phases := replaceIf (fun p => p.ctx == ctx && ready p) (fun p => { p with opened := true }) s.cp.phases } }
  let waits (l : Launch) : Bool := !l.eligible && l.ctx == ctx && (match l.node.bind fun x => s.graphAt x.1 with
    | some g => match g.parent with
      | .phase n => ((s.phaseAt n).map (·.opened)).getD false
      | _ => false
    | none => false)
  { s with cp := { s.cp with launches := replaceIf waits (fun l => { l with eligible := true }) s.cp.launches } }

/-- A part of object p ended, failed when its code is not 0: OUT falls, and the object completes when it reaches 0,
which ends a part of its own parent. The fuel bounds the depth of the tree of work. -/
def State.partDone : Nat → Parent → Byte → State → State
  | 0, _, _, s => s
  | fuel + 1, p, code, s =>
    match p with
    | .job n => match s.jobAt n with
      | none => s
      | some j => (s.mapJob n fun x => { x with out := x.out - 1, code := if x.code = 0 then code else x.code }).changed (.job n) j.ctx
    | .phase n => match s.phaseAt n with
      | none => s
      | some ph =>
        let ph := { ph with out := ph.out - 1, failed := ph.failed || code != 0, code := if ph.code = 0 then code else ph.code }
        let s := s.mapPhase n fun _ => ph
        let s := match s.jobOf ph.ctx with
          | some j => if ph.out = 0 then s.partDone fuel (.job j.slot) 0 else s
          | none => s
        if ph.out = 0 ∧ ph.state = 0 ∧ (ph.closed ∨ ph.cancelled) then
          (((s.mapPhase n fun x => { x with state := finalState x.failed x.cancelled, doneSeq := some s.cp.seq }).nextSeq).changed (.phase n) ph.ctx).openPhases ph.ctx
        else s.changed (.phase n) ph.ctx
    | .graph n => match s.graphAt n with
      | none => s
      | some g =>
        let g := { g with out := g.out - 1, failed := g.failed || code != 0, code := if g.code = 0 then code else g.code }
        let s := s.mapGraph n fun _ => g
        if g.out = 0 ∧ g.state = 0 then
          let st := finalState g.failed g.cancelled
          let s := ((s.mapGraph n fun x => { x with state := st, doneSeq := some s.cp.seq }).nextSeq).changed (.graph n) g.ctx
          let s := if st = 3 then s.jobFails g.ctx g.code else s
          let s := match s.graphOfChild g.parent with
            | some up => s.partDone fuel (.graph up) 0
            | none => s
          s.partDone fuel g.parent (if st = 3 then g.code else 0)
        else s.changed (.graph n) g.ctx
    | .launch n => match s.launchAt n with
      | none => s
      | some l =>
        let l := { l with out := l.out - 1, failed := l.failed || code != 0, code := if l.code = 0 then code else l.code }
        let s := s.mapLaunch n fun _ => l
        if l.out = 0 ∧ l.state = 0 then
          let st := finalState l.failed l.cancelled
          let s := ((s.mapLaunch n fun x => { x with state := st, doneSeq := some s.cp.seq, notifyDue := l.notify != 0 }).nextSeq).changed (.launch n) l.ctx
          let s := if st = 3 then s.jobFails l.ctx l.code else s
          let s := s.trace l.ctx 3 srcPackage s.clk.cp l.handle (compWord st l.code 0) 0 []
          match l.node with
          | some (g, i) => (s.nodeSettles g i st l.code).partDone fuel (.graph g) (if st = 3 then l.code else 0)
          | none =>
            let s := match s.graphOfChild l.parent with
              | some up => s.partDone fuel (.graph up) 0
              | none => s
            s.partDone fuel l.parent (if st = 3 then l.code else 0)
        else s.changed (.launch n) l.ctx

/-- Fuel for the depth of the tree of work: more than all objects that can be live. -/
def treeDepth : Nat := 16384

def State.ended (s : State) (p : Parent) (code : Byte) : State := s.partDone treeDepth p code

/-! ### Attachment (R34, R46, R56) -/

/-- A cancel of this object was accepted. -/
def State.cancelledObj (s : State) : Parent → Bool
  | .launch n => ((s.launchAt n).map (·.cancelled)).getD false
  | .graph n => ((s.graphAt n).map (·.cancelled)).getD false
  | .phase n => ((s.phaseAt n).map (·.cancelled)).getD false
  | .job _ => false

/-- A child attached to p: OUT rises; a phase counts in its job while it holds an incomplete graph (R46). -/
def State.attach (s : State) (p : Parent) : State :=
  let up (s : State) (p : Parent) : State := match p with
    | .job n => match s.jobAt n with
      | some j => (s.mapJob n fun x => { x with out := x.out + 1 }).changed p j.ctx
      | none => s
    | .phase n => match s.phaseAt n with
      | some x => (s.mapPhase n fun x => { x with out := x.out + 1 }).changed p x.ctx
      | none => s
    | .graph n => match s.graphAt n with
      | some x => (s.mapGraph n fun x => { x with out := x.out + 1 }).changed p x.ctx
      | none => s
    | .launch n => match s.launchAt n with
      | some x => (s.mapLaunch n fun x => { x with out := x.out + 1 }).changed p x.ctx
      | none => s
  let s := match p with
    | .phase n => match (s.phaseAt n).bind fun ph => if ph.out = 0 then s.jobOf ph.ctx else none with
      | some j => up s (.job j.slot)
      | none => s
    | _ => match s.graphOfChild p with
      | some g => up s (.graph g)
      | none => s
  up s p

/-! ### Arrays and chains (R253, R266) -/

/-- Every array of the device. -/
def State.arrays (s : State) : List Arr := s.core.arrays ++ (s.cores.map (·.arrays)).flatten

/-- Dissolves the formed chain that the owner's array belongs to: each array leaves it, and the others' next chained MMAC is to raise CHAIN
(R266). -/
def State.dissolve (s : State) (owner : SId) : State :=
  match (s.arrays.find? (·.owner = owner)).bind fun a => a.chain.map fun _ => a.peers with
  | none => s
  | some peers => s.mapCores fun c =>
      { c with arrays := replaceIf (fun a => peers.contains a.owner) (fun a => { a with chain := none, peers := [], ready := none, broken := true }) c.arrays }

/-- The lane groups of an array, mirrors included (R252). -/
def Arr.holds (a : Arr) (g : Nat) : Bool := decide (a.lg ≤ g ∧ g < a.lg + a.g) || (a.vpm && decide (a.lg + 8 ≤ g ∧ g < a.lg + a.g + 8))

/-- MFREE (R253): the array of a strand ceases to exist and its lane groups return, their arbiters at zero (R141). -/
def State.freeArray (s : State) (owner : SId) : State :=
  (s.dissolve owner).mapCores fun c =>
    { c with arrays := c.arrays.filter (·.owner ≠ owner)
             arbs := (c.arrays.filter (·.owner = owner)).foldl (fun v a => Vector.ofFn fun i => if a.holds i.val then {} else v[i]) c.arbs }

/-! ### The end of strands and crews (R457, R458) -/

def State.releaseFrame (s : State) (f : Option Nat) : State :=
  match f with
  | none => s
  | some n => { s with mem := { s.mem with frames := setDel s.mem.frames n } }

/-- The crew whose turn it is ends: arrays are freed, its resources return, its launch's OUT falls (R458). -/
def State.crewEnds (s : State) : State :=
  let c := s.crew
  let mine (k : Strand) : Bool := k.id.lid == c.lid && k.id.cid == c.cid
  let team := s.allStrands.filter mine
  let s := team.foldl (fun s k => s.freeArray k.id) s
  let s := team.foldl (fun s k => s.cpHears k.lclk) s
  let s := { s.releaseFrame c.frame with me := {}, crew := {}, strands := s.strands.filter fun k => !mine k }
  s.ended (.launch c.launch) c.code

/-- What a strand's matrix instructions wait for is withdrawn when its vector work stops: the claim of an MMODE, whose lane groups return with
their arbiters at zero (R141, R251), the arrival of an MCHAIN and the readiness of a chained MMAC (R266, R267, R408). -/
def State.withdraw (s : State) (k : SId) : State :=
  s.mapCores fun c =>
    { c with claims := c.claims.filter (·.1 ≠ k)
             arbs := if c.claims.any (·.1 = k) then Vector.ofFn fun i => if c.claims.any fun x => x.1 == k && x.2.contains i.val then {} else c.arbs[i] else c.arbs
             arrays := replaceIf (fun a => a.owner == k) (fun a => { a with arrived := none, ready := none }) c.arrays }

/-- The strand whose turn it is ends; code is that of a failure, 0 for HALT, CANCEL for a cancelled end (R47, R48, R457). -/
def State.strandEnds (s : State) (code : Byte) : State :=
  let k := s.me
  let s := (s.withdraw k.id).releaseFrame k.alloc.frame
  let s := { s with mem := s.mem.drainCore k.core }
  let me : Strand := { k with run := .ended, replay := [], q := [], win := [], as := { k.as with stat := [] }, due := {}, alloc := { k.alloc with frame := none } }
  let crew : Crew := { s.crew with
    live := s.crew.live - 1
    code := if s.crew.code = 0 ∧ code ≠ cCANCEL then code else s.crew.code }
  let s := (({ s with me := me, crew := crew }).dissolve k.id)
  if crew.live = 0 then s.crewEnds else s

/-! ### Cancel (R55, R56, R424) -/

/-- Whether object p stands under q, q itself included; the fuel bounds the climb. -/
def State.under (s : State) (q : Parent) : Nat → Parent → Bool
  | 0, _ => false
  | fuel + 1, p => p == q || match p with
    | .launch n => match s.launchAt n with
      | some l => match l.node with
        | some (g, _) => s.under q fuel (.graph g)
        | none => s.under q fuel l.parent
      | none => false
    | .graph n => match s.graphAt n with
      | some g => s.under q fuel g.parent
      | none => false
    | .phase n => match s.phaseAt n with
      | some ph => match s.jobOf ph.ctx with
        | some j => s.under q fuel (.job j.slot)
        | none => false
      | none => false
    | .job _ => false

/-- n times a part of p ends without failure. -/
def State.endedTimes (s : State) (p : Parent) : Nat → State
  | 0 => s
  | n + 1 => State.endedTimes (s.ended p 0) p n

/-- The crews of a launch that pre-emption returned, dropped: their units lose their owner, their frames go (R403, R413). -/
def State.dropPreempted (s : State) (lid : Word) : State :=
  let away (k : Strand) : Bool := s.crews.any fun c => c.lid == k.id.lid && c.cid == k.id.cid && !c.placed
  let gone (k : Strand) : Bool := k.id.lid == lid && away k
  let frames := (s.strands.filter gone).filterMap (·.alloc.frame) ++ ((s.crews.filter fun c => c.lid == lid && !c.placed).filterMap (·.frame))
  let s := (s.strands.filter gone).foldl (fun s k => s.freeArray k.id) s
  { s with strands := s.strands.filter fun k => !gone k, crews := s.crews.filter fun c => !(c.lid == lid && !c.placed)
           mem := { s.mem with frames := frames.foldl setDel s.mem.frames } }

/-- A cancelled launch drops its unplaced crews, and its placed strands owe the CANCEL trap (R55, R424). -/
def State.cancelLaunch (s : State) (h : Word) (n : Nat) : State :=
  match s.launchAt n with
  | none => s
  | some l =>
    if l.state ≠ 0 then s
    else
      let crews := bf l.shape 63 48
      let dropped := (crews - l.nextCid) + (s.crews.filter fun c => c.lid == l.handle && !c.placed).length
      let s := s.dropPreempted l.handle
      let s := s.mapLaunch n fun x => { x with nextCid := crews, returned := [] }
      let s := s.mapStrands fun k =>
        if k.id.lid = l.handle ∧ k.onCore ∧ k.due.cancel = none ∧ k.due.cancelled = none then
          { k with due := { k.due with cancel := some (h, s.clk.ns) } } else k
      s.endedTimes (.launch n) dropped

/-- A node of a cancelled graph that ends at once (R55): one not yet running, a running wait node, a launch node that has no launch yet and a
collective node that is not issued yet. -/
def Node.dropped (nd : Node) : Bool :=
  nd.st == .pending || (nd.st == .running && (nd.kind == 5 || ((nd.kind == 1 || nd.kind == 3) && nd.coll.isNone)))

/-- Nodes of a cancelled graph that do not run are skipped; running wait nodes end; running copy nodes are asked to stop (R55). A running
collective node is stopped by the Sheepdog (R393). What a dropped node has asked of other devices is forgotten. -/
def State.cancelGraph (s : State) (n : Nat) : State :=
  match s.graphAt n with
  | none => s
  | some g =>
    let count := (g.nodes.filter Node.dropped).length
    let stop (nd : Node) : Node :=
      if nd.dropped then { nd with st := if nd.st = .pending then .skipped else .completed, result := 2 }
      else if nd.st = .running ∧ nd.kind = 2 then { nd with copy := nd.copy.map fun c => { c with stop := some 0x10 } }
      else nd
    let gone (own : List Nat) : Bool := (List.range g.nodes.length).any fun i => own == [3, g.slot, g.gen, i] && (g.nodes[i]?.map Node.dropped).getD false
    let s := s.mapGraph n fun x => { x with nodes := x.nodes.map stop }
    let s := s.disown fun t => gone t.own
    s.endedTimes (.graph n) count

/-- A cancel of an object is accepted (R55, R56): everything under it is marked, then stopped. The result is its
completion word as it stood. -/
def State.cancelObj (s : State) (h : Word) (p : Parent) : Word × State :=
  let word := (s.wordOf p).1
  let live (q : Parent) : Bool := s.under p treeDepth q
  let ls := (s.cp.launches.filter fun l => l.state == 0 && !l.cancelled && live (.launch l.slot)).map (·.slot)
  let gs := (s.cp.graphs.filter fun g => g.state == 0 && !g.cancelled && live (.graph g.slot)).map (·.slot)
  let ps := (s.cp.phases.filter fun x => x.state == 0 && !x.cancelled && live (.phase x.slot)).map (·.slot)
  let s := { s with cp := { s.cp with
    launches := replaceIf (fun l => ls.contains l.slot) (fun l => { l with cancelled := true }) s.cp.launches
    graphs := replaceIf (fun g => gs.contains g.slot) (fun g => { g with cancelled := true }) s.cp.graphs
    phases := replaceIf (fun x => ps.contains x.slot) (fun x => { x with cancelled := true }) s.cp.phases
    claim := if (s.cp.claim.map ls.contains).getD false then none else s.cp.claim } }
  let s := ls.foldl (fun s n => s.cancelLaunch h n) s
  let s := gs.foldl (fun s n => s.cancelGraph n) s
  let s := { s with groups := s.groups.map fun gr => { gr with colls := gr.colls.map fun c =>
    match c.node with
    | some (g, _) => if gs.contains g ∧ c.fc = none then { c with cancel := true } else c
    | none => if ls.any (fun n => ((s.launchAt n).map (·.handle)) == some c.lid) ∧ c.fc = none then { c with cancel := true } else c } }
  let done (s : State) (n : Nat) : State := match s.phaseAt n with
    | some x => if x.out = 0 ∧ x.state = 0 then
        ((((s.mapPhase n fun y => { y with state := finalState y.failed true, doneSeq := some s.cp.seq }).nextSeq).changed (.phase n) x.ctx).openPhases x.ctx) else s
    | none => s
  (word, ps.foldl done s)

/-! ### New objects (R43, R49 to R51, R73) -/

/-- The state of a wait in which nothing of an attempt counts but the transactions it started: responses that it used
stay for the next attempt, and the links that hold the access go on holding it. -/
def State.waitKeeping (s0 s : State) : State :=
  { s0 with fab := { s.fab with txs := s0.fab.txs ++ s.fab.txs.filter fun t => !(s0.fab.txs.any (·.tid = t.tid)) }, clk := s.clk, links := s.links }

/-- n bytes at a virtual address as a package agent of a context reads them, at most a sector at a time; poison counts as a
fault. On a wait nothing else of the attempt counts. The fuel bounds the pieces. -/
def State.cpRead (s0 s : State) (r : Req) : Nat → Word → Nat → Att (List Byte)
  | 0, _, _ => .ok [] s
  | fuel + 1, a, n =>
    if n = 0 then .ok [] s
    else
      let k := min n (256 - a.toNat % 256)
      match s.memRead r a k .read with
      | .trap c s' => .trap c s'
      | .wait s' => .wait (s0.waitKeeping s')
      | .ok (bs, bad) s' =>
        if bad then .trap cPOISON s'
        else match s0.cpRead s' r fuel (a + w64 k) (n - k) with
          | .ok t s'' => .ok (bs ++ t) s''
          | o => o

/-- A package agent acting for a context, at system level (R338). -/
def pkgReq (ctx : BitVec 16) (stamp : Word) (own : List Nat) : Req :=
  { ctx := ctx, user := false, agent := 2, core := 0, slot := 0, lid := 0, cid := 0, scalar := false, stamp := stamp, word := 0, own := own }

/-- Slot k of STRANDS (R41): its budget, accumulators and weight. -/
def slotVrb (strands : Word) (k : Nat) : Nat := bf strands (16 * k + 6) (16 * k)
def slotAcc (strands : Word) (k : Nat) : Nat := bf strands (16 * k + 11) (16 * k + 7)
def slotW (strands : Word) (k : Nat) : Nat := bf strands (16 * k + 15) (16 * k + 12)

def liveLaunches (s : State) : Nat := (s.cp.launches.filter (·.state == 0)).length
def liveGraphs (s : State) : Nat := (s.cp.graphs.filter (·.state == 0)).length

/-- The lowest check of R43 that a readable descriptor fails; 0 when it passes. -/
def State.descCheck (s : State) (j : Job) (a : Word) (d : List Byte) : Nat :=
  let w (i : Nat) : Word := w64 (numAt d (8 * i) 8)
  let shape := w 2
  let strands := w 3
  let spc := bf shape 44 43
  let ks := List.range 4
  let sum (f : Word → Nat → Nat) : Nat := ((ks.filter (· ≤ spc)).map (f strands)).sum
  if bf a 5 0 ≠ 0 ∨ w 6 ≠ 0 ∨ w 7 ≠ 0 ∨ bf shape 23 0 ≠ 0 ∨ 4 ≤ bf shape 42 40 then 0x02
  else if bf shape 63 48 = 0 then 0x03
  else if ks.any (fun k => if k ≤ spc then slotW strands k == 0 else bf strands (16 * k + 15) (16 * k) != 0) then 0x04
  else if ks.any (fun k => decide (k ≤ spc) && (decide (64 < slotVrb strands k) || decide (16 < slotAcc strands k)))
      ∨ 64 < sum slotVrb ∨ 16 < sum slotAcc ∨ 512 < bf shape 33 24 then 0x05
  else if !canonical (w 0) || bf (w 0) 1 0 != 0 || !canonical (w 4) || bf (w 4) 2 0 != 0 then 0x06
  else if bf shape 47 45 = 7 ∧ j.rsv = 0 then 0x07
  else if Config.maxLaunches ≤ liveLaunches s then 0x08
  else 0

/-- A new launch of a checked descriptor in its slot (R459), whose former launch may still owe its NOTIFY write (R508), attached or standing for a node, eligible or not (R43, R73). A child of a
cancelled parent is created with STATE = 2 and never placed (R56). -/
def State.newLaunch (s : State) (ctx : BitVec 16) (p : Parent) (node : Option (Nat × Nat)) (d : List Byte) (eligible : Bool) : Word × State :=
  let w (i : Nat) : Word := w64 (numAt d (8 * i) 8)
  let (slot, gen) := allocSlot Config.launchSlots (s.cp.launches.map fun l => (l.slot, l.gen, l.doneSeq))
  let dead := s.cancelledObj p
  let crews := bf (w 2) 63 48
  let l : Launch := { slot := slot, gen := gen, ctx := ctx, parent := p, node := node, entry := w 0, arg := w 1, shape := w 2, strands := w 3, notify := w 4, tag := w 5,
                      state := if dead then 2 else 0, code := 0, out := if dead then 0 else crews, clk := s.clk.cp, elig := s.clk.ns,
                      nextCid := if dead then crews else 0, returned := [], lastPlaced := s.clk.ns, eligible := eligible, opened := false, failed := false,
                      cancelled := dead, notifyDue := dead && w 4 != 0, doneSeq := if dead then some s.cp.seq else none }
  let owed := s.cp.launches.filter fun x => x.slot == slot && x.notifyDue
  let s := { s with cp := { s.cp with launches := l :: s.cp.launches.filter (·.slot ≠ slot), owed := s.cp.owed ++ owed } }
  let s := if dead then s.nextSeq else if node.isSome then s else s.attach p
  (l.handle, s.changed (.launch slot) ctx)

/-- The parent that DET gives: the job in place of the launch (R34). -/
def State.parentOf (s : State) (ctx : BitVec 16) (p : Parent) (det : Bool) : Parent :=
  if det then (match s.jobOf ctx with | some j => .job j.slot | none => p) else p

/-- Presents a launch descriptor (R43): its handle, or the handle of its rejection. It never traps. -/
def State.presentLaunch (s : State) (r : Req) (p : Parent) (node : Option (Nat × Nat)) (a : Word) (eligible : Bool) : Att Word :=
  match s.jobOf r.ctx with
  | none => .ok (rejectHandle 0x01) s
  | some j =>
    match s.cpRead s r 8 a 64 with
    | .wait s' => .wait s'
    | .trap _ s' => .ok (rejectHandle 0x01) s'
    | .ok d s' =>
      let e := s'.descCheck j a d
      if e ≠ 0 then .ok (rejectHandle e) s'
      else
        let out := s'.newLaunch r.ctx (if node.isSome then p else s'.parentOf r.ctx p (bt (w64 (numAt d 0x10 8)) 39)) node d eligible
        .ok out.1 out.2

/-- Node i of an image's bytes (R50). -/
def nodeOf (img : List Byte) (i : Nat) : Node :=
  let o := 0x40 + 0x40 * i
  { kind := numAt img o 1, any := numAt img (o + 1) 1 % 2 == 1, npred := numAt img (o + 2) 2, efirst := numAt img (o + 4) 4,
    body := (img.drop (o + 8)).take 56, st := .pending, code := 0, taken := false, since := 0, coll := none, result := 0 }

/-- The checks of R49 to R51 on an image that could be read: its header, every edge entry, and every node with the entries that it owns. -/
def imageOk (a : Word) (img : List Byte) : Bool :=
  let nodes := numAt img 0 4
  let edges := numAt img 4 4
  bf a 5 0 == 0 && decide (1 ≤ nodes ∧ nodes ≤ 4096 ∧ edges ≤ 65535) && fld (numAt img 0x10 8) 63 1 == 0
    && ((img.drop 0x18).take 40).all (· == 0)
    && (
      let es := (List.range edges).map fun e => numAt img (0x40 + 0x40 * nodes + 4 * e) 4
      (es.all fun e => fld e 31 18 == 0 && decide (fld e 17 16 < 3))
        && (List.range nodes).all fun i =>
          let nd := nodeOf img i
          decide (1 ≤ nd.kind ∧ nd.kind ≤ 6) && fld (numAt img (0x40 + 0x40 * i + 1) 1) 7 1 == 0 && decide (nd.efirst + nd.npred ≤ edges)
            && ((es.drop nd.efirst).take nd.npred).all fun e =>
              decide (fld e 15 0 < i) && (fld e 17 16 == 0 || (nodeOf img (fld e 15 0)).kind == 6))

/-- A new graph with these nodes and edges (R46, R56). -/
def State.newGraph (s : State) (ctx : BitVec 16) (p : Parent) (tag : Word) (nodes : List Node) (edges : List (Nat × Nat)) : Nat × Word × State :=
  let (slot, gen) := allocSlot Config.graphSlots (s.cp.graphs.map fun g => (g.slot, g.gen, g.doneSeq))
  let dead := s.cancelledObj p
  let g : Graph := { slot := slot, gen := gen, ctx := ctx, parent := p, tag := tag, nodes := if dead then nodes.map fun n => { n with st := .skipped } else nodes,
                     edges := edges, state := if dead then 2 else 0, code := 0, out := if dead then 0 else nodes.length, clk := s.clk.cp,
                     cancelled := dead, failed := false, doneSeq := if dead then some s.cp.seq else none }
  let s := { s with cp := { s.cp with graphs := g :: s.cp.graphs.filter (·.slot ≠ slot) } }
  let s := if dead then s.nextSeq else s.attach p
  (slot, g.handle, s.changed (.graph slot) ctx)

/-- Presents a graph image (R49 to R51): it is read whole, as long as its header says, before anything of it is checked. It never traps. -/
def State.presentGraph (s : State) (r : Req) (p : Parent) (a : Word) (useDet : Bool) : Att Word :=
  match s.cpRead s r 2 a 64 with
  | .wait s' => .wait s'
  | .trap _ s' => .ok (rejectHandle 0x01) s'
  | .ok hd s1 =>
    let nodes := numAt hd 0 4
    let edges := numAt hd 4 4
    let len := 0x40 + 0x40 * nodes + 4 * edges
    match s.cpRead s1 r (len / 256 + 2) a len with
    | .wait s' => .wait s'
    | .trap _ s' => .ok (rejectHandle 0x01) s'
    | .ok img s2 =>
      if !imageOk a img then .ok (rejectHandle 0x09) s2
      else if Config.maxGraphs ≤ liveGraphs s2 then .ok (rejectHandle 0x0A) s2
      else
        let par := s2.parentOf r.ctx p (useDet && numAt img 0x10 1 % 2 == 1)
        let es := (List.range edges).map fun e =>
          let x := numAt img (0x40 + 0x40 * nodes + 4 * e) 4
          (fld x 17 16, fld x 15 0)
        let out := s2.newGraph r.ctx par (w64 (numAt img 8 8)) ((List.range nodes).map (nodeOf img)) es
        .ok out.2.1 out.2.2

end Sys2Proof.Machine
end

