-- ==== Sys2Proof/Machine/Ops.lean ====
section
/-! DEFINITION. The named operations of a strand: registers, waits, copies in flight, taking a trap, ending by force, returning
from a trap, and which strand moves (R126 to R137, R152, R153, R319 to R322, R400 to R405). -/

namespace Sys2Proof.Machine

/-- The outcome of an instruction. -/
abbrev Out := Host.Outcome State Fault Refusal

/-! ### Registers of the strand whose turn it is -/

/-- S(n) of R117: s0 reads 0 (R86). -/
def Strand.s (k : Strand) (r : Reg) : Word := if r = 0 then 0 else k.regs[r.toNat]'r.isLt

/-- S(n) as a scalar instruction reads it. -/
def State.s (s : State) (r : Reg) : Word := s.me.s r

def State.setMe (s : State) (f : Strand → Strand) : State := { s with me := f s.me }

/-- A write to a scalar register: discarded for s0 (R86); it takes away a copy status and a storage error that the
register held (R322, R420). -/
def Strand.w (k : Strand) (r : Reg) (x : Word) : Strand :=
  if r = 0 then k
  else { k with regs := k.regs.set r.toNat x r.isLt, as := { k.as with stat := k.as.stat.filter (·.1 ≠ r) },
                spoiled := { k.spoiled with sregs := k.spoiled.sregs.filter (· ≠ r) } }

def State.w (s : State) (r : Reg) (x : Word) : State := s.setMe (·.w r x)

def State.setPc (s : State) (pc : Word) : State := s.setMe fun k => { k with pc := pc }

/-- LCLK advances by 1. -/
def State.tick (s : State) : State := s.setMe fun k => { k with lclk := k.lclk + 1 }

/-- LCLK = max(LCLK, t) + 1 (R148, R154, R328). -/
def State.hear (s : State) (t : Word) : State := s.setMe fun k => { k with lclk := maxW k.lclk t + 1 }

/-- The strand no longer waits in an instruction (R127). -/
def Strand.unwait (k : Strand) : Strand := { k with qwait := none, tlWait := none, wfeSince := none }

/-- The instruction completes and control goes to pc: ICNT counts it, saturating (R435). -/
def State.goto (s : State) (pc : Word) : State :=
  s.setMe fun k => { k.unwait with pc := pc, icnt := min (2 ^ 32 - 1) (k.icnt + 1) }

/-- The instruction completes and the PC advances by 4 (R152). -/
def State.advance (s : State) : State := s.goto (s.me.pc + 4)

/-- The instruction writes a result and completes. -/
def State.finish (s : State) (d : Reg) (x : Word) : State := (s.w d x).advance

/-- The word of a scalar instruction, zero-extended (R152). -/
def wordOf32 (i : Instr) : Word := ((encode32 i).getD 0).setWidth 64

/-! ### What queued and asynchronous work has still to write (R127, R128, R131) -/

/-- The scalar register that a vector instruction writes (R108, R109, R111): VGETE, the reductions, PCNT. -/
def vScalarDest (i : Instr) : Option Reg :=
  match i.vparts with
  | none => none
  | some p =>
    if (p.vop == 0x10 && p.f == 4) || (p.vop == 0x11 && decide (p.f.toNat < 6)) || (p.vop == 0x13 && p.f == 8) then
      (if p.args.d = 0 then none else some p.args.d)
    else none

/-- The predicate that a vector instruction writes (R106, R110, R111). -/
def vPredDest (i : Instr) : Option Reg :=
  match i.vparts with
  | none => none
  | some p => if p.vop == 0x0C || (p.vop == 0x12 && p.f == 6) || (p.vop == 0x13 && p.f != 8) then some p.args.d else none

/-- The captured scalars that a vector instruction reads (R101, R108, R112 to R115). -/
def vScalarSrcs (i : Instr) : List Reg :=
  match i.vparts with
  | none => []
  | some p =>
    (if p.args.k = .scalarB then [p.args.b] else [])
      ++ (if p.vop == 0x18 || p.vop == 0x19 || p.vop == 0x1A || p.vop == 0x1B then [p.args.a] else [])
      ++ (if p.vop == 0x10 && (p.f == 4 || p.f == 5) then [p.args.c] else [])

/-- VLDFF: the one vector instruction that writes VL (R131). -/
def isVldff (i : Instr) : Bool := match i.vparts with | some p => p.vop == 0x18 && p.f == 2 | none => false

/-- The queued and held instructions of a strand whose results are still to be written. -/
def Strand.unfinished (k : Strand) : List QEntry := (k.q ++ k.win).filter fun e => !e.done

/-- Destinations of the strand's unfinished copies, streams and collectives, and of its structures not yet answered. -/
def Strand.asyncDests (k : Strand) : List Reg :=
  k.as.copies.map (·.dst) ++ k.as.streams.map (·.dst) ++ k.as.colls.map (·.1) ++ k.as.subs.map (·.dst)

/-- Scalar register r is pending (R128): the trap of the instruction that was to write it ends that (R216). -/
def Strand.pending (k : Strand) (r : Reg) : Bool :=
  r != 0 && (k.asyncDests.contains r || k.unfinished.any fun e => vScalarDest e.instr == some r && !e.taken && e.fault.isNone)

/-- VL is pending (R131). -/
def Strand.vlPending (k : Strand) : Bool := k.unfinished.any fun e => isVldff e.instr

/-! ### Requests of a strand -/

/-- A scalar access of the strand. -/
def Strand.req (k : Strand) (word : Word) : Req :=
  { ctx := k.ctx, user := !k.sys, agent := 0, core := k.core, slot := k.slot, lid := k.id.lid, cid := k.id.cid, scalar := true,
    stamp := k.lclk, word := word, own := [0, k.id.lid.toNat, k.id.cid.toNat, k.id.sid.toNat], strong := k.hostOrd }

/-- An access of the vector queue's entry that a VFETCH with this number enqueued at this place: it bypasses the scalar L1 (R281). -/
def Strand.vreq (k : Strand) (word : Word) (fetch idx : Nat) : Req :=
  { k.req word with scalar := false, evicts := true, covers := true, quiet := k.due.halting, own := [5, k.id.lid.toNat, k.id.cid.toNat, k.id.sid.toNat, fetch, idx] }

/-- An access of the strand's copy engine for the operation with a ticket. -/
def Strand.creq (k : Strand) (word : Word) (user : Bool) (ticket : Word) : Req :=
  { k.req word with scalar := false, evicts := true, covers := true, strong := false, user := user, agent := 1, own := [1, k.id.lid.toNat, k.id.cid.toNat, k.id.sid.toNat, ticket.toNat] }

/-- The strand's scalar instruction waits for another device (R370). -/
def State.awaitsRemote (s : State) : Bool := s.fab.txs.any fun t => t.own == (s.me.req 0).own

/-- A transaction of an unfinished entry of the strand's vector queue. -/
def Strand.asked (k : Strand) (e : QEntry) (t : Tx) : Bool := !e.done && e.fault.isNone && t.own == (k.vreq e.word e.fetch e.idx).own

/-- Requests of the strand's vector instructions are under way at other devices, or have written there and are still to be counted: all but
reads that were answered. -/
def State.vectorRemote (s : State) (k : Strand) : Bool := k.q.any fun e => s.fab.txs.any fun t => k.asked e t && (t.resp.isNone || t.mt != 0x01)

/-- Reads of the strand's vector instructions that were answered and count no more, as their elements are to be performed again. -/
def State.dropReads (s : State) : State :=
  s.disown fun t => t.own.take 4 == [5, s.me.id.lid.toNat, s.me.id.cid.toNat, s.me.id.sid.toNat]

/-- Every write in the stage of the strand's core leaves it (R343, R350). -/
def State.unstage (s : State) : State := { s with mem := s.mem.drainCore s.me.core }

/-! ### Copies in flight (R319 to R321) -/

def Copy.total (c : Copy) : Nat := c.rowb * c.rows

/-- Address of the source and of the destination byte with a linear number (R319). -/
def Copy.srcAt (c : Copy) (p : Nat) : Word := c.src + wInt (((p / c.rowb : Nat) : Int) * c.sstr) + w64 (p % c.rowb)
def Copy.dstAt (c : Copy) (p : Nat) : Word := c.to_ + wInt (((p / c.rowb : Nat) : Int) * c.dstr) + w64 (p % c.rowb)

/-- Some source byte of the copy lies at address d: then the byte written there is undefined (R320). -/
def Copy.overlaps (c : Copy) (d : Word) : Bool :=
  let x : Int := (d.toNat : Int) - (c.src.toNat : Int)
  let last : Int := (c.rows : Int) - 1
  let (x, st) := if 0 ≤ c.sstr then (x, c.sstr) else (x - last * c.sstr, -c.sstr)
  if st = 0 then decide (0 ≤ x ∧ x < c.rowb)
  else
    let r := min last (x / st)
    decide (0 ≤ x ∧ x - r * st < c.rowb)

/-- Bytes that the engine writes as one piece from linear number p: within a row and within one destination sector. -/
def Copy.piece (c : Copy) (p : Nat) : Nat := min (min (c.rowb - p % c.rowb) (c.total - p)) (256 - (c.dstAt p).toNat % 256)

/-- How the engine fares with a copy. -/
inductive Moved where
  /-- It may go on. -/
  | going (c : Copy) (s : State)
  /-- It stopped on a fault at the address given (R321). -/
  | stopped (c : Copy) (fc : Byte) (at_ : Word) (s : State)
  /-- It waits for another device or for room in the log. -/
  | waits (c : Copy) (s : State)

/-- The bytes that a copy reads for one piece: from one source sector, or from two. Where the second cannot be read, those of the first. -/
def State.readPiece (s : State) (r : Req) (a : Word) (n : Nat) : Att (List Byte × Bool) :=
  let k := min n (256 - a.toNat % 256)
  match s.memRead r a k .read with
  | .ok (bs, bad) s1 =>
    if bad ∨ k = n then .ok (bs, bad) s1
    else match s1.memRead r (a + w64 k) (n - k) .read with
      | .ok (more, false) s2 => .ok (bs ++ more, false) s2
      | .ok (_, true) _ => .ok (bs, false) s1
      | .trap _ s2 => .ok (bs, false) s2
      | .wait s2 => .wait (s.waitKeeping s2)
  | o => o

/-- The address is homed outside the device (R438). -/
def State.external (s : State) (r : Req) (a : Word) : Bool :=
  match s.homeOf r a false with
  | .host _ _ => true
  | .remote _ => true
  | _ => false

/-- Moves one piece. A request under an older region-table generation is not performed but issued again under the current one (R286). -/
def State.movePiece (s : State) (r : Req) (c : Copy) : Moved :=
  let p := c.prog
  let a := c.srcAt p
  let b := c.dstAt p
  if c.total ≤ p ∨ c.rowb = 0 then .going c s
  else if c.gen ≠ s.mem.gen then .going { c with gen := s.mem.gen } s
  else match s.readPiece r a (c.piece p) with
    | .wait s' => .waits c s'
    | .trap x s' => .stopped c x a s'
    | .ok (bs, bad) s1 =>
      if bad then .stopped c cPOISON a s1
      else
        let data := bs.mapIdx fun i x => if c.overlaps (b + w64 i) then Config.freeByte (s1.free + i) else x
        let s1 := if data = bs then s1 else { s1 with free := s1.free + bs.length }
        match s1.memWrite r b data false .write { marked := c.marked } with
        | .wait s' => .waits c (s.waitKeeping s')
        | .trap x s' => .stopped c x b s'
        | .ok _ s2 => .going { c with prog := p + bs.length, uncounted := c.uncounted + bs.length, marked := c.marked || s.external r b } s2

/-- Moves pieces until so many bytes or more have moved; the fuel bounds the pieces. -/
def State.moveBytes (s : State) (r : Req) (c : Copy) : Nat → Nat → Moved
  | 0, _ => .going c s
  | fuel + 1, left =>
    if left = 0 ∨ c.total ≤ c.prog then .going c s
    else match s.movePiece r c with
      | .going c' s' => if c'.prog = c.prog ∧ c'.gen = c.gen then .going c' s' else s'.moveBytes r c' fuel (left - (c'.prog - c.prog))
      | m => m

/-- Bytes from linear number p to the next that goes to the first byte of a destination sector, or to the end (R321): within the row, else at
the first byte of one of the rows after it, whose places in a sector repeat after 256 rows. -/
def Copy.gap (c : Copy) : Nat → Nat → Nat
  | 0, p => c.total - p
  | fuel + 1, p =>
    if c.total ≤ p then 0
    else
      let k := (256 - (c.dstAt p).toNat % 256) % 256
      let row := c.rowb - p % c.rowb
      if k < row then k else row + Copy.gap c fuel (p + row)

/-- Bytes from the copy's progress to the next 256-byte destination sector boundary (R321): none at one. -/
def Copy.toBoundary (c : Copy) : Nat := min (c.total - c.prog) (c.gap 258 c.prog)

/-- The status word of R321. -/
def statusWord (ticket : Word) (fc : Byte) (prog : Nat) : Word :=
  w64 (bf ticket 15 0 * 2 ^ 48 + (fc.toNat % 128) * 2 ^ 41 + prog % 2 ^ 41)

/-- A copy or stream of strand k is done: its status is written to its register, kept for TLWAIT, and stamped
(R321, R322, R328, R452). -/
def Strand.settle (k : Strand) (ticket : Word) (dst : Reg) (fc : Byte) (prog : Nat) (faultAt : Word) (stamp : Word) : Strand :=
  let st := statusWord ticket fc prog
  let unreported := fc != 0 && fc != 0x01
  let k := { k with as := { k.as with copies := k.as.copies.filter (·.ticket ≠ ticket), streams := k.as.streams.filter (·.ticket ≠ ticket),
                                      fins := ⟨ticket, st, faultAt, unreported, stamp⟩ :: k.as.fins } }
  let k := k.w dst st
  if dst = 0 then k else { k with as := { k.as with stat := (dst, ticket) :: k.as.stat } }

/-- The clock of a core's copy engine stamps a completion with max(clock, stamp of issue) + 1 (R328). -/
def State.engineStamp (s : State) (core : BitVec 7) (issue : Word) : Word × State :=
  let c := ((s.clk.copy.find? (·.1 = core)).map (·.2)).getD 0
  let t := maxW c issue + 1
  (t, { s with clk := { s.clk with copy := (core, t) :: s.clk.copy.filter (·.1 ≠ core) } })

/-- Applies a change to strand k, wherever it stands. -/
def State.onStrand (s : State) (k : SId) (f : Strand → Strand) : State := s.mapStrands fun x => if x.id = k ∧ x.run ≠ .idle then f x else x

/-- No slot of the operation is watched any more (R337). -/
def State.unwatch (s : State) (own : List Nat) : State :=
  if s.mem.watch.isEmpty then s else { s with mem := { s.mem with watch := s.mem.watch.filter fun w => w.own.take own.length != own } }

/-- A copy or stream of strand k ends: stamp, status and trace record (R321, R451). -/
def State.settleOp (s : State) (k : Strand) (ticket : Word) (dst : Reg) (fc : Byte) (prog : Nat) (faultAt issue : Word) : State :=
  let (t, s) := s.engineStamp k.core issue
  let s := s.unwatch (k.creq 0 false ticket).own
  let s := s.onStrand k.id (·.settle ticket dst fc prog faultAt t)
  s.trace k.ctx 7 (2 ^ 14 + k.core.toNat * 2 ^ 7 + k.slot.toNat) t (statusWord ticket fc prog) ticket 0 []

/-! ### Sync words (R329, R330) -/

/-- The byte number of the sync word that index swi names for an operation with this destination: in the allocation that
holds the destination when it lies in a window, else in the crew's own; none outside that allocation. -/
def State.syncKey (s : State) (r : Req) (dst : Word) (swi : Nat) : Option Nat :=
  let crew := if canonical dst ∧ dst.toNat ≥ 0xFFFFFFFFFF600000 ∧ dst.toNat < 0xFFFFFFFFFFE00000
    then s.quadCrew r ((dst.toNat - 0xFFFFFFFFFF600000) >>> 21) else s.crewOf r
  match crewScratch crew (swi * 16), crewScratch crew (swi * 16 + 15) with
  | .window _ key, .window _ _ => some key
  | _, _ => none

/-- TARGET, GEN and COUNT of the sync word at a byte number. -/
def MemSys.syncTarget (m : MemSys) (key : Nat) : Nat := m.ram.num key 4
def MemSys.syncCount (m : MemSys) (key : Nat) : Nat := m.ram.num (key + 8) 4
def MemSys.syncGen (m : MemSys) (key : Nat) : Nat := m.ram.num (key + 12) 4

/-- A sync word counts b bytes, and remembers the stamp when GEN advances (R330, R331). -/
def MemSys.count (m : MemSys) (key b : Nat) (stamp : Word) : MemSys :=
  let t := m.syncTarget key
  let n := m.syncCount key + b
  if t = 0 then { m with ram := m.ram.write (key + 8) (leBytes 4 n) }
  else
    let m' := { m with ram := m.ram.write (key + 8) (leBytes 4 (n % t) ++ leBytes 4 (m.syncGen key + n / t)) }
    if t ≤ n then { m' with syncs := kvSet m.syncs key stamp.toNat } else m'

/-- Counts the bytes that a copy has moved since its sync word was last updated (R330). -/
def State.countCopy (s : State) (k : Strand) (c : Copy) : Copy × State :=
  if c.uncounted = 0 ∨ c.swi = 0 then ({ c with uncounted := 0 }, s)
  else match s.syncKey (k.creq c.word c.user c.ticket) c.to_ c.swi with
    | none => ({ c with uncounted := 0 }, s)
    | some key =>
      let (t, s) := s.engineStamp k.core c.stamp
      ({ c with uncounted := 0 }, { s with mem := s.mem.count key c.uncounted t })

/-- A copy of strand k ends: its bytes are counted, then its status is written (R321, R330). -/
def State.endCopy (s : State) (k : Strand) (c : Copy) (fc : Byte) (faultAt : Word) : State :=
  let (c, s) := s.countCopy k c
  ({ s with mem := s.mem.covered (k.creq c.word c.user c.ticket).own } : State).settleOp k c.ticket c.dst fc c.prog faultAt c.stamp

/-- Replaces the record of an unfinished copy. -/
def Strand.setCopy (k : Strand) (c : Copy) : Strand := { k with as := { k.as with copies := replaceIf (·.ticket == c.ticket) (fun _ => c) k.as.copies } }

/-- The engine moves n bytes or more of a copy of strand k. One that is to stop goes to the next destination sector boundary and ends there
with its FC; DEDUCED: at the end of the copy it completes, and the byte at PROG whose address a report names is the destination's (R321,
R322). -/
def State.runCopy (s : State) (k : Strand) (c : Copy) (n : Nat) (whole : Bool) : State :=
  let left := if c.stop.isSome then c.toBoundary else n
  match s.moveBytes (k.creq c.word c.user c.ticket) c (left + 2) left with
  | .stopped c' fc at_ s' => s'.endCopy k c' fc at_
  | .waits c' s' => s'.onStrand k.id (·.setCopy c')
  | .going c' s' => match c'.stop with
    | some fc =>
      if c'.toBoundary ≠ 0 then s'.onStrand k.id (·.setCopy c')
      else if c'.total ≤ c'.prog then s'.endCopy k c' 0 0 else s'.endCopy k c' fc (c'.dstAt c'.prog)
    | none => if whole ∧ c'.total ≤ c'.prog then s'.endCopy k c' 0 0 else s'.onStrand k.id (·.setCopy c')

/-- The unfinished copies of the strand whose turn it is are to stop at the next destination sector boundary (R403, R424). -/
def State.stopCopies (s : State) (fc : Byte) : State :=
  s.me.as.copies.foldl (fun s c => s.runCopy s.me { c with stop := some fc } 0 false) s

/-- The open streams of the strand whose turn it is stop (R336): the word of a stopped stream is remembered. -/
def State.stopStreams (s : State) (fc : Byte) : State :=
  let go (s : State) (x : Stream) : State :=
    let s := s.settleOp s.me x.ticket x.dst fc x.delivered 0 x.stamp
    s.setMe fun k => { k with as := { k.as with stopped := (0xFFFFFFFFFFE00000 + w64 (x.swi * 16), x.ticket, x.delivered) :: k.as.stopped } }
  s.me.as.streams.foldl go s

/-! ### Traps (R402 to R404, R426, R442) -/

/-- What a strand asked of other devices and takes no answer to any more: a write counts as made (R438). -/
def State.abandon (s : State) (r : Req) (mine : Tx → Bool) : State :=
  let gone := s.fab.txs.filter mine
  let s := s.disown mine
  gone.foldl (fun s t => if t.room.isSome then (match s.mark r 2 (w64 (numAt t.msg.body 0 8)) with | .ok s' => s' | _ => s) else s) s

/-- A strand that is ended by force, whose copies have stopped and whose structures are answered, ends (R403). -/
def State.endForced (s : State) (code : Byte) : State := ((s.freeArray s.me.id).tick).strandEnds code

/-- ForcedEnd(c) of R403. The strand ends once its copies have stopped, and what it presented has been answered (R172). -/
def State.forcedEnd (s : State) (code : Byte) : State :=
  let s := s.unstage.setMe fun k => { k with q := [], win := [] }
  let s := (s.stopCopies 0x10).stopStreams 0x10
  let s := s.abandon (s.me.vreq 0 0 0) fun t => t.own.take 4 == [5, s.me.id.lid.toNat, s.me.id.cid.toNat, s.me.id.sid.toNat]
  let mine (c : Coll) : Bool := match c.strand with | some (k, _) => k == s.me.id | none => false
  let orphan (g : Group) : Group := { g with colls := replaceIf mine (fun c => { c with strand := none }) g.colls }
  let s := { s with groups := s.groups.map orphan }
  if s.me.as.copies.isEmpty && s.me.as.subs.isEmpty then s.endForced code else s.setMe fun k => { k with due := { k.due with forced := some code } }

/-- A debug session holds the strand's job (R441). -/
def State.sessionOf (s : State) (ctx : BitVec 16) : Bool := bt s.dbg.ctl 63 && bf s.dbg.ctl 15 0 == ctx.toNat

/-- A trap code that stops the strand for the debugger (R426, R442). -/
def State.debugStops (s : State) (code : Byte) : Bool :=
  s.sessionOf s.me.ctx && (code == cBREAK || (decide (1 ≤ code.toNat ∧ code.toNat ≤ 19) && bt s.dbg.trap code.toNat))

/-- The trap registers as entry sets them (R402). -/
def Strand.enter (k : Strand) (pc : Word) (code : Byte) (info : Word) (addr : Option Word) (tlg : Option (List Nat)) : Strand :=
  { k with tr := { k.tr with
    tcause := (k.tr.tcause &&& 0x20000) ||| 0x8000 ||| (if k.sys then 0x4000 else 0) ||| (if tlg.isSome then 0x10000 else 0) ||| code.setWidth 64
    tpc := pc, tinfo := info, taddr := addr.getD k.tr.taddr
    tlg := match tlg with
      | some l => Vector.ofFn fun i => w64 (l.getD i.val 0)
      | none => k.tr.tlg } }

/-- The strand stops for the debugger (R442): HOLD is set, and the target names it unless a hold already proceeds. -/
def State.stopForDebugger (s : State) (code : Byte) : State :=
  let s := s.setMe fun k => { k with run := .held, due := { k.due with stop := some code } }
  if bt s.dbg.ctl 62 then s
  else { s with dbg := { s.dbg with ctl := (s.dbg.ctl &&& 0x800000000000FFFF) ||| 0x4000000000000000
                                          ||| w64 (s.me.slot.toNat * 2 ^ 24 + s.me.core.toNat * 2 ^ 16) } }

/-- TLG0 to TLG15 as 16-bit values (R451). -/
def TrapRegs.tlgBytes (t : TrapRegs) : List Byte := (t.tlg.toList.map fun x => leBytes 2 x.toNat).flatten

/-- A trap with code c, information i and address a is taken at the boundary whose resume address is pc (R402). `own` says
that the instruction at the boundary raised it; the restart indices come with a vector trap. -/
def State.takeTrap (s : State) (pc : Word) (code : Byte) (info : Word) (addr : Option Word) (tlg : Option (List Nat)) (own : Bool) : State :=
  let s := s.setMe Strand.unwait
  if s.debugStops code then (s.setMe (·.enter pc code info addr tlg)).stopForDebugger code
  else if s.me.tr.tvec = 0 ∨ (bt s.me.tr.tcause 15 ∧ own) then s.forcedEnd code
  else
    let s := s.setMe fun k => let k := k.enter pc code info addr tlg
      { k with sys := true, lclk := k.lclk + 1, pc := k.tr.tvec }
    s.trace s.me.ctx 6 (s.me.core.toNat * 2 ^ 7 + s.me.slot.toNat) s.me.lclk s.me.tr.tcause s.me.tr.tpc 0
      (if tlg.isSome then s.me.tr.tlgBytes else [])

/-- The trap of the scalar instruction at the PC (R152). -/
def State.trap (s : State) (code : Byte) (info : Word) (addr : Option Word) : State := s.takeTrap s.me.pc code info addr none true

/-- Discards the held window (R404, R410). -/
def State.dropWindow (s : State) : State := s.setMe fun k => { k with win := [], tr := { k.tr with tcause := k.tr.tcause &&& ~~~0x20000#64 } }

/-- ERET of R404; also how a debugger's resume leaves a stop (R442). -/
def State.returnFromTrap (s : State) : State :=
  if bt s.me.tr.tcause 63 then s.forcedEnd (s.me.tr.tcause.setWidth 8)
  else
    let s := if bt s.me.tr.tcause 17 then s.dropWindow else s
    s.setMe fun k => { k with sys := bt k.tr.tcause 14, pc := k.tr.tpc, tr := { k.tr with tcause := k.tr.tcause &&& ~~~0x8000#64 }, icnt := min (2 ^ 32 - 1) (k.icnt + 1) }

/-! ### What a scalar instruction meets before it takes effect -/

/-- The unreported fault that register r carries (R322). -/
def Strand.faultOf (k : Strand) (r : Reg) : Option Finished :=
  (k.as.stat.find? (·.1 = r)).bind fun x => k.as.fins.find? fun f => f.ticket == x.2 && f.unreported

/-- The fault of a ticket counts as reported. -/
def Strand.reported (k : Strand) (ticket : Word) : Strand :=
  { k with as := { k.as with fins := replaceIf (·.ticket == ticket) (fun f => { f with unreported := false }) k.as.fins } }

/-- COPYFAULT for a fault (R322). -/
def State.copyFault (s : State) (f : Finished) : State :=
  (s.setMe (·.reported f.ticket)).trap cCOPYFAULT f.status (some f.faultAt)

/-- TADDR of an error in an internal location (R420). -/
def spoilAddr (kind num : Nat) : Word := w64 (2 ^ 63 + kind * 256 + num % 256)

/-- A scalar instruction that reads and writes these registers: it waits for pending ones (R127, R128), reports a copy
fault that a register it reads carries (R322), traps on one whose storage failed (R420), and otherwise takes effect. -/
def State.scalarOp (s : State) (info : Word) (reads writes : List Reg) (effect : Out) : Out :=
  if (reads ++ writes).any s.me.pending then .next s
  else match reads.findSome? s.me.faultOf with
    | some f => .next (s.copyFault f)
    | none => match reads.find? s.me.spoiled.sregs.contains with
      | some r => .next (s.trap cPOISON info (some (spoilAddr 0 r.toNat)))
      | none => effect

/-- PRIV at user level (R85, R400). -/
def State.privileged (s : State) (info : Word) (effect : Out) : Out :=
  if s.me.sys then effect else .next (s.trap cPRIV info none)

/-- Reads n bytes from a, at most a sector at a time; the fuel bounds the pieces. On a wait nothing else counts. -/
def State.readSpan (s0 s : State) (r : Req) (need : Need) : Nat → Word → Nat → Att (List Byte × Bool)
  | 0, _, _ => .ok ([], false) s
  | fuel + 1, a, n =>
    if n = 0 then .ok ([], false) s
    else
      let k := min n (256 - a.toNat % 256)
      match s.memRead r a k need with
      | .trap c s' => .trap c s'
      | .wait s' => .wait (s0.waitKeeping s')
      | .ok (bs, bad) s' => match s0.readSpan s' r need fuel (a + w64 k) (n - k) with
        | .ok (t, bad') s'' => .ok (bs ++ t, bad || bad') s''
        | o => o

/-- The other strands that own units on a strand's core: pre-empted ones that stay there (R415). -/
def State.ownersBeside (s : State) (k : Strand) : List Strand := s.allStrands.filter fun o => o.run == .preempted && o.core == k.core && o.id != k.id

/-- The parts of a strand's vector state of which one of these owns a unit, as the mask of R415. Part 4 is held otherwise (R506). -/
def Strand.foreignAmong (k : Strand) (owners : List Strand) : Nat :=
  let hits (held lost mine : Nat) : Bool := Nat.land mine held != Nat.land mine (Nat.land held lost)
  let p0 := owners.any fun o => hits o.alloc.vrfSet o.alloc.lostVrf k.alloc.vrfSet
  let p1 := owners.any fun o => hits o.alloc.accSet o.alloc.lostAcc k.alloc.accSet
  let slotPart (b : Nat) : Bool := owners.any fun o => o.slot == k.slot && !o.kept.parts.getLsbD b && !o.alloc.void.testBit b
  (if p0 then 1 else 0) + (if p1 then 2 else 0) + (if slotPart 2 then 4 else 0) + (if slotPart 3 then 8 else 0)
    + (if slotPart 5 then 32 else 0)

/-- The parts of a strand's vector state of which a unit has another owner. -/
def State.foreignOf (s : State) (k : Strand) : Nat := k.foreignAmong (s.ownersBeside k)

def State.foreign (s : State) : Nat := s.foreignOf s.me

/-- The parts of a mask that an access finds foreign (R415). -/
def State.foreignIn (s : State) (mask : Nat) : Nat := Nat.land s.foreign mask

/-- The queue as a held window that no trap formed: the trap of an instruction stays recorded when every older one has completed, and so it was
due; that of a younger one is not recorded (R407, R411, R427). -/
def Strand.frozenQueue (k : Strand) : List QEntry :=
  k.q.mapIdx fun n e => { e with started := [], fault := if (k.q.take n).all (·.done) then e.fault else none }

/-- The vector queue is empty of unretired instructions (R135, R137). -/
def Strand.qEmpty (k : Strand) : Bool := k.q.isEmpty

end Sys2Proof.Machine
end

