-- ==== Sys2Proof/Machine/Async.lean ====
section
/-! DEFINITION. The asynchronous commands of a strand and what waits for them: copies, streams, timelines, sync words (R319 to R336), and
the steps in which the engines move bytes, count them and finish. -/

namespace Sys2Proof.Machine

/-! ### Issuing a copy (R319, R320, R323) -/

/-- 32 copies and streams of the strand are unfinished (R320). -/
def Strand.asyncFull (k : Strand) : Bool := decide (32 ≤ k.as.copies.length + k.as.streams.length)

/-- The next ticket, with TLC and LCLK advanced (R320, R333). -/
def State.ticketed (s : State) : State := (s.setMe fun k => { k with tlc := k.tlc + 1 }).tick

/-- The operands of a copy as the instruction gives them. -/
structure CopyArgs where
  to_ : Word
  src : Word
  rowb : Nat
  rows : Nat
  sstr : Int
  dstr : Int
  swi : Nat
  /-- A reserved field is nonzero or a limit of R319 is broken. -/
  wrong : Bool
  deriving DecidableEq, Repr

/-- The operands of CPY. -/
def State.cpyArgs (s : State) (a b : Reg) : CopyArgs :=
  let n := bf (s.s b) 40 0
  { to_ := s.s a, src := s.s (a + 1), rowb := n, rows := if n = 0 then 0 else 1, sstr := 0, dstr := 0, swi := bf (s.s b) 63 48
    wrong := bf (s.s b) 47 41 != 0 || decide (2 ^ 40 < n) }

/-- The operands of CPY2. -/
def State.cpy2Args (s : State) (d a : Reg) : CopyArgs :=
  let rowb := (s.s (d + 1)).toNat
  let rows := bf (s.s (d + 2)) 47 0
  { to_ := s.s a, src := s.s (a + 1), rowb := rowb, rows := rows, sstr := sgn 32 (bf (s.s (d + 3)) 63 32), dstr := sgn 32 (bf (s.s (d + 3)) 31 0)
    swi := bf (s.s (d + 2)) 63 48, wrong := rowb == 0 || decide (2 ^ 40 < rowb) || decide (2 ^ 40 < rowb * rows) }

/-- A copy with these operands starts, from linear byte p when it resumes another: it is refused, complete at once, or unfinished. -/
def State.startCopy (s : State) (info : Word) (d : Reg) (x : CopyArgs) (from_ : Option Nat) : State :=
  let p := from_.getD 0
  let s := s.ticketed
  let ticket := s.me.tlc
  let r := s.me.creq info (!s.me.sys) ticket
  let c : Copy := { ticket := ticket, word := info, user := !s.me.sys, dst := d, src := x.src, to_ := x.to_, rowb := x.rowb, rows := x.rows,
                    sstr := x.sstr, dstr := x.dstr, swi := x.swi, prog := p, uncounted := 0, gen := s.mem.gen, stamp := s.me.lclk }
  if x.wrong ∨ (x.swi ≠ 0 ∧ s.syncKey r x.to_ x.swi = none) then s.settleOp s.me ticket d 0x01 0 0 s.me.lclk
  else if from_.isSome ∧ c.total ≤ p then s.settleOp s.me ticket d 0 c.total 0 s.me.lclk
  else s.setMe fun k => { k with as := { k.as with copies := k.as.copies ++ [c], stat := k.as.stat.filter (·.1 ≠ d) } }

/-- Issues a copy once fewer than 32 operations are unfinished. -/
def State.issueCopy (s : State) (info : Word) (reads : List Reg) (d : Reg) (x : CopyArgs) : Out :=
  s.scalarOp info reads [d] (if s.me.asyncFull then .next s else .next (s.startCopy info d x none).advance)

/-- Resumes a copy from S(D).PROG; the fault that D carries counts as reported (R322, R323). -/
def State.resumeCopy (s : State) (info : Word) (reads : List Reg) (d : Reg) (x : CopyArgs) : Out :=
  s.scalarOp info reads [d] (
    if s.me.asyncFull then .next s
    else if s.me.spoiled.sregs.contains d then .next (s.trap cPOISON info (some (spoilAddr 0 d.toNat)))
    else
      let s' := match s.me.faultOf d with | some f => s.setMe (·.reported f.ticket) | none => s
      .next (s'.startCopy info d x (some (bf (s.s d) 40 0))).advance)

/-- CPY (R319). -/
def execCpy (d a b : Reg) (s : State) : Out := s.issueCopy (wordOf32 (.cpy d a b)) [a, a + 1, b] d (s.cpyArgs a b)
/-- CPY.R (R323). -/
def execCpyR (d a b : Reg) (s : State) : Out := s.resumeCopy (wordOf32 (.cpyR d a b)) [a, a + 1, b] d (s.cpyArgs a b)
/-- CPY2 (R319). -/
def execCpy2 (d a : Reg) (s : State) : Out :=
  s.issueCopy (wordOf32 (.cpy2 d a)) [a, a + 1, d + 1, d + 2, d + 3] d (s.cpy2Args d a)
/-- CPY2.R (R323). -/
def execCpy2R (d a : Reg) (s : State) : Out :=
  s.resumeCopy (wordOf32 (.cpy2R d a)) [a, a + 1, d + 1, d + 2, d + 3] d (s.cpy2Args d a)

/-! ### What the copy engine does (R286, R320, R321, R330) -/

/-- The engine moves n bytes or more of a copy of strand k. -/
def State.driveCopy (s : State) (k : SId) (ticket : Word) (n : Nat) : State :=
  match (s.strandOf k).bind fun o => (o.as.copies.find? (·.ticket = ticket)).map fun c => (o, c) with
  | none => s
  | some (o, c) => s.runCopy o c n false

/-- RETARGET: the home refused the request under its old GEN, and the engine issues it again under the current one; nothing
was performed (R286). -/
def execRetarget (k : SId) (ticket : Word) (s : State) : Out :=
  .next (s.onStrand k fun o => match o.as.copies.find? (·.ticket = ticket) with
    | some c => o.setCopy { c with gen := s.mem.gen }
    | none => o)

/-- SYNC_WORD_UPDATE: the bytes that a copy has moved count in its sync word (R330). -/
def execSyncWordUpdate (k : SId) (ticket : Word) (s : State) : Out :=
  match (s.strandOf k).bind fun o => (o.as.copies.find? (·.ticket = ticket)).map fun c => (o, c) with
  | none => .next s
  | some (o, c) =>
    let (c', s') := s.countCopy o c
    .next (s'.onStrand k (·.setCopy c'))

/-- COPY_COMPLETE: the rest of a copy moves, and the copy ends with its status word (R321). -/
def execCopyComplete (k : SId) (ticket : Word) (s : State) : Out :=
  match (s.strandOf k).bind fun o => (o.as.copies.find? (·.ticket = ticket)).map fun c => (o, c) with
  | none => .next s
  | some (o, c) => .next (s.runCopy o c (c.total - c.prog) true)

/-! ### Streams (R332 to R335) -/

/-- Strips of a stream. -/
def Stream.strips (x : Stream) : Nat := (x.total + x.strip - 1) / x.strip

/-- Element bytes, and SLOT of R332. -/
def Stream.eb (x : Stream) : Nat := 2 ^ x.leb
def Stream.slot (x : Stream) : Nat := (x.strip * x.eb + 255) / 256 * 256

/-- Bytes that a strip counts: TARGET. -/
def Stream.target (x : Stream) : Nat := (x.ns + 1) * x.strip * x.eb

/-- The strips below which the releases that have taken effect let the engine go (R334): a release of a strand waits for the
memory accesses that the strand issued before its SYNCW. -/
def State.letGo (s : State) (x : Stream) : Nat :=
  let done (p : SId × Nat × Nat) : Bool := match s.strandOf p.1 with
    | none => true
    | some k => !(k.unfinished.any fun e => decide (e.fetch < p.2.1) && (match e.instr.vparts with | some v => decide (0x18 ≤ v.vop.toNat ∧ v.vop.toNat ≤ 0x1B) | none => false))
  ((x.pend.filter done).map (·.2.2)).foldl max x.released

/-- Strips that the engine has begun to fetch. -/
def State.fetchable (s : State) (x : Stream) : Nat := min (x.ending.getD x.strips) (min x.strips (s.letGo x + 2))

/-- The stream of a descriptor, and whether a field breaks R332. -/
def streamOf (d : List Byte) (base : Stream) : Stream × Bool :=
  let total := numAt d 0 8
  let ctl := numAt d 8 8
  let x : Stream := { base with total := total, strip := fld ctl 39 24, buf := fld ctl 16 8, ns := fld ctl 5 4, leb := fld ctl 1 0, swi := fld ctl 63 48
                                bases := (List.range (fld ctl 5 4 + 1)).map fun k => (w64 (numAt d (0x10 + 0x10 * k) 8), w64 (numAt d (0x18 + 0x10 * k) 8)) }
  let wrong := decide (total = 0 ∨ 2 ^ 40 < total) || x.swi == 0 || fld ctl 47 40 != 0 || decide (x.strip = 0 ∨ 8192 < x.strip) || fld ctl 23 17 != 0
    || fld ctl 7 6 != 0 || fld ctl 3 2 != 0 || ((d.drop 0x50).take 48).any (· != 0)
    || (List.range 4).any fun k => decide (x.ns < k) && ((d.drop (0x10 + 0x10 * k)).take 16).any (· != 0)
  (x, wrong)

/-- The crew's allocation: its base on the core and its bytes, none when the crew holds none. -/
def State.scratchOf (s : State) (k : Strand) : Option (Nat × Nat) :=
  (s.crewOf (k.req 0)).bind fun c => if c.placed then some (scrKey c.core.toNat (c.scrBase * 4096), c.scr * 4096) else none

/-- The slots of the strips that the engine has begun to fetch are watched for stores (R337). -/
def State.watchStrips (s : State) (o : Strand) (x : Stream) : State :=
  match s.scratchOf o with
  | none => s
  | some (org, _) =>
    let own := (o.creq x.word x.user x.ticket).own
    let slots := ((List.range (s.fetchable x)).drop x.delivered).map fun n => (List.range (x.ns + 1)).map fun k =>
      ({ own := own ++ [n, k], key := org + x.buf * 4096 + (2 * k + n % 2) * x.slot, len := x.slot } : Watch)
    { s with mem := { s.mem with watch := s.mem.watch ++ slots.flatten.filter fun w => !(s.mem.watch.any (·.own == w.own)) } }

/-- STREAM at issue: its descriptor is read, and the stream is refused or opens (R333). -/
def State.openStream (s : State) (info : Word) (d : Reg) (desc : Word) : Att Unit :=
  let s1 := s.ticketed
  let ticket := s1.me.tlc
  let refuse (s : State) : State := s.settleOp s.me ticket d 0x01 0 0 s.me.lclk
  if desc.toNat % 8 ≠ 0 then .ok () (refuse s1)
  else match s.readSpan s1 { s1.me.req info with scalar := false, evicts := true } .read 3 desc 128 with
    | .wait s' => .wait s'
    | .trap _ s' => .ok () (refuse s')
    | .ok (bytes, bad) s2 =>
      let base : Stream := { ticket := ticket, word := info, user := !s.me.sys, dst := d, desc := desc, total := 0, strip := 1, buf := 0, ns := 0, leb := 0,
                             swi := 0, bases := [], delivered := 0, released := 0, hinted := 3, stamp := s2.me.lclk }
      let (x, wrong) := streamOf bytes base
      match s2.scratchOf s2.me with
      | none => .ok () (refuse s2)
      | some (org, size) =>
        if bad ∨ wrong ∨ size < x.buf * 4096 + 2 * (x.ns + 1) * x.slot ∨ size < x.swi * 16 + 16 ∨ 2 ≤ s2.me.as.streams.length then .ok () (refuse s2)
        else
          let word := w64 (x.swi * 16)
          let m := s2.mem
          let m := { m with ram := m.ram.write (org + x.swi * 16) (leBytes 8 x.target ++ leBytes 8 0), syncs := m.syncs.filter (·.1 ≠ org + x.swi * 16) }
          let mates (k : Strand) : Bool := k.id.lid == s2.me.id.lid && k.id.cid == s2.me.id.cid
          let s3 := { s2 with mem := m }.mapStrands fun k => if mates k then
            { k with as := { k.as with stopped := k.as.stopped.filter (·.1 ≠ 0xFFFFFFFFFFE00000 + word) } } else k
          .ok () ((s3.setMe fun k => { k with as := { k.as with streams := k.as.streams ++ [x], stat := k.as.stat.filter (·.1 ≠ d) } }).watchStrips s3.me x)

/-- STREAM (R332, R333). -/
def execStream (d a : Reg) (s : State) : Out :=
  let info := wordOf32 (.stream d a)
  s.scalarOp info [a] [d] (
    if s.me.asyncFull then .next s
    else match s.openStream info d (s.s a) with
      | .wait s' => .next s'
      | .trap _ s' => .next s'
      | .ok _ s' => .next s'.advance)

/-- Ends the open streams of a strand that are to end and whose strips have landed (R334, R335). -/
def State.closeStreams (s : State) (k : SId) : State :=
  match s.strandOf k with
  | none => s
  | some o =>
    let ended (x : Stream) : Bool := decide (x.strips ≤ x.delivered) || (match x.ending with | some n => decide (n ≤ x.delivered) | none => false)
    (o.as.streams.filter ended).foldl (fun s x => s.settleOp o x.ticket x.dst 0 x.delivered 0 x.stamp) s

/-- Open streams that match are to end after the strips already being fetched. -/
def State.endStreams (s : State) (p : Stream → Bool) : State :=
  (s.setMe fun k => { k with as := { k.as with streams := replaceIf (fun x => p x && x.ending.isNone) (fun x => { x with ending := some (s.fetchable x) }) k.as.streams } }).closeStreams s.me.id

/-- STREAMX: ends the stream of a descriptor address, and waits until it has ended (R335). -/
def execStreamx (a : Reg) (s : State) : Out :=
  let info := wordOf32 (.streamx a)
  s.scalarOp info [a] [] (
    let s' := s.endStreams fun x => x.desc == s.s a
    if s'.me.as.streams.any fun x => x.desc == s.s a then .next s' else .next s'.advance)

/-- How the fetch of elements fares. -/
inductive Fetched where
  | ok (bytes : List Byte) (s : State)
  | fault (fc : Byte) (at_ : Word) (s : State)
  | wait (s : State)

/-- Elements of a strip from one base: `a` is the address of the next, one per unit of fuel. -/
def State.fetchElems (s0 s : State) (r : Req) (eb : Nat) (step : Word) : Nat → Word → Fetched
  | 0, _ => .ok [] s
  | n + 1, a =>
    if a.toNat % eb ≠ 0 then .fault cPROT a s
    else match s.memRead r a eb .read with
      | .trap c s' => .fault c a s'
      | .wait s' => .wait (s0.waitKeeping s')
      | .ok (bs, bad) s' =>
        if bad then .fault cPOISON a s'
        else match s0.fetchElems s' r eb step n (a + step) with
          | .ok t s'' => .ok (bs ++ t) s''
          | o => o

/-- Writes bytes from an address in pieces of at most a sector; the fuel bounds them. -/
def State.writeSpan (s : State) (r : Req) : Nat → Word → List Byte → Fetched
  | 0, _, _ => .ok [] s
  | fuel + 1, a, bs =>
    if bs.isEmpty then .ok [] s
    else
      let n := 256 - a.toNat % 256
      match s.memWrite r a (bs.take n) false .write {} with
      | .trap c s' => .fault c a s'
      | .wait s' => .wait s'
      | .ok _ s' => s'.writeSpan r fuel (a + w64 n) (bs.drop n)

/-- Strip `delivered` of a stream lands in its slots, stream after stream; a slot that a store met meanwhile holds undefined bytes (R337). -/
def State.landStrip (s0 : State) (r : Req) (x : Stream) : List Nat → State → Fetched
  | [], s => .ok [] s
  | k :: rest, s =>
    let (base, step) := (x.bases[k]?).getD (0, 0)
    let first := x.delivered * x.strip
    let n := min x.strip (x.total - first)
    match s0.fetchElems s r x.eb step n (base + w64 first * step) with
    | .ok bytes s' =>
      let name := r.own ++ [x.delivered, k]
      let spoiled := s'.mem.watch.any fun w => w.own == name && w.hit
      let bytes := if spoiled then (List.range bytes.length).map fun i => Config.freeByte (s'.free + i) else bytes
      let s' := { s' with free := if spoiled then s'.free + bytes.length else s'.free, mem := { s'.mem with watch := s'.mem.watch.filter (·.own ≠ name) } }
      match s'.writeSpan { r with user := false } (x.slot / 256 + 1) (0xFFFFFFFFFFE00000 + w64 (x.buf * 4096 + (2 * k + x.delivered % 2) * x.slot)) bytes with
      | .ok _ s'' => State.landStrip s0 r x rest s''
      | .wait s'' => .wait (s0.waitKeeping s'')
      | o => o
    | o => o

/-- STRIP_LAND: the next strip of an open stream is fetched, lands, and is counted (R333, R334). -/
def execStripLand (k : SId) (ticket : Word) (s : State) : Out :=
  match (s.strandOf k).bind fun o => (o.as.streams.find? (·.ticket = ticket)).map fun x => (o, x) with
  | none => .next s
  | some (o, x) =>
    if s.fetchable x ≤ x.delivered then .next (s.closeStreams k)
    else
      let r := o.creq x.word x.user ticket
      match s.landStrip r x (List.range (x.ns + 1)) s with
      | .wait s' => .next s'
      | .fault fc at_ s1 =>
        let s' := s1.settleOp o ticket x.dst fc x.delivered at_ x.stamp
        .next (s'.onStrand k fun o => { o with as := { o.as with stopped := (0xFFFFFFFFFFE00000 + w64 (x.swi * 16), ticket, x.delivered) :: o.as.stopped } })
      | .ok _ s1 =>
        let (t, s2) := s1.engineStamp o.core x.stamp
        let s3 := match s2.scratchOf o with
          | some (org, _) => { s2 with mem := s2.mem.count (org + x.swi * 16) x.target t }
          | none => s2
        let x' := { x with delivered := x.delivered + 1, released := s.letGo x, pend := [], hinted := x.delivered + 4 }
        let keep := x.pend.filter fun p => decide (s.letGo { x with pend := [p] } < p.2.2)
        .next (((s3.onStrand k fun o => { o with as := { o.as with streams := replaceIf (·.ticket == ticket) (fun _ => { x' with pend := keep }) o.as.streams } }).watchStrips o { x' with pend := keep }).closeStreams k)

/-! ### Timelines (R325 to R328) -/

/-- A timeline as its selector names it: operations in order, each with its completion stamp when done; the issued count. -/
structure Timeline where
  issued : Nat
  /-- Number and stamp of the operations that are done. -/
  done : List (Nat × Word)
  /-- Numbers of those that are not. -/
  open_ : List Nat
  deriving DecidableEq, Repr

/-- The group timeline (R325): completed or stopped collectives are done. -/
def Group.timeline (g : Group) : Timeline :=
  { issued := g.issued, done := (g.colls.filter (·.fc.isSome)).map fun c => (c.num, c.stamp), open_ := (g.colls.filter (·.fc.isNone)).map (·.num) }

/-- The timeline that a selector names for the strand whose turn it is; none raises PROT. -/
def State.timeline (s : State) (sel : Word) : Option Timeline :=
  if bf sel 59 16 ≠ 0 then none
  else match bf sel 63 60 with
    | 0 => if bf sel 15 0 ≠ 0 then none else
      some { issued := s.me.tlc.toNat, done := s.me.as.fins.map fun f => (f.ticket.toNat, f.stamp)
             open_ := s.me.as.copies.map (·.ticket.toNat) ++ s.me.as.streams.map (·.ticket.toNat) }
    | 1 => if bf sel 15 0 ≠ 0 then none else
      let numbered := s.me.as.ltl.mapIdx fun i e => (i + 1, e)
      let isOpen (e : LtEntry) : Bool := e.asked || match e.handle.bind (s.object s.me.ctx) with
        | some p => bf (s.wordOf p).1 63 60 == 0
        | none => false
      some { issued := s.me.as.ltl.length, done := (numbered.filter fun x => !isOpen x.2).map fun x => (x.1, x.2.stamp)
             open_ := (numbered.filter fun x => isOpen x.2).map (·.1) }
    | 2 => ((s.groups.find? fun g => g.ctx == s.me.ctx && g.grp.toNat == bf sel 15 0).filter (·.joined)).map Group.timeline
    | _ => none

/-- T: every operation numbered 1 to T is done. -/
def Timeline.value (t : Timeline) : Nat := match t.open_.min? with | some m => m - 1 | none => t.issued

/-- The largest completion stamp among the operations numbered up to n. -/
def Timeline.stamp (t : Timeline) (n : Nat) : Word := ((t.done.filter (·.1 ≤ n)).map (·.2)).foldl maxW 0

/-- TLREAD (R326). -/
def execTlread (d a : Reg) (s : State) : Out :=
  let info := wordOf32 (.tlread d a)
  s.scalarOp info [a] [d] (match s.timeline (s.s a) with
    | none => .next (s.trap cPROT info (some (s.s a)))
    | some t => .next (s.finish d (w64 t.value)))

/-- The unreported fault of the lowest ticket up to n (R328). -/
def Strand.oldestFault (k : Strand) (n : Nat) : Option Finished :=
  (k.as.fins.filter fun f => f.unreported && decide (f.ticket.toNat ≤ n)).foldl (fun (best : Option Finished) f => match best with
    | none => some f
    | some b => if f.ticket.toNat < b.ticket.toNat then some f else some b) none

/-- TLWAIT (R327, R328). -/
def execTlwait (a b : Reg) (s : State) : Out :=
  let info := wordOf32 (.tlwait a b)
  s.scalarOp info [a, b] [] (
    let sel := s.s a
    match s.me.tlWait.bind fun w => if w.sel = sel ∧ w.n = s.s b then w.met else none with
    | some c => .next (s.hear c).advance
    | none => match s.timeline sel with
      | none => .next (s.trap cPROT info (some sel))
      | some t =>
        let n := if bf sel 63 60 = 2 then (s.s b).toNat else min (s.s b).toNat t.issued
        if t.value < n then .next (s.setMe fun k => { k with tlWait := some ⟨sel, s.s b, none⟩ })
        else match if bf sel 63 60 = 0 then s.me.oldestFault n else none with
          | some f => .next (s.copyFault f)
          | none => .next (s.hear (t.stamp n)).advance)

/-! ### SYNCW (R331, R334, R336) -/

/-- A 32-bit count v as the full number nearest to n. -/
def nearCount (n v : Nat) : Nat := ((n : Int) + sgn 32 (wrapN 32 ((v : Int) - n))).toNat

/-- SYNCW on the word at a byte number releases the strips below v of the crew's open streams on it. -/
def State.releaseStrips (s : State) (key v : Nat) : State :=
  match s.scratchOf s.me with
  | none => s
  | some (org, _) =>
    let mates (k : Strand) : Bool := k.id.lid == s.me.id.lid && k.id.cid == s.me.id.cid
    let mine (x : Stream) : Bool := decide (org + x.swi * 16 = key)
    let s := s.mapStrands fun k => if mates k ∧ k.as.streams.any mine then
      { k with as := { k.as with streams := replaceIf mine (fun x =>
        let p := (s.me.id, s.me.fetches, nearCount x.delivered v)
        if x.pend.contains p then x else { x with pend := p :: x.pend }) k.as.streams } } else k
    (s.allStrands.filter mates).foldl (fun s k => (k.as.streams.filter mine).foldl (fun s x => s.watchStrips k x) s) s

/-- The stopped stream whose word this is, when v lies at or past the strips it delivered and its fault is unreported: the
strand that owns it and the fault. -/
def State.stoppedStream (s : State) (key v : Nat) : Option (SId × Finished) :=
  match s.scratchOf s.me with
  | none => none
  | some (org, _) => (s.allStrands.filter fun k => k.id.lid == s.me.id.lid && k.id.cid == s.me.id.cid).findSome? fun k =>
    k.as.stopped.findSome? fun x =>
      if org + (x.1 - 0xFFFFFFFFFFE00000).toNat = key ∧ x.2.2 ≤ nearCount x.2.2 v then
        (k.as.fins.find? fun f => f.ticket == x.2.1 && f.unreported).map fun f => (k.id, f)
      else none

/-- SYNCW (R331). -/
def execSyncw (d a b : Reg) (s : State) : Out :=
  let info := wordOf32 (.syncw d a b)
  s.scalarOp info [a, b] [d] (
    let at_ := s.s a
    let v := bf (s.s b) 31 0
    if at_.toNat % 16 ≠ 0 then .next (s.trap cMISALIGN info (some at_))
    else match s.homeOf (s.me.req info) at_ false with
      | .window _ key => match s.memRead (s.me.req info) at_ 16 .read with
        | .trap c s' => .next (s'.trap c info (some at_))
        | .wait s' => .next s'
        | .ok (bs, bad) s1 =>
          if bad then .next (s.trap cPOISON info (some at_))
          else
            let s1 := s1.releaseStrips key v
            let gen := numAt bs 12 4
            let gap := wrapN 32 ((gen : Int) - v)
            if 1 ≤ gap ∧ gap ≤ 2 ^ 31 then .next ((s1.w d (w64 gen)).hear (w64 (kvGet s1.mem.syncs key))).advance
            else match s1.stoppedStream key v with
              | some (k, f) => .next ((s1.onStrand k (·.reported f.ticket)).trap cCOPYFAULT f.status (some f.faultAt))
              | none => .next s1
      | _ => .next (s.trap cPROT info (some at_)))

end Sys2Proof.Machine
end

