-- ==== Sys2Proof/Machine/Flags.lean ====
section
/-! DEFINITION. Number formats, exact values, Round, the sticky flags of NM and the functions of the vector unit on element
patterns (R12, R184 to R200, R221 to R239). -/

namespace Sys2Proof.Machine

/-! ### Formats (R184 to R186) -/

/-- An element format: FMT, W and E of VT (R201). -/
structure Fmt where
  fmt : Nat
  w : Nat
  e : Nat
  deriving DecidableEq, Repr

/-- The format that bits 11:0 of VT, or of an immediate, name. -/
def Fmt.of (x : Nat) : Fmt := ⟨fld x 3 0, fld x 8 4, fld x 11 9⟩

/-- FMT, W and E form a row of R184. -/
def Fmt.valid (f : Fmt) : Bool :=
  match f.fmt with
  | 0 => decide (3 ≤ f.w ∧ f.w ≤ 6) && f.e == 0
  | 1 => decide (3 ≤ f.w ∧ f.w ≤ 6) && f.e == 0
  | 2 => f.w == 4 && f.e == 0
  | 3 => f.w == 4 && f.e == 0
  | 4 => f.w == 5 && f.e == 0
  | 5 => f.w == 6 && f.e == 0
  | 8 => decide (1 ≤ f.w ∧ f.w ≤ 16) && f.e == 0
  | 9 => decide (1 ≤ f.w ∧ f.w ≤ 16) && f.e == 0
  | 10 => decide (1 ≤ f.e ∧ f.e ≤ 5 ∧ f.e + 1 ≤ f.w ∧ f.w ≤ 16)
  | _ => false

/-- Nibble-plane layout (R184). -/
def Fmt.plane (f : Fmt) : Bool := decide (8 ≤ f.fmt)
def Fmt.isInt (f : Fmt) : Bool := f.fmt == 0 || f.fmt == 1 || f.fmt == 8 || f.fmt == 9
def Fmt.signed (f : Fmt) : Bool := f.fmt == 1 || f.fmt == 9
/-- A minifloat (R186). -/
def Fmt.mini (f : Fmt) : Bool := f.fmt == 10
/-- Width of the value in bits. -/
def Fmt.width (f : Fmt) : Nat := if f.plane then f.w else 2 ^ f.w
/-- Nibble planes of a nibble-plane format (R188). -/
def Fmt.planes (f : Fmt) : Nat := (f.w + 3) / 4
/-- Storage bits per element (R184). -/
def Fmt.storage (f : Fmt) : Nat := if f.plane then 4 * f.planes else 2 ^ f.w
/-- Storage bytes of a standard element. -/
def Fmt.eb (f : Fmt) : Nat := f.storage / 8
/-- Exponent and fraction bits and bias of a floating format (R185, R186). -/
def Fmt.exp (f : Fmt) : Nat := match f.fmt with | 2 => 5 | 3 => 8 | 4 => 8 | 5 => 11 | _ => f.e
def Fmt.frac (f : Fmt) : Nat := f.width - 1 - f.exp
def Fmt.bias (f : Fmt) : Nat := 2 ^ (f.exp - 1) - 1
def Fmt.lo (f : Fmt) : Int := if f.signed then -(2 ^ (f.width - 1) : Int) else 0
def Fmt.hi (f : Fmt) : Int := if f.signed then 2 ^ (f.width - 1) - 1 else 2 ^ f.width - 1

/-- The pattern with its padding bits (R189). -/
def Fmt.pad (f : Fmt) (x : Nat) : Nat :=
  let p := x % 2 ^ f.width
  if f.fmt = 9 ∧ f.width < f.storage ∧ p.testBit (f.width - 1) then p + (2 ^ f.storage - 2 ^ f.width) else p

/-! ### The number mode (R195) -/

def fNV : Nat := 2 ^ 8
def fDZ : Nat := 2 ^ 9
def fOF : Nat := 2 ^ 10
def fUF : Nat := 2 ^ 11
def fNX : Nat := 2 ^ 12
def fSA : Nat := 2 ^ 13

/-- Rounding of NM. -/
def nmRM (nm : Word) : Nat := bf nm 1 0
def nmFZI (nm : Word) : Bool := bt nm 2
def nmFZO (nm : Word) : Bool := bt nm 3
def nmSATN (nm : Word) : Bool := bt nm 4

/-- A pattern with the flags that making it set. -/
abbrev Res := Nat × Nat

/-! ### Exact values -/

/-- What a pattern stands for. A finite value is m·2^e with its sign; with `st` it lies strictly between that and the next
multiple of 2^e away from zero. -/
inductive Num where
  | nan (sig : Bool)
  | inf (neg : Bool)
  | fin (neg : Bool) (m : Nat) (e : Int) (st : Bool)
  deriving DecidableEq, Repr

def Num.zero (neg : Bool) : Num := .fin neg 0 0 false

/-- The integer n as an exact value. -/
def Num.ofInt (n : Int) : Num := .fin (decide (n < 0)) n.natAbs 0 false

def Num.isZero : Num → Bool
  | .fin _ 0 _ false => true
  | _ => false

def Num.neg : Num → Num
  | .nan s => .nan s
  | .inf n => .inf (!n)
  | .fin n m e st => .fin (!n) m e st

def Num.isNan : Num → Bool
  | .nan _ => true
  | _ => false

/-- A signalling NaN (R199). -/
def Num.sig : Num → Bool
  | .nan s => s
  | _ => false

def Num.negative : Num → Bool
  | .nan _ => false
  | .inf n => n
  | .fin n _ _ _ => n

/-- The value of a pattern of format f (R185, R186), subnormals taken as zero under FZI (R197). -/
def Fmt.value (f : Fmt) (nm : Word) (x : Nat) : Num :=
  let p := x % 2 ^ f.width
  if f.isInt then .ofInt (if f.signed then sgn f.width p else p)
  else
    let neg := p.testBit (f.width - 1)
    let fr := p % 2 ^ f.frac
    let ex := p / 2 ^ f.frac % 2 ^ f.exp
    if f.mini ∧ p % 2 ^ (f.width - 1) = 2 ^ (f.width - 1) - 1 then .nan false
    else if !f.mini ∧ ex = 2 ^ f.exp - 1 then (if fr = 0 then .inf neg else .nan (!fr.testBit (f.frac - 1)))
    else if ex = 0 then (if nmFZI nm then .zero neg else .fin neg fr (1 - (f.bias : Int) - f.frac) false)
    else .fin neg (2 ^ f.frac + fr) ((ex : Int) - f.bias - f.frac) false

/-- The default NaN of a format (R187). -/
def Fmt.nan (f : Fmt) : Nat := if f.mini then 2 ^ (f.width - 1) - 1 else (2 ^ f.exp - 1) * 2 ^ f.frac + 2 ^ (f.frac - 1)
/-- The infinity of a standard format, without its sign. -/
def Fmt.infPat (f : Fmt) : Nat := (2 ^ f.exp - 1) * 2 ^ f.frac
/-- The largest finite pattern, without its sign. -/
def Fmt.maxPat (f : Fmt) : Nat := if f.mini then 2 ^ (f.width - 1) - 2 else f.infPat - 1
def Fmt.withSign (f : Fmt) (neg : Bool) (x : Nat) : Nat := f.pad (x + if neg then 2 ^ (f.width - 1) else 0)

/-! ### Round (R196 to R199) -/

/-- Number of bits of a number. -/
def bitLen (n : Nat) : Nat := if n = 0 then 0 else Nat.log2 n + 1

/-- m·2^e, sticky below, as a multiple of 2^q rounded under RM: the multiple, and whether it is inexact. DESIGN CHOICE: in a minifloat without
fraction bits both neighbours of a tie have an odd significand, which R196 does not settle; the multiple decides, so the tie goes to the
larger magnitude. -/
def roundAt (rm : Nat) (neg : Bool) (m : Nat) (e : Int) (st : Bool) (q : Int) : Nat × Bool :=
  if q ≤ e then (m * 2 ^ (e - q).toNat, st)
  else
    let sh := (q - e).toNat
    let k := m / 2 ^ sh
    let r := m % 2 ^ sh
    let half := 2 ^ (sh - 1)
    let inexact := r ≠ 0 || st
    let up := match rm with
      | 0 => decide (half < r) || (r == half && (st || k % 2 == 1))
      | 1 => false
      | 2 => inexact && !neg
      | _ => inexact && neg
    (if up then k + 1 else k, inexact)

/-- An overflow (R196): the pattern and its flags. -/
def Fmt.overflow (f : Fmt) (nm : Word) (neg : Bool) : Res :=
  let far := nmRM nm == 0 || (nmRM nm == 2 && !neg) || (nmRM nm == 3 && neg)
  if f.mini then
    if far && !nmSATN nm then (f.nan, fOF + fNX) else (f.withSign neg f.maxPat, fOF + fNX + fSA)
  else (f.withSign neg (if far then f.infPat else f.maxPat), fOF + fNX)

/-- Round of a nonzero finite value to a floating format. -/
def Fmt.roundFin (f : Fmt) (nm : Word) (neg : Bool) (m : Nat) (e : Int) (st : Bool) : Res :=
  let rm := nmRM nm
  let emin : Int := 1 - (f.bias : Int)
  let top : Int := (bitLen m : Int) - 1 + e
  let q : Int := max top emin - f.frac
  let (k, inexact) := roundAt rm neg m e st q
  let ku := (roundAt rm neg m e st (top - f.frac)).1
  let tiny := decide (top < emin) && !(top + 1 == emin && ku == 2 ^ (f.frac + 1))
  let (k, q) := if k = 2 ^ (f.frac + 1) then (2 ^ f.frac, q + 1) else (k, q)
  let pat := if k < 2 ^ f.frac then k else (q + f.frac + f.bias).toNat * 2 ^ f.frac + (k - 2 ^ f.frac)
  if (if f.mini then 2 ^ (f.width - 1) - 1 else f.infPat) ≤ pat then f.overflow nm neg
  else if tiny && nmFZO nm then (f.withSign neg 0, fUF + fNX)
  else (f.withSign neg pat, (if inexact then fNX else 0) + (if inexact && tiny then fUF else 0))

/-- Round(x, f) for a floating format; an infinity into a minifloat follows R229. -/
def Fmt.roundF (f : Fmt) (nm : Word) (x : Num) : Res :=
  match x with
  | .nan s => (f.pad f.nan, if s then fNV else 0)
  | .inf neg =>
    if !f.mini then (f.withSign neg f.infPat, 0)
    else if nmSATN nm then (f.withSign neg f.maxPat, fSA) else (f.pad f.nan, fNV)
  | .fin neg m e st => if m = 0 && !st then (f.withSign neg 0, 0) else f.roundFin nm neg m e st

/-- Rounding to an integer format (R198). -/
def Fmt.roundI (f : Fmt) (nm : Word) (x : Num) : Res :=
  match x with
  | .nan _ => (0, fNV)
  | .inf neg => (f.pad (wrapN f.width (if neg then f.lo else f.hi)), fSA)
  | .fin neg m e st =>
    let (k, inexact) := roundAt (nmRM nm) neg m e st 0
    let v : Int := if neg then -(k : Int) else k
    let fl := (roundAt 1 neg m e st 0).1
    let below := neg && (decide (-(fl : Int) < f.lo) || (decide (-(fl : Int) = f.lo) && inexact))
    let above := !neg && (decide (f.hi < (fl : Int)) || (decide ((fl : Int) = f.hi) && inexact))
    if below then (f.pad (wrapN f.width f.lo), fSA)
    else if above then (f.pad (wrapN f.width f.hi), fSA)
    else (f.pad (wrapN f.width v), if inexact then fNX else 0)

def Fmt.round (f : Fmt) (nm : Word) (x : Num) : Res := if f.isInt then f.roundI nm x else f.roundF nm x

/-- An exact integer brought into an integer format: wrapped, or clamped with SA (R198, R221). -/
def Fmt.wrapInt (f : Fmt) (sat : Bool) (x : Int) : Res :=
  if sat ∧ x < f.lo then (f.pad (wrapN f.width f.lo), fSA)
  else if sat ∧ f.hi < x then (f.pad (wrapN f.width f.hi), fSA)
  else (f.pad (wrapN f.width x), 0)

/-- The integer that a pattern of an integer format stands for. -/
def Fmt.int (f : Fmt) (x : Nat) : Int := if f.signed then sgn f.width x else ((x % 2 ^ f.width : Nat) : Int)

/-! ### Exact arithmetic -/

/-- Signed integer of m·2^e over the grid 2^g, for g ≤ e. -/
def scaled (neg : Bool) (m : Nat) (e g : Int) : Int := (if neg then -1 else 1) * ((m * 2 ^ (e - g).toNat : Nat) : Int)

/-- The exact sum, with the zero sign of R224, and the flags of invalid operations. -/
def Num.add (rm : Nat) (a b : Num) : Num × Nat :=
  match a, b with
  | .nan s, y => (.nan false, if s || y.sig then fNV else 0)
  | x, .nan s => (.nan false, if s || x.sig then fNV else 0)
  | .inf p, .inf q => if p = q then (.inf p, 0) else (.nan false, fNV)
  | .inf p, _ => (.inf p, 0)
  | _, .inf q => (.inf q, 0)
  | .fin n m e _, .fin n' m' e' _ =>
    let g := min e e'
    let x := scaled n m e g + scaled n' m' e' g
    if x = 0 then (if m = 0 ∧ m' = 0 ∧ n = n' then (.zero n, 0) else (.zero (rm == 3), 0))
    else (.fin (decide (x < 0)) x.natAbs g false, 0)

/-- The exact product. -/
def Num.mul (a b : Num) : Num × Nat :=
  match a, b with
  | .nan s, y => (.nan false, if s || y.sig then fNV else 0)
  | x, .nan s => (.nan false, if s || x.sig then fNV else 0)
  | .inf p, y => if y.isZero then (.nan false, fNV) else (.inf (p != y.negative), 0)
  | x, .inf q => if x.isZero then (.nan false, fNV) else (.inf (x.negative != q), 0)
  | .fin n m e _, .fin n' m' e' _ => (.fin (n != n') (m * m') (e + e') false, 0)

/-- Round of a value that carries flags of its own. -/
def Fmt.roundWith (f : Fmt) (nm : Word) (x : Num × Nat) : Res :=
  let r := f.roundF nm x.1
  (r.1, Nat.lor r.2 x.2)

/-- Order of two values that are not NaN: less, equal, greater as −1, 0, 1; zeros are equal. -/
def Num.cmp (a b : Num) : Int :=
  match a, b with
  | .inf p, .inf q => if p = q then 0 else if p then -1 else 1
  | .inf p, _ => if p then -1 else 1
  | _, .inf q => if q then 1 else -1
  | .fin n m e _, .fin n' m' e' _ =>
    let g := min e e'
    let x := scaled n m e g
    let y := scaled n' m' e' g
    if x < y then -1 else if x = y then 0 else 1
  | _, _ => 0

/-! ### Floating operations on patterns (R224 to R228) -/

def Fmt.fadd (f : Fmt) (nm : Word) (a b : Nat) : Res := f.roundWith nm ((f.value nm a).add (nmRM nm) (f.value nm b))

/-- The exact difference: two zeros of one sign keep that sign, two of different signs give +0, or −0 when RM is down (R224). -/
def Num.sub (rm : Nat) (a b : Num) : Num × Nat :=
  if a.isZero && b.isZero then (.zero (if a.negative = b.negative then a.negative else rm == 3), 0) else a.add rm b.neg

def Fmt.fsub (f : Fmt) (nm : Word) (a b : Nat) : Res := f.roundWith nm (Num.sub (nmRM nm) (f.value nm a) (f.value nm b))
def Fmt.fmul (f : Fmt) (nm : Word) (a b : Nat) : Res := f.roundWith nm ((f.value nm a).mul (f.value nm b))

/-- Round(±a·b ± c) (R227). -/
def Fmt.fma (f : Fmt) (nm : Word) (negP negC : Bool) (a b c : Nat) : Res :=
  let p := (f.value nm a).mul (f.value nm b)
  let y := f.value nm c
  let s := (if negP then p.1.neg else p.1).add (nmRM nm) (if negC then y.neg else y)
  f.roundWith nm (s.1, Nat.lor p.2 s.2)

/-- A number as VFMIN and VFMAX return it: unrounded, a flushed subnormal as its zero (R225). -/
def Fmt.asIs (f : Fmt) (x : Nat) (v : Num) : Nat := if v.isZero then f.withSign v.negative 0 else f.pad x

/-- VFMIN and VFMAX (R225). -/
def Fmt.fminmax (f : Fmt) (nm : Word) (wantMax : Bool) (a b : Nat) : Res :=
  let x := f.value nm a
  let y := f.value nm b
  let fl := if x.sig || y.sig then fNV else 0
  if x.isNan && y.isNan then (f.pad f.nan, fl)
  else if x.isNan then (f.asIs b y, fl)
  else if y.isNan then (f.asIs a x, fl)
  else
    let c := x.cmp y
    let c := if c = 0 ∧ x.isZero then (if x.negative = y.negative then 0 else if x.negative then -1 else 1) else c
    let takeA := if wantMax then decide (0 ≤ c) else decide (c ≤ 0)
    (if takeA then f.asIs a x else f.asIs b y, fl)

/-- Sign bit changes (R226). -/
def Fmt.fabs (f : Fmt) (a : Nat) : Res := (f.pad (a % 2 ^ (f.width - 1)), 0)
def Fmt.fneg (f : Fmt) (a : Nat) : Res := (f.pad (Nat.xor (a % 2 ^ f.width) (2 ^ (f.width - 1))), 0)
def Fmt.fsgn (f : Fmt) (a b : Nat) : Res := (f.withSign (b.testBit (f.width - 1)) (a % 2 ^ (f.width - 1)), 0)

/-- The floating conditions of VCMP by code 0x10 to 0x16 (R106, R228): the bit and NV. DEDUCED: a minifloat NaN sets NV in the four ordered
conditions, as R228 says of either operand, though R199 has a minifloat NaN input set nothing by itself. -/
def Fmt.fcmp (f : Fmt) (nm : Word) (code a b : Nat) : Bool × Nat :=
  let x := f.value nm a
  let y := f.value nm b
  let nan := x.isNan || y.isNan
  let c := x.cmp y
  let quiet := if x.sig || y.sig then fNV else 0
  let loud := if nan then fNV else 0
  match code with
  | 0x10 => (!nan && c == 0, quiet)
  | 0x11 => (nan || c != 0, quiet)
  | 0x12 => (!nan && decide (c < 0), Nat.lor loud quiet)
  | 0x13 => (!nan && decide (c ≤ 0), Nat.lor loud quiet)
  | 0x14 => (!nan && decide (0 < c), Nat.lor loud quiet)
  | 0x15 => (!nan && decide (0 ≤ c), Nat.lor loud quiet)
  | _ => (nan, quiet)

/-! ### Integer and bitwise operations on patterns (R221 to R223, R228) -/

def Fmt.vadd (f : Fmt) (sat : Bool) (a b : Nat) : Res := f.wrapInt sat (f.int a + f.int b)
def Fmt.vsub (f : Fmt) (sat : Bool) (a b : Nat) : Res := f.wrapInt sat (f.int a - f.int b)
def Fmt.vmul (f : Fmt) (sat : Bool) (a b : Nat) : Res := f.wrapInt sat (f.int a * f.int b)
def Fmt.vmulh (f : Fmt) (a b : Nat) : Res := (f.pad (wrapN f.width (f.int a * f.int b / 2 ^ f.width)), 0)
def Fmt.vabs (f : Fmt) (sat : Bool) (a : Nat) : Res := f.wrapInt sat (if f.signed then (f.int a).natAbs else f.int a)
def Fmt.vneg (f : Fmt) (sat : Bool) (a : Nat) : Res := f.wrapInt sat (-f.int a)

/-- The smaller or larger of a and b, compared signed or unsigned (R221). -/
def Fmt.vminmax (f : Fmt) (signed wantMax : Bool) (a b : Nat) : Res :=
  let v (x : Nat) : Int := if signed then sgn f.width x else ((x % 2 ^ f.width : Nat) : Int)
  let takeA := if wantMax then decide (v b ≤ v a) else decide (v a ≤ v b)
  (f.pad (if takeA then a else b), 0)

/-- VDIV (R222). -/
def Fmt.vdiv (f : Fmt) (a b : Nat) : Res :=
  if b % 2 ^ f.width = 0 then (f.pad (2 ^ f.width - 1), 0)
  else (f.pad (wrapN f.width (Int.tdiv (f.int a) (f.int b))), 0)

/-- The shift amount is read as an unsigned w-bit value, not reduced (R223). -/
def Fmt.vshl (f : Fmt) (a b : Nat) : Res :=
  let s := b % 2 ^ f.width
  (f.pad (if f.width ≤ s then 0 else a % 2 ^ f.width * 2 ^ s), 0)
def Fmt.vshr (f : Fmt) (a b : Nat) : Res :=
  let s := b % 2 ^ f.width
  (f.pad (if f.width ≤ s then 0 else a % 2 ^ f.width / 2 ^ s), 0)
def Fmt.vsha (f : Fmt) (a b : Nat) : Res :=
  let s := min (b % 2 ^ f.width) f.width
  (f.pad (wrapN f.width (sgn f.width a / 2 ^ s)), 0)

/-- Leading zero bits of the w-bit pattern; one bits. -/
def lzBits : Nat → Nat → Nat
  | 0, _ => 0
  | n + 1, x => if x.testBit n then 0 else 1 + lzBits n x
def oneBits : Nat → Nat → Nat
  | 0, _ => 0
  | n + 1, x => x % 2 + oneBits n (x / 2)

/-- The integer conditions of VCMP by code 0x00 to 0x09 (R106, R228). -/
def Fmt.icmp (f : Fmt) (code a b : Nat) : Bool :=
  let x := sgn f.width a
  let y := sgn f.width b
  let u := a % 2 ^ f.width
  let v := b % 2 ^ f.width
  match code with
  | 0 => u == v
  | 1 => u != v
  | 2 => decide (x < y)
  | 3 => decide (x ≤ y)
  | 4 => decide (y < x)
  | 5 => decide (y ≤ x)
  | 6 => decide (u < v)
  | 7 => decide (u ≤ v)
  | 8 => decide (v < u)
  | _ => decide (v ≤ u)

/-! ### Conversion and scales (R192, R198, R229, R231) -/

/-- VCVT of a pattern of format g to format f (R229). -/
def Fmt.convert (f g : Fmt) (nm : Word) (a : Nat) : Res :=
  if g.isInt ∧ f.isInt then f.wrapInt true (g.int a)
  else f.round nm (g.value nm a)

/-- The value of a scale entry (R192): SC8 or SC16. -/
def scaleValue (scf : Bool) (entry : Nat) : Num :=
  if scf then
    (match (Fmt.value ⟨2, 4, 0⟩ 0 entry) with
     | .nan _ => .nan false
     | x => x)
  else if entry % 256 = 255 then .nan false else .fin false 1 ((entry % 256 : Nat) - 127 : Int) false

/-- One element multiplied by a scale and rounded once (R231). -/
def Fmt.scaleBy (f : Fmt) (nm : Word) (a : Nat) (scale : Num) : Res :=
  let x := f.value nm a
  let p := x.mul scale
  if f.isInt then
    let r := f.roundI nm p.1
    (r.1, Nat.lor r.2 p.2)
  else f.roundWith nm (p.1, p.2)

/-! ### Special functions (R200, R232 to R234) -/

/-- floor √n, from bit b downward. -/
def isqrtFrom (n : Nat) : Nat → Nat → Nat
  | 0, r => r
  | b + 1, r => let t := r + 2 ^ b
    if t * t ≤ n then isqrtFrom n b t else isqrtFrom n b r

def isqrt (n : Nat) : Nat := isqrtFrom n (bitLen n / 2 + 1) 0

/-- a/b of finite values with 160 bits of quotient. -/
def quotient (neg : Bool) (m : Nat) (e : Int) (m' : Nat) (e' : Int) : Num :=
  let k := 160 + bitLen m'
  let q := m * 2 ^ k / m'
  .fin neg q (e - e' - k) (decide (m * 2 ^ k % m' ≠ 0))

/-- √(n/d · 2^e) with e even: 160 bits and more. -/
def rootOf (n d : Nat) (e : Int) : Num :=
  let k := 160 + bitLen d
  let x := n * 2 ^ (2 * k) / d
  let r := isqrt x
  .fin false r (e / 2 - k) (decide (r * r * d ≠ n * 2 ^ (2 * k)))

/-- floor(ln 2 · 2^256). -/
def ln2Fix : Nat := 80260960185991308862233904206310070533990667611589946606122867505419956976171

/-- Σ t^k/k! over k, with 256 fraction bits; the fuel bounds the terms. -/
def expTerms (t : Nat) : Nat → Nat → Nat → Nat
  | 0, _, _ => 0
  | fuel + 1, k, term => term + expTerms t fuel (k + 1) (term * t / 2 ^ 256 / (k + 1))

/-- 2^(m·2^e) with its sign: the integer part shifts, the fraction goes through the series. -/
def exp2Of (neg : Bool) (m : Nat) (e : Int) : Num :=
  let fix : Int := if 0 ≤ e + 256 then ((m * 2 ^ (e + 256).toNat : Nat) : Int) else ((m / 2 ^ (-(e + 256)).toNat : Nat) : Int)
  let lost := decide (e + 256 < 0 ∧ m % 2 ^ (-(e + 256)).toNat ≠ 0)
  let x : Int := if neg then -fix - (if lost then 1 else 0) else fix
  let n : Int := x / 2 ^ 256
  let fr := (x % 2 ^ 256).toNat
  if fr = 0 ∧ !lost then .fin false 1 n false
  else .fin false (expTerms (fr * ln2Fix / 2 ^ 256) 90 0 (2 ^ 256)) (n - 256) true

/-- Bits of log2 y for y in [1, 2) with 512 fraction bits: n bits, highest first. -/
def log2Bits : Nat → Nat → Nat → Nat
  | 0, _, acc => acc
  | n + 1, y, acc =>
    let z := y * y / 2 ^ 512
    if 2 ^ 513 ≤ z then log2Bits n (z / 2) (2 * acc + 1) else log2Bits n z (2 * acc)

/-- log2 of a positive finite value: 200 fraction bits. -/
def log2Of (m : Nat) (e : Int) : Num :=
  let b := bitLen m - 1
  let k : Int := e + b
  if m = 2 ^ b then .ofInt k
  else
    let x : Int := k * 2 ^ 200 + (log2Bits 200 (m * 2 ^ 512 / 2 ^ b) 0 : Nat)
    if 0 ≤ x then .fin false x.toNat (-200) true else .fin true ((-x).toNat - 1) (-200) true

/-- A result of VEXP2, VLOG2, VRCP or VRSQ: FP32 and FP64 take the nearest-even neighbour whatever RM holds, with overflow
under RM (R232, R234); the others round under RM. -/
def Fmt.faithful (f : Fmt) (nm : Word) (x : Num) : Res :=
  if f.fmt = 4 ∨ f.fmt = 5 then
    let r := f.roundF (nm &&& ~~~3#64) x
    if r.2.testBit 10 then f.roundF nm x else r
  else f.roundF nm x

/-- A division-by-zero point (R233): an infinity, or in a minifloat its largest finite value or NaN. -/
def Fmt.byZero (f : Fmt) (nm : Word) (neg : Bool) : Res :=
  if !f.mini then (f.withSign neg f.infPat, fDZ)
  else if nmSATN nm then (f.withSign neg f.maxPat, fDZ + fSA) else (f.pad f.nan, fDZ)

def Fmt.nanRes (f : Fmt) (sig : Bool) : Res := (f.pad f.nan, if sig then fNV else 0)

/-- VEXP2; far outside the format's range the value rounds as the bound does (R233). -/
def Fmt.exp2 (f : Fmt) (nm : Word) (a : Nat) : Res :=
  match f.value nm a with
  | .nan s => f.nanRes s
  | .inf neg => if neg then (f.withSign false 0, 0) else f.roundF nm (.inf false)
  | .fin neg m e _ =>
    if m = 0 then f.roundF nm (.ofInt 1)
    else
      let lim : Int := if neg then (f.bias : Int) + f.frac + 4 else (f.bias : Int) + 3
      let big := (Num.fin false m e false).cmp (.ofInt lim) > 0
      f.faithful nm (if big then .fin false 1 (if neg then -lim else lim) true else exp2Of neg m e)

/-- VLOG2 (R233). -/
def Fmt.vlog2 (f : Fmt) (nm : Word) (a : Nat) : Res :=
  match f.value nm a with
  | .nan s => f.nanRes s
  | .inf neg => if neg then (f.pad f.nan, fNV) else f.roundF nm (.inf false)
  | .fin neg m e _ => if m = 0 then f.byZero nm true else if neg then (f.pad f.nan, fNV) else f.faithful nm (log2Of m e)

/-- VRCP (R233). -/
def Fmt.rcp (f : Fmt) (nm : Word) (a : Nat) : Res :=
  match f.value nm a with
  | .nan s => f.nanRes s
  | .inf neg => (f.withSign neg 0, 0)
  | .fin neg m e _ => if m = 0 then f.byZero nm neg else f.faithful nm (quotient neg 1 0 m e)

/-- VRSQ (R233). -/
def Fmt.rsq (f : Fmt) (nm : Word) (a : Nat) : Res :=
  match f.value nm a with
  | .nan s => f.nanRes s
  | .inf neg => if neg then (f.pad f.nan, fNV) else (f.withSign false 0, 0)
  | .fin neg m e _ =>
    if m = 0 then f.byZero nm neg
    else if neg then (f.pad f.nan, fNV)
    else f.faithful nm (if e % 2 = 0 then rootOf 1 m (-e) else rootOf 1 (2 * m) (-(e - 1)))

/-- VSQRT (R233). -/
def Fmt.sqrt (f : Fmt) (nm : Word) (a : Nat) : Res :=
  match f.value nm a with
  | .nan s => f.nanRes s
  | .inf neg => if neg then (f.pad f.nan, fNV) else f.roundF nm (.inf false)
  | .fin neg m e _ =>
    if m = 0 then (f.withSign neg 0, 0)
    else if neg then (f.pad f.nan, fNV)
    else f.roundF nm (if e % 2 = 0 then rootOf m 1 e else rootOf (2 * m) 1 (e - 1))

/-- VFDIV (R233). -/
def Fmt.fdiv (f : Fmt) (nm : Word) (a b : Nat) : Res :=
  let x := f.value nm a
  let y := f.value nm b
  let neg := x.negative != y.negative
  match x, y with
  | .nan s, _ => f.nanRes (s || y.sig)
  | _, .nan s => f.nanRes (s || x.sig)
  | .inf _, .inf _ => (f.pad f.nan, fNV)
  | .inf _, _ => f.roundF nm (.inf neg)
  | _, .inf _ => (f.withSign neg 0, 0)
  | .fin _ m e _, .fin _ m' e' _ =>
    if m = 0 ∧ m' = 0 then (f.pad f.nan, fNV)
    else if m' = 0 then f.byZero nm neg
    else if m = 0 then (f.withSign neg 0, 0)
    else f.roundF nm (quotient neg m e m' e')

/-! ### Reductions (R237 to R240) -/

/-- In(x): a floating element as it enters a reduction (R238); VRMAX and VRMIN leave FZO out (R239). -/
def Fmt.enter (f : Fmt) (nm : Word) (fzo : Bool) (x : Nat) : Res :=
  if f.isInt then (x, 0)
  else match f.value nm x with
    | .nan s => f.nanRes s
    | .inf neg => (f.withSign neg f.infPat, 0)
    | .fin neg m _ _ =>
      let sub := decide (x / 2 ^ f.frac % 2 ^ f.exp = 0)
      if m = 0 then (f.withSign neg 0, 0)
      else if fzo && nmFZO nm && sub then (f.withSign neg 0, fUF + fNX)
      else (f.pad x, 0)

/-- Comb over possibly absent values: FZI acted on each element as it entered, and acts on no sum again (R238). -/
def Fmt.comb (f : Fmt) (nm : Word) (x y : Option Res) : Option Res :=
  match x, y with
  | none, y => y
  | x, none => x
  | some (a, fa), some (b, fb) => let r := f.fadd (nm &&& ~~~4#64) a b
    some (r.1, Nat.lor r.2 (Nat.lor fa fb))

/-- One level of the tree of VRSUM: neighbours combined. -/
def pairUp (g : Option Res → Option Res → Option Res) : List (Option Res) → List (Option Res)
  | x :: y :: t => g x y :: pairUp g t
  | l => l

/-- The tree of VRSUM over a list padded to a power of two; the fuel is its height. -/
def treeSum (g : Option Res → Option Res → Option Res) : Nat → List (Option Res) → Option Res
  | 0, l => l.headD none
  | n + 1, l => treeSum g n (pairUp g l)

end Sys2Proof.Machine
end

