-- ==== Sys2Proof/Machine/Operands.lean ====
section
/-! DEFINITION. The operands of vector instructions and what every one of them does around its function: element storage, marks,
tails and poison, operand kinds, the checks at issue, the mapping on lane groups, stops and completion (R138 to R140,
R187 to R189, R202 to R204, R211 to R219, R407 to R409). -/

namespace Sys2Proof.Machine

/-! ### Elements in storage (R184, R188, R189) -/

/-- The 64-byte blocks that hold element j. -/
def Fmt.blocks (f : Fmt) (j : Nat) : List Nat :=
  if f.plane then (List.range f.planes).map fun p => j / 128 * f.planes + p else [j * f.eb / 64]

/-- The first element that block b holds. -/
def Fmt.firstIn (f : Fmt) (b : Nat) : Nat := if f.plane then b / f.planes * 128 else b * 64 / f.eb

/-- Nibbles of an element in each of its blocks; a block has 128. -/
def Fmt.nibbles (f : Fmt) : Nat := if f.plane then 1 else 2 * f.eb

/-- The byte that holds nibble p of element j of a nibble-plane format. -/
def Fmt.planeByte (f : Fmt) (j p : Nat) : Nat := (j / 128 * f.planes + p) * 64 + j % 128 / 2

/-- Nibble p of element j. -/
def Fmt.nibble (f : Fmt) (m : Mem) (j p : Nat) : Nat :=
  let b := (m.get (f.planeByte j p)).toNat
  if j % 2 = 0 then b % 16 else b / 16

/-- The pattern of element j; a reader ignores the padding bits as they are stored (R189). -/
def Fmt.load (f : Fmt) (m : Mem) (j : Nat) : Nat :=
  if f.plane then f.pad ((List.range f.planes).map fun p => f.nibble m j p * 16 ^ p).sum else m.num (j * f.eb) f.eb

/-- Stores nibble p of element j. -/
def Fmt.setNibble (f : Fmt) (m : Mem) (j p x : Nat) : Mem :=
  let a := f.planeByte j p
  let b := (m.get a).toNat
  m.set a (BitVec.ofNat 8 (if j % 2 = 0 then b / 16 * 16 + x % 16 else b % 16 + x % 16 * 16))

/-- Stores a pattern as element j, with its padding bits (R189). -/
def Fmt.store (f : Fmt) (m : Mem) (j x : Nat) : Mem :=
  if f.plane then (List.range f.planes).foldl (fun m p => f.setNibble m j p (f.pad x / 16 ^ p)) m else m.write (j * f.eb) (leBytes f.eb x)

/-- One element to be written: its index, pattern and poison. -/
structure Put where
  i : Nat
  x : Nat
  bad : Bool
  deriving DecidableEq, Repr

/-- The poisoned blocks after writes of one instruction, whose earlier writes come first: a block that it has written whole without poison
clears, a block that receives a poisoned element is poisoned (R215). -/
def badAfter (f : Fmt) (bad : List Nat) (old ws : List Put) : List Nat :=
  let all := old ++ ws
  let clean (b : Nat) : Bool := decide (((all.filter fun w => !w.bad && (f.blocks w.i).contains b).map fun _ => f.nibbles).sum = 128)
    && !(all.any fun w => w.bad && (f.blocks w.i).contains b)
  (ws.filter (·.bad)).foldl (fun l w => (f.blocks w.i).foldl setIns l) (bad.filter fun b => !clean b)

/-! ### Registers and accumulators -/

/-- Element j of a register with its poison: zero at or above the mark, undefined where a VLOAD left it so (R204, R215, R419). -/
def VReg.elem (r : VReg) (f : Fmt) (j : Nat) : Nat × Bool :=
  let x := if r.undef.testBit j then (Config.freeWord (r.salt + j)).toNat % 2 ^ f.storage
    else if r.live.testBit j then f.load r.data j else 0
  (x, (f.blocks j).any fun b => r.bad.contains b && decide (f.firstIn b < r.mark))

/-- Clears bit n, and sets it. -/
def dropBit (x n : Nat) : Nat := if x.testBit n then Nat.xor x (2 ^ n) else x
def addBit (x n : Nat) : Nat := Nat.lor x (2 ^ n)

/-- Writes elements of a register: its mark rises above each (R204). -/
def VReg.put (r : VReg) (f : Fmt) (ws : List Put) (old : List Put := []) : VReg :=
  let r' := ws.foldl (fun r w => { r with data := f.store r.data w.i w.x, live := addBit r.live w.i, undef := dropBit r.undef w.i, mark := max r.mark (w.i + 1) }) r
  { r' with bad := badAfter f r.bad old ws }

/-- Sets the mark: what lies at or above a lower mark is gone; what a VLOAD left undefined above its mark stays so (R204, R419). -/
def VReg.setMark (r : VReg) (m : Nat) : VReg := { r with mark := m, live := r.live % 2 ^ m }

/-- Element j of an accumulator (R212). -/
def Acc.elem (a : Acc) (f : Fmt) (j : Nat) : Nat × Bool := (f.load a.data j, (f.blocks j).any a.bad.contains)

def Acc.put (a : Acc) (f : Fmt) (ws : List Put) (old : List Put := []) : Acc :=
  { data := ws.foldl (fun m w => f.store m w.i w.x) a.data, bad := badAfter f a.bad old ws }

/-! ### What a vector instruction runs under (R130) -/

/-- The captured state that an element function reads, with the MVL of the declaration. -/
structure VCtx where
  f : Fmt
  nm : Word
  /-- SAT, SCF, BL, GRP and TA of VT (R201). -/
  sat : Bool
  scf : Bool
  bl : Nat
  g : Nat
  ta : Bool
  vl : Nat
  mvl : Nat
  vpm : Bool
  vslip : Nat
  deriving DecidableEq, Repr

def VCfg.fmt (c : VCfg) : Fmt := Fmt.of c.vt.toNat

/-- G of R202. -/
def VCfg.group (c : VCfg) : Nat := 2 ^ fld c.vt.toNat 15 13

def VCfg.vctx (c : VCfg) (mvl : Nat) : VCtx :=
  { f := c.fmt, nm := c.nm, sat := c.vt.getLsbD 23, scf := c.vt.getLsbD 22, bl := fld c.vt.toNat 19 16, g := c.group, ta := c.vt.getLsbD 12,
    vl := c.vl.toNat, mvl := mvl, vpm := c.vpm, vslip := c.vslip.toNat }

/-- VLMAX of R202. -/
def vlmax (c : VCfg) (mvl : Nat) : Nat := min (if c.vpm then 4096 else 8192) (c.group * mvl)

/-- The instruction's context: the captured configuration over the strand's MVL. -/
def State.vctx (s : State) (e : QEntry) : VCtx := e.snap.cfg.vctx s.me.cfg.mvl.toNat

/-- S(n) as a vector instruction reads it (R117). -/
def QEntry.s (e : QEntry) (r : Reg) : Word := if r = 0 then 0 else e.snap.regs[r.toNat]'r.isLt

/-- A vector operand: a register group, an accumulator, or one value for every element with the flags it sets (R211). -/
inductive Src where
  | reg (v : Nat)
  | acc (m : Nat)
  | value (x flags : Nat)
  deriving DecidableEq, Repr

/-- Where an instruction writes its elements. -/
inductive Dest where
  | reg (v : Nat)
  | acc (m : Nat)
  | pred (p : Nat)
  deriving DecidableEq, Repr

/-- Element i of an operand in format f, with its poison. -/
def State.elem (s : State) (c : VCtx) (f : Fmt) (o : Src) (i : Nat) : Nat × Bool :=
  match o with
  | .reg v => (vget s.me.vs.regs (v + i / c.mvl) {}).elem f (i % c.mvl)
  | .acc m => (vget s.me.vs.accs m {}).elem f i
  | .value x _ => (x, false)

/-- Pred(p, i) of R117. -/
def State.pred (s : State) (p : Reg) (i : Nat) : Bool := p == 0 || (s.me.vs.preds[p.toNat]'p.isLt).getLsbD i

/-- An operand that K may turn into a captured scalar or an immediate (R211). -/
def srcB (e : QEntry) (c : VCtx) (v : VArgs) : Src :=
  match v.k with
  | .scalarB => .value (c.f.pad ((e.s v.b).toNat % 2 ^ c.f.width)) 0
  | .immB =>
    let r := if c.f.isInt then (c.f.pad (wrapN c.f.width v.imm.toInt), 0) else c.f.roundF c.nm (.ofInt v.imm.toInt)
    .value r.1 r.2
  | .accB => .acc v.b.toNat
  | _ => .reg v.b.toNat

def srcA (v : VArgs) : Src := if v.k = .accA then .acc v.a.toNat else .reg v.a.toNat
def destD (v : VArgs) : Dest := if v.k = .accD then .acc v.d.toNat else .reg v.d.toNat

/-- The destination as an operand. -/
def Dest.src : Dest → Src
  | .reg v => .reg v
  | .acc m => .acc m
  | .pred _ => .value 0 0

/-- Flags that an operand sets whenever an element uses it. -/
def Src.flags : Src → Nat
  | .value _ f => f
  | _ => 0

/-! ### The checks at issue (R87, R202, R203, R212) -/

/-- The registers and accumulators that an operand names fit format f, the declaration and the ACC count. -/
def State.operandOk (s : State) (c : VCtx) (f : Fmt) : Src → Bool
  | .reg v => v % c.g == 0 && decide (v + c.g ≤ s.me.vs.cnt) && decide (f.storage ≤ s.me.vs.bits) && decide (c.vl ≤ c.g * c.mvl)
  | .acc m => decide (m < s.me.alloc.accn) && !f.plane && decide (c.vl * f.eb ≤ 32768)
  | .value _ _ => true

/-! ### Lane groups (R138, R139) -/

/-- Lane group g is held by an array of the core, or claimed (R248). -/
def Core.inMatrix (c : Core) (g : Nat) : Bool := c.arrays.any (·.holds g) || c.claims.any fun x => x.2.contains g

/-- The list A. -/
def Core.lanes (c : Core) (vpm : Bool) : List Nat :=
  if vpm then (List.range 8).filter fun g => !c.inMatrix g && !c.inMatrix (g + 8) else (List.range 16).filter fun g => !c.inMatrix g

/-- The element group of element i: eb is the byte width of the widest operand, 0 with nibble-plane operands alone. -/
def elemGroup (eb i : Nat) : Nat := if eb = 0 then i / 128 else i * eb / 64

/-- eb of one format for R138. -/
def Fmt.wide (f : Fmt) : Nat := if f.plane then 0 else f.eb

/-- eb of two formats: the byte width of the wider, 0 when both are nibble-plane. DESIGN CHOICE: the storage of a nibble-plane operand beside a
standard one is rounded up to whole bytes, which R138 does not say. -/
def wideOf (f g : Fmt) : Nat := if f.plane && g.plane then 0 else max ((f.storage + 7) / 8) ((g.storage + 7) / 8)

/-- Lane group and local group of element i. -/
def laneOf (lanes : List Nat) (eb i : Nat) : Nat × Nat :=
  let n := elemGroup eb i
  (lanes.getD (n % lanes.length) 0, n / lanes.length)

/-- Local groups that each lane group of A holds for vl elements. -/
def laneCount (lanes : List Nat) (eb vl h : Nat) : Nat :=
  if vl = 0 then 0
  else
    let n := elemGroup eb (vl - 1) + 1
    match lanes.findIdx? (· = h) with
    | none => 0
    | some k => (n + lanes.length - 1 - k) / lanes.length

/-- Element i is still to be performed (R409). -/
def QEntry.remains (e : QEntry) (eb i : Nat) : Bool :=
  match e.rest with
  | none => true
  | some p => !p.gone.testBit i && (p.lanes.isEmpty || decide (p.tlg.getD (laneOf p.lanes eb i).1 0 ≤ i))

/-- Nibble count of an operand format; FP64 counts the slice of 8 (R190). -/
def Fmt.nibs (f : Fmt) : Nat :=
  match f.fmt with
  | 2 => 3
  | 3 => 2
  | 4 => 6
  | 5 => 8
  | 10 => (f.w - f.e + 3) / 4
  | _ => (f.width + 3) / 4

/-- L of R247 for two operand formats (R23). -/
def cellL (a b : Fmt) : Nat := (8 / a.nibs) * (8 / b.nibs)

/-! ### The entry that issues -/

/-- The place in the queue of the entry that is performed: the one picked before its turn, else the oldest that has not completed. -/
def Strand.place (k : Strand) : Nat :=
  match k.picked with
  | some p => p.1
  | none => (k.q.findIdx? fun e => !e.done).getD k.q.length

/-- The entry of the strand's queue on which an execution of i acts, with its place: the one whose turn it is
when it is i; else a new one before it, which captures the strand's state as it stands. -/
def State.entryFor (s : State) (i : Instr) : Nat × QEntry × State :=
  let k := s.me
  let n := k.place
  let word : Word := (encode64 i).getD 0
  let fresh : QEntry := { instr := i, word := word, block := 0, idx := 0, fetch := k.fetches, snap := { regs := k.regs, cfg := k.cfg } }
  match k.q[n]? with
  | some e => if e.word = word ∧ e.fault = none then (n, e, s) else (n, fresh, s.setMe fun k => { k with q := k.q.insertIdx n fresh })
  | none => (n, fresh, s.setMe fun k => { k with q := k.q ++ [fresh] })

/-- Elements of a mask as writes made before. -/
def putsOf (mask : Nat) (bad : Bool) : List Put :=
  if mask = 0 then [] else ((List.range Config.maxVl).filter mask.testBit).map fun i => ⟨i, 0, bad⟩

/-- What the instruction wrote at earlier executions (R215, R409). -/
def QEntry.old (e : QEntry) : List Put := putsOf e.clean false ++ putsOf e.soiled true

/-- The entry remembers these writes. -/
def QEntry.wrote (e : QEntry) (ws : List Put) : QEntry :=
  { e with clean := ((ws.filter (!·.bad)).map (·.i)).foldl addBit e.clean, soiled := ((ws.filter (·.bad)).map (·.i)).foldl addBit e.soiled }

def State.setEntry (s : State) (n : Nat) (e : QEntry) : State := s.setMe fun k => { k with q := k.q.set n e }

/-- The instruction has completed with these flags (R132, R135). -/
def State.complete (s : State) (n : Nat) (e : QEntry) (flags : Nat) : State :=
  s.setEntry n { e with done := true, rest := none, flags := e.flags ||| w64 flags }

/-- The instruction's trap: it is recorded, and taken when every older instruction has retired (R407). -/
def State.vfault (s : State) (n : Nat) (e : QEntry) (code : Byte) (addr : Option Word) (tlg : List Nat) : State :=
  s.setEntry n { e with fault := some ⟨code, e.word, addr, tlg⟩ }

/-- TLG for an instruction that performs nothing at this execution: what remained of it still remains. -/
def QEntry.sameTlg (e : QEntry) : List Nat := match e.rest with | some p => p.tlg | none => List.replicate 16 0

/-- A predicate whose storage failed, among those that the instruction reads (R420). -/
def State.badPred (s : State) (reads : List Reg) : Option Word :=
  (reads.find? fun p => p != 0 && s.me.spoiled.preds.contains p).map fun p => spoilAddr 1 p.toNat

/-- What an instruction reads and names, for the checks at its issue. -/
structure Needs where
  /-- Operands with their formats. -/
  ops : List (Src × Fmt)
  /-- Predicates read. -/
  preds : List Reg
  deriving DecidableEq, Repr

/-- The parts of R415 that an instruction accesses: vector registers, accumulators, predicates other than p0, scale banks. -/
def Needs.parts (need : Needs) (i : Instr) : Nat :=
  let vec (o : Src × Fmt) : Bool := match o.1 with | .reg _ => true | _ => false
  let acc (o : Src × Fmt) : Bool := match o.1 with | .acc _ => true | _ => false
  let bank : Bool := match i.vparts with | some p => p.vop == 0x1B || (p.vop == 0x0D && p.f != 0) | none => false
  (if need.ops.any vec then 1 else 0) + (if need.ops.any acc then 2 else 0) + (if need.preds.any (· != 0) || (vPredDest i).isSome then 4 else 0)
    + (if bank then 8 else 0)

/-- A vector instruction becomes ready (R140): the parts of the vector state that it accesses must be its own (R415), and A must not be empty
(R139, R248). Only then the operands must pass the checks of R87, and a scalar destination waits for an earlier asynchronous write to it
(R128). Then `go` performs it, with its context, its entry's place and its entry, which holds A. -/
def State.issue (s : State) (i : Instr) (needs : VCtx → QEntry → Needs) (go : VCtx → Nat → QEntry → State → Out) : Out :=
  let (n, e, s1) := s.entryFor i
  let c := s1.vctx e
  let need := needs c e
  let bad := s1.foreignIn (need.parts i)
  let lanes := e.lanes.getD (s1.core.lanes c.vpm)
  if bad ≠ 0 then .next (s1.vfault n e cVSTATE (some (w64 bad)) e.sameTlg)
  else if lanes.isEmpty then
    if s1.core.arrays.any fun a => ((s1.strandOf a.owner).map (·.run)) == some .preempted then .next (s1.vfault n e cVSTATE (some 16) e.sameTlg)
    else if s1.core.arrays.any (·.owner = s1.me.id) then .next (s1.vfault n e cMATRIX (some 9) e.sameTlg)
    else .next s
  else if !need.ops.all (fun o => s1.operandOk c o.2 o.1) then .next (s1.vfault n e cVDECL none e.sameTlg)
  else match s1.badPred need.preds with
    | some a => .next (s1.vfault n e cPOISON (some a) e.sameTlg)
    | none =>
      if (vScalarDest i).any s1.me.asyncDests.contains then .next s
      else go c n { e with lanes := some lanes } s1

/-! ### Stops at local groups (R143, R216) -/

/-- Lane group, local group and element of each element that stops the instruction. -/
abbrev Stops := List (Nat × Nat × Nat)

/-- The first stopping local group of lane group h. -/
def firstStop (st : Stops) (h : Nat) : Option Nat := ((st.filter (·.1 = h)).map (·.2.1)).min?

/-- Where the lane groups stand when an element-wise instruction stops (R216): which lane group trapped, and how far the others had come, is
the device's choice within the slip. All that have local groups left stand within VSLIP + 1 of one another, above a floor that is at least
the trapping group's local group less VSLIP and at most the first stop of any (R143). The result gives, for each lane group of A, its
completed local groups; and the lowest element found. -/
def stopPoints (free : Nat) (lanes : List Nat) (count : Nat → Nat) (slip : Nat) (st : Stops) : List (Nat × Nat) × Nat :=
  let own (h : Nat) : Nat := (firstStop st h).getD (count h)
  let can (h : Nat) : Bool := (firstStop st h).isSome && lanes.all fun x => decide (min (own h - slip) (count x) ≤ own x)
  let cands := lanes.filter can
  let g := cands.getD (Config.freeChoice free % cands.length) 0
  let jg := own g
  let first := ((lanes.filter fun h => (firstStop st h).isSome).map own).foldl min jg
  let base := (jg - slip) + Config.freeChoice (free + 33) % (first - (jg - slip) + 1)
  let done (h : Nat) : Nat :=
    if h = g then jg
    else
      let lo := min base (own h)
      let hi := min (base + slip + 1) (own h)
      lo + Config.freeChoice (free + 1 + h) % (hi - lo + 1)
  let began (h : Nat) : Bool := lanes.all fun x => decide (min (done h - slip) (count x) ≤ done x)
  let found (h : Nat) : Bool := h == g || ((firstStop st h) == some (done h) && began h && Config.freeChoice (free + 17 + h) % 2 == 1)
  let elems := (st.filter fun x => found x.1 && x.2.1 == done x.1).map (·.2.2)
  (lanes.map fun h => (h, done h), elems.min?.getD 0)

/-- TLG for local groups completed: the lowest element of the first that a lane group has not completed, or VL (R216). -/
def tlgOf (lanes : List Nat) (eb vl : Nat) (done : List (Nat × Nat)) : List Nat :=
  (List.range 16).map fun h =>
    match done.find? (·.1 = h), lanes.findIdx? (· = h) with
    | some d, some k =>
      let n := d.2 * lanes.length + k
      min vl (if eb = 0 then n * 128 else n * 64 / eb)
    | _, _ => vl

/-- The progress that a stop leaves: elements that did not remain at this execution stay performed (R409). -/
def QEntry.stopped (e : QEntry) (eb vl : Nat) (tlg : List Nat) : Progress :=
  { lanes := e.lanes.getD [], tlg := tlg
    gone := match e.rest with
      | none => 0
      | some _ => ((List.range vl).filter fun i => !e.remains eb i).foldl addBit 0 }

/-! ### Writing results -/

/-- What an instruction computes for one active element. -/
structure Elt where
  x : Nat
  flags : Nat := 0
  /-- A source that it consumes is poisoned. -/
  bad : Bool := false
  /-- The poison that it carries to its destination. -/
  carry : Bool := false
  deriving DecidableEq, Repr

/-- Those of these writes to a group that go to its j-th register, by their places there. -/
def putsIn (mvl j : Nat) (ws : List Put) : List Put := (ws.filter fun w => decide (w.i / mvl = j)).map fun w => { w with i := w.i % mvl }

/-- Writes elements to a destination, to which the instruction has written `old` before. -/
def State.putAll (s : State) (c : VCtx) (d : Dest) (ws : List Put) (old : List Put := []) : State :=
  match d with
  | .reg v =>
    let one (rs : Vector VReg 64) (j : Nat) : Vector VReg 64 :=
      let mine := putsIn c.mvl j ws
      if mine.isEmpty then rs else vset rs (v + j) ((vget rs (v + j) {}).put c.f mine (putsIn c.mvl j old))
    s.setMe fun k => { k with vs := { k.vs with regs := (List.range c.g).foldl one k.vs.regs } }
  | .acc m => s.setMe fun k => { k with vs := { k.vs with accs := vset k.vs.accs m ((vget k.vs.accs m {}).put c.f ws old) } }
  | .pred p =>
    let one (b : BitVec 8192) (w : Put) : BitVec 8192 := if w.x = 0 then b &&& ~~~(1#8192 <<< w.i) else b ||| (1#8192 <<< w.i)
    s.setMe fun k => { k with vs := { k.vs with preds := vset k.vs.preds p (ws.foldl one (vget k.vs.preds p 0)) } }

/-- The tail (R204, R228): under TA = 1 the mark of each register of a group falls to its share of VL, but not below what the instruction
wrote in that register; bits of a predicate from VL upward clear. -/
def State.tail (s : State) (c : VCtx) (d : Dest) (ws : List Put) : State :=
  if !c.ta then s
  else match d with
    | .reg v =>
      let one (rs : Vector VReg 64) (j : Nat) : Vector VReg 64 :=
        let r := vget rs (v + j) {}
        let share := min c.mvl (c.vl - j * c.mvl)
        let top := ((putsIn c.mvl j ws).map (·.i + 1)).foldl max 0
        vset rs (v + j) (r.setMark (max (min r.mark share) top))
      s.setMe fun k => { k with vs := { k.vs with regs := (List.range c.g).foldl one k.vs.regs } }
    | .acc _ => s
    | .pred p => s.setMe fun k => { k with vs := { k.vs with preds := vset k.vs.preds p (vget k.vs.preds p 0 &&& BitVec.ofNat 8192 (2 ^ c.vl - 1)) } }

/-- A predicate written whole no longer carries a storage error (R420). -/
def State.healPred (s : State) (c : VCtx) (v : VArgs) (d : Dest) : State :=
  match d with
  | .pred p => if (c.ta || c.vl = 8192) && (v.p == 0 || v.z) then
      s.setMe fun k => { k with spoiled := { k.spoiled with preds := k.spoiled.preds.filter fun x => decide (x.toNat ≠ p) } } else s
  | _ => s

/-- Active(i) (R117). -/
def State.active (s : State) (v : VArgs) (i : Nat) : Bool := s.pred v.p i

/-- The device's copies disagreed where the instruction runs twice or three times (R218, R219). -/
def State.miscomputes (s : State) (c : VCtx) (v : VArgs) : Option Nat := if v.cr || c.vpm then s.me.due.sdc else none

def State.clearSdc (s : State) : State := s.setMe fun k => { k with due := { k.due with sdc := none } }

/-- Runs an element-wise instruction (R213, R216): every element that remains and is active is computed from the sources as
they stand before anything is written; elements that consume poison stop it at local groups, and all of it when CR = 1. -/
def State.runElems (s : State) (c : VCtx) (n : Nat) (e : QEntry) (v : VArgs) (d : Dest) (eb : Nat) (work : Nat → Elt) : Out :=
  let lanes := e.lanes.getD []
  let todo := (List.range c.vl).filter (e.remains eb)
  let acts := (todo.filter (s.active v)).map fun i => (i, work i)
  let zeros := if v.z then (todo.filter fun i => !s.active v i).map fun i => (⟨i, 0, false⟩ : Put) else []
  let poisoned := (acts.filter (·.2.bad)).map (·.1)
  let differ := match s.miscomputes c v with
    | some i => (acts.filter fun a => elemGroup eb a.1 == elemGroup eb i).map (·.1)
    | none => []
  let stops := poisoned ++ differ
  let s := s.clearSdc
  if stops.isEmpty then
    let ws := acts.map (fun a => (⟨a.1, a.2.x, a.2.carry⟩ : Put)) ++ zeros
    let flags := (acts.map (·.2.flags)).foldl Nat.lor 0
    .next ((((s.putAll c d ws e.old).tail c d (e.old ++ ws)).healPred c v d).complete n e flags)
  else if v.cr then
    .next (s.vfault n e (if poisoned.isEmpty then cSDC else cPOISON) (some (w64 (stops.min?.getD 0))) (List.replicate 16 0))
  else
    let st : Stops := stops.map fun i => let l := laneOf lanes eb i
      (l.1, l.2, i)
    let (done, low) := stopPoints s.free lanes (laneCount lanes eb c.vl) c.vslip st
    let isDone (i : Nat) : Bool := let l := laneOf lanes eb i
      decide (l.2 < ((done.find? (·.1 = l.1)).map (·.2)).getD 0)
    let ws := ((acts.filter fun a => isDone a.1).map fun a => (⟨a.1, a.2.x, a.2.carry⟩ : Put)) ++ zeros.filter fun w => isDone w.i
    let flags := ((acts.filter fun a => isDone a.1).map (·.2.flags)).foldl Nat.lor 0
    let tlg := tlgOf lanes eb c.vl done
    let s := ({ s with free := s.free + 34 } : State).putAll c d ws e.old
    let code := if poisoned.contains low then cPOISON else cSDC
    let addr := if code = cPOISON then low else ((differ.min?).getD low)
    .next (s.vfault n { e.wrote ws with rest := some (e.stopped eb c.vl tlg), flags := e.flags ||| w64 flags } code (some (w64 addr)) tlg)

/-- A barrier's or an all-or-nothing instruction's stop (R216). -/
def State.stopAll (s : State) (n : Nat) (e : QEntry) (code : Byte) (at_ : Nat) : Out :=
  .next (s.clearSdc.vfault n e code (some (w64 at_)) (List.replicate 16 0))

/-- An all-or-nothing instruction: with no consumed source poisoned and no copies in disagreement, `go` performs it. -/
def State.runWhole (s : State) (c : VCtx) (n : Nat) (e : QEntry) (v : VArgs) (poisoned : List Nat) (go : State → State) : Out :=
  match poisoned.min? with
  | some i => s.stopAll n e cPOISON i
  | none => match s.miscomputes c v with
    | some i => s.stopAll n e cSDC i
    | none => .next (go s.clearSdc)

/-- A result for a scalar register, written at completion (R109, R128). -/
def State.putScalar (s : State) (d : Reg) (x : Word) : State := s.w d x

/-! ### The shapes of element-wise instructions -/

/-- op xd, xa, xb: both sources consumed (R104). -/
def State.binary (s : State) (i : Instr) (v : VArgs) (op : VCtx → Nat → Nat → Res) : Out :=
  s.issue i (fun c e => ⟨[((destD v).src, c.f), (srcA v, c.f), (srcB e c v, c.f)], [v.p]⟩) fun c n e s =>
    let b := srcB e c v
    s.runElems c n e v (destD v) c.f.wide fun i =>
      let x := s.elem c c.f (srcA v) i
      let y := s.elem c c.f b i
      let r := op c x.1 y.1
      { x := r.1, flags := Nat.lor r.2 b.flags, bad := x.2 || y.2 }

/-- The elements that an instruction computes one after another when it writes them, in another format, over the source that it reads: each
source is read as the writes before it left it (R213). -/
def State.inTurn (s : State) (c : VCtx) (g : Fmt) (v : VArgs) (op : State → VCtx → Nat → Nat → Res) : List Nat → List (Nat × Elt)
  | [] => []
  | i :: t =>
    if s.active v i then
      let x := s.elem c g (srcA v) i
      let r := op s c i x.1
      (i, { x := r.1, flags := r.2, bad := x.2 }) :: State.inTurn (s.putAll c (destD v) [⟨i, r.1, false⟩]) c g v op t
    else State.inTurn (if v.z then s.putAll c (destD v) [⟨i, 0, false⟩] else s) c g v op t

/-- op xd, xa, with a source format of its own (R104, R107). -/
def State.unaryFrom (s : State) (i : Instr) (v : VArgs) (from_ : VCtx → Fmt) (op : State → VCtx → Nat → Nat → Res) : Out :=
  s.issue i (fun c _ => ⟨[((destD v).src, c.f), (srcA v, from_ c)], [v.p]⟩) fun c n e s =>
    let g := from_ c
    let eb := wideOf c.f g
    if g ≠ c.f ∧ (destD v).src = srcA v then
      let es := s.inTurn c g v op ((List.range c.vl).filter (e.remains eb))
      s.runElems c n e v (destD v) eb fun i => ((es.find? (·.1 = i)).map (·.2)).getD { x := 0 }
    else
      s.runElems c n e v (destD v) eb fun i =>
        let x := s.elem c g (srcA v) i
        let r := op s c i x.1
        { x := r.1, flags := r.2, bad := x.2 }

/-- op xd, xa (R104). -/
def State.unary (s : State) (i : Instr) (v : VArgs) (op : VCtx → Nat → Res) : Out :=
  s.unaryFrom i v (·.f) fun _ c _ x => op c x

/-- op xd, xa, xb, vc (R105). -/
def State.ternary (s : State) (i : Instr) (v : VArgs) (op : VCtx → Nat → Nat → Nat → Res) : Out :=
  s.issue i (fun c e => ⟨[((destD v).src, c.f), (srcA v, c.f), (srcB e c v, c.f), (.reg v.c.toNat, c.f)], [v.p]⟩) fun c n e s =>
    let b := srcB e c v
    s.runElems c n e v (destD v) c.f.wide fun i =>
      let x := s.elem c c.f (srcA v) i
      let y := s.elem c c.f b i
      let z := s.elem c c.f (.reg v.c.toNat) i
      let r := op c x.1 y.1 z.1
      { x := r.1, flags := Nat.lor r.2 b.flags, bad := x.2 || y.2 || z.2 }

/-- op pd, xa, xb: a compare (R106). -/
def State.compare (s : State) (i : Instr) (v : VArgs) (op : VCtx → Nat → Nat → Bool × Nat) : Out :=
  s.issue i (fun c e => ⟨[(srcA v, c.f), (srcB e c v, c.f)], [v.p]⟩) fun c n e s =>
    let b := srcB e c v
    s.runElems c n e v (.pred v.d.toNat) c.f.wide fun i =>
      let x := s.elem c c.f (srcA v) i
      let y := s.elem c c.f b i
      let r := op c x.1 y.1
      { x := if r.1 then 1 else 0, flags := Nat.lor r.2 b.flags, bad := x.2 || y.2 }

/-- An element of the destination format extended to 64 bits (R236). -/
def Fmt.extend (f : Fmt) (x : Nat) : Word := if f.signed then wInt (sgn f.width x) else w64 (x % 2 ^ f.width)

/-- The captured scalar or immediate of an index operand, as an unsigned doubleword (R242, R245). -/
def indexB (e : QEntry) (v : VArgs) : Nat := if v.k = .immB then (wInt v.imm.toInt).toNat else (e.s v.b).toNat

/-- Active indices below VL, ascending. -/
def State.activeIdx (s : State) (c : VCtx) (v : VArgs) : List Nat := (List.range c.vl).filter (s.active v)

/-- op sd, xa: a reduction of the active elements (R237): the result in the element format, and flags. -/
def State.reduce (s : State) (i : Instr) (v : VArgs) (op : VCtx → List Nat → Res) : Out :=
  s.issue i (fun c _ => ⟨[(srcA v, c.f)], [v.p]⟩) fun c n e s =>
    let xs := (s.activeIdx c v).map fun i => (i, s.elem c c.f (srcA v) i)
    let r := op c (xs.map (·.2.1))
    s.runWhole c n e v ((xs.filter (·.2.2)).map (·.1)) fun s => (s.putScalar v.d (c.f.extend r.1)).complete n e r.2

/-- An all-or-nothing instruction that writes a vector, an accumulator or a predicate: the elements, the consumed
indices that are poisoned, the flags (R241). Masked-off elements below VL are zeroed under Z unless it writes them. -/
def State.whole (s : State) (i : Instr) (v : VArgs) (d : Dest) (needs : VCtx → QEntry → Needs)
    (op : State → VCtx → QEntry → List Put × List Nat × Nat) : Out :=
  s.issue i needs fun c n e s =>
    let (ws, bad, flags) := op s c e
    let rest := if v.z then ((List.range c.vl).filter fun i => !(ws.any (·.i = i))).map fun i => (⟨i, 0, false⟩ : Put) else []
    s.runWhole c n e v bad fun s => (((s.putAll c d (ws ++ rest)).tail c d (ws ++ rest)).healPred c v d).complete n e flags

/-- A predicate instruction: bit i from the sources as they stand (R111, R245). DESIGN CHOICE: it has no vector operand, and its bits go to lane
groups by the format of the captured VT, which R138 does not say. -/
def State.predOp (s : State) (i : Instr) (v : VArgs) (reads : List Reg) (op : State → QEntry → Nat → Bool) : Out :=
  s.issue i (fun _ _ => ⟨[], v.p :: reads⟩) fun c n e s0 =>
    s0.runElems c n e v (.pred v.d.toNat) c.f.wide fun i => { x := if op s0 e i then 1 else 0 }

end Sys2Proof.Machine
end

