-- ==== Sys2Proof/Machine/VectorIssue.lean ====
section
/-! DEFINITION. Blocks of vector instructions: VFETCH with its checks and capture, the replay buffer, VSYNC, VREPLAY, retirement,
the squashed window and its trap, and the grants of a lane group's issue slot (R116, R129 to R144, R407 to R410). -/

namespace Sys2Proof.Machine

/-! ### The format checks of VFETCH (R214, R229, R254, R304) -/

/-- The element formats of the matrix group (R254). -/
def Fmt.matrix (f : Fmt) : Bool := f.valid && !(decide (f.fmt < 2) && f.w == 6)

/-- A vector instruction accepts the captured VT. -/
def formatOk (i : Instr) (c : VCfg) : Bool :=
  match i.vparts with
  | none => false
  | some p =>
    let f := c.fmt
    let imm := Fmt.of p.args.imm.toNat
    let std := f.valid && !f.plane
    match p.vop.toNat with
    | 0x08 => f.valid && f.isInt
    | 0x0A => f.valid && !f.isInt
    | 0x0B => f.valid && !f.isInt
    | 0x0C => f.valid && (f.isInt == decide (p.f.toNat < 0x10))
    | 0x0D => f.valid && (p.f.toNat != 0 || imm.valid)
    | 0x0E => f.valid && !f.isInt
    | 0x13 => true
    | 0x18 => match p.f.toNat with
      | 1 => std
      | 3 => std && c.group == 1 && (decide (f.fmt < 2) || 2 ^ (p.args.imm.toNat % 4) == f.eb)
      | _ => f.valid
    | 0x19 => match p.f.toNat with
      | 2 => std
      | 3 => std && c.group == 1 && (decide (f.fmt < 2) || 2 ^ (p.args.imm.toNat % 4) == f.eb)
      | _ => f.valid
    | 0x1A => std
    | 0x1B => true
    | 0x20 => match p.f.toNat with
      | 2 => f.matrix && (p.args.imm == 0 || imm.matrix)
      | 3 => f.matrix
      | 4 => f.matrix
      | _ => true
    | 0x01 => true
    | 0x02 => true
    | _ => f.valid

/-! ### VFETCH (R116, R129, R130) -/

/-- A block as it was read, or the trap that reading it raised: code, TINFO when it is not the instruction word, TADDR. -/
inductive BlockRead where
  | ok (insns : List (Word × Instr)) (s : State)
  | trap (code : Byte) (info : Option Word) (addr : Word) (s : State)
  | wait (s : State)

/-- VSTOP, the end of a block (R116). -/
def isVstop (i : Instr) : Bool := match i.vparts with | some p => p.vop == 0x01 | none => false

/-- Reads and decodes the words of a block until its VSTOP; the fuel is what is left of the 32 words. The whole of a block is read again
after a wait; the answers of other devices that it used stay until then. -/
def State.readBlock (s0 s : State) : Nat → Word → BlockRead
  | 0, a => .trap cILLEGAL none (a - 8) s
  | fuel + 1, a =>
    match s.memRead { s.me.req 0 with scalar := false, evicts := true } a 8 .fetch with
    | .trap c s' => .trap c none a s'
    | .wait s' => .wait (s0.waitKeeping s')
    | .ok (bs, bad) s' =>
      let w := w64 (leNat bs)
      if bad then .trap cPOISON none a s'
      else match decodeVector w with
        | none => .trap cILLEGAL (some w) a s'
        | some i =>
          if isVstop i then .ok [] s'
          else if fuel = 0 then .trap cILLEGAL (some w) a s'
          else match s0.readBlock s' fuel (a + 8) with
            | .ok t s'' => .ok ((w, i) :: t) s''
            | o => o

/-- The replay buffer with a block named most recently: at most 32 blocks (R133). -/
def replayNamed (r : List RBlock) (b : RBlock) : List RBlock := (b :: r.filter (·.addr ≠ b.addr)).take 32

/-- Enqueues the instructions of a block with one snapshot (R129, R136). With a profiling interval `pint` of a trace session,
one of every 2^pint is to be sampled; which one is the device's choice (R453). -/
def Strand.enqueue (k : Strand) (a : Word) (insns : List (Word × Instr)) (pint : Nat) : Strand :=
  let es := insns.mapIdx fun n x =>
    ({ instr := x.2, word := x.1, block := a, idx := n, fetch := k.fetches, snap := { regs := k.regs, cfg := k.cfg }
       probe := decide (pint ≠ 0) && (k.traced + n) % 2 ^ pint == Config.freeChoice 0 % 2 ^ pint } : QEntry)
  { k with q := k.q ++ es, fetches := k.fetches + 1, traced := if pint = 0 then k.traced else k.traced + insns.length }

/-- The block at a, from the replay buffer or from memory, and the replay buffer that names it. -/
def State.theBlock (s : State) (a : Word) : BlockRead :=
  match s.me.replay.find? (·.addr = a) with
  | some b => .ok b.insns s
  | none => s.readBlock s 32 a

/-- PINT of the session that traces a context, 0 without one (R450, R453). -/
def State.pint (s : State) (ctx : BitVec 16) : Nat :=
  if s.trc.open_ && bf s.trc.cfg 47 32 == ctx.toNat then bf s.trc.cfg 19 16 else 0

/-- A VFETCH completes. -/
def State.fetched (s : State) (a : Word) (insns : List (Word × Instr)) : State :=
  (s.setMe fun k => k.enqueue a insns (s.pint k.ctx)).advance

/-- VFETCH (R129): the block is in the replay buffer before the wait for its captured scalars, VL and the queue's room. -/
def execVfetch (a : Reg) (s : State) : Out :=
  let info := wordOf32 (.vfetch a)
  s.scalarOp info [a] [] <|
    let at_ := s.s a
    if at_.toNat % 8 ≠ 0 then .next (s.trap cMISALIGN info (some at_))
    else match s.theBlock at_ with
      | .wait s' => .next s'
      | .trap c i x s' => .next (s'.trap c (i.getD info) (some x))
      | .ok insns s1 =>
        let srcs := (insns.map fun x => vScalarSrcs x.2).flatten
        let s2 := s1.setMe fun k => { k with replay := replayNamed k.replay ⟨at_, insns⟩ }
        if srcs.any s.me.pending || s.me.vlPending || decide (64 < s.me.q.length + s.me.win.length + insns.length) then .next s2
        else match insns.findIdx? fun x => !formatOk x.2 s.me.cfg with
          | some n => .next (s2.trap cILLEGAL (((insns[n]?).map (·.1)).getD 0) (some (at_ + w64 (8 * n))))
          | none => match srcs.findSome? s2.me.faultOf with
            | some f => .next (s2.copyFault f)
            | none => match srcs.find? s2.me.spoiled.sregs.contains with
              | some r => .next (s2.trap cPOISON info (some (spoilAddr 0 r.toNat)))
              | none => .next (s2.fetched at_ insns)

/-- VSYNC: waits until the vector queue is empty; a held window does not count (R137, R407). It is cumulative at package scope: every write
that the strand could read performs there (R352). -/
def execVsync (s : State) : Out := if s.me.qEmpty then .next s.unstage.advance else .next s

/-- IFLUSH: the core's L1 instruction cache and the strand's replay buffer are emptied (R134, R181). -/
def execIflush (s : State) : Out :=
  .next ({ s with core := { s.core with icache := [] }, me := { s.me with replay := [] } } : State).advance

/-- VNOP completes without effect, once it is ready like any other (R135, R139, R140). -/
def execVnop (s : State) : Out := s.issue .vnop (fun _ _ => ⟨[], []⟩) fun _ n e s => .next (s.complete n e 0)

/-- VSTOP ends a block and occupies no queue entry (R116, R135): it performs nothing. -/
def execVstop (s : State) : Out := .next s

/-! ### The held window (R407 to R410) -/

/-- The lane group that held element i counts a lowered TLG: its elements are performed again (R409). -/
def Progress.retaken (p : Progress) (tlg : List Nat) (eb : Nat) : Progress :=
  let lower (h : Nat) : Bool := decide (tlg.getD h 0 < p.tlg.getD h 0)
  { p with tlg := tlg, gone := ((List.range Config.maxVl).filter fun i => p.gone.testBit i && !lower (laneOf p.lanes eb i).1).foldl addBit 0 }

/-- eb of R138 for an instruction under its snapshot. -/
def QEntry.wide (e : QEntry) : Nat :=
  match e.instr.vparts with
  | some p => if p.vop == 0x0D && p.f == 0 then wideOf e.snap.cfg.fmt (Fmt.of p.args.imm.toNat)
      else e.snap.cfg.fmt.wide
  | none => 0

/-- An entry as VREPLAY returns it to issue: the remaining set of the instruction that trapped comes from TLG0 to TLG15. -/
def QEntry.returned (e : QEntry) (tlg : List Nat) : QEntry :=
  let e := { e with lanes := none, started := [] }
  if !e.taken then e
  else { e with taken := false, fault := none
                rest := some (((e.rest.getD { lanes := [], tlg := List.replicate 16 0 }).retaken tlg e.wide)) }

/-- Returns the held window to issue, in queue order (R410, R507). -/
def Strand.resumeWindow (k : Strand) : Strand :=
  let tlg := k.tr.tlg.toList.map (·.toNat)
  { k with q := k.win.map (·.returned tlg) ++ k.q, win := [], tr := { k.tr with tcause := k.tr.tcause &&& ~~~0x20000#64 } }

/-- VREPLAY (R410). -/
def execVreplay (s : State) : Out :=
  s.privileged (wordOf32 .vreplay) <|
    if !bt s.me.tr.tcause 17 then .next s.advance
    else if s.foreign ≠ 0 then .next s.advance
    else .next (s.setMe (·.resumeWindow)).advance

/-- Every unretired instruction of the queue joins the held window; the completed ones retire on resumption. A trap of a younger instruction is not
recorded: it traps when it resumes, if the cause persists (R407, R408, R427). -/
def Strand.squash (k : Strand) : Strand :=
  { k with q := [], win := k.win ++ k.q.map fun e => { e with started := [], fault := none }, tr := { k.tr with tcause := k.tr.tcause ||| 0x20000#64 } }

/-- The trap of a vector instruction that is due at the strand's boundary: its own entry heads the queue, or it has
retired (R272, R407). -/
def Strand.vectorDue (k : Strand) : Option VFault :=
  match k.due.vec with
  | some f => some f
  | none => k.q.head?.bind (·.fault)

/-- The pair of lane groups at which an SDC trap struck: that of the element group of TADDR, or the first of the strand's
array for a matrix instruction. -/
def State.sdcPair (s : State) (f : VFault) : Nat :=
  match s.core.arrays.find? (·.owner = s.me.id), s.me.q.head? with
  | some a, some e => if (e.instr.vparts.map (·.vop)) = some 0x20 then a.lg else (laneOf ((e.rest.map (·.lanes)).getD (e.lanes.getD [])) e.wide (f.addr.getD 0).toNat).1
  | none, some e => (laneOf ((e.rest.map (·.lanes)).getD (e.lanes.getD [])) e.wide (f.addr.getD 0).toNat).1
  | _, none => 0

/-- The list A of an entry: as formed, or as it would be formed now (R138). -/
def QEntry.mapped (e : QEntry) (c : Core) : List Nat := e.lanes.getD (c.lanes e.snap.cfg.vpm)

/-- The lane groups of A that hold an element group of the instruction. A matrix instruction and VNOP have none (R138, R252). -/
def QEntry.groups (e : QEntry) (c : Core) : List Nat :=
  match e.instr.vparts with
  | none => []
  | some p => if p.vop = 0x20 ∨ p.form = .bare then []
      else (e.mapped c).filter fun h => decide (0 < laneCount (e.mapped c) e.wide e.snap.cfg.vl.toNat h)

/-- Elements of a completed instruction at a lane group: for an MMAC its rows, for an MRSMAC its steps. With CR = 1 each of the three copies
counts (R453). -/
def State.elemsAt (s : State) (e : QEntry) (h : Nat) : Nat :=
  match e.instr.vparts with
  | none => 0
  | some p =>
    let n :=
      if p.vop = 0x20 then
        if !(s.core.arrays.any fun a => a.owner == s.me.id && a.holds h) then 0
        else if p.f = 3 then p.args.imm.toNat % 256 + 1
        else if p.f = 4 then (p.args.imm.toNat + cellL e.snap.cfg.fmt e.snap.cfg.fmt - 1) / cellL e.snap.cfg.fmt e.snap.cfg.fmt
        else 0
      else if (e.groups s.core).contains h then
        ((List.range e.snap.cfg.vl.toNat).filter fun i => (laneOf (e.mapped s.core) e.wide i).1 == h).length
      else 0
    if p.args.cr then 3 * n else n

/-- The sample of a retired instruction: counters of cycles per lane group, which the model does not time, and the elements (R453). -/
def State.sample (s : State) (e : QEntry) : State :=
  if e.probe && s.pint s.me.ctx != 0 then
    let per (g : Nat) : List Byte := if (e.lanes.getD []).contains g ∨ s.elemsAt e g ≠ 0 then
        ((List.range 10).map fun i => Config.freeByte (s.free + 12 * g + i)) ++ leBytes 2 (min 65535 (s.elemsAt e g)) ++ [0, 0, 0, 0]
      else List.replicate 16 0
    let s' : State := { s with free := s.free + 192 }
    s'.record ⟨9, BitVec.ofNat 16 (s.me.core.toNat * 2 ^ 7 + s.me.slot.toNat), BitVec.ofNat 32 e.idx, s.me.lclk, e.word, e.block, ((List.range 16).map per).flatten⟩
  else s

/-- The oldest instruction retires, if it has completed: its flags join NM (R132, R135). -/
def State.retireOne (s : State) : State :=
  match s.me.q with
  | [] => s
  | e :: t => if !e.done then s else (s.setMe fun k => { k with q := t, cfg := { k.cfg with nm := k.cfg.nm ||| (e.flags &&& 0x3F00) } }).sample e

/-- Every completed instruction at the head of the queue retires; the fuel is the queue's length. -/
def State.retireAll : Nat → State → State
  | 0, s => s
  | n + 1, s => State.retireAll n s.retireOne

/-- The strand's vector work is to stop: while requests of it are under way at other devices it starts no further one, and stops when they
have been answered (R308, R408). -/
def State.halting (s : State) : State := s.setMe fun k => { k with due := { k.due with halting := true } }

/-- VECTOR_TRAP: the window is squashed and the trap enters at the boundary (R402, R407). It stays due while ACT = 1, and while younger
instructions have requests under way. What has completed before the instruction has retired, and an MMAC or MRSMAC that raised POISON with it
(R272). -/
def execVectorTrap (k : SId) (s : State) : Out :=
  let s := s.switchTo k
  if s.me.id ≠ k ∨ s.me.run ≠ .running ∨ bt s.me.tr.tcause 15 then .next s
  else match (State.retireAll s.me.q.length s).me.vectorDue with
    | none => .next s
    | some f =>
      if s.vectorRemote s.me then .next s.halting
      else
        let s := State.retireAll s.me.q.length s.dropReads
        let own := s.me.due.vec.isNone
        let s := if f.code = cSDC then s.sdcTrap s.me.core (s.sdcPair f) else s
        let s := s.setMe fun k =>
          let q := k.q.mapIdx fun n e => if n = 0 ∧ own then { e with taken := true, fault := none } else e
          let k : Strand := { k with q := q, win := k.win.map fun (e : QEntry) => { e with taken := false } }
          { k.squash with due := { k.due with vec := none, halting := false } }
        .next ((s.withdraw k).takeTrap s.me.pc f.code f.info f.addr (some f.tlg) false)

/-! ### Retirement (R132, R135, R453) -/

/-- VECTOR_RETIRE: the oldest instruction retires once it has completed, and its flags join NM. -/
def execVectorRetire (k : SId) (s : State) : Out :=
  let s := s.switchTo k
  if s.me.id ≠ k then .next s else .next s.retireOne

/-! ### The issue slot of a lane group (R140, R141, R144) -/

/-- An implicit barrier (R144). -/
def isBarrier (i : Instr) : Bool :=
  match i.vparts with
  | none => false
  | some p => p.args.cr || p.vop == 0x11 || p.vop == 0x12 || (p.vop == 0x13 && (p.f == 7 || p.f == 8)) || (p.vop == 0x18 && p.f == 2)
      || p.vop == 0x1B || p.vop == 0x20

/-- An instruction outside VPRED names a vector register, by its form and K (R103 to R115). -/
def namesVec (p : VParts) : Bool :=
  match p.form with
  | .iota => p.args.k != .accD
  | .gete => p.args.k != .accA
  | .red => p.args.k != .accA
  | .scl => false
  | .mchain => false
  | .mzeroMd => false
  | .mzeroArray => false
  | .mmode => false
  | .mfree => false
  | .mdrain => false
  | .bare => false
  | _ => true

/-- The parts of R415 that an instruction names. -/
def partsOf (i : Instr) : Nat :=
  match i.vparts with
  | none => 0
  | some p =>
    (if p.vop ≠ 0x13 ∧ namesVec p then 1 else 0) + (if p.args.k = .accA ∨ p.args.k = .accB ∨ p.args.k = .accD then 2 else 0)
      + (if p.args.p ≠ 0 ∨ (vPredDest i).isSome then 4 else 0) + (if p.vop = 0x1B ∨ (p.vop = 0x0D ∧ p.f ≠ 0) then 8 else 0)

/-- It has started at every lane group that it must. -/
def QEntry.startedAll (e : QEntry) (c : Core) : Bool := (e.groups c).all e.started.contains

/-- The entry at a place is ready at lane group g, apart from the limit on instructions in flight (R140, R144). -/
def State.readyIn (s : State) (k : Strand) (c : Core) (g n : Nat) : Bool :=
  match k.q[n]? with
  | none => false
  | some e =>
    let older := k.q.take n
    !e.done && e.fault.isNone && !e.started.contains g && (e.groups c).contains g
      && older.all (fun o => o.done || o.started.contains g || !(o.groups c).contains g)
      && !(isBarrier e.instr && older.any fun o => !o.done)
      && !(older.any fun o => !o.done && isBarrier o.instr)
      && Nat.land (s.foreignOf k) (partsOf e.instr) == 0

/-- The place in the queue of the oldest instruction that is ready at lane group g. -/
def State.readyAt (s : State) (k : Strand) (c : Core) (g : Nat) : Option Nat := (List.range k.q.length).find? (s.readyIn k c g)

/-- The instructions in flight at lane group g on a core. -/
def State.inFlight (s : State) (core : BitVec 7) (g : Nat) : Nat :=
  (((s.allStrands.filter fun k => k.core == core && k.onCore).map fun k => (k.q.filter fun e => !e.done && e.started.contains g).length)).sum

/-- LANE_GROUP_ISSUE: one cycle of the deficit round robin of a lane group: the oldest ready instruction of the chosen strand
starts there (R138 to R144). An instruction is performed once it has started wherever it has an element group. -/
def execLaneGroupIssue (core : BitVec 7) (lg : BitVec 4) (s : State) : Out :=
  let c := s.getCore core
  let g := lg.toNat
  if c.inMatrix g then .next s
  else
    let here (slot : Nat) : Option Strand := s.allStrands.find? fun k => k.core == core && k.run == .running && k.slot.toNat == slot
    let ready (slot : Nat) : Option (Strand × Nat) := (here slot).bind fun k =>
      if s.inFlight core g < 8 then (s.readyAt k c g).map fun n => (k, n) else none
    let arb := vget c.arbs g {}
    let cur := arb.cur.toNat
    let dc := if (ready cur).isNone then vset arb.dc cur 0 else arb.dc
    let pick : Option Nat := if vget dc cur 0 ≠ 0 then some cur else [1, 2, 3, 4].findSome? fun d => if (ready ((cur + d) % 4)).isSome then some ((cur + d) % 4) else none
    match pick.bind fun p => (ready p).map fun r => (p, r) with
    | none => .next (s.setCore { c with arbs := vset c.arbs g { arb with dc := dc } })
    | some (p, k, n) =>
      let dc := if vget dc cur 0 ≠ 0 then dc else vset dc p (vget dc p 0 + k.alloc.weight)
      let s := s.setCore { c with arbs := vset c.arbs g { cur := BitVec.ofNat 2 p, dc := vset dc p (vget dc p 0 - 1) } }
      .next (s.onStrand k.id fun k => { k with q := k.q.mapIdx fun i e =>
        if i = n then { e with lanes := some (e.lanes.getD (c.lanes e.snap.cfg.vpm)), started := g :: e.started } else e })

end Sys2Proof.Machine
end

