-- ==== Sys2Proof/Machine/VectorMove.lean ====
section
/-! DEFINITION. Conversion, scaling, moves and single elements (R107, R108, R229 to R231, R235, R236). -/

namespace Sys2Proof.Machine

/-- VCVT: the source format stands in the immediate (R229, R230). -/
def execVcvt (v : VArgs) (s : State) : Out :=
  s.unaryFrom (.vcvt v) v (fun _ => Fmt.of v.imm.toNat) fun _ c _ a => c.f.convert (Fmt.of v.imm.toNat) c.nm a

/-- Entry e of a scale bank (R192). -/
def State.scaleEntry (s : State) (kb : Bool) (e : Nat) : Nat := (if kb then s.me.vs.kb else s.me.vs.ka).num (2 * e) 2

/-- The lowest scale entry among those read whose storage failed, as TADDR (R420). -/
def State.badScale (s : State) (kb : Bool) (entries : List Nat) : Option Word :=
  let bad := if kb then s.me.spoiled.kb else s.me.spoiled.ka
  ((entries.filter bad.contains).min?).map (spoilAddr (if kb then 3 else 2))

/-- VSCALE by a bank (R231): element i is multiplied by entry i >> BL, by 1 under BL = 0. -/
def State.vscale (s : State) (i : Instr) (v : VArgs) (kb : Bool) : Out :=
  s.issue i (fun c _ => ⟨[((destD v).src, c.f), (srcA v, c.f)], [v.p]⟩) fun c n e s =>
    let used := if c.bl = 0 then [] else ((s.activeIdx c v).filter (e.remains c.f.wide)).map (· / 2 ^ c.bl)
    match s.badScale kb used with
    | some a => .next (s.vfault n e cPOISON (some a) e.sameTlg)
    | none => s.runElems c n e v (destD v) c.f.wide fun i =>
        let x := s.elem c c.f (srcA v) i
        let sc := if c.bl = 0 then Num.ofInt 1 else scaleValue c.scf (s.scaleEntry kb (i / 2 ^ c.bl))
        let r := c.f.scaleBy c.nm x.1 sc
        { x := r.1, flags := r.2, bad := x.2 }

/-- VSCALE by ka (R107, R231). -/
def execVscaleKa (v : VArgs) (s : State) : Out := s.vscale (.vscaleKa v) v false

/-- VSCALE by kb (R107, R231). -/
def execVscaleKb (v : VArgs) (s : State) : Out := s.vscale (.vscaleKb v) v true

/-- VMOV: bit for bit, with its poison (R215, R235). -/
def execVmov (v : VArgs) (s : State) : Out :=
  s.issue (.vmov v) (fun c _ => ⟨[((destD v).src, c.f), (srcA v, c.f)], [v.p]⟩) fun c n e s =>
    s.runElems c n e v (destD v) c.f.wide fun i =>
      let x := s.elem c c.f (srcA v) i
      { x := x.1, carry := x.2 }

/-- VSPLAT: the value of R211 (R235). -/
def execVsplat (v : VArgs) (s : State) : Out :=
  s.issue (.vsplat v) (fun c _ => ⟨[((destD v).src, c.f)], [v.p]⟩) fun c n e s =>
    let b := srcB e c v
    s.runElems c n e v (destD v) c.f.wide fun i => { x := (s.elem c c.f b i).1, flags := b.flags }

/-- VIOTA: the index (R235). -/
def execViota (v : VArgs) (s : State) : Out :=
  s.issue (.viota v) (fun c _ => ⟨[((destD v).src, c.f)], [v.p]⟩) fun c n e s =>
    s.runElems c n e v (destD v) c.f.wide fun i =>
      let r := if c.f.isInt then (c.f.pad (i % 2 ^ c.f.width), 0) else c.f.roundF c.nm (.ofInt i)
      { x := r.1, flags := r.2 }

/-- VSEL: the element and the poison of the source that predicate C chooses (R215, R235). -/
def execVsel (v : VArgs) (s : State) : Out :=
  s.issue (.vsel v) (fun c e => ⟨[((destD v).src, c.f), (srcA v, c.f), (srcB e c v, c.f)], [v.p, v.c]⟩) fun c n e s =>
    s.runElems c n e v (destD v) c.f.wide fun i =>
      let x := s.elem c c.f (if s.pred v.c i then srcA v else srcB e c v) i
      { x := x.1, carry := x.2 }

/-- VGETE: element S(C), not limited by VL; 0 beyond VLMAX or where the guard is 0 (R236). -/
def execVgete (v : VArgs) (s : State) : Out :=
  s.issue (.vgete v) (fun c _ => ⟨[(srcA v, c.f)], [v.p]⟩) fun c n e s =>
    let k := (e.s v.c).toNat
    let lim := if v.k = .accA then 32768 / c.f.eb else vlmax e.snap.cfg c.mvl
    if lim ≤ k ∨ !s.pred v.p k then s.runWhole c n e v [] fun s => (s.putScalar v.d 0).complete n e 0
    else
      let x := s.elem c c.f (srcA v) k
      s.runWhole c n e v (if x.2 then [k] else []) fun s => (s.putScalar v.d (c.f.extend x.1)).complete n e 0

/-- VSETE: element S(C) of D receives the low storage bits of S(B), not limited by VL (R236). -/
def execVsete (v : VArgs) (s : State) : Out :=
  s.issue (.vsete v) (fun c _ => ⟨[(.reg v.d.toNat, c.f)], [v.p]⟩) fun c n e s =>
    let k := (e.s v.c).toNat
    if vlmax e.snap.cfg c.mvl ≤ k ∨ !s.pred v.p k then s.runWhole c n e v [] fun s => s.complete n e 0
    else s.runWhole c n e v [] fun s =>
      let w : Put := ⟨k, c.f.pad ((e.s v.b).toNat % 2 ^ c.f.storage), false⟩
      ((s.putAll c (.reg v.d.toNat) [w]).tail c (.reg v.d.toNat) [w]).complete n e 0


end Sys2Proof.Machine
end

