-- ==== Sys2Proof/Machine/Matrix.lean ====
section
/-! DEFINITION. Matrix mode: arrays, tiles, product sums, chains, and the matrix instructions (R190, R191, R193, R247 to R276). -/

namespace Sys2Proof.Machine

/-! ### Formats and sums (R190, R191, R255) -/

/-- The accumulator format, none when R255 refuses the pair. -/
def acfOf (a b : Fmt) (bl : Nat) : Option Acf :=
  if a.fmt = 5 ∧ b.fmt = 5 then some .fp64
  else if a.fmt = 5 ∨ b.fmt = 5 then none
  else if a.isInt ∧ b.isInt ∧ bl = 0 then some .int32
  else some .fp32

def Acf.fmt : Acf → Fmt
  | .fp64 => ⟨5, 6, 0⟩
  | .int32 => ⟨1, 5, 0⟩
  | .fp32 => ⟨4, 5, 0⟩

/-- Rows of an m register under an accumulator format (R255). -/
def Acf.rows : Acf → Nat
  | .fp64 => 128
  | _ => 256

/-- Kp of R256. -/
def padK (k bl : Nat) : Nat := if bl = 0 then k else (k + 2 ^ bl - 1) / 2 ^ bl * 2 ^ bl

/-- The exact sum of products, with `missing` further products of exact +0 (R191 steps 1 and 2, R193). -/
def sumProducts (rm : Nat) (ps : List Num) (missing : Nat) : Num × Nat :=
  let infs := ps.filterMap fun p => match p with | .inf n => some n | _ => none
  if infs.contains true && infs.contains false then (.nan false, fNV)
  else if ps.any (·.isNan) then (.nan false, 0)
  else match infs with
    | n :: _ => (.inf n, 0)
    | [] =>
      let fins := ps.filterMap fun p => match p with | .fin n m e _ => some (n, m, e) | _ => none
      let g := (fins.map (·.2.2)).foldl min 0
      let x := (fins.map fun t => scaled t.1 t.2.1 t.2.2 g).sum
      if x ≠ 0 then (.fin (decide (x < 0)) x.natAbs g false, 0)
      else
        let allNeg := missing == 0 && fins.all fun t => t.2.1 == 0 && t.1
        (.zero (allNeg || (rm == 3 && fins.any fun t => t.2.1 != 0 || t.1)), 0)

/-- What one cell step computes under: the two formats, the accumulator format, the captured NM and SAT, SCF. -/
structure Cell where
  fa : Fmt
  fb : Fmt
  acf : Acf
  nm : Word
  sat : Bool
  scf : Bool
  deriving DecidableEq, Repr

/-- One block of products added to an incoming partial sum: R191, or the integer sum of R255. -/
def Cell.step (q : Cell) (pairs : List (Nat × Nat)) (missing : Nat) (scales : Option (Num × Num)) (x : Nat) : Res :=
  match q.acf with
  | .int32 => q.acf.fmt.wrapInt q.sat (q.acf.fmt.int x + (pairs.map fun p => q.fa.int p.1 * q.fb.int p.2).sum)
  | _ =>
    let f := q.acf.fmt
    let ps := pairs.map fun p => (q.fa.value q.nm p.1).mul (q.fb.value q.nm p.2)
    let s := sumProducts (nmRM q.nm) (ps.map (·.1)) missing
    let fl := (ps.map (·.2)).foldl Nat.lor s.2
    let t : Num × Nat := match scales with
      | none => (s.1, 0)
      | some (sa, sb) =>
        let u := s.1.mul sa
        let w := u.1.mul sb
        if q.scf then let r := f.roundF q.nm w.1
          (f.value 0 r.1, Nat.lor r.2 (Nat.lor u.2 w.2))
        else (w.1, Nat.lor u.2 w.2)
    let y := t.1.add (nmRM q.nm) (f.value q.nm x)
    let r := f.roundWith q.nm y
    (r.1, Nat.lor r.2 (Nat.lor fl t.2))

/-! ### Operands in vector registers (R256, R257) -/

/-- The registers that an operand of n elements from register v spans pass the checks of R256. -/
def Strand.matrixOk (k : Strand) (c : VCtx) (v n : Nat) : Bool :=
  v % c.g == 0 && decide (0 < c.mvl) && decide (v + (max n 1 - 1) / c.mvl < k.vs.cnt) && decide (c.f.storage ≤ k.vs.bits)

/-- Element e of an operand that starts at register v. -/
def Strand.matrixElem (k : Strand) (c : VCtx) (v e : Nat) : Nat × Bool := (vget k.vs.regs (v + e / c.mvl) {}).elem c.f (e % c.mvl)

/-- n consecutive elements of an operand from element e. -/
def Strand.matrixRow (k : Strand) (c : VCtx) (v e n : Nat) : List (Nat × Bool) := (List.range n).map fun j => k.matrixElem c v (e + j)

/-- A scale entry of a bank as a value. -/
def bankScale (bank : Mem) (scf : Bool) (e : Nat) : Num := scaleValue scf (bank.num (2 * e) 2)

/-! ### The array of a strand -/

/-- The array that a strand holds. -/
def State.arrayOf (s : State) (k : SId) : Option Arr := s.arrays.find? (·.owner = k)

/-- Applies a change to the array of a strand. -/
def State.mapArray (s : State) (k : SId) (f : Arr → Arr) : State :=
  s.mapCores fun c => { c with arrays := replaceIf (fun a => a.owner == k) f c.arrays }

/-- Rows of an array (R247). -/
def Arr.rows (a : Arr) : Nat := 4 * a.g

/-- Weight (k, c) of a tile, all K of column c. -/
def Tile.column (t : Tile) (k c : Nat) : List Nat :=
  (List.range k).map fun r => leNat (t.weights.dense (8 * (32 * r + c)) 8)

/-- The scales of a tile's column c at block b (R257, R260). -/
def Tile.scale (t : Tile) (nb c b : Nat) : Num := bankScale t.kb t.scf (c * nb + b)

/-- A matrix instruction becomes ready: the parts of the vector state that it accesses must be the strand's own (R415). -/
def State.issueMatrix (s : State) (i : Instr) (parts : Nat) (go : VCtx → Nat → QEntry → State → Out) : Out :=
  let (n, e, s1) := s.entryFor i
  let bad := s1.foreignIn parts
  if bad ≠ 0 then .next (s1.vfault n e cVSTATE (some (w64 bad)) e.sameTlg)
  else go (s1.vctx e) n e s1

/-- The trap of a matrix instruction, before any effect (R273, R274). -/
def State.matrixFault (s : State) (n : Nat) (e : QEntry) (code : Byte) (addr : Option Word) : Out :=
  .next (s.vfault n e code addr (List.replicate 16 0))

def State.matrixCause (s : State) (n : Nat) (e : QEntry) (cause : Nat) : Out := s.matrixFault n e cMATRIX (some (w64 cause))

/-- The captured VPM differs from the array's (R252). -/
def vpmDiffers (c : VCtx) (a : Arr) : Bool := c.vpm != a.vpm

/-! ### MMODE and MFREE (R249 to R253) -/

/-- An instruction of some strand whose A was formed and that has local groups at a group of T has not completed them. -/
def State.draining (s : State) (core : BitVec 7) (t : List Nat) : Bool :=
  s.allStrands.any fun k => k.core == core && k.onCore && k.q.any fun e =>
    !e.done && e.fault.isNone && e.lanes.isSome && (e.groups (s.getCore core)).any t.contains

/-- The array that MMODE forms (R247). -/
def newArray (k : SId) (c : VCtx) (v : VArgs) : Arr :=
  { owner := k, lg := fld v.imm.toNat 7 4, g := 2 * 2 ^ fld v.imm.toNat 1 0, rs := v.imm.getLsbD 2, vpm := c.vpm }

/-- MMODE: claims the lane groups, waits for the drain, forms the array (R249, R250, R506). -/
def execMmode (v : VArgs) (s : State) : Out :=
  s.issueMatrix (.mmode v) 0 fun c n e s =>
    let a := newArray s.me.id c v
    let t := (List.range 16).filter a.holds
    let claimed := s.core.claims.any (·.1 = s.me.id)
    let preempted := s.core.arrays.any fun x => t.any x.holds && ((s.strandOf x.owner).map (·.run)) == some .preempted
    if !claimed && (s.arrayOf s.me.id).isSome then s.matrixCause n e 2
    else if !claimed && c.vpm && decide (8 < a.lg + a.g) then s.matrixCause n e 3
    else if !claimed && preempted then s.matrixFault n e cVSTATE (some 16)
    else if !claimed && t.any s.core.inMatrix then s.matrixCause n e 2
    else if s.draining s.core.num t then
      .next { s with core := { s.core with claims := if claimed then s.core.claims else (s.me.id, t) :: s.core.claims } }
    else .next (({ s with core := { s.core with arrays := a :: s.core.arrays, claims := s.core.claims.filter (·.1 ≠ s.me.id) } } : State).complete n e 0)

/-- MFREE: without an array it has no effect (R253). -/
def execMfree (v : VArgs) (s : State) : Out :=
  s.issueMatrix (.mfree v) 0 fun _ n e s => .next ((s.freeArray s.me.id).complete n e 0)

/-! ### MWLD (R260) -/

/-- Loads the W operand of K × 32 weights from register v, with the kb entries that it uses. -/
def Strand.loadTile (k : Strand) (c : VCtx) (v : Nat) (afmt : BitVec 12) (l depth : Nat) : Tile :=
  let kp := padK depth c.bl
  let xs := (List.range depth).flatMap fun r => (List.range 32).map fun col => k.matrixElem c v (col * kp + r)
  { fmt := BitVec.ofNat 12 (c.f.fmt + c.f.w * 16 + c.f.e * 512), afmt := afmt, bl := c.bl, scf := c.scf, l := l
    weights := Mem.ofBytes 0 (xs.flatMap fun x => leBytes 8 x.1)
    kb := if c.bl = 0 then [] else k.vs.kb.slice 0 (2 * (32 * (kp / 2 ^ c.bl))) 0
    bad := (xs.mapIdx fun i x => if x.2 then some i else none).filterMap fun x => x }

/-- MWLD. -/
def execMwld (v : VArgs) (s : State) : Out :=
  s.issueMatrix (.mwld v) 9 fun c n e s =>
    let fa := if v.imm.toNat % 4096 = 0 then c.f else Fmt.of v.imm.toNat
    let l := cellL fa c.f
    let arr := s.arrayOf s.me.id
    let depth := match arr with | some a => a.rows * l | none => 1
    let kp := padK depth c.bl
    let entries := if c.bl = 0 then 0 else 32 * (kp / 2 ^ c.bl)
    if !s.me.matrixOk c v.a.toNat (32 * kp) then s.matrixFault n e cVDECL none
    else match arr with
      | none => s.matrixCause n e 1
      | some a =>
        if a.rs then s.matrixCause n e 1
        else if (acfOf fa c.f c.bl).isNone then s.matrixCause n e 4
        else if c.bl ≠ 0 ∧ (2 ^ c.bl < l ∨ 4096 < entries) then s.matrixCause n e 5
        else if vpmDiffers c a then s.matrixCause n e 7
        else match s.badScale true (List.range entries) with
          | some x => s.matrixFault n e cPOISON (some x)
          | none =>
            let t := s.me.loadTile c v.a.toNat (BitVec.ofNat 12 (fa.fmt + fa.w * 16 + fa.e * 512)) l depth
            .next ((s.mapArray s.me.id fun a => { a with tile := some t }).complete n e 0)

/-! ### MMAC (R258, R261, R267, R270 to R272) -/

/-- MRP of R269. -/
def mrpWord (kind prog : Nat) : Word := w64 (2 ^ 63 + kind * 2 ^ 16 + prog)

/-- PROG of a matching MRP, 0 otherwise (R261, R262). -/
def mrpProg (mrp : Word) (kind : Nat) : Nat := if bt mrp 63 && bf mrp 17 16 == kind then bf mrp 13 0 else 0

/-- One member of an MMAC: its strand, the entry that holds its MMAC, its array and tile. -/
structure Member where
  k : Strand
  e : QEntry
  a : Arr
  t : Tile

/-- The oldest instruction of a strand that has not completed. -/
def Strand.oldest (k : Strand) : Option QEntry := k.q.find? fun e => !e.done

/-- The strands' arrays in the chain of one array, by position; the array alone when it is not chained (R265, R266). -/
def State.chainOf (s : State) (a : Arr) : List Arr := if a.chain.isNone then [a] else a.peers.filterMap s.arrayOf

def Member.ctx (m : Member) : VCtx := m.e.snap.cfg.vctx m.k.cfg.mvl.toNat
def Member.args (m : Member) : VArgs := ((m.e.instr.vparts).map (·.args)).getD ⟨false, 0, 0, 0, 0, 0, false, .vec, 0⟩

/-- K of a member's tile. -/
def Member.depth (m : Member) : Nat := m.a.rows * m.t.l

/-- Row `row` of a member's A, and whether it holds poison. -/
def Member.arow (m : Member) (row : Nat) : List (Nat × Bool) :=
  let kp := padK m.depth m.ctx.bl
  m.k.matrixRow m.ctx m.args.a.toNat (row * kp) m.depth

/-- Adds a member's products of A row `row` and column c to x, array row by array row (R258). -/
def Member.column (m : Member) (acf : Acf) (row c : Nat) (arow : List Nat) (col : List Nat) (x : Nat) : Res :=
  let v := m.ctx
  let nb := padK m.depth v.bl / 2 ^ v.bl
  let q : Cell := { fa := v.f, fb := Fmt.of m.t.fmt.toNat, acf := acf, nm := v.nm, sat := v.sat, scf := v.scf }
  (List.range m.a.rows).foldl (fun (y : Res) r =>
    let o := r * m.t.l
    let pairs := ((arow.drop o).take m.t.l).zip ((col.drop o).take m.t.l)
    let scales := if v.bl = 0 then none else
      some (bankScale m.k.vs.ka v.scf (row * nb + o / 2 ^ v.bl), m.t.scale nb c (o / 2 ^ v.bl))
    let z := q.step pairs 0 scales y.1
    (z.1, Nat.lor z.2 y.2)) (x, 0)

/-- One md row: the members in chain order (R258). The flags come per member. -/
def rowOf (ms : List (Member × List (List Nat))) (acf : Acf) (row : Nat) (xs : List Nat) : List Nat × List Nat :=
  ms.foldl (fun (st : List Nat × List Nat) mc =>
    let arow := (mc.1.arow row).map (·.1)
    let ys := (st.1.zip mc.2).mapIdx fun c xc => mc.1.column acf row c arow xc.2 xc.1
    (ys.map (·.1), st.2 ++ [(ys.map (·.2)).foldl Nat.lor 0])) (xs, [])

/-- Blocks of a row of an m register (R272). -/
def rowBlocks (acf : Acf) (row : Nat) : List Nat :=
  let n := acf.fmt.eb / 2
  (List.range n).map fun i => row * n + i

def Acc.rowBad (a : Acc) (acf : Acf) (row : Nat) : Bool := (rowBlocks acf row).any a.bad.contains

/-- Writes one row of 32 values, its poison set or cleared (R272). -/
def Acc.putRow (a : Acc) (acf : Acf) (row : Nat) (xs : List Nat) (bad : Bool) : Acc :=
  let eb := acf.fmt.eb
  { data := a.data.write (row * 32 * eb) (xs.flatMap (leBytes eb)),
    bad := if bad then (rowBlocks acf row).foldl setIns a.bad else a.bad.filter fun b => !(rowBlocks acf row).contains b }

/-- Rows `row`, `row + 1`, … of an MMAC, n of them: the tail's md, the flags of each member, and the rows marked. -/
def mmacRows (ms : List (Member × List (List Nat))) (acf : Acf) : Nat → Nat → Acc → List Nat → List Nat → Acc × List Nat × List Nat
  | 0, _, md, fl, bad => (md, fl, bad)
  | n + 1, row, md, fl, bad =>
    let eb := acf.fmt.eb
    let (ys, f) := rowOf ms acf row (numsOf eb 32 (md.data.dense (row * 32 * eb) (32 * eb)))
    let poison := md.rowBad acf row || ms.any fun mc => !mc.1.t.bad.isEmpty || (mc.1.arow row).any (·.2)
    mmacRows ms acf n (row + 1) (md.putRow acf row ys poison) ((fl.zip f).map fun p => Nat.lor p.1 p.2) (if poison then row :: bad else bad)

/-- An entry of a strand replaced where its oldest instruction stands. -/
def Strand.mapOldest (k : Strand) (f : QEntry → QEntry) : Strand :=
  match k.q.findIdx? fun e => !e.done with
  | some n => { k with q := k.q.mapIdx fun i e => if i = n then f e else e }
  | none => k

/-- Where and why a running matrix instruction stops (R270): at a row or element of K, with the code and TADDR that its causer takes; no TADDR
means the place reached. -/
structure MStop where
  at_ : Nat
  code : Byte
  addr : Option Word
  who : SId
  deriving DecidableEq, Repr

/-- The earliest of some stops. -/
def firstOf (xs : List MStop) : Option MStop := xs.foldl (fun m x => match m with
  | none => some x
  | some y => if x.at_ < y.at_ then some x else m) none

/-- Performs the rows of an MMAC from row `first`, of one array or a whole chain, up to a stop when one is given (R258, R270, R271). -/
def State.runMmac (s : State) (ms : List Member) (acf : Acf) (first rows : Nat) (stop : Option MStop) : State :=
  match ms.getLast? with
  | none => s
  | some tail =>
    let last := match stop with | some x => max first (min x.at_ rows) | none => rows
    let md := tail.args.d.toNat
    let cols := ms.map fun m => (m, (List.range 32).map (m.t.column m.depth))
    let (acc, fl, bad) := mmacRows cols acf (last - first) first (vget tail.k.vs.accs md {}) (ms.map fun _ => 0) []
    let s := s.onStrand tail.k.id fun k => { k with vs := { k.vs with accs := vset k.vs.accs md acc } }
    let mrp := if stop.isSome ∧ last < rows then mrpWord 1 last else 0
    let s := (ms.zip fl).foldl (fun s mf => s.onStrand mf.1.k.id fun k =>
      ({ k with tr := { k.tr with mrp := mrp } }).mapOldest fun e =>
        let e := { e with flags := e.flags ||| w64 mf.2 }
        match stop with
        | none => { e with done := true, rest := none }
        | some x =>
          let (code, addr) := if k.id = x.who then (x.code, x.addr.getD (w64 last)) else (cCHAIN, 3)
          { e with fault := some ⟨code, e.word, some addr, List.replicate 16 0⟩ }) s
    let s := ms.foldl (fun s m => s.mapArray m.k.id fun a => { a with ready := none }) s
    match stop, bad.min? with
    | none, some low => s.onStrand tail.k.id fun k => { k with due := { k.due with vec := some ⟨cPOISON, tail.e.word, some (w64 low), List.replicate 16 0⟩ } }
    | some _, _ => if ms.length = 1 then s else s.dissolve tail.k.id
    | _, _ => s

/-- Every member of the chain whose instruction waits takes CHAIN with a cause, and starts nothing (R266, R267). -/
def State.chainFault (s : State) (ms : List Arr) (cause : Nat) : State :=
  ms.foldl (fun s a => if a.ready.isNone ∧ a.arrived.isNone then s else
    (s.onStrand a.owner fun k => k.mapOldest fun e => { e with fault := some ⟨cCHAIN, e.word, some (w64 cause), List.replicate 16 0⟩ }).mapArray a.owner
      fun x => { x with ready := none, arrived := none }) s

/-- The member that an array's owner makes with its oldest instruction. -/
def State.member (s : State) (a : Arr) : Option Member :=
  match s.strandOf a.owner, a.tile with
  | some k, some t => k.oldest.map fun e => ⟨k, e, a, t⟩
  | _, _ => none

/-- The checks of R261 that pass: the accumulator format; else the code and TADDR. -/
def State.mmacCheck (s : State) (c : VCtx) (v : VArgs) : Except (Byte × Option Word) (Arr × Acf) :=
  let rows := v.imm.toNat % 256 + 1
  let arr := s.arrayOf s.me.id
  let tile := arr.bind (·.tile)
  let depth := match arr, tile with | some a, some t => a.rows * t.l | _, _ => 1
  let l := match tile with | some t => t.l | none => 1
  let kp := padK depth c.bl
  let cause (n : Nat) : Except (Byte × Option Word) (Arr × Acf) := .error (cMATRIX, some (w64 n))
  if s.me.alloc.accn ≤ v.d.toNat ∨ !s.me.matrixOk c v.a.toNat (rows * kp) then .error (cVDECL, none)
  else match arr, tile with
    | some a, some t =>
      if a.rs then cause 1
      else match acfOf (Fmt.of t.fmt.toNat) c.f c.bl with
        | none => cause 4
        | some acf =>
          if t.afmt.toNat ≠ c.f.fmt + c.f.w * 16 + c.f.e * 512 ∨ t.bl ≠ c.bl ∨ t.scf ≠ c.scf then cause 4
          else if c.bl ≠ 0 ∧ (2 ^ c.bl < l ∨ 4096 < rows * (kp / 2 ^ c.bl)) then cause 5
          else if acf.rows < rows then cause 6
          else if vpmDiffers c a then cause 7
          else .ok (a, acf)
    | _, _ => cause 1

/-- What stops a member's rows by itself: copies that disagree (R218, R252), or a scale entry whose storage failed, at the first row that
reads it (R274, R420). -/
def Member.stops (m : Member) (rows : Nat) : List MStop :=
  let c := m.ctx
  let nb := padK m.depth c.bl / 2 ^ c.bl
  let sdc := match m.k.due.sdc with
    | some i => if (m.args.cr || c.vpm) && decide (i < rows) then [(⟨i, cSDC, none, m.k.id⟩ : MStop)] else []
    | none => []
  let bad := if c.bl = 0 then [] else (m.k.spoiled.ka.filter (· < rows * nb)).map fun x => (⟨x / nb, cPOISON, some (spoilAddr 2 x), m.k.id⟩ : MStop)
  bad ++ sdc

/-- The links to the hub that a chain crosses between cores of different quads (R14, R20). -/
def State.chainLinks (s : State) (ms : List Arr) : List Nat :=
  let cores := ms.filterMap fun a => (s.strandOf a.owner).map (·.core.toNat)
  ((cores.zip cores.tail).filter fun x => x.1 / 4 != x.2 / 4).foldl (fun l x => setIns (setIns l (x.1 / 16)) (x.2 / 16)) []

/-- The name of a chain's traffic at a link. -/
def chainOwn (k : SId) : List Nat := [7, k.lid.toNat, k.cid.toNat, k.sid.toNat]

/-- The chain's traffic crosses its links, or wakes them and waits (R16): what the links hold, if they do not all carry it. -/
def State.crossChain (s : State) (ms : List Arr) : State × Bool :=
  let ls := s.chainLinks ms
  if ls.all fun l => (s.link l).st == .awake then (s.crossed (chainOwn s.me.id) ls, true)
  else (ls.foldl (fun u l => if (u.link l).st = .awake then u else u.mapLink l fun x => x.hold (chainOwn s.me.id) s.mem.gen s.clk.ns) s, false)

/-- The MMACs of these members start together and run, or stop where something stops them: a cause given, or one of their own. -/
def State.startMmac (s : State) (ms : List Member) (acf : Acf) (first rows : Nat) (stop : Option MStop) : State :=
  let x := firstOf (stop.toList ++ (ms.map (·.stops rows)).flatten)
  (ms.foldl (fun s m => s.onStrand m.k.id fun k => { k with due := { k.due with sdc := none } }) s).runMmac ms acf first rows x

/-- Every member of an array's chain has its MMAC ready. -/
def State.allReady (s : State) (a : Arr) : Bool := (s.chainOf a).all fun x => x.ready.isSome

/-- MMAC (R261): alone, or once every member of its chain is ready (R267). MRP is read and cleared once its checks have passed. -/
def execMmac (v : VArgs) (s : State) : Out :=
  s.issueMatrix (.mmac v) 11 fun c n e s =>
    match s.mmacCheck c v with
    | .error (code, addr) => s.matrixFault n e code addr
    | .ok (a, acf) =>
      let rows := v.imm.toNat % 256 + 1
      let s := s.setEntry n e
      let clear (s : State) : State := s.setMe fun k => { k with tr := { k.tr with mrp := 0 } }
      let first := mrpProg s.me.tr.mrp 1
      if a.broken then .next (((clear s).mapArray s.me.id fun a => { a with broken := false }).vfault n e cCHAIN (some 3) (List.replicate 16 0))
      else if a.chain.isNone then match s.member a with
        | some m => .next ((clear s).startMmac [m] acf first rows none)
        | none => .next s
      else match a.ready with
        | none => .next ((clear s).mapArray s.me.id fun a => { a with ready := some (s.clk.cyc, rows, acf, first) })
        | some (_, _, _, first) =>
          let team := s.chainOf a
          if !s.allReady a then .next s
          else if (team.filterMap (·.ready)).any fun r => r.2.1 != rows || r.2.2.1 != acf then .next (s.chainFault team 2)
          else match s.crossChain team with
            | (s, true) => .next (s.startMmac (team.filterMap s.member) acf first rows none)
            | (s, false) => .next s

/-! ### MRSMAC, MDRAIN, MZERO (R259, R262 to R264) -/

/-- Pattern of cell (i, c). -/
def Arr.cellAt (a : Arr) (i c : Nat) : Nat := a.cells.num (8 * (32 * i + c)) 8

/-- One cell step in every cell: the new cells and the flags. -/
def cellStep (q : Cell) (depth l b : Nat) (as bs : List (List Nat)) (scale : Nat → Nat → Option (Num × Num)) (cells : List Nat) : List Nat × Nat :=
  let n := min l (depth - b * l)
  let rs := cells.mapIdx fun j x =>
    let pairs := (((as.getD (j / 32) []).drop (b * l)).take n).zip (((bs.getD (j % 32) []).drop (b * l)).take n)
    q.step pairs (l - n) (scale (j / 32) (j % 32)) x
  (rs.map (·.1), (rs.map (·.2)).foldl Nat.lor 0)

/-- Steps b, b + 1, …, n of them. -/
def cellSteps (q : Cell) (depth l : Nat) (as bs : List (List Nat)) (scale : Nat → Nat → Nat → Option (Num × Num)) : Nat → Nat → List Nat → Nat → List Nat × Nat
  | 0, _, cells, fl => (cells, fl)
  | n + 1, b, cells, fl =>
    let r := cellStep q depth l b as bs (scale b) cells
    cellSteps q depth l as bs scale n (b + 1) r.1 (Nat.lor fl r.2)

/-- MRSMAC with its checks done, up to step `stop` when that is given (R259, R270, R272). -/
def State.runMrsmac (s : State) (c : VCtx) (n : Nat) (e : QEntry) (v : VArgs) (a : Arr) (acf : Acf) (stop : Option MStop) : State :=
  let depth := v.imm.toNat
  let l := cellL c.f c.f
  let kp := padK depth c.bl
  let nb := kp / 2 ^ c.bl
  let steps := (depth + l - 1) / l
  let first := mrpProg s.me.tr.mrp 2 / l
  let last := match stop with | some x => max first (min (x.at_ / l) steps) | none => steps
  let arows := (List.range a.rows).map fun i => s.me.matrixRow c v.a.toNat (i * kp) depth
  let bcols := (List.range 32).map fun i => s.me.matrixRow c v.b.toNat (i * kp) depth
  let q : Cell := { fa := c.f, fb := c.f, acf := acf, nm := c.nm, sat := c.sat, scf := c.scf }
  let scale (b i j : Nat) : Option (Num × Num) := if c.bl = 0 then none else
    some (bankScale s.me.vs.ka c.scf (i * nb + b * l / 2 ^ c.bl), bankScale s.me.vs.kb c.scf (j * nb + b * l / 2 ^ c.bl))
  let cells := numsOf 8 (32 * a.rows) (a.cells.dense 0 (8 * 32 * a.rows))
  let (cells', fl) := cellSteps q depth l (arows.map (·.map (·.1))) (bcols.map (·.map (·.1))) scale (last - first) first cells 0
  let upto := min depth (last * l)
  let badRow (i : Nat) : Bool := (((arows.getD i []).take upto).drop (first * l)).any (·.2)
  let badCol (j : Nat) : Bool := (((bcols.getD j []).take upto).drop (first * l)).any (·.2)
  let marks := (List.range (32 * a.rows)).filter fun x => badRow (x / 32) || badCol (x % 32)
  let stopped := stop.isSome && decide (last < steps)
  let s := s.mapArray s.me.id fun a => { a with cells := Mem.ofBytes 0 (cells'.flatMap (leBytes 8)), cellBad := marks.foldl setIns a.cellBad, cf := some acf }
  let s := s.setMe fun k => { k with tr := { k.tr with mrp := if stopped then mrpWord 2 (last * l) else 0 } }
  match stop with
  | some x => s.vfault n { e with flags := e.flags ||| w64 fl } x.code (some (x.addr.getD (w64 (last * l)))) (List.replicate 16 0)
  | none =>
    let s := s.complete n e fl
    match marks.min? with
    | none => s
    | some x => s.setMe fun k => { k with due := { k.due with vec := some ⟨cPOISON, e.word, some (w64 (x / 32)), List.replicate 16 0⟩ } }

/-- The checks of R262 that pass: the array and the accumulator format. -/
def State.mrsmacCheck (s : State) (c : VCtx) (v : VArgs) : Except (Byte × Option Word) (Arr × Acf) :=
  let depth := v.imm.toNat
  let l := cellL c.f c.f
  let kp := padK depth c.bl
  let nb := kp / 2 ^ c.bl
  let arr := s.arrayOf s.me.id
  let rows := match arr with | some a => a.rows | none => 1
  let cause (n : Nat) : Except (Byte × Option Word) (Arr × Acf) := .error (cMATRIX, some (w64 n))
  if !s.me.matrixOk c v.a.toNat (rows * kp) ∨ !s.me.matrixOk c v.b.toNat (32 * kp) then .error (cVDECL, none)
  else match arr with
    | none => cause 1
    | some a =>
      if !a.rs then cause 1
      else match acfOf c.f c.f c.bl with
        | none => cause 4
        | some acf =>
          if a.cf.isSome ∧ a.cf ≠ some acf then cause 4
          else if c.bl ≠ 0 ∧ (2 ^ c.bl < l ∨ 4096 < max rows 32 * nb) then cause 5
          else if vpmDiffers c a then cause 7
          else .ok (a, acf)

/-- What stops an MRSMAC by itself: copies that disagree, or a scale entry whose storage failed, at the first element of K that reads it (R252,
R274, R420). -/
def State.mrsmacStops (s : State) (c : VCtx) (v : VArgs) (rows : Nat) : List MStop :=
  let depth := v.imm.toNat
  let nb := padK depth c.bl / 2 ^ c.bl
  let bad (kind : Nat) (l : List Nat) (n : Nat) : List MStop :=
    if c.bl = 0 then [] else (l.filter (· < n * nb)).map fun x => ⟨x % nb * 2 ^ c.bl, cPOISON, some (spoilAddr kind x), s.me.id⟩
  bad 2 s.me.spoiled.ka rows ++ bad 3 s.me.spoiled.kb 32
    ++ (((s.miscomputes c v).filter (· < depth)).map fun i => (⟨i, cSDC, none, s.me.id⟩ : MStop)).toList

/-- MRSMAC (R262). -/
def execMrsmac (v : VArgs) (s : State) : Out :=
  s.issueMatrix (.mrsmac v) 9 fun c n e s =>
    match s.mrsmacCheck c v with
    | .error (code, addr) => s.matrixFault n e code addr
    | .ok (a, acf) => .next (s.clearSdc.runMrsmac c n e v a acf (firstOf (s.mrsmacStops c v a.rows)))

/-- MDRAIN (R263, R272). -/
def execMdrain (v : VArgs) (s : State) : Out :=
  s.issueMatrix (.mdrain v) 2 fun c n e s =>
    let row := v.imm.toNat % 256
    if s.me.alloc.accn ≤ v.d.toNat then s.matrixFault n e cVDECL none
    else match s.arrayOf s.me.id with
      | none => s.matrixCause n e 1
      | some a =>
        if !a.rs then s.matrixCause n e 1
        else
          let acf := match a.cf with | some x => x | none => (acfOf c.f c.f c.bl).getD .fp32
          if acf.rows < row + a.rows then s.matrixCause n e 6
          else if vpmDiffers c a then s.matrixCause n e 7
          else
            let vals (i : Nat) : List Nat := if a.cf.isNone then List.replicate 32 0 else (List.range 32).map (a.cellAt i)
            let bad (i : Nat) : Bool := (List.range 32).any fun j => a.cellBad.contains (32 * i + j)
            let md := (List.range a.rows).foldl (fun (m : Acc) i => m.putRow acf (row + i) (vals i) (bad i)) (vget s.me.vs.accs v.d.toNat {})
            .next ((s.setMe fun k => { k with vs := { k.vs with accs := vset k.vs.accs v.d.toNat md } }).complete n e 0)

/-- MZERO md: all 32 KiB of md become zero without poison (R264). -/
def execMzeroMd (v : VArgs) (s : State) : Out :=
  s.issueMatrix (.mzeroMd v) 2 fun c n e s =>
    if s.me.alloc.accn ≤ v.d.toNat then s.matrixFault n e cVDECL none
    else if (s.arrayOf s.me.id).any (vpmDiffers c) then s.matrixCause n e 7
    else .next ((s.setMe fun k => { k with vs := { k.vs with accs := vset k.vs.accs v.d.toNat {} } }).complete n e 0)

/-- MZERO array: the cells and CF, or the weights of a loaded tile (R264). -/
def execMzeroArray (v : VArgs) (s : State) : Out :=
  s.issueMatrix (.mzeroArray v) 0 fun c n e s =>
    match s.arrayOf s.me.id with
    | none => s.matrixCause n e 1
    | some a =>
      if !a.rs ∧ a.tile.isNone then s.matrixCause n e 1
      else if vpmDiffers c a then s.matrixCause n e 7
      else
        let zero (a : Arr) : Arr := if a.rs then { a with cells := [], cellBad := [], cf := none }
          else { a with tile := a.tile.map fun t => { t with weights := [], bad := [] } }
        .next ((s.mapArray s.me.id zero).complete n e 0)

/-! ### Chains (R265 to R267) -/

/-- Reserved fields and the range of POS in a chain word (R265). -/
def chainWordOk (w : Word) : Bool :=
  bf w 63 32 == 0 && bf w 23 23 == 0 && bf w 19 19 == 0 && bf w 15 15 == 0 && bf w 7 7 == 0 && decide (bf w 18 16 ≤ bf w 22 20)

/-- Two arrivals can be members of one chain (R266). -/
def chainAgrees (a b : Arr × Word × BitVec 7) : Bool :=
  let pos (x : Arr × Word × BitVec 7) : Nat := bf x.2.1 18 16
  let adjacent (x y : Arr × Word × BitVec 7) : Bool :=
    pos x + 1 != pos y || (bf x.2.1 14 8 == y.2.2.toNat && bf y.2.1 6 0 == x.2.2.toNat)
  bf a.2.1 22 20 == bf b.2.1 22 20 && pos a != pos b && a.1.g == b.1.g && a.1.vpm == b.1.vpm && adjacent a b && adjacent b a

/-- The arrays of a job whose MCHAIN has arrived with a tag, with their words and cores. -/
def State.arrivals (s : State) (ctx : BitVec 16) (tag : Nat) : List (Arr × Word × BitVec 7) :=
  s.arrays.filterMap fun a => match a.arrived, s.strandOf a.owner with
    | some (w, _), some k => if k.ctx = ctx ∧ bf w 31 24 = tag then some (a, w, k.core) else none
    | _, _ => none

/-- The chain forms: every member is chained, and every member's MCHAIN completes (R266). -/
def State.formChain (s : State) (ms : List (Arr × Word × BitVec 7)) : State :=
  let peers := (List.range ms.length).filterMap fun p => (ms.find? fun m => bf m.2.1 18 16 == p).map (·.1.owner)
  ms.foldl (fun s m => (s.onStrand m.1.owner fun k => k.mapOldest fun e => { e with done := true, rest := none }).mapArray m.1.owner
    fun a => { a with chain := some m.2.1, peers := peers, arrived := none, broken := false }) s

/-- MCHAIN (R265, R266). It waits for its partners; when all have come with matching words, the chain forms. -/
def execMchain (v : VArgs) (s : State) : Out :=
  s.issueMatrix (.mchain v) 0 fun c n e s =>
    let w := e.s v.b
    match s.arrayOf s.me.id with
    | none => s.matrixCause n e 1
    | some a =>
      if vpmDiffers c a then s.matrixCause n e 7
      else if a.rs ∨ !chainWordOk w ∨ (bf w 22 20 ≠ 0 ∧ a.chain.isSome) then s.matrixCause n e 8
      else if bf w 22 20 = 0 then
        .next ((if a.chain.isNone then s else (s.dissolve s.me.id).mapArray s.me.id fun a => { a with broken := false }).complete n e 0)
      else
        let s := if a.arrived.isSome then s else (s.setEntry n e).mapArray s.me.id fun a => { a with arrived := some (w, s.clk.cyc) }
        let all := s.arrivals s.me.ctx (bf w 31 24)
        if all.any fun x => all.any fun y => x.1.owner != y.1.owner && !chainAgrees x y then .next (s.chainFault (all.map (·.1)) 2)
        else if all.length = bf w 22 20 + 1 then
          match s.crossChain (all.map (·.1)) with
          | (s, true) => .next (s.formChain all)
          | (s, false) => .next s
        else .next s

/-- CHAIN_TIMEOUT: 2^20 cycles passed since an MCHAIN arrived without its chain forming (R266). -/
def execChainTimeout (k : SId) (s : State) : Out :=
  match s.arrayOf k with
  | none => .next s
  | some a => match a.arrived with
    | none => .next s
    | some (_, t) => if t + 2 ^ 20 ≤ s.clk.cyc then .next (s.chainFault [a] 1) else .next s

/-- CHAIN_START_TIMEOUT: 2^20 cycles passed since the first MMAC of the chain arrived (R267). -/
def execChainStartTimeout (k : SId) (s : State) : Out :=
  match s.arrayOf k with
  | none => .next s
  | some a =>
    let team := s.chainOf a
    match ((team.filterMap (·.ready)).map (·.1)).min? with
    | none => .next s
    | some t => if a.ready.isSome ∧ !s.allReady a ∧ t + 2 ^ 20 ≤ s.clk.cyc then .next (s.chainFault team 1) else .next s

/-- The MMAC or MRSMAC of the strand whose turn it is stops, because its vector work stops: at a row or step of the device's choosing, or before it
has started (R270). A chained one has started once every member is ready. -/
def State.stopMatrix (s : State) : State :=
  match s.me.oldest with
  | none => s
  | some e =>
    let c := s.vctx e
    let undo (s : State) : State := s.setMe (·.mapOldest fun e => { e with fault := none })
    let n := (s.me.q.findIdx? fun e => !e.done).getD 0
    let at_ (n : Nat) : Option MStop :=
      let x := Config.freeChoice s.free % (n + 1)
      if x < n then some ⟨x, cCHAIN, none, s.me.id⟩ else none
    let t : State := { s with free := s.free + 1 }
    if e.fault.isSome ∨ s.me.due.vec.isSome then s
    else match e.instr.vparts with
      | none => s
      | some p =>
        if p.vop == 0x20 && p.f == 3 && s.foreignIn 11 == 0 then
          let rows := p.args.imm.toNat % 256 + 1
          match s.mmacCheck c p.args, at_ rows with
          | .ok (a, acf), some x =>
            let team := s.chainOf a
            let same := !(team.filterMap (·.ready)).any fun r => r.2.1 != rows || r.2.2.1 != acf
            let first := match a.ready with | some r => r.2.2.2 | none => mrpProg s.me.tr.mrp 1
            if a.broken || (a.chain.isSome && !(s.allReady a && same && (s.chainLinks team).all fun l => (s.link l).st == .awake)) then t
            else undo (t.startMmac (team.filterMap s.member) acf first rows (some x))
          | _, _ => t
        else if p.vop == 0x20 && p.f == 4 && s.foreignIn 9 == 0 then
          match s.mrsmacCheck c p.args, at_ p.args.imm.toNat with
          | .ok (a, acf), some x => undo (t.clearSdc.runMrsmac c n e p.args a acf (some x))
          | _, _ => t
        else s

end Sys2Proof.Machine
end

