-- ==== Sys2Proof/Machine/VectorConfig.lean ====
section
/-! DEFINITION. Declaring registers, the vector type and length, collapsing dimensions, and protected mode (R201 to R210, R422). -/

namespace Sys2Proof.Machine

/-- Storage bits that a width operand names: 8 to 64 bits or 1 to 4 nibble planes; 0 when it names none (R205). -/
def declBits (w : Nat) : Nat := if w = 8 ∨ w = 16 ∨ w = 32 ∨ w = 64 then w else if 1 ≤ w ∧ w ≤ 4 then 4 * w else 0

/-- The MVL of R205 for a budget, protected mode, a register count and storage bits. -/
def declMvl (vrb : Nat) (vpm : Bool) (cnt bits : Nat) : Nat :=
  let half := if vpm then 2 else 1
  let m := if 1 ≤ cnt ∧ cnt ≤ 64 ∧ bits ≠ 0 then min (8192 / half) (vrb * 16384 * 8 / (half * cnt * bits)) else 0
  m - m % 256

/-- Declares cnt registers of bits storage bits, or none when m is 0: every mark is 0. -/
def Strand.declare (k : Strand) (cnt bits m : Nat) : Strand :=
  { k with vs := { k.vs with cnt := if m = 0 then 0 else cnt, bits := if m = 0 then 0 else bits, regs := Vector.replicate 64 {} }
           cfg := { k.cfg with mvl := w64 m, vl := 0 } }

/-- VDECL (R205). -/
def execVdecl (d a b : Reg) (s : State) : Out :=
  let info := wordOf32 (.vdecl d a b)
  s.scalarOp info [a, b] [d] <|
    if !s.me.qEmpty then .next s
    else if s.foreignIn 1 ≠ 0 then .next (s.trap cVSTATE info (some (w64 (s.foreignIn 1))))
    else
      let cnt := (s.s a).toNat
      let bits := declBits (s.s b).toNat
      let m := declMvl s.me.alloc.vrb s.me.cfg.vpm cnt bits
      .next ((s.setMe (·.declare cnt bits m)).finish d (w64 m))

/-- A value that VT may hold (R201). -/
def vtValid (v : Word) : Bool :=
  bf v 63 24 == 0 && (Fmt.of v.toNat).valid && bf v 21 20 == (if bf v 3 0 = 5 then 2 else 1) && decide (bf v 15 13 < 4)

/-- VL cut to VLMAX (R202). -/
def Strand.cutVl (k : Strand) : Strand :=
  { k with cfg := { k.cfg with vl := w64 (min k.cfg.vl.toNat (vlmax k.cfg k.cfg.mvl.toNat)) } }

/-- VSETT (R206). -/
def execVsett (d a : Reg) (s : State) : Out :=
  s.scalarOp (wordOf32 (.vsett d a)) [a] [d] <|
    if s.me.vlPending then .next s
    else
      let v := s.s a
      if !vtValid v then .next (s.finish d 0)
      else .next ((s.setMe fun k => ({ k with cfg := { k.cfg with vt := v.setWidth 32 } } : Strand).cutVl).finish d v)

/-- VSETL (R207). -/
def execVsetl (d a : Reg) (s : State) : Out :=
  s.scalarOp (wordOf32 (.vsetl d a)) [a] [d] <|
    if s.me.vlPending then .next s
    else
      let vl := w64 (min (s.s a).toNat (vlmax s.me.cfg s.me.cfg.mvl.toNat))
      .next ((s.setMe fun k => { k with cfg := { k.cfg with vl := vl } }).finish d vl)

/-- EXTd and STRd of a dimension descriptor (R208). -/
def dimExt (desc : List Byte) (d : Nat) : Nat := numAt desc (16 * d) 8
def dimStr (desc : List Byte) (d : Nat) : Int := sgn 64 (numAt desc (16 * d + 8) 8)

/-- Merges the innermost dimensions that lie contiguously: index of the last merged one and the merged length (R209). The
fuel bounds the dimensions. -/
def mergeDims (desc : List Byte) (n : Nat) : Nat → Nat → Nat → Nat × Nat
  | 0, j, len => (j, len)
  | fuel + 1, j, len =>
    if j + 1 < n ∧ dimStr desc (j + 1) = dimStr desc j * dimExt desc j then mergeDims desc n fuel (j + 1) (len * dimExt desc (j + 1))
    else (j, len)

/-- The result of VCOLL: merged length, merged dimensions and outer count; none when the descriptor or VT is refused (R208, R209). -/
def collapse (desc : List Byte) (f : Fmt) : Option (Nat × Nat × Nat) :=
  let n := ([0, 1, 2, 3].takeWhile fun d => dimExt desc d ≠ 0).length
  let (j, len) := mergeDims desc n 4 0 (dimExt desc 0)
  let outer := (((List.range n).filter (j < ·)).map (dimExt desc)).foldl (· * ·) 1
  let rest := ([0, 1, 2, 3].filter (n ≤ ·)).all fun d => dimExt desc d == 0 && numAt desc (16 * d + 8) 8 == 0
  let small := (List.range n).all fun d => decide (dimExt desc d < 2 ^ 32)
  if n = 0 ∨ !rest ∨ !small ∨ 2 ^ 64 ≤ len ∨ 2 ^ 64 ≤ outer ∨ f.plane then none else some (len, j + 1, outer)

/-- Writes three consecutive registers and completes. -/
def State.finish3 (s : State) (d : Reg) (x y z : Word) : State := (((s.w d x).w (d + 1) y).w (d + 2) z).advance

/-- VCOLL (R208, R209). -/
def execVcoll (d a : Reg) (s : State) : Out :=
  let info := wordOf32 (.vcoll d a)
  s.scalarOp info [a] [d, d + 1, d + 2] <|
    if s.me.vlPending then .next s
    else
      let at_ := s.s a
      if at_.toNat % 8 ≠ 0 then .next (s.trap cMISALIGN info (some at_))
      else match s.readSpan s (s.me.req info) .read 2 at_ 64 with
        | .wait s' => .next s'
        | .trap c s' => .next (s'.trap c info (some at_))
        | .ok (bs, bad) s1 =>
          if bad then .next (s1.trap cPOISON info (some at_))
          else match collapse bs s.me.cfg.fmt with
            | none => .next (s1.finish3 d 0 0 0)
            | some (len, j, outer) =>
              let vl := w64 (min len (vlmax s.me.cfg s.me.cfg.mvl.toNat))
              .next ((s1.setMe fun k => { k with cfg := { k.cfg with vl := vl } }).finish3 d vl (w64 j) (w64 outer))

/-- The declaration under a changed protected mode (R422): elements below the smaller of the old and the new MVL stay. -/
def Strand.reprotect (k : Strand) (v : Bool) : Strand :=
  let k := { k with cfg := { k.cfg with vpm := v } }
  let k :=
    if k.vs.cnt = 0 then k
    else
      let m := declMvl k.alloc.vrb v k.vs.cnt k.vs.bits
      if m = 0 then { k with vs := { k.vs with cnt := 0, bits := 0, regs := Vector.replicate 64 {} }, cfg := { k.cfg with mvl := 0 } }
      else { k with vs := { k.vs with regs := k.vs.regs.map fun r => if m < r.mark then r.setMark m else r }, cfg := { k.cfg with mvl := w64 m } }
  k.cutVl

/-- VPROT (R422). -/
def execVprot (d a : Reg) (s : State) : Out :=
  let info := wordOf32 (.vprot d a)
  s.scalarOp info [a] [d] <|
    if !s.me.qEmpty then .next s
    else if s.foreign ≠ 0 then .next (s.trap cVSTATE info (some (w64 s.foreign)))
    else
      let v := bt (s.s a) 0
      let s := s.dropWindow
      let s := if v = s.me.cfg.vpm then s else s.setMe (·.reprotect v)
      .next (s.finish d s.me.cfg.mvl)

end Sys2Proof.Machine
end

