-- ==== Sys2Proof/Machine/VectorMem.lean ====
section
/-! DEFINITION. Vector loads and stores, segments, gather, scatter, scatter-add and the scale loads, with their stops part-way, and which of
them may perform before their turn (R302 to R318, R342, R346 to R348). -/

namespace Sys2Proof.Machine

/-! ### Near-memory add (R317) -/

/-- The sum of an old value and an addend in format f, with its flags. -/
def addAt (f : Fmt) (nm : Word) (sat : Bool) (old x : Nat) : Res := if f.isInt then f.vadd sat old x else f.fadd nm old x

/-- NUMF of R372. -/
def numf (f : Fmt) (nm : Word) (sat : Bool) : Nat :=
  f.fmt + f.w * 16 + f.e * 512 + nmRM nm * 4096 + (if nmFZI nm then 2 ^ 14 else 0) + (if nmFZO nm then 2 ^ 15 else 0) + (if sat then 2 ^ 16 else 0)

/-- FLAGS of R372 as bits of NM. -/
def flagsOf (x : Nat) : Nat := (x % 64) * 256

/-- One VSTXA element at its home: its flags. A poisoned old value or addend leaves the sector poisoned and the bytes undefined. -/
def State.memAdd (s : State) (r : Req) (a : Word) (f : Fmt) (nm : Word) (sat : Bool) (x : Nat) (bad marked : Bool) : Att Nat :=
  match s.find r a .both with
  | .fault c => .trap c s
  | .dead => .trap cPOISON s
  | .held _ => .wait (s.holdAt r a .both)
  | .spot p m =>
    if p.host then .trap cPROT s
    else
      let s1 : State := { s with mem := m.drainFor r p.key f.eb }
      let old := leNat (s1.mem.bytesUnder p.tag p.key f.eb)
      let poison := bad || s1.mem.poisoned p.key
      let y := addAt f nm sat old x
      match s1.logOld r a p f.eb with
      | .full => .trap cLOGFULL s
      | .stall => .wait s
      | .ok s2 =>
        let bs := if poison then (List.range f.eb).map fun i => Config.freeByte (s2.free + i) else leBytes f.eb y.1
        let s3 : State := if poison then { s2 with free := s2.free + f.eb } else s2
        let (bs, s3) := s3.disturbed r a bs
        .ok (if poison then 0 else y.2) (({ s3 with mem := s3.mem.landed p bs poison } : State).passed r a .both p true)
  | .remote dev =>
    let body := reqBody a f.eb (if f.isInt then 0 else 1) (if bad then 1 else 0) (numf f nm sat) 0 0 (leBytes f.eb x)
    match s.remoteWrite r a f.eb 0x04 dev body (!marked) (fun _ => true) with
    | .wait s' => .wait (s'.sentOn s r a .both)
    | .trap c s' => .trap c s'
    | .ok msg s' => .ok (flagsOf (numAt msg.body 2 1)) s'

/-! ### The accesses of an element (R302, R305, R314, R372) -/

/-- One access of an element, or several that go to another device as one request: address, bytes, and for a store what goes there. -/
structure Piece where
  at_ : Word
  n : Nat
  data : List Byte := []
  bad : Bool := false
  /-- The nibbles of the byte that the store changes: 1 the low one, 2 the high one, 3 both (R305). -/
  nibs : Nat := 3
  deriving DecidableEq, Repr

/-- Takes a cell into a list that rises by address; nibbles of one byte become one cell. -/
def meld : List Piece → Piece → List Piece
  | [], c => [c]
  | x :: t, c =>
    if c.at_ = x.at_ then { x with n := max x.n c.n, data := (x.data.zip c.data).map fun b => b.1 ||| b.2, bad := x.bad || c.bad, nibs := Nat.lor x.nibs c.nibs } :: t
    else if c.at_.toNat < x.at_.toNat then c :: x :: t else x :: meld t c

/-- Piece y continues cell x in the same sector at another device: they go there as one request (R372). -/
def State.continues (s : State) (r : Req) (x y : Piece) : Bool :=
  y.at_ == x.at_ + w64 x.n && decide (y.at_.toNat / 256 = x.at_.toNat / 256) && x.bad == y.bad && x.nibs == 3 && y.nibs == 3 &&
    match s.homeOf r x.at_ false with
    | .remote _ => true
    | _ => false

/-- Joins the cells that go as one request. -/
def glue (joins : Piece → Piece → Bool) : List Piece → List Piece
  | [] => []
  | x :: t => match glue joins t with
    | [] => [x]
    | y :: u => if joins x y then { x with n := x.n + y.n, data := x.data ++ y.data } :: u else x :: y :: u

/-- The requests that serve these cells. -/
def State.pieces (s : State) (r : Req) (cells : List Piece) : List Piece := glue (s.continues r) (cells.foldl meld [])

/-- How some accesses fare: all performed, one stopped at an address, one waiting. -/
inductive Reached (α : Type) where
  | ok (x : α) (s : State)
  | stop (code : Byte) (at_ : Word) (s : State)
  | wait (s : State)

/-- Reads every cell. On a wait nothing else of the attempt counts. -/
def State.readCells (s0 s : State) (r : Req) : List Piece → List (Word × List Byte × Bool) → Reached (List (Word × List Byte × Bool))
  | [], got => .ok got s
  | c :: t, got => match s.memRead r c.at_ c.n .read with
    | .wait s' => .wait (s0.waitKeeping s')
    | .trap code s' => .stop code c.at_ s'
    | .ok (bs, bad) s' => s0.readCells s' r t ((c.at_, bs, bad) :: got)

/-- What was read for a cell. -/
def Piece.from (c : Piece) (got : List (Word × List Byte × Bool)) : Nat × Bool :=
  match got.find? fun g => decide (g.1.toNat ≤ c.at_.toNat ∧ c.at_.toNat < g.1.toNat + g.2.1.length) with
  | some (a, bs, bad) => (leNat ((bs.drop (c.at_ - a).toNat).take c.n), bad)
  | none => (0, false)

/-- A byte with some of its nibbles replaced. -/
def withNibs (old new : Byte) (nibs : Nat) : Byte :=
  if nibs = 1 then (old &&& 0xF0) ||| (new &&& 0x0F) else if nibs = 2 then (old &&& 0x0F) ||| (new &&& 0xF0) else new

/-- A store of one nibble at another device keeps the other one by a CAS of the four bytes around it, tried until it matches (R305). DESIGN
CHOICE: no message of R372 writes a nibble. A page that cannot be read there refuses it; poison, which a CAS does not carry, goes by WRITE. -/
def State.casNibble (s : State) (r : Req) (dev : BitVec 9) (c : Piece) (marked : Bool) : Att Unit :=
  let a := c.at_ - w64 (c.at_.toNat % 4)
  match s.memRead r a 4 .read with
  | .wait s' => .wait (s.waitKeeping s')
  | .trap code s' => .trap code s'
  | .ok (bs, poison) s1 =>
    let at_ := c.at_.toNat % 4
    let new := withNibs (bs.getD at_ 0) (c.data.getD 0 0) c.nibs
    if poison || c.bad then
      match s1.memWrite r c.at_ [new] c.bad .write { marked := marked, nibs := c.nibs } with
      | .wait s' => .wait (s.waitKeeping s')
      | o => o
    else
      let body := reqBody a 4 0x36 0 0 (w64 (leNat (bs.set at_ new))) (w64 (leNat bs)) []
      let swapped (m : Msg) : Bool := numAt m.body 1 1 % 2 == 0 && numAt m.body 8 4 == leNat bs
      match s1.remoteWrite r c.at_ 1 0x03 dev body (!marked) swapped with
      | .wait s' => .wait (s.waitKeeping (s'.sentOn s r a .write))
      | .trap code s' => .trap code s'
      | .ok m s' => if swapped m then .ok () s' else .wait s'

/-- Writes one cell. `logged` says that its old bytes are in the log, or its mark. -/
def State.writeCell (s : State) (r : Req) (c : Piece) (marked logged : Bool) : Att Unit :=
  match s.find r c.at_ .write with
  | .spot p m =>
    let old := ((if p.host then m.flushHost else m.drainFor r p.key c.n).bytesUnder p.tag p.key 1).getD 0 0
    let data := if c.nibs = 3 then c.data else c.data.map fun b => withNibs old b c.nibs
    s.memWrite r c.at_ data c.bad .write { marked := marked, log := !logged, nibs := c.nibs }
  | .remote dev => if c.nibs = 3 then s.memWrite r c.at_ c.data c.bad .write { marked := marked } else s.casNibble r dev c marked
  | _ => s.memWrite r c.at_ c.data c.bad .write { marked := marked }

/-- Another device would perform a write of one sector: it answers a READ of bytes there, and a CAS of them that does not match. DEDUCED: so a
record, or an element, that goes there in several requests is written whole or not at all (R308, R314); no request of R372 asks only this. -/
def State.asks (s : State) (r : Req) (dev : BitVec 9) (c : Piece) : Att Unit :=
  let a := c.at_ - w64 (c.at_.toNat % 4)
  match s.memRead r a 4 .read with
  | .wait s' => .wait (s.waitKeeping s')
  | .trap code s' => if code = cPROT then .ok () s' else .trap code s'
  | .ok (bs, poison) s1 =>
    if poison then .ok () s1
    else
      let other := w64 (leNat bs) ^^^ 1
      match s1.remoteCall r 0x03 dev (reqBody a 4 0x36 0 0 other other []) with
      | .wait s' => .wait (s.waitKeeping (s'.sentOn s r a .write))
      | .trap code s' => .trap code s'
      | .ok _ s' => .ok () s'

/-- Before several cells are written: other devices are asked, and the rest is looked up. -/
def State.askAll (s0 s : State) (r : Req) : List Piece → Reached Unit
  | [] => .ok () s
  | c :: t => match s.find r c.at_ .write with
    | .fault code => .stop code c.at_ s
    | .dead => .stop cPOISON c.at_ s
    | .held _ => .wait (s0.waitKeeping (s.holdAt r c.at_ .write))
    | .spot _ m => s0.askAll { s with mem := m } r t
    | .remote dev => match s.asks r dev c with
      | .wait s' => .wait (s0.waitKeeping s')
      | .trap code s' => .stop code c.at_ s'
      | .ok _ s' => s0.askAll s' r t

/-- Before several cells are written: what they must append is appended (R307, R314, R438). -/
def State.logCells (s0 s : State) (r : Req) : Bool → List Piece → Reached Bool
  | marked, [] => .ok marked s
  | marked, c :: t => match s.find r c.at_ .write with
    | .spot p m =>
      let s1 : State := { s with mem := m }
      match if p.host then (if marked then .ok s1 else s1.mark r 1 c.at_) else s1.logOld r c.at_ p c.n with
      | .ok s2 => s0.logCells s2 r (marked || p.host) t
      | .full => .stop cLOGFULL c.at_ s
      | .stall => .wait s0
    | _ => s0.logCells s r marked t

/-- Writes every cell, whose appends are made but for marks of other devices. -/
def State.writeCells (s0 s : State) (r : Req) : Bool → List Piece → Reached Bool
  | marked, [] => .ok marked s
  | marked, c :: t => match s.writeCell r c marked true with
    | .wait s' => .wait (s0.waitKeeping s')
    | .trap code s' => .stop code c.at_ s'
    | .ok _ s' => s0.writeCells s' r (marked || s.external r c.at_) t

/-- Stores an element, or the elements of one request: one cell is logged and written; several are written whole or not at all. -/
def State.storeCells (s : State) (r : Req) (marked : Bool) : List Piece → Reached Bool
  | [c] => match s.writeCell r c marked false with
    | .wait s' => .wait s'
    | .trap code s' => .stop code c.at_ s'
    | .ok _ s' => .ok (marked || s.external r c.at_) s'
  | cs => match s.askAll s r cs with
    | .wait s' => .wait s'
    | .stop code at_ s' => .stop code at_ s'
    | .ok _ s1 => match s.logCells s1 r marked cs with
      | .wait s' => .wait s'
      | .stop code at_ s' => .stop code at_ s'
      | .ok m s2 => s.writeCells s2 r m cs

/-! ### How elements fare -/

/-- The outcome of an element, or of elements that go as one request: the register elements they give and their flags; a fault with the
address it reports; or a wait. -/
inductive Fared where
  | ok (puts : List (Nat × Put)) (flags : Nat) (marked : Bool) (s : State)
  | fault (code : Byte) (addr : Word) (s : State)
  | wait (s : State)

/-- The order in which an instruction's elements perform. -/
inductive MemOrder where
  /-- A load, whose reads are not ordered. -/
  | load
  /-- An ordered store: ascending, with the exact stop of R309. -/
  | ordered
  /-- An unordered store. -/
  | unordered
  deriving DecidableEq, Repr

/-- What a memory instruction does, element by element. -/
structure MemOp where
  order : MemOrder
  /-- Registers D to D + regs − 1 groups that it loads; 0 for a store. -/
  regs : Nat
  /-- The base of a nibble-plane access breaks its alignment: the lowest active element faults (R305). -/
  skew : Bool := false
  /-- Elements may meet at one address, in no order (R316, R317). -/
  strewn : Bool := false
  /-- Where an element's accesses go, apart from what a store puts there. -/
  cells : State → Nat → List Piece
  /-- The fault that an element meets whatever the log and other devices do. -/
  check : State → Nat → Option (Byte × Word)
  perform : Req → State → Bool → List Nat → Fared

/-- A load: `take` gives an element's register elements and flags from what its cells read; `report` the address of its fault. -/
def loadUnit (cells : State → Nat → List Piece) (report : Nat → Word → Word) (take : Nat → List (Nat × Bool) → List (Nat × Put) × Nat)
    (r : Req) (s : State) (marked : Bool) (is : List Nat) : Fared :=
  match s.readCells s r (s.pieces r ((is.map (cells s)).flatten)) [] with
  | .wait s' => .wait s'
  | .stop code a s' => .fault code (report (is.headD 0) a) s'
  | .ok got s' =>
    let outs := is.map fun i => take i ((cells s i).map (·.from got))
    .ok ((outs.map (·.1)).flatten) ((outs.map (·.2)).foldl Nat.lor 0) marked s'

/-- A store: `give` gives an element's cells with what goes there, and its flags. -/
def storeUnit (give : State → Nat → List Piece × Nat) (report : Nat → Word → Word) (r : Req) (s : State) (marked : Bool) (is : List Nat) : Fared :=
  let outs := is.map (give s)
  match s.storeCells r marked (s.pieces r ((outs.map (·.1)).flatten)) with
  | .wait s' => .wait s'
  | .stop code a s' => .fault code (report (is.headD 0) a) s'
  | .ok m s' => .ok [] ((outs.map (·.2)).foldl Nat.lor 0) m s'

/-- The elements cut into those that go as one request: element j joins the one before it when its first access continues that one's last in
one sector at another device; nibble-plane elements when their planes 0 lie in one sector there (R372). -/
def State.units (s : State) (r : Req) (plane : Bool) (cells : State → Nat → List Piece) : List Nat → List (List Nat)
  | [] => []
  | i :: t => match s.units r plane cells t with
    | [] => [[i]]
    | u :: us =>
      let j := u.headD 0
      let near : Bool := match (cells s i).getLast?, (cells s i).head?, (cells s j).head?, (cells s j).getLast? with
        | some x, some x0, some y, some y1 =>
          if plane then (x0.at_.toNat / 256 == y.at_.toNat / 256) && (match s.homeOf r x0.at_ false with | .remote _ => true | _ => false)
          else s.continues r x y && (x0.at_.toNat / 256 == y1.at_.toNat / 256)
        | _, _, _, _ => false
      if near then (i :: u) :: us else [i] :: u :: us

/-- The outcome of a run over elements. -/
structure Ran where
  s : State
  puts : List (Nat × Put) := []
  flags : Nat := 0
  marked : Bool
  done : List Nat := []
  /-- Lane groups that stopped, each with the element that it did not perform; the faults met. -/
  stops : List (Nat × Nat) := []
  faults : List (Nat × Byte × Word) := []
  waits : Bool := false

/-- How a run goes on after a fault: not at all for an ordered store; else each other lane group may go on within the slip, and stops where the
device chooses (R143, R308). -/
structure Course where
  r : Req
  perform : Req → State → Bool → List Nat → Fared
  ordered : Bool
  lane : Nat → Nat × Nat
  slip : Nat

/-- A lane group stops before element i by the device's choice, or by the slip. -/
def Course.rests (x : Course) (ran : Ran) (i : Nat) : Bool :=
  ran.stops.any (fun st => decide ((x.lane st.2).2 + x.slip < (x.lane i).2)) || Config.freeChoice (ran.s.free + i) % 2 == 0

/-- One element of a run. After a fault it starts no request at another device. -/
def Course.one (x : Course) (ran : Ran) (i : Nat) : Ran :=
  let h := (x.lane i).1
  if ran.waits || ran.stops.any (·.1 == h) || (x.ordered && !ran.faults.isEmpty) then ran
  else if !ran.faults.isEmpty && x.rests ran i then { ran with stops := (h, i) :: ran.stops }
  else match x.perform (if ran.faults.isEmpty then x.r else { x.r with quiet := true }) ran.s ran.marked [i] with
    | .ok puts flags marked s => { ran with s := s, puts := puts ++ ran.puts, flags := Nat.lor ran.flags flags, marked := marked, done := i :: ran.done }
    | .fault c a s => { ran with s := s, faults := (i, c, a) :: ran.faults, stops := (h, i) :: ran.stops }
    | .wait s =>
      if !ran.faults.isEmpty && !(s.fab.txs.any (·.own == x.r.own)) then { ran with stops := (h, i) :: ran.stops }
      else { ran with s := s, waits := true }

/-- Elements that go as one request; when it is refused, or a fault stands already, each goes by itself. -/
def Course.unit (x : Course) (ran : Ran) (is : List Nat) : Ran :=
  if ran.waits then ran
  else if is.length ≤ 1 || !ran.faults.isEmpty then is.foldl x.one ran
  else match x.perform x.r ran.s ran.marked is with
    | .ok puts flags marked s => { ran with s := s, puts := puts ++ ran.puts, flags := Nat.lor ran.flags flags, marked := marked, done := is ++ ran.done }
    | .fault _ _ s => is.foldl x.one { ran with s := s }
    | .wait s => { ran with s := s, waits := true }

/-- A permutation of a list, drawn from the free choices from n on. -/
def shuffle : Nat → Nat → List Nat → List Nat
  | 0, _, l => l
  | fuel + 1, n, l =>
    if l.length ≤ 1 then l
    else
      let k := Config.freeChoice n % l.length
      (l.getD k 0) :: shuffle fuel (n + 1) (l.eraseIdx k)

/-- The elements local group by local group, the lane groups of each in any order: so every lane group takes its own ascending, within every slip. -/
def inRows (free : Nat) (lanes : List Nat) (lane : Nat → Nat × Nat) (go : List Nat) : List Nat :=
  let top := (go.map fun i => (lane i).2).foldl max 0
  ((List.range (top + 1)).map fun j => ((shuffle lanes.length (free + 16 * j) lanes).map fun h => go.filter fun i => lane i == (h, j)).flatten).flatten

/-- TLG when exactly the elements below k are performed (R309). -/
def tlgAt (lanes : List Nat) (eb vl k : Nat) : List Nat :=
  (List.range 16).map fun h => ((List.range vl).find? fun i => decide (k ≤ i) && lanes.contains h && (laneOf lanes eb i).1 == h).getD vl

/-- The stop of each lane group when some elements fault (R308): within its first local group that is not complete (`stopPoints`), at its first
fault there if it has come so far, else at an element before it where the device chooses. DEDUCED: a lane group whose first fault the slip of
R143 keeps it from reaching stops before it. -/
def stopElems (free : Nat) (lanes : List Nat) (eb vl slip : Nat) (todo faulty : List Nat) : List Nat :=
  let st : Stops := faulty.map fun i => let l := laneOf lanes eb i
    (l.1, l.2, i)
  let (done, low) := stopPoints free lanes (laneCount lanes eb vl) slip st
  let rows (h : Nat) : Nat := ((done.find? (·.1 = h)).map (·.2)).getD 0
  let stop (h : Nat) : Nat :=
    let row := todo.filter fun i => laneOf lanes eb i == (h, rows h)
    let sound := row.takeWhile fun i => !faulty.contains i
    let bound := (row.drop sound.length).head?.getD ((todo.filter fun i => decide ((laneOf lanes eb i).1 = h ∧ rows h < (laneOf lanes eb i).2)).head?.getD vl)
    let mayBegin := lanes.all fun x => decide (min (rows h - slip) (laneCount lanes eb vl x) ≤ rows x)
    if h = (laneOf lanes eb low).1 then low
    else if mayBegin then (sound ++ [bound]).getD (Config.freeChoice (free + 34 + h) % (sound.length + 1)) vl
    else row.head?.getD bound
  (List.range 16).map fun h => if lanes.contains h then stop h else vl

/-! ### The engine of the element groups (R308 to R317) -/

/-- The elements that the instruction wrote in field f at earlier executions: their masks stand side by side (R215). -/
def QEntry.oldIn (e : QEntry) (f : Nat) : List Put :=
  putsOf ((e.clean >>> (Config.maxVl * f)) % 2 ^ Config.maxVl) false ++ putsOf ((e.soiled >>> (Config.maxVl * f)) % 2 ^ Config.maxVl) true

/-- The entry remembers what a load gave. -/
def QEntry.wroteIn (e : QEntry) (puts : List (Nat × Put)) : QEntry :=
  e.wrote (puts.map fun x => { x.2 with i := Config.maxVl * x.1 + x.2.i })

/-- Writes what a load gave: register group f of D takes the elements of field f. -/
def State.putFields (s : State) (c : VCtx) (e : QEntry) (d regs : Nat) (puts : List (Nat × Put)) : State :=
  (List.range regs).foldl (fun s f => s.putAll c (.reg (d + f)) ((puts.filter (·.1 = f)).map (·.2)) (e.oldIn f)) s

/-- The tail of each register that a load writes (R204, R314). -/
def State.tailFields (s : State) (c : VCtx) (e : QEntry) (d regs : Nat) (puts : List (Nat × Put)) : State :=
  (List.range regs).foldl (fun s f => s.tail c (.reg (d + f)) (e.oldIn f ++ (puts.filter (·.1 = f)).map (·.2))) s

/-- The instruction is over: what it covered counts no more (R306). -/
def State.over (s : State) (r : Req) : State := { s with mem := s.mem.covered r.own }

/-- The elements of an instruction that remain, and those among them that are active. -/
def QEntry.todo (e : QEntry) (c : VCtx) : List Nat := (List.range c.vl).filter (e.remains c.f.wide)

/-- The elements done with, when these too are. -/
def QEntry.goneWith (e : QEntry) (c : VCtx) (done : List Nat) : Progress :=
  { lanes := [], tlg := [], gone := ((List.range c.vl).filter fun i => !e.remains c.f.wide i || done.contains i).foldl addBit 0 }

/-- Runs the elements `go`: an unordered store in any order when nothing stops it, else every lane group's ascending. -/
def State.runOver (s : State) (c : VCtx) (e : QEntry) (op : MemOp) (r : Req) (go : List Nat) : Ran :=
  let lanes := e.lanes.getD []
  let x : Course := { r := r, perform := op.perform, ordered := decide (op.order = .ordered), lane := laneOf lanes c.f.wide, slip := c.vslip }
  let start : Ran := { s := s, marked := e.marked }
  let inTurn (_ : Unit) : Ran := ((s.units r c.f.plane op.cells (if op.strewn then inRows s.free lanes x.lane go else go)).foldl x.unit start)
  if op.order = .unordered ∧ 1 < go.length then
    let loose := (shuffle go.length s.free go).foldl x.one start
    if loose.waits || !loose.faults.isEmpty then inTurn () else loose
  else inTurn ()

/-- The turn performs only some elements of an access before its turn (R346): of an ordered store the first ones, of any other any. It counts
only when nothing faults or waits. -/
def State.runSome (s : State) (c : VCtx) (n : Nat) (e : QEntry) (v : VArgs) (op : MemOp) (r : Req) (go : List Nat) : Out :=
  let ran := s.runOver c e op r go
  if ran.waits || !ran.faults.isEmpty then .next s
  else
    let e1 : QEntry := ({ e with marked := ran.marked, flags := e.flags ||| w64 ran.flags, rest := some (e.goneWith c ran.done) } : QEntry).wroteIn ran.puts
    .next ((({ ran.s with free := ran.s.free + go.length } : State).putFields c e v.d.toNat op.regs ran.puts).setEntry n e1)

/-- Runs a memory instruction's remaining active elements. -/
def State.runMem (s : State) (c : VCtx) (n : Nat) (e : QEntry) (v : VArgs) (op : MemOp) : Out :=
  let r := s.me.vreq e.word e.fetch e.idx
  let lanes := e.lanes.getD []
  let eb := c.f.wide
  let todo := e.todo c
  let acts := todo.filter (s.active v)
  let zeros (below : Nat → Bool) : List (Nat × Put) := if v.z && op.regs != 0 then
      ((todo.filter fun i => !s.active v i && below i).map fun i => (List.range op.regs).map fun f => (f, (⟨i, 0, false⟩ : Put))).flatten else []
  let faults := acts.filterMap fun i => (op.check s i).map fun x => (i, x)
  let faulty := faults.map (·.1)
  let exact := op.skew || decide (op.order = MemOrder.ordered)
  let still := if faulty.isEmpty then [] else if exact then tlgAt lanes eb c.vl (faulty.min?.getD 0) else stopElems s.free lanes eb c.vl c.vslip acts faulty
  let below (tlg : List Nat) (i : Nat) : Bool := tlg.isEmpty || decide (i < tlg.getD (laneOf lanes eb i).1 0)
  let go := acts.filter (below still)
  let some_ := match s.me.picked with
    | some (_, some mask) => if exact then go.takeWhile mask.testBit else go.filter mask.testBit
    | _ => go
  if some_.length < go.length then (if faulty.isEmpty then s.runSome c n e v op r some_ else .next s)
  else
    let ran := ({ s with free := s.free + (if faulty.isEmpty then 0 else 50) } : State).runOver c e op r go
    let s1 : State := { ran.s with free := ran.s.free + (if 1 < go.length ∧ op.regs = 0 then 2 * go.length else 0) }
    let d := v.d.toNat
    let e1 : QEntry := { e with marked := ran.marked, flags := e.flags ||| w64 ran.flags }
    if ran.waits then .next ((s1.putFields c e d op.regs ran.puts).setEntry n (({ e1 with rest := some (e.goneWith c ran.done) } : QEntry).wroteIn ran.puts))
    else
      let tlg := if ran.faults.isEmpty then still
        else if exact then tlgAt lanes eb c.vl (((ran.faults.map (·.1)).min?).getD 0)
        else (List.range 16).map fun h => ((ran.stops.find? (·.1 = h)).map (·.2)).getD (still.getD h c.vl)
      let found := ran.faults ++ (faults.filter fun x => tlg.getD (laneOf lanes eb x.1).1 0 == x.1)
      let low := ((found.map (·.1)).min?).getD 0
      let puts := ran.puts ++ zeros (below tlg)
      let s2 := s1.putFields c e d op.regs puts
      match found.find? fun (x : Nat × Byte × Word) => x.1 == low with
      | some (_, code, addr) => .next (s2.vfault n (({ e1 with rest := some (e.stopped eb c.vl tlg) } : QEntry).wroteIn puts) code (some addr) tlg)
      | none => .next (((s2.tailFields c e d op.regs puts).over r).complete n e1 0)

/-! ### Addresses and accesses (R302, R305) -/

/-- The fault of an access before any memory is touched: alignment, then what translation says; a store at a failed die
meets POISON (R299). -/
def State.accessFault (s : State) (r : Req) (a : Word) (n : Nat) (need : Need) : Option (Byte × Word) :=
  if a.toNat % n ≠ 0 then some (cMISALIGN, a)
  else match s.find r a need with
    | .fault c => some (c, a)
    | .dead => if need.wr then some (cPOISON, a) else none
    | _ => none

/-- Address of the byte that holds nibble p of element i in memory, from a base (R188, R305). -/
def planeAddr (f : Fmt) (b : Word) (i p : Nat) : Word := b + w64 (f.planeByte i p)

/-- The address that a trap reports for element i of a nibble-plane access. -/
def planeReport (f : Fmt) (b : Word) (i : Nat) : Word := b + w64 (i / 128 * f.planes * 64)

/-- S(A) + sext(I14) (R302). -/
def QEntry.base (e : QEntry) (v : VArgs) : Word := e.s v.a + wInt v.imm.toInt

/-- Element address of a unit-stride or strided form in the standard layout. -/
def QEntry.addr (e : QEntry) (c : VCtx) (v : VArgs) (i : Nat) : Word :=
  e.base v + (if v.k = .scalarB then w64 i * e.s v.b else w64 (i * c.f.eb))

/-- The bytes that hold the nibbles of element i. -/
def planeCells (f : Fmt) (b : Word) (i : Nat) : List Piece := (List.range f.planes).map fun p => { at_ := planeAddr f b i p, n := 1 }

/-- The nibbles of element i, each at its place in its byte. -/
def planeData (f : Fmt) (b : Word) (i x : Nat) (bad : Bool) : List Piece :=
  (List.range f.planes).map fun p =>
    let nib := x / 16 ^ p % 16
    { at_ := planeAddr f b i p, n := 1, data := leBytes 1 (if i % 2 = 0 then nib else nib * 16), bad := bad, nibs := if i % 2 = 0 then 1 else 2 }

/-- Element i from the bytes that hold its nibbles. -/
def planeTake (i : Nat) (got : List (Nat × Bool)) : List (Nat × Put) × Nat :=
  let nibs := got.map fun g => if i % 2 = 0 then g.1 % 16 else g.1 / 16 % 16
  ([(0, ⟨i, (nibs.mapIdx fun p x => x * 16 ^ p).sum, got.any (·.2)⟩)], 0)

/-- The fault of element i of a nibble-plane access. -/
def State.planeFault (s : State) (r : Req) (f : Fmt) (b : Word) (i : Nat) (need : Need) : Option (Byte × Word) :=
  if b.toNat % 64 ≠ 0 then some (cMISALIGN, planeReport f b i)
  else (List.range f.planes).findSome? fun p => (s.accessFault r (planeAddr f b i p) 1 need).map fun x => (x.1, planeReport f b i)

/-! ### Unit-stride and strided forms (R310, R311) -/

/-- Element i of a load in the standard layout. -/
def plainTake (i : Nat) (got : List (Nat × Bool)) : List (Nat × Put) × Nat := (got.map fun g => (0, ⟨i, g.1, g.2⟩), 0)

/-- A load of VLD or VLDS. -/
def loadOp (e : QEntry) (c : VCtx) (v : VArgs) (r : Req) : MemOp :=
  if c.f.plane then
    let b := e.base v
    let cells (_ : State) (i : Nat) : List Piece := planeCells c.f b i
    { order := .load, regs := 1, skew := decide (b.toNat % 64 ≠ 0), cells := cells
      check := fun s i => s.planeFault r c.f b i .read
      perform := loadUnit cells (fun i _ => planeReport c.f b i) planeTake }
  else
    let cells (_ : State) (i : Nat) : List Piece := [{ at_ := e.addr c v i, n := c.f.eb }]
    { order := .load, regs := 1, cells := cells
      check := fun s i => s.accessFault r (e.addr c v i) c.f.eb .read
      perform := loadUnit cells (fun _ a => a) plainTake }

/-- A store of VST, VSTU or VSTS. -/
def storeOp (e : QEntry) (c : VCtx) (v : VArgs) (r : Req) (ordered : Bool) : MemOp :=
  let data (s : State) (i : Nat) : Nat × Bool := s.elem c c.f (.reg v.d.toNat) i
  let ord := if ordered then MemOrder.ordered else .unordered
  if c.f.plane then
    let b := e.base v
    { order := ord, regs := 0, skew := decide (b.toNat % 64 ≠ 0), cells := fun _ i => planeCells c.f b i
      check := fun s i => s.planeFault r c.f b i .write
      perform := storeUnit (fun s i => (planeData c.f b i (data s i).1 (data s i).2, 0)) (fun i _ => planeReport c.f b i) }
  else
    { order := ord, regs := 0, cells := fun _ i => [{ at_ := e.addr c v i, n := c.f.eb }]
      check := fun s i => s.accessFault r (e.addr c v i) c.f.eb .write
      perform := storeUnit (fun s i => ([{ at_ := e.addr c v i, n := c.f.eb, data := leBytes c.f.eb (data s i).1, bad := (data s i).2 }], 0)) (fun _ a => a) }

/-- The operand that D names. -/
def needD (v : VArgs) (c : VCtx) : Needs := ⟨[(.reg v.d.toNat, c.f)], [v.p]⟩

/-- The request of an entry's accesses. -/
def State.entryReq (s : State) (e : QEntry) : Req := s.me.vreq e.word e.fetch e.idx

def State.vecLoad (s : State) (i : Instr) (v : VArgs) : Out :=
  s.issue i (fun c _ => needD v c) fun c n e s => s.runMem c n e v (loadOp e c v (s.entryReq e))

def State.vecStore (s : State) (i : Instr) (v : VArgs) (ordered : Bool) : Out :=
  s.issue i (fun c _ => needD v c) fun c n e s => s.runMem c n e v (storeOp e c v (s.entryReq e) ordered)

/-- VLD (R310). -/
def execVld (v : VArgs) (s : State) : Out := s.vecLoad (.vld v) v

/-- VLDS: the stride is S(B), signed (R302, R310). -/
def execVlds (v : VArgs) (s : State) : Out := s.vecLoad (.vlds v) v

/-- VST: ordered (R311, R312). -/
def execVst (v : VArgs) (s : State) : Out := s.vecStore (.vst v) v true

/-- VSTU: unordered (R311, R312). -/
def execVstu (v : VArgs) (s : State) : Out := s.vecStore (.vstu v) v false

/-- VSTS: ordered (R311, R312). -/
def execVsts (v : VArgs) (s : State) : Out := s.vecStore (.vsts v) v true

/-! ### Fault-only-first (R313) -/

/-- VL as VLDFF leaves it: for itself, for the later instructions of its VFETCH, and architecturally (R131). -/
def State.trimVl (s : State) (e : QEntry) (vl : Nat) : State :=
  let set (c : VCfg) : VCfg := { c with vl := w64 vl }
  let one (x : QEntry) : QEntry := if x.fetch = e.fetch ∧ !x.done ∧ e.idx < x.idx then { x with snap := { x.snap with cfg := set x.snap.cfg } } else x
  s.setMe fun k => { k with q := k.q.map one, cfg := set k.cfg }

/-- VLDFF: a barrier; a fault past the first active element trims VL. -/
def execVldff (v : VArgs) (s : State) : Out :=
  s.issue (.vldff v) (fun c _ => needD v c) fun c n e s =>
    let r := s.entryReq e
    let op := loadOp e c v r
    let acts := s.activeIdx c v
    let x : Course := { r := r, perform := op.perform, ordered := true, lane := fun i => (i, 0), slip := 0 }
    let ran := (s.units r c.f.plane op.cells (acts.takeWhile fun i => (op.check s i).isNone)).foldl x.unit { s := s, marked := false }
    let fault : Option (Nat × Byte × Word) := match ran.faults with
      | x :: _ => some x
      | [] => acts.findSome? fun i => (op.check s i).map fun x => (i, x)
    let finish (vl : Nat) : Out :=
      let c := { c with vl := vl }
      let zs := if v.z then ((List.range vl).filter fun i => !s.active v i).map fun i => (0, (⟨i, 0, false⟩ : Put)) else []
      let puts := ran.puts ++ zs
      .next ((((ran.s.putFields c e v.d.toNat 1 puts).tailFields c e v.d.toNat 1 puts).trimVl e vl).complete n e 0)
    if ran.waits then .next ((s.waitKeeping ran.s).setEntry n e)
    else match fault with
      | none => finish c.vl
      | some (k, code, addr) => if acts.head? = some k then .next (ran.s.vfault n e code (some addr) (List.replicate 16 0)) else finish k

/-! ### Segments (R314) -/

/-- nf and w of R112. -/
def segFields (v : VArgs) : Nat := v.c.toNat
def segWidth (v : VArgs) : Nat := 2 ^ (v.imm.toNat % 4)

/-- A field of w bytes as an element, and an element as a field: extended, cut, or clamped with SA. -/
def resize (signed sat : Bool) (fromBits toBits x : Nat) : Nat × Nat :=
  let val : Int := if signed then sgn fromBits x else ((x % 2 ^ fromBits : Nat) : Int)
  if fromBits ≤ toBits then (wrapN toBits val, 0)
  else if !sat then (x % 2 ^ toBits, 0)
  else
    let lo : Int := if signed then -(2 ^ (toBits - 1) : Int) else 0
    let hi : Int := if signed then 2 ^ (toBits - 1) - 1 else 2 ^ toBits - 1
    if val < lo then (wrapN toBits lo, fSA) else if hi < val then (wrapN toBits hi, fSA) else (wrapN toBits val, 0)

/-- Address of field f of record i. -/
def segAddr (e : QEntry) (v : VArgs) (i f : Nat) : Word := e.s v.a + w64 ((i * segFields v + f) * segWidth v)

/-- The fields of record i in memory. -/
def segCells (e : QEntry) (v : VArgs) (i : Nat) : List Piece := (List.range (segFields v)).map fun f => { at_ := segAddr e v i f, n := segWidth v }

/-- Element i of each register from the fields of record i. -/
def segTake (c : VCtx) (v : VArgs) (i : Nat) (got : List (Nat × Bool)) : List (Nat × Put) × Nat :=
  let one (g : Nat × Bool) : Nat × Nat := if c.f.isInt then resize c.f.signed c.sat (8 * segWidth v) c.f.storage g.1 else (g.1, 0)
  (got.mapIdx fun f g => (f, ⟨i, (one g).1, g.2⟩), (got.map fun g => (one g).2).foldl Nat.lor 0)

/-- The fields of record i from element i of each register. -/
def State.segGive (s : State) (e : QEntry) (c : VCtx) (v : VArgs) (i : Nat) : List Piece × Nat :=
  let one (f : Nat) : Nat × Nat :=
    let x := (s.elem c c.f (.reg (v.d.toNat + f)) i).1
    if c.f.isInt then resize c.f.signed c.sat c.f.storage (8 * segWidth v) x else (x, 0)
  ((List.range (segFields v)).map fun f => { at_ := segAddr e v i f, n := segWidth v, data := leBytes (segWidth v) (one f).1, bad := (s.elem c c.f (.reg (v.d.toNat + f)) i).2 },
    ((List.range (segFields v)).map fun f => (one f).2).foldl Nat.lor 0)

/-- The registers of a segment form. -/
def segNeeds (v : VArgs) (c : VCtx) : Needs := ⟨(List.range (segFields v)).map fun f => (.reg (v.d.toNat + f), c.f), [v.p]⟩

/-- The first fault among the fields of record i. -/
def State.recordFault (s : State) (r : Req) (e : QEntry) (v : VArgs) (i : Nat) (need : Need) : Option (Byte × Word) :=
  (List.range (segFields v)).findSome? fun f => s.accessFault r (segAddr e v i f) (segWidth v) need

/-- A load of records. -/
def segLoadOp (e : QEntry) (c : VCtx) (v : VArgs) (r : Req) : MemOp :=
  { order := .load, regs := segFields v, cells := fun _ i => segCells e v i, check := fun s i => s.recordFault r e v i .read
    perform := loadUnit (fun _ i => segCells e v i) (fun _ a => a) (segTake c v) }

/-- A store of records, each whole or not at all. -/
def segStoreOp (e : QEntry) (c : VCtx) (v : VArgs) (r : Req) : MemOp :=
  { order := .ordered, regs := 0, cells := fun _ i => segCells e v i, check := fun s i => s.recordFault r e v i .write
    perform := storeUnit (fun s i => s.segGive e c v i) (fun _ a => a) }

/-- VLDSEG (R314). -/
def execVldseg (v : VArgs) (s : State) : Out :=
  s.issue (.vldseg v) (fun c _ => segNeeds v c) fun c n e s => s.runMem c n e v (segLoadOp e c v (s.entryReq e))

/-- VSTSEG: ordered over records, each written whole or not at all (R314). -/
def execVstseg (v : VArgs) (s : State) : Out :=
  s.issue (.vstseg v) (fun c _ => segNeeds v c) fun c n e s => s.runMem c n e v (segStoreOp e c v (s.entryReq e))

/-! ### Gather, scatter, scatter-add (R315 to R317) -/

/-- addr(i), and whether the index is poisoned (R302, R315). -/
def State.idxAddr (s : State) (e : QEntry) (c : VCtx) (v : VArgs) (i : Nat) : Word × Bool :=
  let x := s.elem c c.f (.reg v.b.toNat) i
  (e.s v.a + w64 (x.1 * 2 ^ (v.imm.toNat % 4)), x.2)

/-- The fault of an indexed element: a poisoned index reports the base (R308). -/
def State.idxFault (s : State) (r : Req) (e : QEntry) (c : VCtx) (v : VArgs) (i : Nat) (need : Need) : Option (Byte × Word) :=
  let a := s.idxAddr e c v i
  if a.2 then some (cPOISON, e.s v.a) else s.accessFault r a.1 c.f.eb need

def idxNeeds (v : VArgs) (c : VCtx) : Needs := ⟨[(.reg v.d.toNat, c.f), (.reg v.b.toNat, c.f)], [v.p]⟩

/-- The access of an indexed element; `s0` holds the indices. -/
def State.idxCells (s0 : State) (e : QEntry) (c : VCtx) (v : VArgs) (i : Nat) : List Piece := [{ at_ := (s0.idxAddr e c v i).1, n := c.f.eb }]

/-- A gather. -/
def State.gatherOp (s0 : State) (e : QEntry) (c : VCtx) (v : VArgs) (r : Req) : MemOp :=
  { order := .load, regs := 1, cells := fun _ i => s0.idxCells e c v i, check := fun s i => s.idxFault r e c v i .read
    perform := loadUnit (fun _ i => s0.idxCells e c v i) (fun _ a => a) plainTake }

/-- A scatter. -/
def State.scatterOp (s0 : State) (e : QEntry) (c : VCtx) (v : VArgs) (r : Req) : MemOp :=
  let give (i : Nat) : List Piece :=
    let x := s0.elem c c.f (.reg v.d.toNat) i
    [{ at_ := (s0.idxAddr e c v i).1, n := c.f.eb, data := leBytes c.f.eb x.1, bad := x.2 }]
  { order := .unordered, regs := 0, strewn := true, cells := fun _ i => s0.idxCells e c v i, check := fun s i => s.idxFault r e c v i .write
    perform := storeUnit (fun _ i => (give i, 0)) (fun _ a => a) }

/-- A scatter-add. -/
def State.scatterAddOp (s0 : State) (e : QEntry) (c : VCtx) (v : VArgs) (r : Req) : MemOp :=
  { order := .unordered, regs := 0, strewn := true, cells := fun _ i => s0.idxCells e c v i
    check := fun s i => match s.idxFault r e c v i .both with
      | some x => some x
      | none => match s.homeOf r (s.idxAddr e c v i).1 false with
        | .host _ _ => some (cPROT, (s.idxAddr e c v i).1)
        | _ => none
    perform := fun r s m is =>
      let i := is.headD 0
      let x := s0.elem c c.f (.reg v.d.toNat) i
      let a := (s0.idxAddr e c v i).1
      match s.memAdd r a c.f c.nm c.sat x.1 x.2 m with
      | .wait s' => .wait s'
      | .trap code s' => .fault code a s'
      | .ok fl s' => .ok [] fl (m || s.external r a) s' }

/-- VLDX (R316). -/
def execVldx (v : VArgs) (s : State) : Out :=
  s.issue (.vldx v) (fun c _ => idxNeeds v c) fun c n e s => s.runMem c n e v (s.gatherOp e c v (s.entryReq e))

/-- VSTX: where two elements have one address, either value may stand (R316). -/
def execVstx (v : VArgs) (s : State) : Out :=
  s.issue (.vstx v) (fun c _ => idxNeeds v c) fun c n e s => s.runMem c n e v (s.scatterOp e c v (s.entryReq e))

/-- VSTXA: adds at the home, in no order (R317). -/
def execVstxa (v : VArgs) (s : State) : Out :=
  s.issue (.vstxa v) (fun c _ => idxNeeds v c) fun c n e s => s.runMem c n e v (s.scatterAddOp e c v (s.entryReq e))

/-! ### Scale loads (R318) -/

/-- Address of entry j of a scale load. -/
def scaleAddr (e : QEntry) (v : VArgs) (j : Nat) : Word := e.s v.a + w64 j * e.s v.b

/-- The entries of a scale load one after another, until one stops it. -/
def State.scaleReads (s0 s : State) (r : Req) (e : QEntry) (v : VArgs) (q : Nat) : List Nat → List (Nat × Nat) → Reached (List (Nat × Nat))
  | [], out => .ok out s
  | j :: t, out =>
    let a := scaleAddr e v j
    if a.toNat % q ≠ 0 then .stop cMISALIGN a s
    else match s.memRead r a q .read with
      | .wait s' => .wait (s0.waitKeeping s')
      | .trap c s' => .stop c a s'
      | .ok (bs, bad) s' => if bad then .stop cPOISON a s' else s0.scaleReads s' r e v q t ((j, leNat bs) :: out)

/-- The active entries of a scale load: as few requests as R372 has go to another device; when something is amiss, they are taken one after
another. -/
def State.scaleAll (s : State) (r : Req) (e : QEntry) (v : VArgs) (q : Nat) (js : List Nat) : Reached (List (Nat × Nat)) :=
  let cell (j : Nat) : Piece := { at_ := scaleAddr e v j, n := q }
  if js.any fun j => (scaleAddr e v j).toNat % q ≠ 0 then s.scaleReads s r e v q js []
  else match s.readCells s r (s.pieces r (js.map cell)) [] with
    | .wait s' => .wait s'
    | .stop _ _ s' => s.scaleReads s' r e v q js []
    | .ok got s' =>
      if got.any (·.2.2) then s.scaleReads s r e v q js []
      else .ok (js.map fun j => (j, ((cell j).from got).1)) s'

/-- VSCLD into one bank. -/
def State.vscld (s : State) (i : Instr) (v : VArgs) (kb : Bool) : Out :=
  s.issue i (fun _ _ => ⟨[], [v.p]⟩) fun c n e s =>
    let first := v.imm.toNat % 4096
    if 4096 < first + c.vl then .next (s.vfault n e cVDECL (some (w64 (first + c.vl))) e.sameTlg)
    else match s.scaleAll (s.entryReq e) e v (if c.scf then 2 else 1) (s.activeIdx c v) with
      | .stop code a s' => .next (s'.vfault n e code (some a) (List.replicate 16 0))
      | .wait s' => .next (s'.setEntry n e)
      | .ok got s' =>
        let ws := got ++ (if v.z then ((List.range c.vl).filter fun j => !s.active v j).map fun j => (j, 0) else [])
        let fill (m : Mem) : Mem := ws.foldl (fun m w => m.write (2 * (first + w.1)) (leBytes 2 w.2)) m
        let healed (l : List Nat) : List Nat := l.filter fun x => !(ws.any fun w => first + w.1 == x)
        .next ((s'.setMe fun k => if kb then { k with vs := { k.vs with kb := fill k.vs.kb }, spoiled := { k.spoiled with kb := healed k.spoiled.kb } }
          else { k with vs := { k.vs with ka := fill k.vs.ka }, spoiled := { k.spoiled with ka := healed k.spoiled.ka } }).complete n e 0)

/-- VSCLD into ka (R114, R318). -/
def execVscldKa (v : VArgs) (s : State) : Out := s.vscld (.vscldKa v) v false

/-- VSCLD into kb (R114, R318). -/
def execVscldKb (v : VArgs) (s : State) : Out := s.vscld (.vscldKb v) v true

/-! ### Accesses before their turn (R145, R342, R346 to R348) -/

/-- A memory instruction's context, fields and accesses; none for the barriers among them and for other instructions. -/
def State.accesses (s : State) (e : QEntry) : Option (VCtx × VArgs × MemOp) :=
  let c := s.vctx e
  let r := s.entryReq e
  match e.instr with
  | .vld v => some (c, v, loadOp e c v r)
  | .vlds v => some (c, v, loadOp e c v r)
  | .vst v => some (c, v, storeOp e c v r true)
  | .vstu v => some (c, v, storeOp e c v r false)
  | .vsts v => some (c, v, storeOp e c v r true)
  | .vldseg v => some (c, v, segLoadOp e c v r)
  | .vstseg v => some (c, v, segStoreOp e c v r)
  | .vldx v => some (c, v, s.gatherOp e c v r)
  | .vstx v => some (c, v, s.scatterOp e c v r)
  | .vstxa v => some (c, v, s.scatterAddOp e c v r)
  | _ => none

/-- The bytes that an entry's remaining elements access, by their numbers; none where one is not known. -/
def State.footprint (s : State) (e : QEntry) : Option (List (Nat × Nat)) :=
  match s.accesses e with
  | none => some []
  | some (c, v, op) =>
    let cells := (((e.todo c).filter (s.active v)).map (op.cells s)).flatten
    cells.foldr (fun x acc => acc.bind fun l => match s.find (s.entryReq e) x.at_ .read with
      | .spot p _ => some ((p.key, x.n) :: l)
      | .remote dev => some ((2 ^ 80 + dev.toNat * 2 ^ 64 + bf x.at_ 55 0, x.n) :: l)
      | _ => none) (some [])

/-- Vector registers that an entry reads, and those that it writes, by the fields of its word. -/
def QEntry.vregs (e : QEntry) : List Nat × List Nat :=
  match e.instr.vparts with
  | none => ([], [])
  | some p =>
    let group (r : Reg) (n : Nat) : List Nat := (List.range (n * e.snap.cfg.group)).map (r.toNat + ·)
    let d := group p.args.d (if (p.vop == 0x18 || p.vop == 0x19) && p.f == 3 then segFields p.args else 1)
    match p.vop.toNat with
    | 0x18 => ([], d)
    | 0x19 => (d, [])
    | 0x1A => if p.f = 0 then (group p.args.b 1, d) else (group p.args.b 1 ++ d, [])
    | _ => (d ++ group p.args.a 1 ++ group p.args.b 1 ++ group p.args.c 1, d)

/-- What an entry reads hangs on what an earlier one still has to write, or the other way round (R145). -/
def QEntry.hangsOn (e o : QEntry) : Bool :=
  let (re, we) := e.vregs
  let (ro, wo) := o.vregs
  re.any wo.contains || we.any wo.contains || we.any ro.contains ||
    (match vPredDest o.instr, e.instr.vparts with
      | some p, some q => q.args.p == p
      | _, _ => false)

/-- The entry at a place may be performed, or begun, apart from its turn (R346): an ordered store once nothing older is left, as R347 keeps it behind
every earlier access, another while no barrier stands among the older (R144), no register joins it to one (R145, R348), and no byte does (R342). -/
def State.mayLead (s : State) (n : Nat) : Bool :=
  match s.me.q[n]? with
  | none => false
  | some e =>
    let older := (s.me.q.take n).filter (!·.done)
    let fit : Bool := match s.accesses e with
      | some (_, _, op) => older.isEmpty || decide (op.order ≠ .ordered)
      | none => false
    fit && !e.done && e.fault.isNone && e.startedAll s.core && !older.any (fun o => isBarrier o.instr || o.fault.isSome || e.hangsOn o)
      && !(older.any fun m => (s.accesses m).isSome && older.any fun l => m.hangsOn l && decide (l.fetch < m.fetch ∨ (l.fetch = m.fetch ∧ l.idx < m.idx)))
      && match s.footprint e with
        | none => false
        | some mine => older.all fun o => match s.footprint o with
          | none => false
          | some theirs => !(mine.any fun x => theirs.any fun y => meets x.1 x.2 y.1 y.2)

end Sys2Proof.Machine
end

