-- ==== Sys2Proof/Machine/Image.lean ====
section
/-! DEFINITION. The strand's vector state as saved: save images, the frames of the save store, VSAVE, VLOAD, and the window openings
and checkpoints of the Retriever (R415 to R419, R434 to R437, R506, R507). -/

namespace Sys2Proof.Machine

/-! ### Image bytes (R417) -/

/-- What an image is made from: the owner and the parts. -/
structure Imaged where
  lid : Word
  ctx : BitVec 16
  cid : BitVec 16
  sid : BitVec 2
  parts : BitVec 6
  vs : VState
  fmt : Fmt
  accn : Nat
  mvl : Word
  vpm : Bool
  deriving DecidableEq, Repr

/-- WHO of R417. -/
def whoWord (ctx cid : BitVec 16) (sid : BitVec 2) : Word := w64 (ctx.toNat * 2 ^ 48 + cid.toNat * 2 ^ 16 + sid.toNat)

/-- A register's storage with zeros where an element below its mark reads zero. -/
def VReg.settled (r : VReg) (f : Fmt) : Mem :=
  if f.valid then ((List.range r.mark).filter fun j => !r.live.testBit j).foldl (fun m j => f.store m j 0) r.data else r.data

/-- Section 0 bytes of one register. -/
def Imaged.regBytes (x : Imaged) (v : Nat) : Nat := 16 * x.vs.bits * (((vget x.vs.regs v {}).mark + 127) / 128)

/-- Pads a section to a multiple of 256 bytes. -/
def padTo256 (bs : List Byte) : List Byte := bs ++ List.replicate ((256 - bs.length % 256) % 256) 0

/-- A section of an image with the offsets of its poisoned bytes. -/
structure Section where
  bytes : List Byte
  bad : List Nat
  deriving DecidableEq, Repr

def Section.none : Section := ⟨[], []⟩

/-- Joins two pieces of a section. -/
def Section.append (a b : Section) : Section := ⟨a.bytes ++ b.bytes, a.bad ++ b.bad.map (· + a.bytes.length)⟩

/-- Section n of an image; sections 4 and 5 are laid out as only FORMAT names. -/
def Imaged.section (x : Imaged) (inst : Nat) : Nat → Section
  | 0 => (List.range x.vs.cnt).foldl (fun s v =>
      let r := vget x.vs.regs v {}
      let n := x.regBytes v
      s.append ⟨(r.settled x.fmt).dense 0 n, (r.bad.map (· * 64)).filter (· < n)⟩) .none
  | 1 => (List.range x.accn).foldl (fun s m => let a := vget x.vs.accs m {}
      s.append ⟨a.data.dense 0 32768, a.bad.map (· * 64)⟩) .none
  | 2 => ⟨((List.range 63).map fun p => leBytes 1024 (vget x.vs.preds (p + 1) 0).toNat).flatten, []⟩
  | 3 => ⟨x.vs.ka.dense 0 8192 ++ x.vs.kb.dense 0 8192, []⟩
  | 4 => ⟨(List.range 0x20000).map (Config.imageByte inst 4), []⟩
  | _ => ⟨(List.range 0x10000).map (Config.imageByte inst 5), []⟩

/-- The sections that an image with these parts holds, in order, each padded. -/
def Imaged.body (x : Imaged) (inst : Nat) : Section :=
  ((List.range 6).filter x.parts.getLsbD).foldl (fun s n =>
    let y := x.section inst n
    s.append ⟨padTo256 y.bytes, y.bad⟩) .none

/-- DECL of R417. -/
def Imaged.decl (x : Imaged) : Nat := x.vs.cnt + x.vs.bits * 2 ^ 8 + (if x.vpm then 2 ^ 15 else 0) + x.mvl.toNat % 2 ^ 14 * 2 ^ 16

/-- The header of an image of so many bytes in all. -/
def Imaged.header (x : Imaged) (len : Nat) : List Byte :=
  leBytes 8 x.lid.toNat ++ leBytes 8 (whoWord x.ctx x.cid x.sid).toNat ++ leBytes 8 x.parts.toNat ++ leBytes 8 x.decl ++ leBytes 8 x.accn
    ++ leBytes 8 len ++ leBytes 8 1 ++ leBytes 8 0 ++ ((List.range 64).map fun v => leBytes 2 (vget x.vs.regs v {}).mark).flatten ++ List.replicate 64 0

/-- The whole image, with the offsets of its poisoned sectors. -/
def Imaged.image (x : Imaged) (inst : Nat) : List Byte × List Nat :=
  let b := x.body inst
  (x.header (256 + b.bytes.length) ++ b.bytes, b.bad.map fun o => (o + 256) / 256)

/-- The strand's own vector state as an image of these parts. -/
def Strand.imaged (k : Strand) (parts : Nat) : Imaged :=
  { lid := k.id.lid, ctx := k.ctx, cid := k.id.cid, sid := k.id.sid, parts := BitVec.ofNat 6 parts, vs := k.vs, fmt := k.cfg.fmt, accn := k.alloc.accn
    mvl := k.cfg.mvl, vpm := k.cfg.vpm }

/-- What lies in the strand's frame as an image. -/
def Strand.keptImage (k : Strand) : Imaged :=
  { lid := k.id.lid, ctx := k.ctx, cid := k.id.cid, sid := k.id.sid, parts := k.kept.parts, vs := k.kept.vs, fmt := k.cfg.fmt, accn := k.kept.accn
    mvl := k.kept.mvl, vpm := k.kept.vpm }

/-! ### Frames (R415, R416, R418, R419) -/

/-- The device physical address of a frame. -/
def MemSys.frameAt (m : MemSys) (f : Nat) : Nat := bf m.vssbase 51 21 * 2 ^ 21 + f * 2 ^ 21

/-- Writes bytes at a device physical address; sectors of the list are poisoned, the others cleared. -/
def MemSys.putSectors (m : MemSys) (a : Nat) (bs : List Byte) (bad : List Nat) : MemSys :=
  (List.range ((bs.length + 255) / 256)).foldl (fun m n => if bad.contains n then m.setPoison (a + 256 * n) else m.clearPoison (a + 256 * n)) (m.putRaw a bs)

/-- The parts of a mask that a strand has: units of the register file, accumulators, an array, a held window (R415). -/
def State.heldParts (s : State) (k : Strand) (mask : Nat) : Nat :=
  let m := if k.alloc.vrb = 0 then dropBit mask 0 else mask
  let m := if k.alloc.accn = 0 then dropBit m 1 else m
  let m := if (s.arrayOf k.id).isSome then m else dropBit m 4
  if k.win.isEmpty then dropBit m 5 else m

/-- Parts of a strand's own state go to its frame: contents, then the frame's bytes. A part that it gives up without contents is
its own no longer. -/
def State.keep (s : State) (k : SId) (mask : Nat) : State :=
  match s.strandOf k with
  | none => s
  | some o =>
    let arr := s.arrayOf k
    let parts := s.heldParts o mask
    let has (n : Nat) : Bool := parts.testBit n
    let was := o.kept
    let kept : Kept :=
      { parts := was.parts ||| BitVec.ofNat 6 parts
        vs := { cnt := if has 0 then o.vs.cnt else was.vs.cnt, bits := if has 0 then o.vs.bits else was.vs.bits
                regs := if has 0 then o.vs.regs else was.vs.regs, accs := if has 1 then o.vs.accs else was.vs.accs
                preds := if has 2 then o.vs.preds else was.vs.preds, ka := if has 3 then o.vs.ka else was.vs.ka, kb := if has 3 then o.vs.kb else was.vs.kb }
        accn := o.alloc.accn, mvl := o.cfg.mvl, vpm := o.cfg.vpm
        arr := if has 4 then arr else was.arr, win := if has 5 then o.win else was.win }
    let s := if has 4 then s.freeArray k else s
    let s := s.onStrand k fun o => { o with kept := kept, win := if has 5 then [] else o.win
                                            alloc := { o.alloc with void := Nat.lor o.alloc.void (Nat.land (mask - parts) 0x20) } }
    match o.alloc.frame with
    | none => s
    | some f =>
      let inst := s.free
      let (bs, bad) := ({ o with kept := kept } : Strand).keptImage.image inst
      { s with free := s.free + 1
               mem := { s.mem.putSectors (s.mem.frameAt f) bs bad with imgs := ⟨inst, kept.arr, kept.win⟩ :: s.mem.imgs } }

/-- The units of a set that an owner still holds under another set, as a bit mask. -/
def unitsUnder (held lost mine : Nat) : Nat := let both := Nat.land held mine; both - Nat.land both lost

/-- The owners of units under the strand whose turn it is, among these parts: each owner with the parts, and the register-file
units and accumulators that it loses (R415, R506). -/
def State.foreignUnits (s : State) (mask : Nat) : List (SId × Nat × Nat × Nat) :=
  let k := s.me
  let owners := s.strands.filter fun o => o.run == .preempted && o.core == k.core && o.id != k.id
  let of (o : Strand) : SId × Nat × Nat × Nat :=
    let v' := if mask.testBit 0 then unitsUnder o.alloc.vrfSet o.alloc.lostVrf k.alloc.vrfSet else 0
    let a' := if mask.testBit 1 then unitsUnder o.alloc.accSet o.alloc.lostAcc k.alloc.accSet else 0
    let slot (n : Nat) : Nat := if mask.testBit n && o.slot == k.slot && !o.kept.parts.getLsbD n && !o.alloc.void.testBit n then 2 ^ n else 0
    let arr := if mask.testBit 4 && s.core.arrays.any (·.owner == o.id) then 16 else 0
    (o.id, (if v' = 0 then 0 else 1) + (if a' = 0 then 0 else 2) + slot 2 + slot 3 + arr + slot 5, v', a')
  (owners.map of).filter fun x => x.2.1 != 0

/-- VSAVE with S(A) = 0: foreign units go to their owners' frames and become the strand's own (R418). -/
def State.saveForeign (s : State) (mask : Nat) : State :=
  (s.foreignUnits mask).foldl (fun s x =>
    (s.keep x.1 x.2.1).onStrand x.1 fun o => { o with alloc := { o.alloc with lostVrf := Nat.lor o.alloc.lostVrf x.2.2.1, lostAcc := Nat.lor o.alloc.lostAcc x.2.2.2 } }) s

/-- The queue holds an instruction in flight: one that lane groups have begun. -/
def Strand.inFlight (k : Strand) : Bool := k.q.any fun e => !e.done && e.fault.isNone && (e.lanes.isSome || !e.started.isEmpty)

/-- The cells of an image at a virtual address: its sectors (R417, R418). -/
def imageCells (a : Word) (bad : List Nat) : Nat → Nat → List Byte → List Piece
  | 0, _, _ => []
  | fuel + 1, n, bs => if bs.isEmpty then [] else { at_ := a + w64 (256 * n), n := 256, data := bs.take 256, bad := bad.contains n } :: imageCells a bad fuel (n + 1) (bs.drop 256)

/-- The accesses of VSAVE and VLOAD: those of a scalar instruction that go as vector accesses do (R418). -/
def State.imageReq (s : State) (info : Word) : Req := { s.me.req info with scalar := false, evicts := true, covers := true }

/-- The name of the image that the strand's VSAVE writes: the same for every attempt at it. -/
def State.imageName (s : State) : Nat :=
  2 ^ 300 + s.me.id.lid.toNat * 2 ^ 160 + s.me.id.cid.toNat * 2 ^ 140 + s.me.id.sid.toNat * 2 ^ 136 + s.me.lclk.toNat * 2 ^ 64 + s.me.icnt

/-- Writes the sectors of an image one after another, with one EXTERNAL mark (R438). -/
def State.writeImage (s0 s : State) (r : Req) : Bool → List Piece → Reached Unit
  | _, [] => .ok () s
  | marked, c :: t => match s.writeCell r c marked false with
    | .wait s' => .wait (s0.waitKeeping s')
    | .trap code s' => .stop code c.at_ s'
    | .ok _ s' => s0.writeImage s' r (marked || s.external r c.at_) t

/-- VSAVE of the strand's own parts at a (R418). -/
def State.saveAt (s : State) (info : Word) (d : Reg) (a : Word) (mask : Nat) : Out :=
  if a.toNat % 256 ≠ 0 then .next (s.trap cMISALIGN info (some a))
  else if s.foreignIn mask ≠ 0 then .next (s.trap cVSTATE info (some (w64 (s.foreignIn mask))))
  else
    let held := s.heldParts s.me mask
    let (bs, bad) := (s.me.imaged held).image s.imageName
    match s.writeImage s (s.imageReq info) false (imageCells a bad (bs.length / 256 + 1) 0 bs) with
    | .wait s' => .next s'
    | .stop c x s' => .next (s'.trap c info (some x))
    | .ok _ s' =>
      let s' : State := { s' with mem := { s'.mem.covered (s.imageReq info).own with imgs := ⟨s.imageName, s.arrayOf s.me.id, s.me.win⟩ :: s'.mem.imgs } }
      .next (s'.finish d (w64 bs.length))

/-- VSAVE (R418). The bytes that it reports for foreign units are a free value: the manual names no size of a unit. -/
def execVsave (d a b : Reg) (s : State) : Out :=
  let info := wordOf32 (.vsave d a b)
  s.privileged info <| s.scalarOp info [a, b] [d] <|
    if s.me.inFlight then .next s
    else
      let mask := (s.s b).toNat
      if mask >>> 6 ≠ 0 then .next (s.finish d 0)
      else if s.s a = 0 then
        let n := if (s.foreignUnits mask).isEmpty then 0 else Config.freeWord s.free
        .next (({ s with free := s.free + 1 }.saveForeign mask).finish d n)
      else s.saveAt info d (s.s a) mask

/-! ### VLOAD (R419) -/

/-- What a read image restores. -/
structure Loaded where
  ctx : Nat
  parts : Nat
  vs : VState
  accn : Nat
  mvl : Nat
  vpm : Bool
  arr : Option Arr
  win : List QEntry
  /-- Bytes of the image. -/
  len : Nat
  /-- A header field breaks R417. -/
  wrong : Bool
  deriving DecidableEq, Repr

/-- The image that lies in the strand's frame. -/
def Strand.keptLoaded (k : Strand) : Loaded :=
  { ctx := k.ctx.toNat, parts := k.kept.parts.toNat, vs := k.kept.vs, accn := k.kept.accn, mvl := k.kept.mvl.toNat, vpm := k.kept.vpm, arr := k.kept.arr
    win := k.kept.win, len := 256 + (k.keptImage.body 0).bytes.length, wrong := k.kept.parts = 0 }

/-- Parses a header; the sections' sizes follow from it. -/
def headerLoaded (h : List Byte) : Loaded :=
  let decl := numAt h 0x18 8
  let cnt := fld decl 6 0
  let bits := fld decl 14 8
  let parts := numAt h 0x10 8
  let accn := numAt h 0x20 8
  let marks := (List.range 64).map fun v => numAt h (0x40 + 2 * v) 2
  let regs : Vector VReg 64 := Vector.ofFn fun v => { mark := marks.getD v.val 0 }
  let mvl := fld decl 29 16
  { ctx := fld (numAt h 8 8) 63 48, parts := parts, vs := { cnt := cnt, bits := bits, regs := regs }, accn := accn, mvl := mvl, vpm := fld decl 15 15 = 1
    arr := none, win := [], len := numAt h 0x28 8
    wrong := decide (64 ≤ parts) || fld (numAt h 8 8) 47 32 != 0 || fld (numAt h 8 8) 15 2 != 0 || fld decl 7 7 != 0 || fld decl 63 30 != 0
      || decide (64 < cnt) || !([0, 4, 8, 12, 16, 32, 64].contains bits) || decide (16 < accn) || numAt h 0x38 8 != 0 || numAt h 0x28 8 % 256 != 0
      || ((h.drop 0xC0).take 64).any (· != 0) || marks.any fun m => decide (16384 ≤ m) || decide (mvl < m) }

/-- Bytes of section n of an image with this header. -/
def Loaded.size (x : Loaded) (n : Nat) : Nat :=
  let raw := match n with
    | 0 => ((List.range x.vs.cnt).map fun v => 16 * x.vs.bits * (((vget x.vs.regs v {}).mark + 127) / 128)).sum
    | 1 => x.accn * 32768
    | 2 => 63 * 1024
    | 3 => 16384
    | 4 => 0x20000
    | _ => 0x10000
  (raw + 255) / 256 * 256

/-- The offset of section n. -/
def Loaded.offset (x : Loaded) (n : Nat) : Nat :=
  256 + (((List.range n).filter x.parts.testBit).map x.size).sum

/-- The contents of the sections from the bytes of the image and its poisoned sectors; `imgs` tells what sections 4 and 5 say. -/
def Loaded.fill (x : Loaded) (imgs : List Img) (bs : List Byte) (bad : List Nat) : Loaded :=
  let blocks (off n : Nat) : List Nat := (List.range ((n + 63) / 64)).filter fun b => bad.contains ((off + 64 * b) / 256)
  let piece (off n : Nat) : Mem := Mem.ofBytes 0 ((bs.drop off).take n)
  let starts := (List.range 65).map fun v => x.offset 0 + ((List.range v).map fun w => 16 * x.vs.bits * (((vget x.vs.regs w {}).mark + 127) / 128)).sum
  let reg (v : Nat) (r : VReg) : VReg :=
    let off := starts.getD v 0
    let n := starts.getD (v + 1) 0 - off
    { r with live := 2 ^ r.mark - 1, data := piece off n, bad := blocks off n }
  let same (inst sec : Nat) : Bool := !x.parts.testBit sec || (List.range (x.size sec)).all fun o => bs.getD (x.offset sec + o) 0 == Config.imageByte inst sec o
  let img := imgs.find? fun i => same i.inst 4 && same i.inst 5
  let unknown := (x.parts.testBit 4 || x.parts.testBit 5) && img.isNone
  { x with
    vs := { x.vs with
      regs := if x.parts.testBit 0 then Vector.ofFn fun v => if v.val < x.vs.cnt then reg v.val x.vs.regs[v] else {} else Vector.replicate 64 {}
      accs := if x.parts.testBit 1 then Vector.ofFn fun m => if m.val < x.accn then ⟨piece (x.offset 1 + 32768 * m.val) 32768, blocks (x.offset 1 + 32768 * m.val) 32768⟩ else {}
        else Vector.replicate 16 {}
      preds := if x.parts.testBit 2 then Vector.ofFn fun p => if p.val = 0 then 0 else BitVec.ofNat 8192 (numAt bs (x.offset 2 + 1024 * (p.val - 1)) 1024) else Vector.replicate 64 0
      ka := if x.parts.testBit 3 then piece (x.offset 3) 8192 else []
      kb := if x.parts.testBit 3 then piece (x.offset 3 + 8192) 8192 else [] }
    arr := (img.map (·.arr)).getD none, win := (img.map (·.win)).getD [], wrong := x.wrong || unknown }

/-- Whether an image may be restored to a strand (R419). -/
def Loaded.fits (x : Loaded) (k : Strand) (mask format : Nat) : Bool :=
  !x.wrong && x.ctx == k.ctx.toNat && x.vpm == k.cfg.vpm
    && (x.vs.cnt == 0 || decide (x.mvl ≤ declMvl k.alloc.vrb x.vpm x.vs.cnt x.vs.bits)) && decide (x.accn ≤ k.alloc.accn)
    && (Nat.land (Nat.land mask 0x30) x.parts == 0 || format == 1)

/-- Restores the parts; in a register, elements at or above the mark read undefined values from then on. A window that is then held is
marked by SQ (R419), one that stayed on the core through a pre-emption as well (R507). -/
def State.restore (s : State) (x : Loaded) (parts : Nat) : State :=
  let has (n : Nat) : Bool := parts.testBit n
  let undef (r : VReg) : VReg := { r with undef := 2 ^ 8192 - 2 ^ r.mark, salt := s.free }
  let s := if has 4 then (s.freeArray s.me.id) else s
  let s := { s with free := s.free + 8192 }
  let s := match if has 4 then x.arr else none with
    | some a => { s with core := { s.core with arrays := { a with owner := s.me.id, chain := none, peers := [], arrived := none, ready := none } :: s.core.arrays } }
    | none => s
  s.setMe fun k =>
    let k := { k with vs :=
      { cnt := if has 0 then x.vs.cnt else k.vs.cnt, bits := if has 0 then x.vs.bits else k.vs.bits, regs := if has 0 then x.vs.regs.map undef else k.vs.regs
        accs := if has 1 then Vector.ofFn fun m => if m.val < x.accn then x.vs.accs[m] else k.vs.accs[m] else k.vs.accs
        preds := if has 2 then x.vs.preds else k.vs.preds, ka := if has 3 then x.vs.ka else k.vs.ka, kb := if has 3 then x.vs.kb else k.vs.kb } }
    let k := if has 0 then ({ k with cfg := { k.cfg with mvl := w64 x.mvl } } : Strand).cutVl else k
    let win := if has 5 then x.win else k.win
    { k with win := win, tr := { k.tr with tcause := if parts ≠ 0 ∧ !win.isEmpty then k.tr.tcause ||| 0x20000 else k.tr.tcause } }

/-- VLOAD restores an image whose contents are known (R419). -/
def State.loadImage (s : State) (info : Word) (d : Reg) (x : Loaded) (mask format : Nat) (own : Bool) : Out :=
  if !x.fits s.me mask format then .next (s.finish d 0)
  else
    let parts := Nat.land mask x.parts
    let held : List Nat := match if parts.testBit 4 then x.arr else none with | some a => (List.range 16).filter a.holds | none => []
    let taken (g : Nat) : Bool := (s.core.arrays.any fun a => a.owner != s.me.id && a.holds g) || s.core.claims.any fun c => c.1 != s.me.id && c.2.contains g
    if held.any taken then .next (s.trap cMATRIX info (some 2))
    else
      let n := 256 + (((List.range 6).filter parts.testBit).map x.size).sum
      let s := s.restore x parts
      let s := if own then
          let left := s.me.kept.parts &&& ~~~(BitVec.ofNat 6 parts)
          let s := s.setMe fun k => { k with kept := { k.kept with parts := left }, alloc := { k.alloc with
            lostVrf := if parts.testBit 0 then 0 else k.alloc.lostVrf, lostAcc := if parts.testBit 1 then 0 else k.alloc.lostAcc } }
          if left = 0 then (s.releaseFrame s.me.alloc.frame).setMe fun k => { k with alloc := { k.alloc with frame := none } } else s
        else s
      .next (s.finish d (w64 n))

/-- VLOAD (R419). -/
def execVload (d a b : Reg) (s : State) : Out :=
  let info := wordOf32 (.vload d a b)
  s.privileged info <| s.scalarOp info [a, b] [d] <|
    if s.me.inFlight then .next s
    else
      let mask := (s.s b).toNat
      let at_ := s.s a
      if mask >>> 6 ≠ 0 then .next (s.finish d 0)
      else if s.foreignIn mask ≠ 0 then .next (s.trap cVSTATE info (some (w64 (s.foreignIn mask))))
      else if at_ = 0 then s.loadImage info d s.me.keptLoaded mask 1 true
      else if at_.toNat % 256 ≠ 0 then .next (s.trap cMISALIGN info (some at_))
      else match s.readSpan s (s.imageReq info) .read 2 at_ 256 with
        | .trap c s' => .next (s'.trap c info (some at_))
        | .wait s' => .next s'
        | .ok (h, bad) s1 =>
          let x := headerLoaded h
          if bad ∨ x.wrong ∨ x.len ≠ x.offset 6 then .next (s1.finish d 0)
          else
            let sectors := (List.range (x.len / 256)).foldl (fun (acc : List Byte × List Nat × Att Unit) n => match acc.2.2 with
              | .ok _ s' => match s'.memRead (s.imageReq info) (at_ + w64 (256 * n)) 256 .read with
                | .ok (bs, bad) s'' => (acc.1 ++ bs, if bad then acc.2.1 ++ [n] else acc.2.1, .ok () s'')
                | .trap c s'' => (acc.1, acc.2.1, .trap c s'')
                | .wait s'' => (acc.1, acc.2.1, .wait (s.waitKeeping s''))
              | o => (acc.1, acc.2.1, o)) ([], [], .ok () s1)
            match sectors.2.2 with
            | .trap c s' => .next (s'.trap c info (some (at_ + w64 sectors.1.length)))
            | .wait s' => .next s'
            | .ok _ s2 => s2.loadImage info d (x.fill s2.mem.imgs sectors.1 sectors.2.1) mask (numAt h 0x30 8) false

/-! ### Windows and checkpoints of the Retriever (R434 to R437) -/

/-- Opens the next window of a job: the window entry of segment seg, or nothing (R434). The result has the number. -/
def State.openWindow (s : State) (j : Job) (seg reason : Nat) (src : Nat) (w1 stamp : Word) : Appended :=
  let w := j.retr.issued + 1
  match s.append j seg (logHdr 3 reason false src s.mem.gen.toNat w) w1 stamp 0 [] with
  | .ok s' => match s'.jobAt j.slot with
    | some j' => .ok (s'.setJob { j' with retr := { j'.retr with issued := w, whigh := w, wlow := if j'.retr.wlow = 0 then w else j'.retr.wlow } })
    | none => .ok s'
  | o => o

/-- The body of a checkpoint after its four header words (R436): the strand as it stands after the WMARK. -/
def Strand.checkpoint (k : Strand) (parts inst : Nat) : List Byte :=
  leBytes 8 k.pc.toNat ++ ((List.range 63).map fun n => leBytes 8 (k.s (BitVec.ofNat 6 (n + 1))).toNat).flatten
    ++ ([k.cfg.vl, k.cfg.vt.setWidth 64, k.cfg.nm, k.cfg.mvl, k.cfg.vslip.setWidth 64, wBool k.cfg.vpm, k.lclk, k.tlc].map fun w => leBytes 8 w.toNat).flatten
    ++ ((k.imaged parts).image inst).1

/-- Appends the checkpoint of strand k, as it stands, to window w. -/
def State.appendCheckpoint (s : State) (j : Job) (k : Strand) (w : Nat) (arr : Option Arr) : Appended :=
  let parts := Nat.land (if arr.isSome then 31 else 15) (31 - Nat.land s.foreign 15)
  let body := k.checkpoint parts s.free
  let len := 32 + body.length
  let s := { s with free := s.free + 1, mem := { s.mem with imgs := ⟨s.free, arr, []⟩ :: s.mem.imgs } }
  s.append j (k.core.toNat / 32) (logHdr 4 0 false (k.req 0).src s.mem.gen.toNat w) (whoWord k.ctx k.id.cid k.id.sid) k.lclk (w64 len) body

/-- A strand's checkpoint as the model keeps it. -/
def Strand.ckptOf (k : Strand) (arr : Option Arr) : Ckpt := { pc := k.pc, regs := k.regs, cfg := k.cfg, lclk := k.lclk, tlc := k.tlc, vs := k.vs, arr := arr }

/-- WMARK: waits as VSYNC does, and like it makes the strand's writes perform at package scope; then the window opens (R137, R182, R434 to
R436). -/
def execWmark (d : Reg) (s : State) : Out :=
  let info := wordOf32 (.wmark d)
  s.scalarOp info [] [d] <|
    if !s.me.qEmpty then .next s
    else
      let s := s.unstage
      match (s.jobOf s.me.ctx).filter fun j => j.policy.en with
      | none => .next (s.tick.finish d 0)
      | some j =>
        let w := j.retr.issued + 1
        let after := (s.tick.finish d (w64 w)).setMe fun k => { k with icnt := 0 }
        match after.openWindow j (s.me.core.toNat / 32) 3 (s.me.req 0).src (whoWord s.me.ctx s.me.id.cid s.me.id.sid) after.me.lclk with
        | .full => .next (s.trap cLOGFULL info none)
        | .stall => .next s
        | .ok s1 => match s1.jobOf s.me.ctx with
          | none => .next s
          | some j1 =>
            let arr := s1.arrayOf s1.me.id
            match s1.appendCheckpoint j1 s1.me w arr with
            | .full => .next (s.trap cLOGFULL info none)
            | .stall => .next s
            | .ok s2 => .next (s2.setMe fun k =>
                let c := k.ckptOf arr
                { k with startWin := w, ckpt := some c, ckpts := (w, c) :: k.ckpts })

end Sys2Proof.Machine
end

