-- ==== Sys2Proof/Machine/Control.lean ====
section
/-! DEFINITION. System registers (R97 to R99), the control instructions (R176 to R183) and the queue registers (R147 to R151). -/

namespace Sys2Proof.Machine

/-! ### System registers -/

/-- The value of system register y, none where the table has none (R98). -/
def Strand.sysGet (k : Strand) (y : BitVec 12) : Option Word :=
  match y.toNat with
  | 0x000 => some k.cfg.vl
  | 0x001 => some (k.cfg.vt.setWidth 64)
  | 0x002 => some k.cfg.nm
  | 0x003 => some k.cfg.mvl
  | 0x004 => some (k.cfg.vslip.setWidth 64)
  | 0x005 => some (wBool k.cfg.vpm)
  | 0x008 => some k.tlc
  | 0x009 => some k.lclk
  | 0x010 => some (k.id.sid.setWidth 64)
  | 0x011 => some (k.id.cid.setWidth 64)
  | 0x012 => some k.id.lid
  | 0x013 => some (k.core.setWidth 64)
  | 0x014 => some (w64 (k.core.toNat / 4 % 4))
  | 0x015 => some (w64 (k.core.toNat / 16))
  | 0x100 => some k.tr.tcause
  | 0x101 => some k.tr.tpc
  | 0x102 => some k.tr.tinfo
  | 0x103 => some k.tr.taddr
  | 0x104 => some k.tr.mrp
  | 0x105 => some k.tr.tvec
  | n => if 0x110 ≤ n ∧ n ≤ 0x11F then some (vget k.tr.tlg (n - 0x110) 0) else none

/-- Bits of TCAUSE, of NM and of MRP that a write changes (R195, R269, R401). -/
def tcauseBits : Word := 0x800000000001C0FF
def nmBits : Word := 0x3F1F
def mrpBits : Word := 0x8000000000033FFF

/-- A write to system register y; one to a register whose access is "read" is ignored (R99). -/
def Strand.sysPut (k : Strand) (y : BitVec 12) (x : Word) : Strand :=
  match y.toNat with
  | 0x002 => { k with cfg := { k.cfg with nm := x &&& nmBits } }
  | 0x004 => { k with cfg := { k.cfg with vslip := x.setWidth 4 } }
  | 0x100 => { k with tr := { k.tr with tcause := (k.tr.tcause &&& 0x20000) ||| (x &&& tcauseBits) } }
  | 0x101 => { k with tr := { k.tr with tpc := x } }
  | 0x102 => { k with tr := { k.tr with tinfo := x } }
  | 0x103 => { k with tr := { k.tr with taddr := x } }
  | 0x104 => { k with tr := { k.tr with mrp := x &&& mrpBits } }
  | 0x105 => { k with tr := { k.tr with tvec := x &&& 0xFFFFFFFFFFFFFFFC } }
  | n => if 0x110 ≤ n ∧ n ≤ 0x11F then { k with tr := { k.tr with tlg := vset k.tr.tlg (n - 0x110) x } } else k

/-- Registers marked system (R98). -/
def sysLevel (y : BitVec 12) : Bool := decide (0x100 ≤ y.toNat)

/-- An access to system register y whose old value goes to `effect`: PRIV at user level, ILLEGAL without such a register, and
a wait for VL while it is pending (R98, R127). -/
def State.sysAccess (s : State) (info : Word) (y : BitVec 12) (reads writes : List Reg) (getsVl : Bool) (effect : Word → Out) : Out :=
  match s.me.sysGet y with
  | none => .next (s.trap cILLEGAL info (some s.me.pc))
  | some old =>
    if sysLevel y ∧ !s.me.sys then .next (s.trap cPRIV info none)
    else if getsVl ∧ y = 0 ∧ s.me.vlPending then .next s
    else s.scalarOp info reads writes (effect old)

/-- SYSR (R97). -/
def execSysr (d : Reg) (y : BitVec 12) (s : State) : Out :=
  s.sysAccess (wordOf32 (.sysr d y)) y [] [d] true fun old => .next (s.finish d old)

/-- SYSW (R97). -/
def execSysw (a : Reg) (y : BitVec 12) (s : State) : Out :=
  s.sysAccess (wordOf32 (.sysw a y)) y [a] [] false fun _ => .next (s.setMe (·.sysPut y (s.s a))).advance

/-- SYSSET (R97). -/
def execSysset (d a : Reg) (y : BitVec 12) (s : State) : Out :=
  s.sysAccess (wordOf32 (.sysset d a y)) y [a] [d] true fun old => .next ((s.setMe (·.sysPut y (old ||| s.s a))).finish d old)

/-- SYSCLR (R97). -/
def execSysclr (d a : Reg) (y : BitVec 12) (s : State) : Out :=
  s.sysAccess (wordOf32 (.sysclr d a y)) y [a] [d] true fun old => .next ((s.setMe (·.sysPut y (old &&& ~~~(s.s a)))).finish d old)

/-! ### Control -/

/-- TRAP: TINFO = n, TPC its own address, TADDR not written (R176). -/
def execTrap (n : BitVec 6) (s : State) : Out := .next (s.trap cTRAP (n.setWidth 64) none)

/-- BREAK (R176). -/
def execBreak (n : BitVec 6) (s : State) : Out := .next (s.trap cBREAK (n.setWidth 64) none)

/-- ERET: privileged (R177, R404). -/
def execEret (s : State) : Out := s.privileged (wordOf32 .eret) (.next s.returnFromTrap)

/-- YIELD: the strand's deficit counters become 0, and it issues no scalar instruction for 16 cycles (R179). -/
def execYield (s : State) : Out :=
  let slot := s.me.slot.toNat
  let arbs := s.core.arbs.map fun (b : LgArb) => { b with dc := vset b.dc slot 0 }
  .next (({ s with core := { s.core with arbs := arbs } } : State).setMe fun k => { k with yieldUntil := s.clk.cyc + 16 }).advance

/-- WFE: completes on the event flag, which it clears, or after 65,536 cycles (R180). -/
def execWfe (s : State) : Out :=
  if s.me.event then .next (s.setMe fun k => { k with event := false }).advance
  else match s.me.wfeSince with
    | none => .next (s.setMe fun k => { k with wfeSince := some s.clk.cyc })
    | some t => if t + 65536 ≤ s.clk.cyc then .next s.advance else .next s

/-- WFE_TIMEOUT: a WFE completes after 65,536 cycles without an event (R180). -/
def execWfeTimeout (k : SId) (s : State) : Out :=
  let t := s.switchTo k
  if t.me.id ≠ k ∨ t.me.run ≠ .running then .next s
  else match t.me.wfeSince with
    | none => .next t
    | some c => if !t.me.event ∧ c + 65536 ≤ t.clk.cyc then .next t.advance else .next t

/-- TMARK: LCLK advances, and a trace session of the context gets a mark record (R183, R451). -/
def execTmark (a : Reg) (s : State) : Out :=
  s.scalarOp (wordOf32 (.tmark a)) [a] [] (
    let s := s.tick
    .next (s.trace s.me.ctx 1 (s.me.req 0).src s.me.lclk (s.s a) 0 0 []).advance)

/-! ### Queue registers (R147 to R151) -/

def Crew.queue (c : Crew) (q : BitVec 3) : List QCell := vget c.queues q.toNat []

def State.setQueue (s : State) (q : BitVec 3) (l : List QCell) : State := { s with crew := { s.crew with queues := vset s.crew.queues q.toNat l } }

/-- Strands of the crew whose turn it is that wait on a queue in instructions of a kind, in the order in which they began. -/
def State.waiters (s : State) (q : BitVec 3) (kind : BitVec 2) : List Strand :=
  let mine := s.allStrands.filter fun k => k.run == .running && k.id.lid == s.crew.lid && k.id.cid == s.crew.cid
    && (match k.qwait with | some w => w.queue == q && w.kind == kind | none => false)
  sortBy (fun a b => decide ((a.qwait.map (·.order)).getD 0 ≤ (b.qwait.map (·.order)).getD 0)) mine

/-- A strand takes the value of an entry: result, clock, and on to its next instruction. -/
def Strand.takes (k : Strand) (d : Reg) (c : QCell) : Strand :=
  let k := k.w d c.val
  { k.unwait with lclk := maxW k.lclk c.stamp + 1, pc := k.pc + 4, icnt := min (2 ^ 32 - 1) (k.icnt + 1) }

/-- The register of the queue instruction in which a strand waits. -/
def Strand.waitReg (k : Strand) : Reg := (k.qwait.map (·.reg)).getD 0

/-- An entry has arrived: at a queue that was empty, the waiting QPEEKs complete with it, and the oldest waiting QPOP removes it (R149). -/
def State.arrived (s : State) (q : BitVec 3) : State :=
  match s.crew.queue q with
  | [c] =>
    let s := (s.waiters q 2).foldl (fun s k => s.onStrand k.id fun x => x.takes x.waitReg c) s
    match s.waiters q 1 with
    | k :: _ => (s.onStrand k.id fun x => x.takes x.waitReg c).setQueue q []
    | [] => s
  | _ => s

/-- An entry is appended at the tail. -/
def State.appendEntry (s : State) (q : BitVec 3) (x stamp : Word) : State := (s.setQueue q (s.crew.queue q ++ [⟨x, stamp, false⟩])).arrived q

/-- An entry has left: at a queue that was full, the oldest waiting QPUSH appends (R149). -/
def State.departed (s : State) (q : BitVec 3) : State :=
  match s.waiters q 0 with
  | k :: _ =>
    if (s.crew.queue q).length < 8 then
      let s := s.appendEntry q (k.s k.waitReg) (k.lclk + 1)
      s.onStrand k.id fun x => { x.unwait with lclk := x.lclk + 1, pc := x.pc + 4, icnt := min (2 ^ 32 - 1) (x.icnt + 1) }
    else s
  | [] => s

/-- A new wait on a queue, behind every other. -/
def State.newWait (s : State) (q : BitVec 3) (kind : BitVec 2) (r : Reg) : State :=
  let last := ((s.allStrands.filterMap (·.qwait)).map (·.order)).foldl max 0
  s.setMe fun k => { k with qwait := some ⟨q, last + 1, kind, r⟩ }

/-- The strand begins to wait on a queue, or goes on waiting. -/
def State.queueWait (s : State) (q : BitVec 3) (kind : BitVec 2) (r : Reg) : State :=
  match s.me.qwait with
  | some w => if w.queue = q ∧ w.kind = kind ∧ w.reg = r then s else s.newWait q kind r
  | none => s.newWait q kind r

/-- An entry whose storage failed raises QUEUE at the instruction that would take it, and is removed (R420). -/
def State.queueError (s : State) (info : Word) (q : BitVec 3) : State :=
  ((s.setQueue q (s.crew.queue q).tail).departed q).trap cQUEUE info (some (spoilAddr 4 q.toNat))

/-- QPUSH (R148). -/
def execQpush (a : Reg) (q : BitVec 3) (s : State) : Out :=
  s.scalarOp (wordOf32 (.qpush a q)) [a] [] (
    if 8 ≤ (s.crew.queue q).length then .next (s.queueWait q 0 a)
    else
      let x := s.s a
      let s := s.tick.advance
      .next (s.appendEntry q x s.me.lclk))

/-- QPOP (R148). -/
def execQpop (d : Reg) (q : BitVec 3) (s : State) : Out :=
  let info := wordOf32 (.qpop d q)
  s.scalarOp info [] [d] (
    match s.crew.queue q with
    | [] => .next (s.queueWait q 1 d)
    | c :: t =>
      if c.bad then .next (s.queueError info q)
      else .next (((s.setQueue q t).setMe (·.takes d c)).departed q))

/-- QPEEK (R148). -/
def execQpeek (d : Reg) (q : BitVec 3) (s : State) : Out :=
  let info := wordOf32 (.qpeek d q)
  s.scalarOp info [] [d] (
    match s.crew.queue q with
    | [] => .next (s.queueWait q 2 d)
    | c :: _ => if c.bad then .next (s.queueError info q) else .next (s.setMe (·.takes d c)))

/-- QTRY: never waits on the queue; s(D + 1) says whether it took an entry (R148). -/
def execQtry (d : Reg) (q : BitVec 3) (s : State) : Out :=
  let info := wordOf32 (.qtry d q)
  s.scalarOp info [] [d, d + 1] (
    match s.crew.queue q with
    | [] => .next ((s.w d 0).finish (d + 1) 0)
    | c :: t =>
      if c.bad then .next (s.queueError info q)
      else .next ((((s.setQueue q t).w (d + 1) 1).setMe (·.takes d c)).departed q))

end Sys2Proof.Machine
end

