-- ==== Sys2Proof/Machine/Fabric.lean ====
section
/-! DEFINITION. The fabric side of the hub: clocks of messages, admission, responses and their repeats, and requests of other devices
performed at their home (R363 to R373). -/

namespace Sys2Proof.Machine

/-! ### Sending and receiving -/

/-- The hub's clock on receiving a stamped message (R452). -/
def State.hubHears (s : State) (stamp : Word) : State := { s with clk := { s.clk with hub := maxW s.clk.hub stamp + 1 } }

/-- A message of this hub's own: it advances the hub's clock and carries it (R371, R452). -/
def State.say (s : State) (mt : Byte) (dev : BitVec 9) (ctx : BitVec 16) (tid : Word) (body : List Byte) : State :=
  let hub := s.clk.hub + 1
  ({ s with clk := { s.clk with hub := hub } }).send mt ⟨s.dev, dev, ctx, tid, hub, body⟩

/-- A message that takes a transaction identifier of its own. -/
def State.sayFresh (s : State) (mt : Byte) (dev : BitVec 9) (ctx : BitVec 16) (body : List Byte) : State :=
  ({ s with fab := { s.fab with nextTid := s.fab.nextTid + 1 } }).say mt dev ctx s.fab.nextTid body

/-- The body of a message keeps the limit of its type and its reserved fields are zero (R371 to R374). -/
def msgOk (mt : Byte) (msg : Msg) : Bool :=
  let len := msg.body.length
  let z (off n : Nat) : Bool := numAt msg.body off n == 0
  let coll (limit : Nat) : Bool := decide (len ≤ limit) && z 2 2
  let n := numAt msg.body 8 2
  let opc := numAt msg.body 0x0A 1
  match mt.toNat with
  | 0x01 => decide (len ≤ 32) && opc == 0 && z 0x0C 20
  | 0x02 => decide (len ≤ 32 + n) && opc == 0 && z 0x0C 20
  | 0x03 => decide (len ≤ 32) && (decide (0x2D ≤ opc ∧ opc ≤ 0x36) || opc == 0x3A) && z 0x0C 4 && (opc == 0x36 || z 0x18 8) && (n == 4 || n == 8)
  | 0x04 => decide (len ≤ 32 + n) && decide (opc ≤ 1) && fld (numAt msg.body 0x0C 4) 31 17 == 0 && z 0x10 16
  | 0x05 => decide (len ≤ 8 + 256) && decide (numAt msg.body 1 1 ≤ 1) && z 3 5
  | 0x10 => decide (len ≤ 16) && z 0x0C 4 && msg.ctx == 0
  | 0x11 => decide (len ≤ 8) && z 2 6 && msg.ctx == 0
  | 0x12 => decide (len ≤ 520) && z 4 4 && msg.ctx == 0 && msg.tid == 0
  | 0x20 => coll (32 + 1024) && z 0x0E 2
  | 0x21 => coll 16 && z 0x0D 3
  | 0x22 => coll 16
  | 0x23 => coll 8
  | 0x24 => coll (2 ^ 26) && z 0x20C 4
  | 0x25 => coll (2 ^ 26) && z 0x0A 6 && z (0x14 + 512 * n) 4
  | 0x26 => coll 8
  | 0x27 => coll 8
  | 0x28 => coll (64 + 65536) && z 0x1A 6
  | 0x29 => coll 16
  | 0x2A => coll 16
  | _ => false

/-- A message for this device acts; one for another is forwarded whole; a device outside the pod takes none, and a malformed one is
discarded (R363, R370, R371). -/
def State.deliver (s : State) (mt : Byte) (msg : Msg) (act : State → State) : State :=
  if !s.inPod || !msgOk mt msg then s
  else if msg.ddev ≠ s.dev then s.send mt msg
  else act (s.hubHears msg.stamp)

/-! ### Admission (R369, R373) -/

/-- Bytes of the receive pool (R369). -/
def receivePool : Nat := 64 * 2 ^ 20

/-- The body of an ADMIT. -/
def admitBody (bytes tries : Nat) : List Byte := leBytes 8 bytes ++ leBytes 4 tries ++ leBytes 4 0

/-- An admission that was given ends: the data has arrived. -/
def State.unadmit (s : State) (p : BitVec 9 × Word × Nat × Nat × Bool → Bool) : State :=
  match s.fab.admits.find? p with
  | none => s
  | some a => { s with fab := { s.fab with admits := s.fab.admits.erase a, pool := if a.2.2.2.2 then s.fab.pool - a.2.2.1 else s.fab.pool } }

/-- A destination takes an admission request: it keeps the time of the first, and accepts those that wait in the order of that
time, among equal times the lower device first (R369). -/
def State.takeAdmit (s : State) (msg : Msg) : State :=
  let bytes := numAt msg.body 0 8
  let mine (a : BitVec 9 × Word × Nat × Nat × Bool) : Bool := a.1 == msg.sdev && a.2.1 == msg.tid
  let held := s.fab.admits.find? mine
  let first := (held.map (·.2.2.2.1)).getD s.clk.ns
  let done := (held.map (·.2.2.2.2)).getD false
  let before (a : BitVec 9 × Word × Nat × Nat × Bool) : Bool := !mine a && !a.2.2.2.2 &&
    (decide (a.2.2.2.1 < first) || (a.2.2.2.1 == first && decide (a.1.toNat < msg.sdev.toNat)))
  let room := decide (s.fab.pool + bytes ≤ receivePool) && !s.fab.admits.any before
  let admits := (msg.sdev, msg.tid, bytes, first, done || room) :: s.fab.admits.filter fun a => !mine a
  let s' := { s with fab := { s.fab with admits := admits, pool := if room && !done then s.fab.pool + bytes else s.fab.pool } }
  if done || room then s'.say 0x11 msg.sdev 0 msg.tid (List.replicate 8 0)
  else ({ s' with free := s'.free + 1 }).say 0x11 msg.sdev 0 msg.tid ([1, BitVec.ofNat 8 (1 + Config.freeChoice s.free % 64)] ++ List.replicate 6 0)

/-- A source hears the answer to its admission request: on "accept" the data goes out (R369). -/
def State.takeAdmitans (s : State) (msg : Msg) : State :=
  match s.fab.txs.find? fun t => t.tid == msg.tid && t.msg.ddev == msg.sdev && !t.admitted with
  | none => s
  | some t =>
    if numAt msg.body 0 1 = 0 then
      let txs := if t.mt = 0x05 then s.fab.txs.filter (·.tid ≠ t.tid) else replaceIf (·.tid == t.tid) (fun t => { t with admitted := true, at_ := s.clk.ns }) s.fab.txs
      ({ s with fab := { s.fab with txs := txs } }).send t.mt t.msg
    else { s with fab := { s.fab with txs := replaceIf (·.tid == t.tid) (fun t => { t with wait := numAt msg.body 1 1, at_ := s.clk.ns }) s.fab.txs } }

/-- Sends an admission request again, as the next attempt. -/
def State.admitAgain (s : State) (t : Tx) : State :=
  let s := { s with fab := { s.fab with txs := replaceIf (·.tid == t.tid) (fun t => { t with tries := t.tries + 1, wait := 0, at_ := s.clk.ns }) s.fab.txs } }
  s.say 0x10 t.msg.ddev 0 t.tid (admitBody (msgDataBytes t.mt t.msg.body) (t.tries + 1))

/-- ADMIT_RETRY: the wait that the destination gave has passed (R369). -/
def execAdmitRetry (tid : Word) (s : State) : Out :=
  match s.fab.txs.find? (·.tid = tid) with
  | none => .next s
  | some t => if !t.admitted ∧ t.wait ≠ 0 ∧ t.at_ + t.wait * 1000 ≤ s.clk.ns then .next (s.admitAgain t) else .next s

/-- TRANSACTION_REISSUE: no response, or no answer to its admission request, within 100 µs: the source sends it again (R370). -/
def execTransactionReissue (tid : Word) (s : State) : Out :=
  match s.fab.txs.find? (·.tid = tid) with
  | none => .next s
  | some t =>
    if t.resp.isSome ∨ s.clk.ns < t.at_ + 100000 ∨ t.wait ≠ 0 then .next s
    else if !t.admitted then .next (s.admitAgain t)
    else
      let s' := { s with fab := { s.fab with txs := replaceIf (·.tid == tid) (fun t => { t with at_ := s.clk.ns }) s.fab.txs } }
      .next (s'.send t.mt t.msg)

/-! ### Responses (R370, R372) -/

/-- Answers a request and keeps the answer for repeats. An answer that carries data asks for admission first, under an
identifier of this device. -/
def State.respond (s : State) (msg : Msg) (status : Byte) (poison : Bool) (flags : Nat) (data : List Byte) : State :=
  let hub := s.clk.hub + 1
  let ans : Msg := ⟨s.dev, msg.sdev, msg.ctx, msg.tid, hub, [status, if poison then 1 else 0, BitVec.ofNat 8 (flags / 256)] ++ List.replicate 5 0 ++ data⟩
  let s := { s with clk := { s.clk with hub := hub }, fab := { s.fab with served := (msg.sdev, msg.tid, ans) :: s.fab.served } }
  if data.isEmpty then s.send 0x05 ans
  else
    let tid := s.fab.nextTid
    let tx : Tx := { own := [9], tid := tid, mt := 0x05, msg := ans, at_ := s.clk.ns, admitted := false, tries := 1, wait := 0, resp := none }
    ({ s with fab := { s.fab with nextTid := tid + 1, txs := s.fab.txs ++ [tx] } }).say 0x10 msg.sdev 0 tid (admitBody data.length 1)

/-- A transaction is performed at most once; a repeat gets the response first given (R370). -/
def State.once (s : State) (msg : Msg) (act : State → State) : State :=
  match s.fab.served.find? fun x => x.1 == msg.sdev && x.2.1 == msg.tid with
  | some x =>
    if x.2.2.body.length ≤ 8 then s.send 0x05 x.2.2
    else if s.fab.txs.any fun t => t.mt == 0x05 && t.msg == x.2.2 then s
    else
      let tid := s.fab.nextTid
      let tx : Tx := { own := [9], tid := tid, mt := 0x05, msg := x.2.2, at_ := s.clk.ns, admitted := false, tries := 1, wait := 0, resp := none }
      ({ s with fab := { s.fab with nextTid := tid + 1, txs := s.fab.txs ++ [tx] } }).say 0x10 msg.sdev 0 tid (admitBody (x.2.2.body.length - 8) 1)
  | none => act (s.unadmit fun a => a.1 == msg.sdev && a.2.1 == msg.tid && a.2.2.2.2)

/-- A response reaches its requester (R372); that of a chunk only ends its transaction. -/
def State.takeResponse (s : State) (msg : Msg) : State :=
  let s := s.unadmit fun a => a.1 == msg.sdev && a.2.2.2.2 && a.2.2.1 == msg.body.length - 8 && decide (8 < msg.body.length)
  match s.fab.txs.find? fun t => t.tid == msg.tid && t.msg.ddev == msg.sdev && t.mt != 0x05 with
  | none => s
  | some t =>
    if t.mt = 0x28 ∨ t.own = [15] then { s with fab := { s.fab with txs := s.fab.txs.filter (·.tid ≠ t.tid) } }
    else { s with fab := { s.fab with txs := replaceIf (·.tid == t.tid) (fun t => if t.resp.isNone then { t with resp := some msg } else t) s.fab.txs } }

/-! ### Requests of other devices at their home (R287, R372) -/

/-- The requester that a message stands for. -/
def reqOf (msg : Msg) : Req :=
  { ctx := msg.ctx, user := false, agent := 3, core := 0, slot := 0, lid := 0, cid := 0, scalar := false, stamp := msg.stamp, word := 0
    own := [4, msg.sdev.toNat, msg.tid.toNat] }

/-- STATUS of a trap code. -/
def statusOf (c : Byte) : Byte := if c = cXLATE ∨ c = cPROT ∨ c = cPOISON then c else cPROT

/-- Performs a request whose VA must lie in a range of MODE 0 or 1, once; LOGFULL and a wait leave it unanswered, and its source
sends it again. -/
def State.serve (s : State) (msg : Msg) (act : Req → Word → Nat → State → Att (Bool × Nat × List Byte)) : State :=
  let va := w64 (numAt msg.body 0 8)
  let n := numAt msg.body 8 2
  s.once msg fun s =>
    match s.homeOf (reqOf msg) va false with
    | .die _ _ =>
      if n = 0 ∨ 256 < va.toNat % 256 + n then s
      else match act (reqOf msg) va n s with
        | .ok (bad, flags, data) s' => s'.respond msg 0 bad flags data
        | .trap c s' => if c = cLOGFULL then s else s'.respond msg (statusOf c) false 0 []
        | .wait s' => s'
    | _ => s.respond msg 1 false 0 []

/-- Bytes that a WRITE or an ADD carries. -/
def msgData (msg : Msg) : List Byte := msg.body.drop 32

/-- P of ORD: the data carried is poisoned. -/
def msgPoison (msg : Msg) : Bool := numAt msg.body 0x0B 1 % 2 == 1

/-- READ (R372). -/
def State.serveRead (s : State) (msg : Msg) : State :=
  s.serve msg fun r va n s => match s.memRead r va n .read with
    | .ok (bs, bad) s' => .ok (bad, 0, bs) s'
    | .trap c s' => .trap c s'
    | .wait s' => .wait s'

/-- WRITE (R372). One with a scope or an order is an ordered store, which needs R = 1 and W = 1 (R166). -/
def State.serveWrite (s : State) (msg : Msg) : State :=
  let need : Need := if numAt msg.body 0x0B 1 / 2 = 0 then .write else .both
  s.serve msg fun r va n s => match s.memWrite r va ((msgData msg).take n) (msgPoison msg) need { marked := true } with
    | .ok _ s' => .ok (false, 0, []) s'
    | .trap c s' => .trap c s'
    | .wait s' => .wait s'

/-- ADD: one element of a VSTXA (R317, R372). -/
def State.serveAdd (s : State) (msg : Msg) : State :=
  let w := numAt msg.body 0x0C 4
  let f := Fmt.of (fld w 11 0)
  let nm : Word := w64 (fld w 13 12 + fld w 14 14 * 4 + fld w 15 15 * 8 + 0x10)
  s.serve msg fun r va n s => match s.memAdd r va f nm (fld w 16 16 == 1) (leNat ((msgData msg).take n)) (msgPoison msg) true with
    | .ok flags s' => .ok (false, flags, []) s'
    | .trap c s' => .trap c s'
    | .wait s' => .wait s'

end Sys2Proof.Machine
end

