-- ==== Sys2Proof/Machine/Sheepdog.lean ====
section
/-! DEFINITION. The Sheepdog collective engine: groups, the agreement and its trees, COLL, chunks and their combination, failures
(R376 to R394, R509). -/

namespace Sys2Proof.Machine

/-! ### The descriptor (R381 to R383) -/

def Coll.op (c : Coll) : Nat := bf c.ctl 3 0
def Coll.dt (c : Coll) : Nat := bf c.ctl 7 4
def Coll.red (c : Coll) : Nat := bf c.ctl 9 8
def Coll.inplace (c : Coll) : Bool := bt c.ctl 10
def Coll.root (c : Coll) : Nat := bf c.ctl 31 16
def Coll.grp (c : Coll) : BitVec 16 := BitVec.ofNat 16 (bf c.ctl 63 48)
def Coll.isJoin (c : Coll) : Bool := c.op == 0
def Coll.isLeave (c : Coll) : Bool := c.op == 6

/-- The chunk size C. -/
def Coll.size (c : Coll) : Nat := if bf c.ctl 36 32 = 0 then 65536 else 2 ^ bf c.ctl 36 32

/-- The element format of DT. -/
def dtFmt : Nat → Fmt
  | 0 => ⟨1, 5, 0⟩
  | 1 => ⟨1, 6, 0⟩
  | 2 => ⟨0, 5, 0⟩
  | 3 => ⟨0, 6, 0⟩
  | 4 => ⟨4, 5, 0⟩
  | 5 => ⟨3, 4, 0⟩
  | _ => ⟨5, 6, 0⟩

def Coll.eb (c : Coll) : Nat := (dtFmt c.dt).eb

/-- Bytes of COUNT elements. -/
def Coll.part (c : Coll) : Nat := c.count * c.eb

/-- The bytes B of the logical vector over n members. -/
def Coll.total (c : Coll) (n : Nat) : Nat := if c.op = 4 ∨ c.op = 5 then n * c.part else c.part

def Coll.chunks (c : Coll) (n : Nat) : Nat := if c.isJoin || c.isLeave then 0 else (c.total n + c.size - 1) / c.size

/-- Logical bytes lo to hi − 1. -/
structure Span where
  lo : Nat
  hi : Nat
  deriving DecidableEq, Repr

def Span.cut (a b : Span) : Span := ⟨max a.lo b.lo, min a.hi b.hi⟩
def Span.empty (a : Span) : Bool := decide (a.hi ≤ a.lo)

/-- The logical bytes that rank r contributes, and those of which it is a recipient (R383). -/
def Coll.gives (c : Coll) (n r : Nat) : Span :=
  match c.op with
  | 3 => if r = c.root then ⟨0, c.part⟩ else ⟨0, 0⟩
  | 4 => ⟨r * c.part, (r + 1) * c.part⟩
  | _ => ⟨0, c.total n⟩
def Coll.gets (c : Coll) (n r : Nat) : Span :=
  match c.op with
  | 2 => if r = c.root then ⟨0, c.part⟩ else ⟨0, 0⟩
  | 5 => ⟨r * c.part, (r + 1) * c.part⟩
  | _ => ⟨0, c.total n⟩

/-- The bytes of chunk k. -/
def Coll.span (c : Coll) (n k : Nat) : Span := ⟨k * c.size, min ((k + 1) * c.size) (c.total n)⟩

/-- Where logical byte x lies at rank r: in SRC or STAGE by offset, and in DST. -/
def Coll.srcOff (c : Coll) (r x : Nat) : Nat := if c.op = 4 then x - r * c.part else x
def Coll.dstAt (c : Coll) (r x : Nat) : Word := c.dst + w64 (if c.op = 5 then x - r * c.part else x)

/-- The requester for a collective's accesses (R281, R306, R338). -/
def Coll.req (c : Coll) (ctx : BitVec 16) : Req :=
  { ctx := ctx, user := c.user, agent := 2, core := c.core, slot := c.slot, lid := c.lid, cid := c.cid, scalar := false, stamp := c.stamp, word := 0
    own := [12, ctx.toNat, c.grp.toNat, c.num], evicts := true, covers := true }

/-! ### Trees (R378, R379) -/

/-- A usable link from port p of rank u to port q of rank v. -/
structure TLink where
  u : Nat
  p : Nat
  v : Nat
  q : Nat
  deriving DecidableEq, Repr

/-- The same link whichever end names it. -/
def TLink.same (a b : TLink) : Bool := a == b || a == ⟨b.v, b.q, b.u, b.p⟩

/-- The usable links of rank u in table T, in ascending order of (v, p). -/
def linksFrom (members : List (BitVec 9)) (table : List (List Word)) (u : Nat) : List TLink :=
  let entry (r p : Nat) : Word := ((table[r]?).getD []).getD p 0
  let at_ (p : Nat) : Option TLink :=
    let e := entry u p
    let v := members.findIdx (· = BitVec.ofNat 9 (bf e 8 0))
    let q := bf e 21 16
    let f := entry v q
    if bt e 31 ∧ v < members.length ∧ v ≠ u ∧ bt f 31 ∧ members[u]? = some (BitVec.ofNat 9 (bf f 8 0)) ∧ bf f 21 16 = p ∧ linkCarries e ∧ linkCarries f
    then some ⟨u, p, v, q⟩ else none
  sortBy (fun a b => decide (a.v < b.v ∨ (a.v = b.v ∧ a.p ≤ b.p))) ((List.range 64).filterMap at_)

/-- The search of one tree: members reached with their parents, those still to look at, links taken. -/
structure Search where
  parents : List (Nat × Option Nat)
  queue : List Nat
  used : List TLink
  deriving DecidableEq, Repr

/-- One rank's links in the search. -/
def Search.visit (s : Search) (u : Nat) (ls : List TLink) : Search :=
  ls.foldl (fun s l =>
    if s.used.any (l.same ·) || s.parents.any (·.1 == l.v) then s
    else { parents := s.parents ++ [(l.v, some u)], queue := s.queue ++ [l.v], used := s.used ++ [l] }) s

/-- The breadth-first search; each member is looked at once. -/
def Search.run (links : Nat → List TLink) : Nat → Search → Search
  | 0, s => s
  | fuel + 1, s => match s.queue with
    | [] => s
    | u :: rest => Search.run links fuel ({ s with queue := rest }.visit u (links u))

/-- The trees from number t on, with the links that they use; the fuel is what is left of K. -/
def treesFrom (n k : Nat) (links : Nat → List TLink) : Nat → Nat → List TLink → List (List (Option Nat)) × List TLink
  | 0, _, used => ([], used)
  | fuel + 1, t, used =>
    let root := t * n / k
    let s := Search.run links n { parents := [(root, none)], queue := [root], used := used }
    if s.parents.length < n then ([], used)
    else
      let tree := (List.range n).map fun v => ((s.parents.find? (·.1 = v)).map (·.2)).getD none
      let (ts, u) := treesFrom n k links fuel (t + 1) s.used
      (tree :: ts, u)

/-- The trees of a table and the links they use (R379). -/
def deriveTrees (members : List (BitVec 9)) (table : List (List Word)) : List (List (Option Nat)) × List TLink :=
  let n := members.length
  let k := min 8 n
  treesFrom n k (linksFrom members table) k 0 []

/-- Tree of chunk c; its root; the parent and the children of a rank. -/
def Group.tree (g : Group) (c : Nat) : List (Option Nat) := if g.trees.isEmpty then [] else g.trees.getD (c % g.trees.length) []
def Group.rootOf (g : Group) (c : Nat) : Nat := (c % g.trees.length) * g.members.length / min 8 g.members.length
def Group.parentOf (g : Group) (c u : Nat) : Option Nat := (g.tree c).getD u none
def Group.childrenOf (g : Group) (c u : Nat) : List Nat := (List.range g.members.length).filter fun v => g.parentOf c v == some u

/-- The ranks of the subtree of u; the fuel is its depth. -/
def Group.below (g : Group) (c : Nat) : Nat → Nat → List Nat
  | 0, u => [u]
  | fuel + 1, u => u :: ((g.childrenOf c u).map (g.below c fuel)).flatten

def Group.subtree (g : Group) (c u : Nat) : List Nat := g.below c g.members.length u

/-! ### Groups of the state and their messages -/

def State.groupOf (s : State) (ctx grp : BitVec 16) : Option Group := s.groups.find? fun g => g.ctx == ctx && g.grp == grp

def State.mapGroup (s : State) (ctx grp : BitVec 16) (f : Group → Group) : State :=
  { s with groups := replaceIf (fun g => g.ctx == ctx && g.grp == grp) f s.groups }

def Group.mapColl (g : Group) (num : Nat) (f : Coll → Coll) : Group := { g with colls := replaceIf (·.num == num) f g.colls }

def State.mapColl (s : State) (ctx grp : BitVec 16) (num : Nat) (f : Coll → Coll) : State := s.mapGroup ctx grp (·.mapColl num f)

def Group.collOf (g : Group) (num : Nat) : Option Coll := g.colls.find? (·.num = num)

/-- The unfinished collectives of a group. -/
def Group.running (g : Group) : List Coll := g.colls.filter (·.fc.isNone)

def Group.lead (g : Group) : BitVec 9 := g.members.getD 0 0

/-- A message to a device of a group, itself included: one to itself waits in `loop`. -/
def State.tell (s : State) (mt : Byte) (dev : BitVec 9) (ctx : BitVec 16) (body : List Byte) : State :=
  if dev = s.dev then { s with fab := { s.fab with loop := s.fab.loop ++ [(mt, ⟨s.dev, s.dev, ctx, 0, s.clk.hub, body⟩)] } }
  else s.sayFresh mt dev ctx body

/-- The 8-byte prefix of R374. -/
def prefixOf (grp : BitVec 16) (gen : BitVec 32) : List Byte := leBytes 2 grp.toNat ++ leBytes 2 0 ++ leBytes 4 gen.toNat

def State.tellAll (s : State) (g : Group) (mt : Byte) (body : List Byte) : State := g.members.foldl (fun s d => s.tell mt d g.ctx body) s

/-- PROPOSE and COMMIT are sent again every 100 µs until they are answered (R370, R377). -/
def agreementOwn (g : Group) : List Nat := [14, g.ctx.toNat, g.grp.toNat]

def State.tellSure (s : State) (g : Group) (mt : Byte) (dev : BitVec 9) (body : List Byte) : State :=
  if dev = s.dev then s.tell mt dev g.ctx body
  else
    let hub := s.clk.hub + 1
    let msg : Msg := ⟨s.dev, dev, g.ctx, s.fab.nextTid, hub, body⟩
    let tx : Tx := { own := agreementOwn g, tid := s.fab.nextTid, mt := mt, msg := msg, at_ := s.clk.ns, admitted := true, tries := 1, wait := 0, resp := none }
    ({ s with clk := { s.clk with hub := hub }, fab := { s.fab with nextTid := s.fab.nextTid + 1, txs := s.fab.txs ++ [tx] } } : State).send mt msg

/-- Agreement messages of a group that pass a test are sent again no more. -/
def State.unsure (s : State) (g : Group) (p : Tx → Bool) : State :=
  { s with fab := { s.fab with txs := s.fab.txs.filter fun t => !(t.own == agreementOwn g && p t) } }

/-- A STOP with an FC for a collective (R374). -/
def stopBody (grp : BitVec 16) (gen : BitVec 32) (num : Nat) (fc : Byte) : List Byte := prefixOf grp gen ++ leBytes 4 num ++ [fc, 0, 0, 0]

def State.tellStop (s : State) (g : Group) (dev : BitVec 9) (num : Nat) (fc : Byte) : State := s.tell 0x21 dev g.ctx (stopBody g.grp g.gen num fc)

/-- A message of this member to rank 0, given without its prefix. DESIGN CHOICE: one sent while an agreement runs goes again, under the new
generation, when it ends, since rank 0 may have ignored it (R374). -/
def State.tellLead (s : State) (g : Group) (mt : Byte) (rest : List Byte) : State :=
  let s := s.tell mt g.lead g.ctx (prefixOf g.grp g.gen ++ rest)
  if g.agreeing && g.rank != 0 then s.mapGroup g.ctx g.grp fun x => { x with later := x.later ++ [(mt, rest)] } else s

/-- Sheepdog's clock at a completion (R328, R452). -/
def State.sheepdogStamp (s : State) (issue : Word) : Word × State :=
  let t := maxW s.clk.sheepdog issue + 1
  (t, { s with clk := { s.clk with sheepdog := t } })

/-! ### The end of a collective (R386, R393, R394) -/

/-- A status goes to the issuing strand, with the flags of its combinations. -/
def Strand.collDone (k : Strand) (ctx grp : BitVec 16) (num : Nat) (d : Reg) (st flags : Word) : Strand :=
  let k := { k with as := { k.as with colls := k.as.colls.filter fun x => !(x.2.1 == ctx && x.2.2.1 == grp && x.2.2.2 == num) } }
  { k.w d st with cfg := { k.cfg with nm := k.cfg.nm ||| (flags &&& 0x3F00) } }

/-- Waits on the timeline of a group that is released: those whose count it had reached are to return (R327). -/
def State.releaseWaits (s : State) (g : Group) : State :=
  let t := g.timeline
  let sel : Word := w64 (2 * 2 ^ 60 + g.grp.toNat)
  s.mapStrands fun k => match k.tlWait with
    | some w => if k.ctx = g.ctx ∧ w.sel = sel ∧ w.met = none ∧ w.n.toNat ≤ t.value then { k with tlWait := some { w with met := some (t.stamp w.n.toNat) } } else k
    | none => k

/-- The group is held here no more. -/
def State.dropGroup (s : State) (g : Group) : State :=
  { s.unsure g (fun _ => true) with groups := s.groups.filter fun x => !(x.ctx == g.ctx && x.grp == g.grp) }

/-- A JOIN that ends without its group: after a cancel at rank 0 the MATCHes of the others go on waiting there (R509). -/
def State.joinEnds (s : State) (g : Group) (fc : Byte) : State :=
  let held := if fc = 0x10 ∧ g.rank = 0 then (g.calls.map (·.2.2)).filter (·.sdev != s.dev) else []
  let s := s.dropGroup g
  { s with fab := { s.fab with joins := s.fab.joins ++ held } }

/-- A collective finishes on this member with this FC; one that COLL refused takes the stamp of its issue (R328, R386). -/
def State.endCollAt (s : State) (ctx grp : BitVec 16) (num : Nat) (fc : Byte) (refused : Bool) : State :=
  match s.groupOf ctx grp with
  | none => s
  | some g => match (g.collOf num).filter (·.fc.isNone) with
    | none => s
    | some c =>
      let (t, s) := if refused then (c.stamp, s) else s.sheepdogStamp c.stamp
      let done := (c.marks.filter (· = 3)).length
      let st := statusWord (w64 num) fc done
      let s := s.mapColl ctx grp num fun c => { c with fc := some fc, stamp := t, parts := [], waiting := [], areas := [], loose := [], helps := fc == 0 && g.agreeing && !c.isJoin }
      let s := { s with mem := s.mem.covered (c.req ctx).own }
      let s := match c.strand with
        | some (k, d) => s.onStrand k (·.collDone ctx grp num d st c.flags)
        | none => s
      let s := match c.node with
        | some (gr, n) =>
          let stopped := fc != 0 && (c.cancel || (s.graphAt gr).any (fun (x : Graph) => x.cancelled))
          if fc = 0 then (s.nodeSettles gr n 1 0).ended (.graph gr) 0
          else if stopped then (s.nodeSettles gr n 2 0).ended (.graph gr) 0
          else (s.nodeSettles gr n 3 cCOPYFAULT).ended (.graph gr) cCOPYFAULT
        | none => s
      let s := s.trace ctx 8 srcPackage t st (grp.setWidth 64) 0 []
      if c.isJoin ∧ fc ≠ 0 then s.joinEnds g fc else s

def State.endColl (s : State) (ctx grp : BitVec 16) (num : Nat) (fc : Byte) : State := s.endCollAt ctx grp num fc false

/-- A LEAVE completes once every earlier collective of the group here has, and the group is released; later ones stop with it (R376, R393). -/
def State.tryLeave (s : State) (ctx grp : BitVec 16) : State :=
  match s.groupOf ctx grp with
  | none => s
  | some g => match g.running.find? (·.isLeave) with
    | none => s
    | some c =>
      if g.running.any fun x => decide (x.num < c.num) then s
      else
        let s := (g.running.filter fun x => decide (c.num < x.num)).foldl (fun s x => s.endColl ctx grp x.num 0x22) (s.endColl ctx grp c.num 0)
        match s.groupOf ctx grp with
        | none => s
        | some g => (s.releaseWaits g).dropGroup g

/-- A collective stops here for a reason of this member, and rank 0 is told (R393). -/
def State.failColl (s : State) (g : Group) (num : Nat) (fc : Byte) : State :=
  ((s.tellLead g 0x21 (leBytes 4 num ++ [fc, 0, 0, 0])).endColl g.ctx g.grp num fc).tryLeave g.ctx g.grp

/-- Collectives that a cancel asked to stop do so at this chunk boundary (R55, R393). -/
def State.sweepColls (s : State) : State :=
  s.groups.foldl (fun s g => (g.running.filter fun c => c.cancel && !c.isLeave).foldl (fun s c => s.failColl g c.num 0x10) s) s

/-! ### Memory accesses of a collective -/

/-- Bytes that a collective writes: those of them that are undefined are free values (R384, R399). -/
def State.loosened (s : State) (c : Coll) (ctx : BitVec 16) (a : Word) (bs : List (Byte × Bool)) : List (Byte × Bool) × State :=
  let x := s.areaOf (c.req ctx) a bs.length
  match c.loose.filter x.meets with
  | [] => (bs, s)
  | ls => (bs.mapIdx fun i b => if ls.any (fun l => decide (l.lo ≤ x.lo + i ∧ x.lo + i < l.hi)) then (Config.freeByte (s.free + i), b.2) else b,
      { s with free := s.free + bs.length })

/-- n bytes, each with its poison; the fuel bounds the pieces. On a wait nothing else of the attempt counts. -/
def State.collPieces (s0 s : State) (r : Req) : Nat → Word → Nat → Att (List (Byte × Bool))
  | 0, _, _ => .ok [] s
  | fuel + 1, a, n =>
    if n = 0 then .ok [] s
    else
      let k := min n (256 - a.toNat % 256)
      match s.memRead r a k .read with
      | .trap c s' => .trap c s'
      | .wait s' => .wait (s0.waitKeeping s')
      | .ok (bs, bad) s' => match s0.collPieces s' r fuel (a + w64 k) (n - k) with
        | .ok t s'' => .ok (bs.map (fun b => (b, bad)) ++ t) s''
        | o => o

/-- n bytes that a collective reads: with one of them undefined all are free values (R384, R399). -/
def State.collRead (s : State) (c : Coll) (ctx : BitVec 16) (a : Word) (n : Nat) : Att (List (Byte × Bool)) :=
  match s.collPieces s (c.req ctx) (n / 256 + 2) a n with
  | .ok bs s' =>
    if c.loose.any (s.areaOf (c.req ctx) a n).meets then .ok (bs.mapIdx fun i b => (Config.freeByte (s'.free + i), b.2)) { s' with free := s'.free + n }
    else .ok bs s'
  | o => o

/-- Writes bytes sector by sector, with poison where a piece holds a poisoned one; nothing is logged (R380). On a wait nothing else of the attempt
counts. -/
def State.putPieces (s0 s : State) (r : Req) : Nat → Word → List (Byte × Bool) → Att Unit
  | 0, _, _ => .ok () s
  | fuel + 1, a, bs =>
    if bs.isEmpty then .ok () s
    else
      let k := 256 - a.toNat % 256
      let now := bs.take k
      match s.memWrite r a (now.map (·.1)) (now.any (·.2)) .write { marked := true, log := false } with
      | .trap c s' => .trap c s'
      | .wait s' => .wait (s0.waitKeeping s')
      | .ok _ s' => s0.putPieces s' r fuel (a + w64 k) (bs.drop k)

def State.collWrite (s : State) (c : Coll) (ctx : BitVec 16) (a : Word) (bs : List (Byte × Bool)) : Att Unit :=
  let x := s.loosened c ctx a bs
  match s.putPieces x.2 (c.req ctx) (bs.length / 256 + 2) a x.1 with
  | .wait s' => .wait (s.waitKeeping s')
  | o => o

/-- Runs a step of chunk k for the group and the collective as they stand: running, or, with `helpers`, completed here and passing chunks on. A
fault stops the collective (R393); a step that waits is taken up again. -/
def State.onColl (s : State) (ctx grp : BitVec 16) (num k : Nat) (helpers : Bool) (f : Group → Coll → State → Att Unit) : State :=
  match s.groupOf ctx grp with
  | none => s
  | some g => match (g.collOf num).filter fun c => c.fc.isNone || (helpers && c.helps) with
    | none => s
    | some c => match f g c s with
      | .ok _ s' => s'
      | .wait s' => (s.waitKeeping s').mapColl ctx grp num fun c => { c with waiting := setIns c.waiting k }
      | .trap e s' => s'.failColl g num (if e = cPROT then cPROT else cXLATE)

/-- Sets the mark of a chunk; a mark never falls (R389). -/
def State.setMark (s : State) (ctx : BitVec 16) (c : Coll) (k : Nat) (m : BitVec 2) : Att Unit :=
  if m ≤ c.marks.getD k 0 then .ok () s
  else match s.collWrite c ctx (c.prog + w64 k) [(m.setWidth 8, false)] with
    | .ok _ s' => .ok () (s'.mapColl ctx c.grp c.num fun c => { c with marks := c.marks.set k m })
    | o => o

/-! ### Chunk values (R388, R390) -/

/-- The value of a chunk: per byte, the byte and its poison, or nothing contributed. -/
abbrev Val := List (Option (Byte × Bool))

/-- The bytes of a piece laid over a chunk of len bytes. -/
def CPiece.over (p : CPiece) (len : Nat) : Val :=
  (List.range len).map fun i => if p.off ≤ i ∧ i < p.off + p.data.length then some (p.data.getD (i - p.off) 0, p.bad.contains (i - p.off)) else none

/-- What has arrived of a chunk from a rank in one direction, or from anywhere. -/
def Coll.heard (c : Coll) (k len : Nat) (src : Option Nat) (down : Bool) : Val :=
  let mine := c.parts.filter fun p => p.chunk == k && p.down == down && (src.isNone || src == some p.src)
  (List.range len).map fun i => mine.findSome? fun p =>
    if p.off ≤ i ∧ i < p.off + p.data.length then some (p.data.getD (i - p.off) 0, p.bad.contains (i - p.off)) else none

/-- The bytes of a chunk that ranks contribute to. -/
def Coll.covered (c : Coll) (n k : Nat) (ranks : List Nat) (i : Nat) : Bool :=
  ranks.any fun r => let s := c.gives n r; decide (s.lo ≤ (c.span n k).lo + i ∧ (c.span n k).lo + i < s.hi)

/-- A child's subtree value has arrived whole. -/
def Coll.whole (c : Coll) (n k : Nat) (ranks : List Nat) (v : Val) : Bool :=
  (v.mapIdx fun i x => x.isSome || !c.covered n k ranks i).all fun b => b

/-- Comb on one element (R388). -/
def Coll.comb (c : Coll) (x y : Nat) : Nat × Nat :=
  let f := dtFmt c.dt
  match c.red with
  | 0 => if f.isInt then (f.vadd false x y).1 |> fun z => (z, 0) else let r := f.fadd c.nm x y; (r.1, r.2)
  | m => if f.isInt then let r := f.vminmax f.signed (m == 1) x y; (r.1, r.2) else let r := f.fminmax c.nm (m == 1) x y; (r.1, r.2)

/-- Comb on values, element by element, with the flags. -/
def Coll.combine (c : Coll) : Nat → Val → Val → Val × Nat
  | 0, _, _ => ([], 0)
  | fuel + 1, a, b =>
    if a.isEmpty then ([], 0)
    else
      let x := a.take c.eb
      let y := b.take c.eb
      let (t, fl) := c.combine fuel (a.drop c.eb) (b.drop c.eb)
      if x.all (·.isNone) then (y ++ t, fl)
      else if y.all (·.isNone) then (x ++ t, fl)
      else
        let num (v : Val) : Nat := leNat (v.map fun e => (e.map (·.1)).getD 0)
        let bad := (x ++ y).any fun e => (e.map (·.2)).getD false
        let (z, f) := c.comb (num x) (num y)
        ((leBytes c.eb z).map (fun e => some (e, bad)) ++ t, Nat.lor fl f)

/-- This member's contribution to a chunk, from SRC, or from STAGE once it was copied there. -/
def State.contribution (s : State) (g : Group) (c : Coll) (k : Nat) : Att Val :=
  let n := g.members.length
  let sp := c.span n k
  let mine := sp.cut (c.gives n g.rank)
  if mine.empty then .ok (List.replicate (sp.hi - sp.lo) none) s
  else
    let base := if c.staged.contains k then c.stage else c.src
    match s.collRead c g.ctx (base + w64 (c.srcOff g.rank mine.lo)) (mine.hi - mine.lo) with
    | .trap e s' => .trap e s'
    | .wait s' => .wait s'
    | .ok bs s' => .ok (List.replicate (mine.lo - sp.lo) none ++ bs.map some ++ List.replicate (sp.hi - mine.hi) none) s'

/-- Copies the contribution to a chunk into STAGE before DST is first written (R390). -/
def State.stageChunk (s : State) (g : Group) (c : Coll) (k : Nat) : Att Unit :=
  if !c.inplace || c.staged.contains k then .ok () s
  else
    let n := g.members.length
    let mine := (c.span n k).cut (c.gives n g.rank)
    let noted (s : State) : State := s.mapColl g.ctx g.grp c.num fun c => { c with staged := k :: c.staged }
    if mine.empty then .ok () (noted s)
    else match s.collRead c g.ctx (c.src + w64 (c.srcOff g.rank mine.lo)) (mine.hi - mine.lo) with
      | .trap e s' => .trap e s'
      | .wait s' => .wait s'
      | .ok bs s' => match s'.collWrite c g.ctx (c.stage + w64 (c.srcOff g.rank mine.lo)) bs with
        | .ok _ s'' => .ok () (noted s'')
        | .wait s'' => .wait (s.waitKeeping s'')
        | o => o

/-! ### Chunk messages (R374) -/

/-- The runs of bytes present in a value, in pieces of at most 65,536: offset and bytes. -/
def runsOf : Nat → Nat → Val → List (Nat × List (Byte × Bool))
  | 0, _, _ => []
  | fuel + 1, off, v =>
    let gap := (v.takeWhile (·.isNone)).length
    let run := ((v.drop gap).takeWhile (·.isSome)).take 65536
    if run.isEmpty then []
    else (off + gap, run.filterMap fun x => x) :: runsOf fuel (off + gap + run.length) (v.drop (gap + run.length))

/-- The body of a CHUNK. -/
def chunkBody (g : Group) (num k : Nat) (off : Nat) (bs : List (Byte × Bool)) (down : Bool) : List Byte :=
  let bad (j : Nat) : Bool := ((bs.drop (256 * j)).take 256).any (·.2)
  let mask := ((List.range 256).filter bad).map (2 ^ ·)
  prefixOf g.grp g.gen ++ leBytes 4 num ++ leBytes 4 k ++ leBytes 4 off ++ leBytes 4 bs.length
    ++ [BitVec.ofNat 8 (k % g.trees.length), if down then 1 else 0] ++ List.replicate 6 0 ++ leBytes 32 mask.sum ++ bs.map (·.1)

/-- Sends a value, or the bytes of it that a test picks, to another rank. -/
def State.sendChunk (s : State) (g : Group) (num k to_ : Nat) (down : Bool) (v : Val) : State :=
  let dev := g.members.getD to_ 0
  (runsOf (v.length + 1) 0 v).foldl (fun s x =>
    s.startTx [13, g.ctx.toNat, g.grp.toNat, num, k, to_, if down then 1 else 0, x.1, g.gen.toNat] 0x28 dev g.ctx (chunkBody g num k x.1 x.2 down)) s

/-- A value restricted to the bytes of which some of these ranks is a recipient. -/
def Coll.forRanks (c : Coll) (n k : Nat) (ranks : List Nat) (v : Val) : Val :=
  v.mapIdx fun i x => if ranks.any (fun r => let s := c.gets n r; decide (s.lo ≤ (c.span n k).lo + i ∧ (c.span n k).lo + i < s.hi)) then x else none

/-- The ranks that receive some byte of a chunk. -/
def Coll.recipients (c : Coll) (n k : Nat) : List Nat := (List.range n).filter fun r => !((c.span n k).cut (c.gets n r)).empty

/-- Bytes of the final value are passed on to the children that need them. -/
def State.passDown (s : State) (g : Group) (c : Coll) (k : Nat) (v : Val) : State :=
  (g.childrenOf k g.rank).foldl (fun s w => s.sendChunk g c.num k w true (c.forRanks g.members.length k (g.subtree k w) v)) s

/-! ### Steps of a chunk at this member (R388 to R390)

Each step does nothing unless the chunk stands where the step begins, so that steps which wait are taken again in any order. -/

/-- The bytes of chunk k. -/
def Coll.len (c : Coll) (n k : Nat) : Nat := (c.span n k).hi - (c.span n k).lo

/-- A member that holds a child's value combines it. -/
def stepReducing (k : Nat) (g : Group) (c : Coll) (s : State) : Att Unit :=
  if g.agreeing || !(c.parts.any fun p => p.chunk == k && !p.down) || c.marks.getD k 0 != 0 then .ok () s else s.setMark g.ctx c k 1

/-- When the value of every child is there, they are combined with this member's contribution. The result goes to the parent; at the root it is the
final value, which goes down. -/
def stepRaise (k : Nat) (g : Group) (c : Coll) (s : State) : Att Unit :=
  let n := g.members.length
  let len := c.len n k
  let kids := g.childrenOf k g.rank
  if g.agreeing || c.risen.contains k || c.settled.testBit k || !kids.all (fun w => c.whole n k (g.subtree k w) (c.heard k len (some w) false)) then .ok () s
  else match s.contribution g c k with
    | .trap e s' => .trap e s'
    | .wait s' => .wait s'
    | .ok own s' =>
      let (v, flags) := kids.foldl (fun (acc : Val × Nat) w => let r := c.combine (len + 1) acc.1 (c.heard k len (some w) false); (r.1, Nat.lor acc.2 r.2)) (own, 0)
      let formed := match g.parentOf k g.rank with
        | some _ => []
        | none => (runsOf (len + 1) 0 v).map fun x => (⟨k, g.rank, true, x.1, x.2.map (·.1), (List.range x.2.length).filter fun i => ((x.2[i]?).map (·.2)).getD false, false⟩ : CPiece)
      let s'' := s'.mapColl g.ctx g.grp c.num fun c => { c with flags := c.flags ||| w64 flags, risen := k :: c.risen, parts := c.parts ++ formed }
      .ok () (match g.parentOf k g.rank with
        | some p => s''.sendChunk g c.num k p false v
        | none => s''.passDown g c k v)

/-- The subtree value has gone, or the final value is formed. -/
def stepReduced (k : Nat) (g : Group) (c : Coll) (s : State) : Att Unit := if c.risen.contains k then s.setMark g.ctx c k 2 else .ok () s

/-- Bytes of the final value that have come are written in DST; not again where the chunk is done (R391). -/
def stepWrite (k : Nat) (g : Group) (c : Coll) (s : State) : Att Unit :=
  let n := g.members.length
  let lo := (c.span n k).lo
  match c.parts.find? fun p => p.chunk == k && p.down && !p.put with
  | none => .ok () s
  | some p =>
    let noted (s : State) : State := s.mapColl g.ctx g.grp c.num fun c => { c with parts := replaceIf (· == p) (fun p => { p with put := true }) c.parts }
    let own := runsOf (c.len n k + 1) 0 (c.forRanks n k [g.rank] (p.over (c.len n k)))
    if c.marks.getD k 0 = 3 ∨ own.isEmpty then .ok () (noted s)
    else match s.stageChunk g c k with
      | .trap e s' => .trap e s'
      | .wait s' => .wait s'
      | .ok _ s' =>
        let put (acc : Att Unit) (x : Nat × List (Byte × Bool)) : Att Unit := match acc with
          | .ok _ t => t.collWrite c g.ctx (c.dstAt g.rank (lo + x.1)) x.2
          | o => o
        match own.foldl put (.ok () s') with
        | .ok _ s'' => .ok () (noted s'')
        | .wait s'' => .wait (s.waitKeeping s'')
        | .trap e s'' => .trap e s''

/-- A recipient that has written every byte of the chunk tells the root (R374). -/
def stepReport (k : Nat) (g : Group) (c : Coll) (s : State) : Att Unit :=
  let n := g.members.length
  let got := c.heard k (c.len n k) none true
  let missing := ((c.forRanks n k [g.rank] ((List.range (c.len n k)).map fun _ => some (0, false))).zip got).any fun x => x.1.isSome && x.2.isNone
  if missing || (c.parts.any fun p => p.chunk == k && p.down && !p.put) || c.wrote.contains k || !(c.recipients n k).contains g.rank then .ok () s
  else .ok () ((s.mapColl g.ctx g.grp c.num fun c => { c with wrote := k :: c.wrote }).tell 0x29 (g.members.getD (g.rootOf k) 0) g.ctx
    (prefixOf g.grp g.gen ++ leBytes 4 c.num ++ leBytes 4 k))

/-- The sync word of a collective counts bytes that this member received (R389). -/
def State.countColl (s : State) (ctx : BitVec 16) (c : Coll) (bytes : Nat) : State :=
  let swi := bf c.sync 63 48
  if swi = 0 ∨ bytes = 0 then s
  else
    let (t, s') := s.sheepdogStamp c.stamp
    match s'.syncKey (c.req ctx) c.dst swi with
    | some key => { s' with mem := s'.mem.count key bytes t }
    | none => s'

/-- A chunk that every recipient has written is done here: its bytes count in the sync word, and the collective completes with its last chunk
(R389). -/
def stepDone (k : Nat) (g : Group) (c : Coll) (s : State) : Att Unit :=
  if !c.told.contains k || c.marks.getD k 3 == 3 then .ok () s
  else match s.setMark g.ctx c k 3 with
    | .trap e s' => .trap e s'
    | .wait s' => .wait s'
    | .ok _ s1 =>
      let mine := (c.span g.members.length k).cut (c.gets g.members.length g.rank)
      let s2 := s1.countColl g.ctx c (mine.hi - mine.lo)
      let all : Bool := ((s2.groupOf g.ctx g.grp).bind (·.collOf c.num)).any fun (x : Coll) => x.marks.all (· == 3)
      .ok () (if all then (s2.endColl g.ctx g.grp c.num 0).tryLeave g.ctx g.grp else s2)

/-- The pieces of a chunk that are still to be written. -/
def State.toPut (s : State) (ctx grp : BitVec 16) (num k : Nat) : Nat :=
  (((s.groupOf ctx grp).bind (·.collOf num)).map fun c => (c.parts.filter fun p => p.chunk == k && p.down && !p.put).length).getD 0

/-- A chunk of a collective that has begun goes as far as it can. -/
def State.driveChunk (s : State) (ctx grp : BitVec 16) (num k : Nat) : State :=
  let on (f : Group → Coll → State → Att Unit) (s : State) : State :=
    s.onColl ctx grp num k true fun g c s => if !c.begun || c.rewrite || c.marks.length ≤ k || g.trees.isEmpty then .ok () s else f g c s
  let s := on (stepReduced k) (on (stepRaise k) (on (stepReducing k) s))
  let s := (List.range (s.toPut ctx grp num k)).foldl (fun s _ => on (stepWrite k) s) s
  on (stepDone k) (on (stepReport k) s)

/-- The marks go to the progress array, as this member's beginning or a COMMIT asks; then every chunk goes as far as it can. -/
def State.driveColl (s : State) (ctx grp : BitVec 16) (num : Nat) : State :=
  let write (_ : Group) (c : Coll) (s : State) : Att Unit :=
    if !c.rewrite then .ok () s
    else match s.collWrite c ctx c.prog (c.marks.map fun m => (m.setWidth 8, false)) with
      | .ok _ s' => .ok () (s'.mapColl ctx grp num fun c => { c with rewrite := false })
      | o => o
  let s := s.onColl ctx grp num 0 true write
  let n := (((s.groupOf ctx grp).bind (·.collOf num)).map (·.marks.length)).getD 0
  (List.range n).foldl (fun s k => s.driveChunk ctx grp num k) s

/-- A collective begins: every mark becomes pending, and its chunks start (R387). -/
def State.beginColl (s : State) (ctx grp : BitVec 16) (num : Nat) : State :=
  match (s.groupOf ctx grp).bind fun g => (g.collOf num).map fun c => c.chunks g.members.length with
  | none => s
  | some n => (s.mapColl ctx grp num fun c => { c with begun := true, rewrite := true, marks := List.replicate n 0 }).driveColl ctx grp num

/-- Steps of collectives that waited are taken up again. -/
def State.retryColls (s : State) : State :=
  s.groups.foldl (fun s g => (g.colls.filter fun c => !c.waiting.isEmpty).foldl (fun s c =>
    let s := s.mapColl g.ctx g.grp c.num fun c => { c with waiting := [] }
    if c.rewrite then s.driveColl g.ctx g.grp c.num else c.waiting.foldl (fun s k => s.driveChunk g.ctx g.grp c.num k) s) s) s

/-! ### The agreement (R377) -/

/-- Rank 0 proposes a new generation. -/
def State.propose (s : State) (g : Group) : State :=
  let gen := g.proposed + 1
  let s := (s.unsure g fun _ => true).mapGroup g.ctx g.grp fun g =>
    { g with proposed := gen, agreeing := true, committed := false, answers := [], acks := [], proposedAt := s.clk.ns, proposedStamp := s.clk.hub }
  g.members.foldl (fun s d => s.tellSure g 0x23 d (prefixOf g.grp gen)) s

/-- A record of done chunks: NUM, NCH, bitmap (R374). -/
def doneRecord (members : Nat) (c : Coll) : List Byte :=
  let n := c.chunks members
  let bits := ((List.range n).filter fun k => c.marks.getD k 0 == 3).map (2 ^ ·)
  leBytes 4 c.num ++ leBytes 4 n ++ leBytes ((n + 63) / 64 * 8) bits.sum

/-- The records in a body: number, chunk count and bitmap; the fuel is their count. -/
def records : Nat → List Byte → List (Nat × Nat × Nat)
  | 0, _ => []
  | fuel + 1, bs =>
    let n := numAt bs 4 4
    let len := (n + 63) / 64 * 8
    (numAt bs 0 4, n, numAt bs 8 len) :: records fuel (bs.drop (8 + len))

/-- A member whose links of the current trees fail pauses, and asks rank 0 for an agreement; rank 0 begins one anew when links of the new trees fail
before RESUME, or more of the old ones before COMMIT (R377, R391, R399). -/
def State.checkTrees (s : State) : State :=
  s.groups.foldl (fun (s : State) (g : Group) =>
    let down (l : TLink) : Option Word :=
      let e := (s.linksOf (g.members.getD l.u 0)).getD l.p 0
      let f := (s.linksOf (g.members.getD l.v 0)).getD l.q 0
      if linkCarries e && linkCarries f then none else some (if linkCarries e then f else e)
    let failed : List Word := if g.gen = 0 then [] else ((deriveTrees g.members g.table).2).filterMap down
    match failed with
    | [] => s
    | e :: _ =>
      if g.rank = 0 then
        if g.agreeing ∧ !g.committed ∧ failed.length ≤ g.downs then s
        else (s.mapGroup g.ctx g.grp fun (x : Group) => { x with downs := failed.length }).propose g
      else if g.agreeing ∧ !g.committed then s
      else
        let s := s.mapGroup g.ctx g.grp fun (x : Group) => { x with agreeing := true, asked := g.gen }
        if g.asked = g.gen then s else s.tell 0x22 g.lead g.ctx (prefixOf g.grp g.gen ++ leBytes 8 e.toNat)) s

/-! ### Messages taken (R374) -/

def msgGrp (m : Msg) : BitVec 16 := BitVec.ofNat 16 (numAt m.body 0 2)
def msgGen (m : Msg) : BitVec 32 := BitVec.ofNat 32 (numAt m.body 4 4)

/-- The MATCH is that of a LEAVE. -/
def msgLeaves (m : Msg) : Bool := numAt m.body 0x10 1 % 16 == 6

/-- Rank 0 takes the MATCH of a JOIN (R509). -/
def State.takeJoin (s : State) (m : Msg) : State :=
  let grp := msgGrp m
  let list := numsOf 2 (numAt m.body 0x0C 2) (m.body.drop 0x20)
  let stop (s : State) (d : BitVec 9) (gen : BitVec 32) (fc : Byte) : State := s.tell 0x21 d m.ctx (stopBody grp gen 1 fc)
  match s.groupOf m.ctx grp with
  | some g =>
    if g.joined then stop s m.sdev g.gen 0x22
    else if list ≠ g.members.map (·.toNat) then
      let others := (g.calls.map (·.2.2.sdev)).filter (· ≠ s.dev)
      let s := (m.sdev :: others).foldl (fun s d => stop s d g.gen 0x20) { s with fab := { s.fab with differ := (m.ctx, grp) :: s.fab.differ } }
      -- a JOIN of this device that waits at another rank 0 is withdrawn there
      let s := if g.rank = 0 then s else s.tellStop g g.lead 1 0x20
      s.endColl m.ctx grp 1 0x20
    else
      let r := g.members.findIdx (· = m.sdev)
      let calls := (r, 1, m) :: g.calls.filter (·.1 ≠ r)
      let s := s.mapGroup m.ctx grp fun g => { g with calls := calls }
      if calls.length = g.members.length ∧ !g.agreeing then s.propose g else s
  | none =>
    if s.fab.differ.contains (m.ctx, grp) then stop s m.sdev 0 0x20
    else { s with fab := { s.fab with joins := s.fab.joins ++ [m] } }

/-- A STOP for a member's collective that rank 0 will not begin; a LEAVE is not stopped. -/
def State.stopCall (s : State) (g : Group) (x : Nat × Nat × Msg) (fc : Byte) : State := if msgLeaves x.2.2 then s else s.tellStop g x.2.2.sdev x.2.1 fc

/-- Rank 0 compares the collectives of which it holds every MATCH, in the order of their numbers: those that agree begin, those that differ stop
(R387, R393). The fuel bounds the numbers. -/
def State.matchNext (ctx grp : BitVec 16) : Nat → State → State
  | 0, s => s
  | fuel + 1, s => match s.groupOf ctx grp with
    | none => s
    | some g =>
      let num := g.matched + 1
      let here := g.calls.filter fun x => x.2.1 == num
      let passed (st : List Nat) : State := s.mapGroup ctx grp fun g => { g with matched := num, stopped := st, calls := g.calls.filter fun x => x.2.1 != num }
      if g.rank ≠ 0 ∨ !g.joined ∨ g.agreeing then s
      else if g.stopped.contains num then State.matchNext ctx grp fuel (passed g.stopped)
      else if here.length < g.members.length then s
      else
        let same := here.all fun x => (here.head?.map fun y => (y.2.2.body.drop 8).take 24) == some ((x.2.2.body.drop 8).take 24)
        let t := if here.any fun x => msgLeaves x.2.2 then passed g.stopped
          else if same then (passed g.stopped).tellAll g 0x27 (prefixOf g.grp g.gen)
          else here.foldl (fun s x => s.stopCall g x 0x20) (passed (num :: g.stopped))
        State.matchNext ctx grp fuel t

def State.matchAll (s : State) (ctx grp : BitVec 16) : State :=
  State.matchNext ctx grp (((s.groupOf ctx grp).map fun g => g.calls.length + g.stopped.length + 1).getD 0) s

/-- MATCH (R387). A collective that comes after a member is lost, after another's LEAVE or after another stopped its own stops with 0x22 (R393). -/
def State.takeMatch (s : State) (m : Msg) : State :=
  let grp := msgGrp m
  let num := numAt m.body 8 4
  if numAt m.body 0x10 1 % 16 = 0 then s.takeJoin m
  else match s.groupOf m.ctx grp with
    | none => s.tell 0x21 m.sdev m.ctx (stopBody grp (msgGen m) num 0x22)
    | some g =>
      let r := g.members.findIdx (· = m.sdev)
      let call : Nat × Nat × Msg := (r, num, m)
      let kept := call :: g.calls.filter fun x => !(x.1 == r && x.2.1 == num)
      if msgGen m ≠ g.gen then s
      else if msgLeaves m then
        let s := s.mapGroup m.ctx grp fun g => { g with calls := kept, left := (r, num) :: g.left }
        let s := (kept.filter fun x => decide (num ≤ x.2.1)).foldl (fun s x => s.stopCall g x 0x22) s
        s.matchAll m.ctx grp
      else if g.lost || g.stopped.contains num || g.left.any (fun x => decide (x.2 ≤ num)) then s.stopCall g call 0x22
      else if num ≤ g.matched then s
      else (s.mapGroup m.ctx grp fun g => { g with calls := kept }).matchAll m.ctx grp

/-- STOP: at a member from rank 0; at rank 0 from a member, when it stops every member with 0x22 (R393). -/
def State.takeStop (s : State) (m : Msg) : State :=
  let grp := msgGrp m
  let num := numAt m.body 8 4
  let fc := BitVec.ofNat 8 (numAt m.body 0x0C 1)
  match s.groupOf m.ctx grp with
  | none => { s with fab := { s.fab with joins := s.fab.joins.filter fun j => !(j.ctx == m.ctx && msgGrp j == grp && j.sdev == m.sdev && num == 1) } }
  | some g =>
    let skipped (s : State) : State := s.mapColl m.ctx grp num fun c => { c with skip := true }
    let noted (s : State) : State := s.mapGroup m.ctx grp fun g => { g with stopped := num :: g.stopped }
    if g.joined ∧ msgGen m ≠ g.gen then s
    else if !g.joined ∧ g.rank = 0 ∧ m.sdev ≠ s.dev then
      -- a JOIN that its member withdrew: the others go on waiting (R509)
      (s.unsure g fun _ => true).mapGroup m.ctx grp fun g => { g with calls := g.calls.filter fun x => x.2.2.sdev != m.sdev, agreeing := false, committed := false }
    else if g.rank = 0 ∧ (m.sdev ≠ s.dev ∨ (g.collOf num).any (·.fc.isSome)) then
      let s := (g.members.filter fun d => d != s.dev).foldl (fun s d => s.tellStop g d num 0x22) (noted s)
      (((skipped s).endColl m.ctx grp num 0x22).tryLeave m.ctx grp).matchAll m.ctx grp
    else if (g.collOf num).any (·.isLeave) then s
    else ((skipped s).endColl m.ctx grp num fc).tryLeave m.ctx grp

/-- AGREQ (R377). -/
def State.takeAgreq (s : State) (m : Msg) : State :=
  match s.groupOf m.ctx (msgGrp m) with
  | none => s
  | some g => if g.rank = 0 ∧ msgGen m = g.gen ∧ (!g.agreeing ∨ g.committed) then s.propose g else s

/-- What answered a collective message goes again with a repeat of it (R370). -/
def State.answerTo (s : State) (mt : Byte) (m : Msg) (mt' : Byte) (tid : Word) (body : List Byte) : State :=
  if m.sdev = s.dev then s.tell mt' m.sdev m.ctx body
  else
    let ans : Msg := ⟨s.dev, m.sdev, m.ctx, tid, s.clk.hub + 1, body⟩
    let heard := replaceIf (fun x => x.1 == mt && x.2.1 == m.sdev && x.2.2.1 == m.tid) (fun x => (x.1, x.2.1, x.2.2.1, some (mt', ans))) s.fab.heard
    ({ s with clk := { s.clk with hub := s.clk.hub + 1 }, fab := { s.fab with heard := heard } } : State).send mt' ans

/-- PROPOSE: the member pauses and answers with its links and its done chunks, under its current generation (R374, R377). -/
def State.takePropose (s : State) (m : Msg) : State :=
  match s.groupOf m.ctx (msgGrp m) with
  | none => s
  | some g =>
    let gen := msgGen m
    if gen ≤ g.answered ∨ gen ≤ g.gen then s
    else
      let s := s.mapGroup m.ctx g.grp fun g => { g with answered := gen, agreeing := true, committed := false }
      let recs := g.running.filter fun c => !c.isJoin && !c.isLeave
      let tid := s.fab.nextTid
      let s := if m.sdev = s.dev then s else { s with fab := { s.fab with nextTid := tid + 1 } }
      s.answerTo 0x23 m 0x24 tid (prefixOf g.grp g.gen ++ ((s.fab.ports.toList.map fun p => leBytes 8 p.stat.toNat).flatten)
        ++ leBytes 4 recs.length ++ leBytes 4 0 ++ (recs.map (doneRecord g.members.length)).flatten)

/-- ANSWER: once every member has answered, rank 0 fixes T and U and sends COMMIT (R377). An ANSWER names no proposal; DEDUCED: one sent before the
latest PROPOSE carries a lower STAMP than that. -/
def State.takeAnswer (s : State) (m : Msg) : State :=
  match s.groupOf m.ctx (msgGrp m) with
  | none => s
  | some g =>
    let n := g.members.length
    if g.rank ≠ 0 ∨ msgGen m ≠ g.gen ∨ !g.agreeing ∨ g.committed ∨ m.stamp < g.proposedStamp ∨ n ≤ g.answers.length then s
    else
      let r := g.members.findIdx (· = m.sdev)
      let answers := (r, m) :: g.answers.filter (·.1 ≠ r)
      let s := (s.unsure g fun t => t.mt == 0x23 && t.msg.ddev == m.sdev).mapGroup m.ctx g.grp fun g => { g with answers := answers }
      if answers.length < n then s
      else
        let entries := (List.range n).map fun r => ((answers.find? (·.1 = r)).map fun x => (x.2.body.drop 8).take 512).getD []
        let recs := (answers.map fun x => records (numAt x.2.body 0x208 4) (x.2.body.drop 0x210)).flatten
        let nums := (recs.map (·.1)).eraseDups
        let union := nums.map fun n => (n, ((recs.filter (·.1 = n)).map (·.2.1)).foldl max 0, ((recs.filter (·.1 = n)).map (·.2.2)).foldl Nat.lor 0)
        let body := prefixOf g.grp g.proposed ++ leBytes 2 n ++ List.replicate 6 0 ++ entries.flatten ++ leBytes 4 union.length ++ leBytes 4 0
          ++ (union.map fun u => leBytes 4 u.1 ++ leBytes 4 u.2.1 ++ leBytes ((u.2.1 + 63) / 64 * 8) u.2.2).flatten
        g.members.foldl (fun s d => s.tellSure g 0x25 d body) s

/-- At COMMIT, the chunks of a collective that U settles are done; every other returns to pending, but one that is done here already is only passed
on (R391). -/
def State.resettle (s : State) (ctx grp : BitVec 16) (u : List (Nat × Nat × Nat)) (num : Nat) : State :=
  let bits : Nat := ((u.filter (·.1 = num)).map (·.2.2)).foldl Nat.lor 0
  let s := s.mapColl ctx grp num fun c =>
    { c with marks := c.marks.map fun m => if m = 3 then m else 0
             parts := [], wrote := [], written := [], risen := [], waiting := [], settled := Nat.lor c.settled bits, rewrite := c.begun && c.fc.isNone
             told := (List.range c.marks.length).filter bits.testBit }
  s.driveColl ctx grp num

/-- COMMIT: the member adopts the generation and its table, settles the chunks of U, and acknowledges (R377, R391). -/
def State.takeCommit (s : State) (m : Msg) : State :=
  match s.groupOf m.ctx (msgGrp m) with
  | none => s
  | some g =>
    if msgGen m ≤ g.gen then s
    else
      let n := numAt m.body 8 2
      let table := (List.range n).map fun r => (numsOf 8 64 (m.body.drop (0x10 + 512 * r))).map w64
      let u := records (numAt m.body (0x10 + 512 * n) 4) (m.body.drop (0x18 + 512 * n))
      let s := s.mapGroup m.ctx g.grp fun g => { g with gen := msgGen m, agreeing := true, committed := true, downs := 0, table := table, trees := (deriveTrees g.members table).1 }
      let s := (g.colls.filter fun c => !c.isJoin && !c.isLeave && (c.fc.isNone || c.helps)).foldl (fun s c => s.resettle m.ctx g.grp u c.num) s
      (s.answerTo 0x25 m 0x26 m.tid (prefixOf g.grp (msgGen m))).checkTrees

/-- CACK: once every acknowledgement has arrived, rank 0 sends RESUME (R377). -/
def State.takeCack (s : State) (m : Msg) : State :=
  match s.groupOf m.ctx (msgGrp m) with
  | none => s
  | some g =>
    if g.rank ≠ 0 ∨ msgGen m ≠ g.gen ∨ g.gen ≠ g.proposed ∨ !g.committed then s
    else
      let acks := setIns g.acks (g.members.findIdx (· = m.sdev))
      let s := (s.unsure g fun t => t.mt == 0x25 && t.msg.ddev == m.sdev).mapGroup m.ctx g.grp fun g => { g with acks := acks }
      if acks.length = g.members.length then s.tellAll g 0x27 (prefixOf g.grp g.gen) else s

/-- An agreement ends: a JOIN completes, begun collectives go on, and what was sent to rank 0 meanwhile goes again (R377, R391, R393). -/
def State.endAgreement (s : State) (g : Group) : State :=
  let s := s.mapGroup g.ctx g.grp fun g => { g with agreeing := false, committed := false, later := [] }
  if g.trees.isEmpty then ((g.running.filter fun c => !c.isLeave).foldl (fun s c => s.endColl g.ctx g.grp c.num 0x21) s).tryLeave g.ctx g.grp
  else
    let s := if g.joined then s
      else (s.mapGroup g.ctx g.grp fun g => { g with joined := true, matched := 1, calls := g.calls.filter fun x => x.2.1 != 1 }).endColl g.ctx g.grp 1 0
    let s := g.later.foldl (fun s x => s.tell x.1 g.lead g.ctx (prefixOf g.grp g.gen ++ x.2)) s
    let s := (g.colls.filter fun c => c.begun && (c.fc.isNone || c.helps)).foldl (fun s c => s.driveColl g.ctx g.grp c.num) s
    (s.matchAll g.ctx g.grp).checkTrees

/-- The next collective of the group that rank 0 has not said to stop begins here; one that this member has stopped itself only takes its turn, and
without a tree it ends (R387, R393). -/
def State.beginNext (s : State) (g : Group) : State :=
  let lower (b : Option Coll) (c : Coll) : Option Coll := match b with
    | none => some c
    | some x => if c.num < x.num then some c else b
  match (g.colls.filter fun c => !c.begun && !c.skip && !c.isJoin && !c.isLeave).foldl lower none with
  | none => s
  | some c =>
    let s := s.mapColl g.ctx g.grp c.num fun c => { c with begun := true }
    if c.fc.isSome then s
    else if g.trees.isEmpty then (s.endColl g.ctx g.grp c.num 0x21).tryLeave g.ctx g.grp
    else s.beginColl g.ctx g.grp c.num

/-- RESUME: after COMMIT it ends the agreement; otherwise it begins the next collective (R377, R387). -/
def State.takeResume (s : State) (m : Msg) : State :=
  match s.groupOf m.ctx (msgGrp m) with
  | none => s
  | some g => if msgGen m ≠ g.gen then s else if g.agreeing ∧ g.committed then s.endAgreement g else s.beginNext g

/-- CHUNK: a piece arrives from a child or from the parent (R388). Pieces of the final value go on to the children; while an agreement runs no new
transfer starts (R391). -/
def State.takeChunk (s : State) (m : Msg) : State :=
  let grp := msgGrp m
  let num := numAt m.body 8 4
  let k := numAt m.body 0x0C 4
  let n := numAt m.body 0x14 4
  let mask := numAt m.body 0x20 32
  let data := (m.body.drop 0x40).take n
  let take (g : Group) (c : Coll) (s : State) : Att Unit :=
    if msgGen m ≠ g.gen ∨ c.isJoin ∨ c.isLeave ∨ c.chunks g.members.length ≤ k then .ok () s
    else
      let piece : CPiece := ⟨k, g.members.findIdx (· = m.sdev), numAt m.body 0x19 1 == 1, numAt m.body 0x10 4, data, (List.range data.length).filter fun i => mask.testBit (i / 256), false⟩
      let s := s.mapColl m.ctx grp num fun c => { c with parts := c.parts ++ [piece] }
      .ok () (if piece.down && !g.agreeing then s.passDown g c k (piece.over (c.len g.members.length k)) else s)
  (s.onColl m.ctx grp num k true take).driveChunk m.ctx grp num k

/-- WRITTEN: once every recipient has written the chunk, the root sends DONE down the tree (R374). -/
def State.takeWritten (s : State) (m : Msg) : State :=
  let num := numAt m.body 8 4
  let k := numAt m.body 0x0C 4
  s.onColl m.ctx (msgGrp m) num k true fun g c s =>
    if msgGen m ≠ g.gen then .ok () s
    else
      let r := g.members.findIdx (· = m.sdev)
      let written := (k, r) :: c.written.filter (· ≠ (k, r))
      let s := s.mapColl m.ctx g.grp num fun c => { c with written := written }
      .ok () (if (c.recipients g.members.length k).all fun r => written.contains (k, r) then
        s.tell 0x2A s.dev m.ctx (prefixOf g.grp g.gen ++ leBytes 4 num ++ leBytes 4 k) else s)

/-- DONE: it is passed on to the children, and the chunk is done here (R374, R389). -/
def State.takeDone (s : State) (m : Msg) : State :=
  let num := numAt m.body 8 4
  let k := numAt m.body 0x0C 4
  match s.groupOf m.ctx (msgGrp m) with
  | none => s
  | some g =>
    if msgGen m ≠ g.gen then s
    else
      let s := (g.childrenOf k g.rank).foldl (fun s w => s.tell 0x2A (g.members.getD w 0) m.ctx (prefixOf g.grp g.gen ++ leBytes 4 num ++ leBytes 4 k)) s
      (s.mapColl m.ctx g.grp num fun c => { c with told := k :: c.told }).driveChunk m.ctx g.grp num k

/-- One collective message acts. -/
def State.takeColl (s : State) (mt : Byte) (m : Msg) : State :=
  match mt.toNat with
  | 0x20 => s.takeMatch m
  | 0x21 => s.takeStop m
  | 0x22 => s.takeAgreq m
  | 0x23 => s.takePropose m
  | 0x24 => s.takeAnswer m
  | 0x25 => s.takeCommit m
  | 0x26 => s.takeCack m
  | 0x27 => s.takeResume m
  | 0x28 => s.takeChunk m
  | 0x29 => s.takeWritten m
  | 0x2A => s.takeDone m
  | _ => s

/-- This device's messages to itself act, in order; the fuel bounds them. -/
def State.settleLoop : Nat → State → State
  | 0, s => s
  | fuel + 1, s => match s.fab.loop with
    | [] => s
    | (mt, m) :: rest => State.settleLoop fuel (({ s with fab := { s.fab with loop := rest } }).takeColl mt m)

/-- More messages than one step can give rise to on one device. -/
def loopFuel : Nat := 2 ^ 27

/-- What a step leaves to itself is done with it. -/
def State.quiesce (s : State) : State := State.settleLoop loopFuel s

/-- A collective message acts once; a repeat of it gets what answered it (R370). -/
def State.onceColl (s : State) (mt : Byte) (m : Msg) : State :=
  match s.fab.heard.find? fun x => x.1 == mt && x.2.1 == m.sdev && x.2.2.1 == m.tid with
  | some (_, _, _, some (mt', ans)) => s.send mt' ans
  | some _ => s
  | none => ({ s with fab := { s.fab with heard := (mt, m.sdev, m.tid, none) :: s.fab.heard } } : State).takeColl mt m

/-- A collective message reaches this device: a CHUNK is answered as performed, whatever comes of it (R370, R495). -/
def State.collMsg (s : State) (mt : Byte) (m : Msg) : State :=
  s.deliver mt m fun s =>
    if mt = 0x28 then (s.once m fun s => (s.takeColl mt m).respond m 0 false 0 []).quiesce
    else (s.onceColl mt m).quiesce

/-- MATCH (R374, R387). -/
def execMatchMsg (msg : Msg) (s : State) : Out := .next (s.collMsg 0x20 msg)
/-- STOP (R374). -/
def execStopMsg (msg : Msg) (s : State) : Out := .next (s.collMsg 0x21 msg)
/-- AGREQ (R377). -/
def execAgreqMsg (msg : Msg) (s : State) : Out := .next (s.collMsg 0x22 msg)
/-- PROPOSE (R377). -/
def execProposeMsg (msg : Msg) (s : State) : Out := .next (s.collMsg 0x23 msg)
/-- ANSWER (R377). -/
def execAnswerMsg (msg : Msg) (s : State) : Out := .next (s.collMsg 0x24 msg)
/-- COMMIT (R377). -/
def execCommitMsg (msg : Msg) (s : State) : Out := .next (s.collMsg 0x25 msg)
/-- CACK (R377). -/
def execCackMsg (msg : Msg) (s : State) : Out := .next (s.collMsg 0x26 msg)
/-- RESUME (R377). -/
def execResumeMsg (msg : Msg) (s : State) : Out := .next (s.collMsg 0x27 msg)
/-- CHUNK (R388). -/
def execChunkMsg (msg : Msg) (s : State) : Out := .next (s.collMsg 0x28 msg)
/-- WRITTEN (R374). -/
def execWrittenMsg (msg : Msg) (s : State) : Out := .next (s.collMsg 0x29 msg)
/-- DONE (R389). -/
def execDoneMsg (msg : Msg) (s : State) : Out := .next (s.collMsg 0x2A msg)

/-- MEMBER_LOST: a member that has not answered 20 ms after a PROPOSE is lost; every running collective stops (R377, R393). DEDUCED: so is one that
has not acknowledged COMMIT by then. -/
def execMemberLost (ctx grp : BitVec 16) (rank : BitVec 9) (s : State) : Out :=
  match s.groupOf ctx grp with
  | none => .next s
  | some g =>
    if g.rank ≠ 0 ∨ !g.agreeing ∨ g.members.length ≤ rank.toNat ∨ s.clk.ns < g.proposedAt + 20000000
        ∨ (g.answers.any (·.1 = rank.toNat) ∧ (!g.committed ∨ g.acks.contains rank.toNat)) then .next s
    else
      let s := (s.unsure g fun _ => true).mapGroup ctx grp fun g => { g with lost := true, agreeing := false, committed := false }
      let s := (g.running.filter fun c => !c.isLeave).foldl (fun s c =>
        (g.members.filter fun d => d != s.dev).foldl (fun s d => s.tell 0x21 d ctx (stopBody grp g.gen c.num 0x22)) (s.endColl ctx grp c.num 0x22)) s
      .next (s.tryLeave ctx grp).quiesce

/-! ### COLL (R380, R385, R394) -/

/-- Every byte from a lies in a range of MODE 0 or 1, or in a window; ranges are whole GiB (R283, R383). -/
def State.localSpan (s : State) (r : Req) (a : Word) (n : Nat) : Bool :=
  let ok (x : Word) : Bool := match s.homeOf r x false with
    | .die _ _ => true
    | .window _ _ => true
    | _ => false
  n == 0 || (ok (a + w64 (n - 1)) && (List.range (n / 2 ^ 30 + 2)).all fun i =>
    let x := if i = 0 then a.toNat else (a.toNat / 2 ^ 30 + i) * 2 ^ 30
    decide (a.toNat + n ≤ x) || ok (w64 x))

/-- The group that a descriptor's COLL works on, its rank here, and whether R385 refuses it. -/
def State.collRefused (s : State) (r : Req) (c : Coll) (reserved : Word) : Bool :=
  let g := (s.groupOf r.ctx c.grp).filter (·.joined)
  let any := (s.groupOf r.ctx c.grp).isSome
  let n := (g.map (·.members.length)).getD 0
  let rank := (g.map (·.rank)).getD 0
  let chunk := bf c.ctl 36 32
  let swi := bf c.sync 63 48
  let zero (w : Word) : Bool := w == 0
  let inWindow (x y : Word) : Bool := match s.homeOf r x false, s.homeOf r y false with
    | .window _ i, .window _ j => decide (j = i + (y - x).toNat)
    | _, _ => false
  let common := decide (c.op ≤ 6) && c.grp != 0 && bf c.ctl 47 37 == 0 && bf c.ctl 15 11 == 0 && decide (c.red < 3) && decide (c.dt < 7)
    && (chunk == 0 || decide (12 ≤ chunk ∧ chunk ≤ 24)) && bf c.sync 47 0 == 0 && reserved == 0
    && (c.root == 0 || c.op == 2 || c.op == 3) && (c.red == 0 || c.op == 1 || c.op == 2 || c.op == 5)
    && (swi == 0 || (inWindow c.dst c.dst && (s.syncKey r c.dst swi).isSome))
  let bare := zero c.src && zero c.dst && zero c.prog && c.dt == 0 && chunk == 0 && !c.inplace
  if c.isJoin then
    !(common && bare && decide (2 ≤ c.count ∧ c.count ≤ 512) && !any && c.list.length == c.count && c.list.Nodup && c.list.contains s.dev
      && decide (s.groups.length < 256))
  else if c.isLeave then !(common && bare && zero c.stage && g.isSome)
  else
    let gives := c.gives n rank
    let gets := c.gets n rank
    let layout := match c.op with
      | 1 => c.src == c.dst
      | 3 => c.src == c.dst
      | 4 => c.src == c.dst + w64 (rank * c.part)
      | 5 => c.dst == c.src + w64 (rank * c.part)
      | _ => false
    !(common && g.isSome && decide (1 ≤ c.count ∧ c.count ≤ 2 ^ 36) && decide (c.src.toNat % c.eb = 0) && decide (c.dst.toNat % c.eb = 0)
      && (if c.inplace then layout else zero c.stage) && decide (c.chunks n ≤ 2 ^ 24) && decide (c.root < n)
      && s.localSpan r c.src (gives.hi - gives.lo) && s.localSpan r c.dst (gets.hi - gets.lo)
      && (swi == 0 || gets.empty || inWindow c.dst (c.dst + w64 (gets.hi - gets.lo - 1))))

/-- A collective as its descriptor gives it. -/
def collOfDesc (d : List Byte) (r : Req) (strand : Option (SId × Reg)) (node : Option (Nat × Nat)) (nm stamp : Word) : Coll :=
  let w (i : Nat) : Word := w64 (numAt d (8 * i) 8)
  { num := 0, ctl := w 0, count := (w 1).toNat, src := w 2, dst := w 3, prog := w 4, stage := w 5, sync := w 6, list := [], strand := strand, node := node
    core := r.core, slot := r.slot, lid := r.lid, cid := r.cid, user := r.user, nm := nm, flags := 0, marks := [], parts := [], staged := [], wrote := []
    written := [], begun := false, fc := none, stamp := stamp, cancel := false }

/-- How a COLL fares at its issue. -/
inductive Issued where
  | refused (fc : Byte) (s : State)
  /-- 16 collectives of the group are unfinished, or something else is waited for. -/
  | waits (s : State)
  /-- Numbered and started; the state holds it. -/
  | started (grp : BitVec 16) (num : Nat) (s : State)

/-- What a collective reads and writes at this member: SRC, DST, STAGE and the progress array. -/
def State.collAreas (s : State) (r : Req) (c : Coll) (n rank : Nat) : List Area :=
  if c.isJoin || c.isLeave then []
  else
    let gives := c.gives n rank
    let gets := c.gets n rank
    let area (a : Word) (len : Nat) : Area := if len = 0 then ⟨false, 0, 0⟩ else s.areaOf r a len
    [area c.src (gives.hi - gives.lo), area c.dst (gets.hi - gets.lo), area c.stage (if c.inplace then gives.hi - gives.lo else 0), area c.prog (c.chunks n)]

/-- The bytes in which two of these overlap, but for SRC and DST in place, whose layout R385 checks (R384). -/
def looseOf (inplace : Bool) : List Area → List Area
  | [src, dst, stage, prog] =>
    ((if inplace then [] else [src.cut dst]) ++ [src.cut stage, dst.cut stage, src.cut prog, dst.cut prog, stage.cut prog]).filter (!·.empty)
  | _ => []

/-- The member list of a JOIN; of any other operation nothing is read. None when it cannot be read. -/
def State.readList (s : State) (r : Req) (c : Coll) : Att (Option (List Nat)) :=
  if !c.isJoin ∨ 512 < c.count then .ok (some []) s
  else match s.readSpan s r .read 6 c.stage (2 * c.count) with
    | .ok (bs, bad) s' => .ok (if bad then none else some (numsOf 2 c.count bs)) s'
    | .trap _ s' => .ok none s'
    | .wait s' => .wait s'

/-- A group that a JOIN begins here. -/
def Coll.newGroup (c : Coll) (ctx : BitVec 16) (dev : BitVec 9) : Group :=
  { ctx := ctx, grp := c.grp, members := c.list, rank := c.list.findIdx (· = dev), joined := false, lost := false, gen := 0, proposed := 0
    answered := 0, answers := [], acks := [], proposedAt := 0, agreeing := false, table := [], trees := [], issued := 0, calls := [], left := [], colls := [] }

/-- The body of a MATCH after its prefix (R374, R387). -/
def Coll.matchRest (c : Coll) (num members : Nat) : List Byte :=
  leBytes 4 num ++ leBytes 2 members ++ leBytes 2 0 ++ leBytes 8 c.ctl.toNat ++ leBytes 8 (if c.isLeave then 0 else c.count)
    ++ (if c.isJoin then (c.list.map fun d => leBytes 2 d.toNat).flatten else [])

/-- A JOIN here takes the MATCHes that waited for it (R509). -/
def State.recallJoins (s : State) (ctx grp : BitVec 16) : State :=
  let mine (j : Msg) : Bool := j.ctx == ctx && msgGrp j == grp
  { s with fab := { s.fab with loop := s.fab.loop ++ (s.fab.joins.filter mine).map fun j => ((0x20 : Byte), j)
                               joins := s.fab.joins.filter fun j => !mine j } }

/-- Issues the descriptor at an address (R380, R394). -/
def State.issueColl (s : State) (r : Req) (a : Word) (strand : Option (SId × Reg)) (node : Option (Nat × Nat)) (nm stamp : Word) : Issued :=
  if a.toNat % 64 ≠ 0 then .refused 0x01 s
  else match s.readSpan s r .read 2 a 64 with
    | .trap _ s' => .refused 0x01 s'
    | .wait s' => .waits s'
    | .ok (d, bad) s0 =>
      let c := collOfDesc d r strand node nm stamp
      if bad then .refused 0x01 s0
      else match s0.readList r c with
        | .trap _ s' => .refused 0x01 s'
        | .wait s' => .waits (s.waitKeeping s')
        | .ok none s' => .refused 0x01 s'
        | .ok (some l) s1 =>
          let c := { c with list := l.map (BitVec.ofNat 9) }
          if l.any (512 ≤ ·) || s1.collRefused r c (w64 (numAt d 0x38 8)) then .refused 0x01 s1
          else
            let g := (s1.groupOf r.ctx c.grp).getD (c.newGroup r.ctx s1.dev)
            if 16 ≤ g.running.length then .waits s
            else
              let num := g.issued + 1
              match s1.mark r 3 (w64 (c.grp.toNat * 2 ^ 48 + num % 2 ^ 32 * 2 ^ 16)) with
              | .full => .refused cLOGFULL s1
              | .stall => .waits s
              | .ok s2 =>
                let areas := s2.collAreas r c g.members.length g.rank
                let c := { c with num := num, areas := areas, loose := looseOf c.inplace areas }
                let g := { g with issued := num, colls := g.colls ++ [c] }
                let s3 := { s2 with groups := g :: s2.groups.filter fun x => !(x.ctx == r.ctx && x.grp == c.grp) }
                if g.lost ∧ !c.isLeave then .started c.grp num (s3.endCollAt r.ctx c.grp num 0x22 true)
                else
                  let s4 := if c.isJoin then { s3 with fab := { s3.fab with differ := s3.fab.differ.filter (· ≠ (r.ctx, c.grp)) } } else s3
                  let s5 := s4.tellLead g 0x20 (c.matchRest num g.members.length)
                  let s6 := if c.isJoin then s5.recallJoins r.ctx c.grp else s5
                  .started c.grp num (if c.isLeave then s6.tryLeave r.ctx c.grp else s6)

/-- COLL (R380). -/
def execColl (d a : Reg) (s : State) : Out :=
  let info := wordOf32 (.coll d a)
  s.scalarOp info [a] [d] (
    let s1 := s.tick
    match s1.issueColl { s1.me.req info with scalar := false, evicts := true } (s.s a) (some (s.me.id, d)) none s.me.cfg.nm s1.me.lclk with
    | .refused fc s' => .next (s'.finish d (statusWord 0 fc 0))
    | .waits s' => .next (s.waitKeeping s')
    | .started grp num s' =>
      let open_ := ((s'.groupOf s.me.ctx grp).bind (·.collOf num)).any (·.fc.isNone)
      let s' := if open_ then s'.setMe fun k => { k with as := { k.as with colls := k.as.colls ++ [(d, k.ctx, grp, num)] } } else s'
      .next s'.advance.quiesce)

end Sys2Proof.Machine
end

