-- ==== Sys2Proof/Machine/Graph.lean ====
section
/-! DEFINITION. Graph nodes: when a node is decided, what each kind does, and how it ends (R50 to R54). -/

namespace Sys2Proof.Machine

/-- Body word at an offset of the node record (R52). -/
def Node.word (nd : Node) (off : Nat) : Word := w64 (numAt nd.body (off - 8) 8)

/-- The body's words from an offset on are zero (R9, R52). -/
def Node.restZero (nd : Node) (off : Nat) : Bool := (nd.body.drop (off - 8)).all (· == 0)

/-- The body keeps R9 and R52. -/
def Node.bodyOk (nd : Node) : Bool :=
  let ctl := nd.word 0x18
  let aligned := decide ((nd.word 8).toNat % 8 = 0)
  match nd.kind with
  | 1 => nd.restZero 0x10
  | 2 => nd.restZero 0x20 && decide (1 ≤ ctl.toNat ∧ ctl.toNat ≤ 2 ^ 40)
  | 3 => nd.restZero 0x10
  | 4 => nd.restZero 0x20 && aligned && bf ctl 3 1 == 0 && decide (bf ctl 7 4 ≤ 8) && bf ctl 63 8 == 0
  | 5 => nd.restZero 0x20 && aligned && bf ctl 1 0 != 3 && bf ctl 3 2 == 0 && decide (bf ctl 7 4 ≤ 8) && bf ctl 31 8 == 0
  | _ => nd.restZero 0x10 && aligned

def Graph.node (g : Graph) (n : Nat) : Option Node := g.nodes[n]?

def Graph.setNode (g : Graph) (n : Nat) (f : Node → Node) : Graph := { g with nodes := g.nodes.mapIdx fun i nd => if i = n then f nd else nd }

def State.setNode (s : State) (g n : Nat) (f : Node → Node) : State := s.mapGraph g (·.setNode n f)

/-- A node ends with this STATE and CODE (R52, R53). -/
def State.nodeEnds (s : State) (g n : Nat) (st : BitVec 4) (code : Byte) : State :=
  (s.nodeSettles g n st code).ended (.graph g) (if st = 3 then code else 0)

/-- A decided node does not run (R53). -/
def State.nodeSkipped (s : State) (g n : Nat) : State :=
  (s.setNode g n fun nd => { nd with st := .skipped }).ended (.graph g) 0

/-- The edges of a node (R51). -/
def Graph.edgesOf (g : Graph) (nd : Node) : List (Nat × Nat) := (g.edges.drop nd.efirst).take nd.npred

def Node.settled (nd : Node) : Bool := nd.st == .completed || nd.st == .failed || nd.st == .skipped

/-- An edge is taken (R53). -/
def Graph.edgeTaken (g : Graph) (e : Nat × Nat) : Bool :=
  match g.node e.2 with
  | none => false
  | some p => p.st == .completed && p.result == 1 && (e.1 == 0 || (e.1 == 1 && p.taken) || (e.1 == 2 && !p.taken))

/-- The requester of a node (R338). -/
def State.nodeReq (s : State) (g : Graph) (n : Nat) : Req := { pkgReq g.ctx s.clk.cp [3, g.slot, g.gen, n] with covers := true }

/-- Marks and atomics of a node that acts on memory end it, or wait (R52). -/
def State.nodeAccess {α : Type} (_s : State) (g n : Nat) (a : Att α) (done : α → State → State) : State :=
  match a with
  | .ok x s' => done x s'
  | .trap c s' => s'.nodeEnds g n 3 c
  | .wait s' => s'

/-- A wait node's condition (R52). -/
def condHolds (ctl x v : Word) : Bool :=
  match bf ctl 1 0 with
  | 0 => decide (v ≤ x)
  | 1 => x == v
  | _ => x != v

/-- ORD of a node's access at the SCOPE of its body: an acquire (4) or a release (8) of eight bytes (R52, R372). -/
def nodeOrd (nd : Node) (way : Nat) : Byte := BitVec.ofNat 8 (bf (nd.word 0x18) 7 4 * 16 + way + 2)

/-- A running wait node reads its word once (R52). -/
def State.pollNode (s : State) (g : Graph) (n : Nat) (nd : Node) : State :=
  s.nodeAccess g.slot n (s.memRead (s.nodeReq g n) (nd.word 8) 8 .read (nodeOrd nd 4)) fun (bs, bad) s' =>
    if bad then s'.nodeEnds g.slot n 3 cPOISON
    else if condHolds (nd.word 0x18) (w64 (leNat bs)) (nd.word 0x10) then s'.nodeEnds g.slot n 1 0
    else s'

/-- Every running wait node of a context whose ADDR is the word reads it again, at once (R175). -/
def State.pollWaits (s : State) (ctx : BitVec 16) (a : Word) : State :=
  let due (g : Graph) : List (Nat × Nat) := if g.ctx = ctx ∧ g.state = 0 then
    (List.range g.nodes.length).filterMap fun n => match g.node n with
      | some nd => if nd.st = .running ∧ nd.kind = 5 ∧ nd.word 8 = a then some (g.slot, n) else none
      | none => none else []
  ((s.cp.graphs.map due).flatten).foldl (fun s x => match (s.graphAt x.1).bind fun g => (g.node x.2).map fun nd => (g, nd) with
    | some (g, nd) => s.pollNode g x.2 nd
    | none => s) s

/-- The hub copy engine's clock on an event of a copy node that became eligible at `since` (R452). -/
def State.hubCopyTick (s : State) (stamp : Word) : State :=
  let t := maxW s.clk.hubCopy stamp + 1
  ({ s with clk := { s.clk with hubCopy := t } }).cpHears t

/-- A copy node has ended: what it wrote of poisoned sectors counts no more (R306). -/
def State.copyNodeEnds (s : State) (gr : Graph) (n : Nat) (c : Copy) (st : BitVec 4) (code : Byte) : State :=
  (({ s with mem := s.mem.covered (s.nodeReq gr n).own } : State).hubCopyTick c.stamp).nodeEnds gr.slot n st code

/-- The copy engine moves up to k bytes of a copy node; a fault fails the node (R52). One that a cancel stops goes to the next 256-byte boundary of
its destination and ends there; DEDUCED from R321: at the end of the copy it completes (R55). -/
def State.driveNode (s : State) (g n k : Nat) : State :=
  match (s.graphAt g).bind fun gr => (gr.node n).map fun nd => (gr, nd) with
  | some (gr, nd) => match if nd.st = .running then nd.copy else none with
    | some c =>
      let left := if c.stop.isSome then c.toBoundary else k
      match s.moveBytes (s.nodeReq gr n) c (left + 2) left with
      | .waits c' s' => s'.setNode g n fun nd => { nd with copy := some c' }
      | .stopped c' _ _ s' => s'.copyNodeEnds gr n c' 3 cCOPYFAULT
      | .going c' s' =>
        if c'.stop.isSome ∧ c'.toBoundary = 0 then s'.copyNodeEnds gr n c' (if c'.total ≤ c'.prog then 1 else 2) 0
        else s'.setNode g n fun nd => { nd with copy := some c' }
    | none => s
  | none => s

/-- Copy nodes that a cancel stops go on to their boundary (R55). -/
def State.sweepNodes (s : State) : State :=
  let left : List (Nat × Nat) := (s.cp.graphs.map fun g => (List.range g.nodes.length).filterMap fun n => match g.node n with
    | some nd => if nd.st = .running ∧ (nd.copy.bind (·.stop)).isSome then some (g.slot, n) else none
    | none => none).flatten
  left.foldl (fun s x => s.driveNode x.1 x.2 0) s

/-- What a running node does: at its start, and again while it waits for another device or for its turn (R52, R394). -/
def State.nodeActs (s : State) (g : Graph) (n : Nat) (nd : Node) : State :=
  let r := s.nodeReq g n
  let a := nd.word 8
  match nd.kind with
  | 1 => s.nodeAccess g.slot n (s.presentLaunch r (.graph g.slot) (some (g.slot, n)) a true) fun h s' =>
      if bf h 63 60 = 0 then s'.nodeEnds g.slot n 3 0xFE else s'.setNode g.slot n fun nd => { nd with coll := some 0 }
  | 2 =>
    let c : Copy := { ticket := 0, word := 0, user := false, dst := 0, src := a, to_ := nd.word 0x10, rowb := (nd.word 0x18).toNat, rows := 1, sstr := 0, dstr := 0
                      swi := 0, prog := 0, uncounted := 0, gen := s.mem.gen, stamp := s.clk.cp }
    s.setNode g.slot n fun nd => if nd.copy.isNone then { nd with copy := some c } else nd
  | 3 => match s.issueColl r a none (some (g.slot, n)) 0x10 s.clk.cp with
    | .refused _ s' => s'.nodeEnds g.slot n 3 cCOPYFAULT
    | .waits s' => s.waitKeeping s'
    | .started _ num s' => (s'.setNode g.slot n fun nd => { nd with coll := some num }).quiesce
  | 4 =>
    let v := nd.word 0x10
    let done (s : State) : State := (s.wake g.ctx).nodeEnds g.slot n 1 0
    if bt (nd.word 0x18) 0 then s.nodeAccess g.slot n (s.memAtomic r a 0x2E 8 v 0 (nodeOrd nd 8)) fun _ s' => done s'
    else s.nodeAccess g.slot n (s.memWrite r a (leBytes 8 v.toNat) false .write {} (nodeOrd nd 8)) fun _ s' => done s'
  | 5 => s.pollNode g n nd
  | _ => s.nodeAccess g.slot n (s.memRead r a 8 .read 0x46) fun (bs, bad) s' =>
      if bad then s'.nodeEnds g.slot n 3 cPOISON
      else (s'.setNode g.slot n fun nd => { nd with taken := leNat bs != 0 }).nodeEnds g.slot n 1 0

/-- The graph's nodes may be decided: a graph in a phase waits until the phase is opened (R34). DESIGN CHOICE: the graphs of one open phase run
together; R33 calls them an ordered set, and no rule says whether one waits for another. -/
def State.mayRun (s : State) (g : Graph) : Bool :=
  match g.parent with
  | .phase p => (s.phaseAt p).any (·.opened)
  | _ => true

/-- A running node that has still to act: it waits for memory of another device, or for its issue. -/
def Node.unsettled (nd : Node) : Bool := nd.st == .running && ((nd.kind == 1 && nd.coll.isNone) || (nd.kind == 3 && nd.coll.isNone) || nd.kind == 4 || nd.kind == 6)

/-- NODE_DECIDE (R52, R53). -/
def execNodeDecide (g : BitVec 13) (n : BitVec 12) (s : State) : Out :=
  match (s.graphAt g.toNat).bind fun gr => (gr.node n.toNat).map fun nd => (gr, nd) with
  | none => .next s
  | some (gr, nd) =>
    if gr.state ≠ 0 then .next s
    else if nd.unsettled then .next (s.nodeActs gr n.toNat nd)
    else if nd.st ≠ .pending ∨ !s.mayRun gr ∨ !(gr.edgesOf nd).all (fun e => (gr.node e.2).any (·.settled)) then .next s
    else
      let taken := (gr.edgesOf nd).filter gr.edgeTaken
      let runs := nd.npred == 0 || (if nd.any then !taken.isEmpty else decide (taken.length = nd.npred))
      if !runs then .next (s.nodeSkipped gr.slot n.toNat)
      else
        let s := s.cpTick
        let s := s.setNode gr.slot n.toNat fun nd => { nd with st := .running, since := s.clk.ns }
        if !nd.bodyOk then .next (s.nodeEnds gr.slot n.toNat 3 0xFE) else .next (s.nodeActs gr n.toNat nd)

/-- WAIT_NODE_POLL (R52). -/
def execWaitNodePoll (g : BitVec 13) (n : BitVec 12) (s : State) : Out :=
  match (s.graphAt g.toNat).bind fun gr => (gr.node n.toNat).map fun nd => (gr, nd) with
  | none => .next s
  | some (gr, nd) => if nd.st = .running ∧ nd.kind = 5 then .next (s.pollNode gr n.toNat nd) else .next s

/-- WAIT_NODE_TIMEOUT (R52). -/
def execWaitNodeTimeout (g : BitVec 13) (n : BitVec 12) (s : State) : Out :=
  match (s.graphAt g.toNat).bind fun gr => (gr.node n.toNat).map fun nd => (gr, nd) with
  | none => .next s
  | some (gr, nd) =>
    let tmo := bf (nd.word 0x18) 63 32
    if nd.st = .running ∧ nd.kind = 5 ∧ tmo ≠ 0 ∧ nd.since + tmo * 1000 ≤ s.clk.ns then .next (s.nodeEnds gr.slot n.toNat 3 0xFF) else .next s

/-- COPY_NODE_COMPLETE (R52). -/
def execCopyNodeComplete (g : BitVec 13) (n : BitVec 12) (s : State) : Out :=
  match (s.graphAt g.toNat).bind fun gr => (gr.node n.toNat).bind fun nd => nd.copy with
  | none => .next s
  | some c =>
    let s1 := s.driveNode g.toNat n.toNat (c.total - c.prog)
    match (s1.graphAt g.toNat).bind fun gr => (gr.node n.toNat).bind fun nd => if nd.st = .running then nd.copy.map fun c => (gr, c) else none with
    | none => .next s1
    | some (gr, c') => if c'.total ≤ c'.prog then .next (s1.copyNodeEnds gr n.toNat c' 1 0) else .next s1

end Sys2Proof.Machine
end

