-- ==== Sys2Proof/Machine/Ethernet.lean ====
section
/-! DEFINITION. Ethernet frames of the RDMA transport: queue-pair contexts, frames that carry packets, and packets out of frames (R395, R396).
PRESUMED: R395 names IEEE 802.3, 802.1Q and 802.1Qbb, IP, UDP and the transport of the InfiniBand Trade Association without their layouts; these
layouts are taken from there. -/

namespace Sys2Proof.Machine

/-! ### Contexts (R396) -/

/-- Address of a context and of one of its words. -/
def State.qpAt (s : State) (qp : BitVec 12) (off : Nat) : Nat := bf s.fab.qptab 51 12 * 4096 + 128 * qp.toNat + off

def State.qpWord (s : State) (qp : BitVec 12) (off : Nat) : Word := s.mem.dpa64 (s.qpAt qp off)

def State.setQpWord (s : State) (qp : BitVec 12) (off : Nat) (x : Word) : State := { s with mem := s.mem.putRaw (s.qpAt qp off) (leBytes 8 x.toNat) }

/-- STATE of a context. -/
def State.qpSt (s : State) (qp : BitVec 12) : Nat := bf (s.qpWord qp 0) 1 0

/-- The context goes to STATE = 2. -/
def State.qpFails (s : State) (qp : BitVec 12) : State := s.setQpWord qp 0 ((s.qpWord qp 0 &&& ~~~3#64) ||| 2)

def State.qpSide (s : State) (qp : BitVec 12) : QpSide := (s.rdma.qps.find? (·.qp = qp)).getD { qp := qp }

def State.setQp (s : State) (x : QpSide) : State :=
  { s with rdma := { s.rdma with qps := if s.rdma.qps.any (·.qp == x.qp) then replaceIf (·.qp == x.qp) (fun _ => x) s.rdma.qps else x :: s.rdma.qps } }

def State.onQp (s : State) (qp : BitVec 12) (f : QpSide → QpSide) : State := s.setQp (f (s.qpSide qp))

/-- Path MTU in bytes. -/
def State.qpMtu (s : State) (qp : BitVec 12) : Nat := 1024 * 2 ^ (bf (s.qpWord qp 0) 5 4)

/-- Packets of a message of n bytes. -/
def State.qpPkts (s : State) (qp : BitVec 12) (n : Nat) : Nat := max 1 ((n + s.qpMtu qp - 1) / s.qpMtu qp)

/-! ### Numbers on the wire -/

/-- A number in n bytes, and the number in some bytes, the highest byte first. -/
def beBytes (n x : Nat) : List Byte := (leBytes n x).reverse
def beNum (bs : List Byte) : Nat := leNat bs.reverse
def beAt (bs : List Byte) (off n : Nat) : Nat := beNum ((bs.drop off).take n)

/-- One byte taken into a CRC-32. -/
def crc32Step (c : BitVec 32) (b : Byte) : BitVec 32 :=
  (List.range 8).foldl (fun c _ => if c.getLsbD 0 then (c >>> 1) ^^^ 0xEDB88320 else c >>> 1) (c ^^^ b.setWidth 32)

def crc32 (bs : List Byte) : BitVec 32 := ~~~(bs.foldl crc32Step 0xFFFFFFFF)

/-- The check of an IPv4 header: the complement of its sum in 16-bit words. -/
def ipCheck (h : List Byte) : Nat :=
  let sum := ((List.range (h.length / 2)).map fun i => beAt h (2 * i) 2).sum
  let once := sum % 65536 + sum / 65536
  65535 - (once % 65536 + once / 65536)

/-! ### Frames out -/

/-- What the invariant check of a packet is taken over: an IP header with the fields that change on the way set to ones, UDP without its check, and
the transport's header with its reserved byte at ones. -/
def icrcOf (v6 : Bool) (ip udp bth : List Byte) : BitVec 32 :=
  let ip := if v6 then putAt (putAt ip 0 [0x6F, 0xFF, 0xFF, 0xFF]) 7 [0xFF] else putAt (putAt (putAt ip 1 [0xFF]) 8 [0xFF]) 10 [0xFF, 0xFF]
  crc32 (List.replicate 8 0xFF ++ ip ++ putAt udp 6 [0xFF, 0xFF] ++ putAt bth 4 [0xFF])

/-- An IP header before n bytes of UDP, which marks the packet as able to meet congestion. -/
def ipHeader (v6 : Bool) (src dst : List Byte) (n : Nat) : List Byte :=
  if v6 then beBytes 4 (6 * 2 ^ 28 + 2 * 2 ^ 20) ++ beBytes 2 n ++ [17, 64] ++ src ++ dst
  else
    let h := [0x45, 2] ++ beBytes 2 (20 + n) ++ [0, 0, 0x40, 0, 64, 17, 0, 0] ++ src.drop 12 ++ dst.drop 12
    putAt h 10 (beBytes 2 (ipCheck h))

/-- The frame that carries one packet of a queue pair: opcode, PSN, the headers after the transport's own, data. -/
def State.frameOf (s : State) (qp : BitVec 12) (op : Byte) (psn : Nat) (asks : Bool) (more data : List Byte) : List Byte :=
  let w := s.qpWord qp 0
  let port := bf w 3 2
  let dmac := s.qpWord qp 0x58
  let v6 := bt w 9
  let dst := s.mem.bytesUnder 0 (s.qpAt qp 0x48) 16
  let src := leBytes 16 (vget s.fab.ethip port 0).toNat
  let pad := (4 - data.length % 4) % 4
  let bth := [op, BitVec.ofNat 8 (pad * 16)] ++ beBytes 2 0xFFFF ++ beBytes 4 (bf w 55 32) ++ beBytes 4 ((if asks then 2 ^ 31 else 0) + psn % 2 ^ 24)
  let body := bth ++ more ++ data ++ List.replicate pad 0
  let n := 8 + body.length + 4
  let ip := ipHeader v6 src dst n
  let udp := beBytes 2 (0xC000 + qp.toNat) ++ beBytes 2 4791 ++ beBytes 2 n ++ beBytes 2 0
  beBytes 6 (bf dmac 47 0) ++ beBytes 6 (bf (vget s.fab.ethmac port 0) 47 0) ++ beBytes 2 0x8100 ++ beBytes 2 (bf w 8 6 * 2 ^ 13 + bf dmac 59 48)
    ++ beBytes 2 (if v6 then 0x86DD else 0x0800) ++ ip ++ udp ++ body ++ leBytes 4 (icrcOf v6 ip udp body).toNat

/-- Data in pieces of at most the path MTU; the fuel bounds them. -/
def cutData (mtu : Nat) : Nat → List Byte → List (List Byte)
  | 0, d => [d]
  | fuel + 1, d => if d.length ≤ mtu then [d] else d.take mtu :: cutData mtu fuel (d.drop mtu)

/-- RETH, AETH. -/
def rethOf (p : RdmaPkt) : List Byte := beBytes 8 p.raddr.toNat ++ beBytes 4 p.rkey.toNat ++ beBytes 4 (p.len.toNat % 2 ^ 32)
def aethOf (syndrome : Nat) : List Byte := beBytes 4 (syndrome * 2 ^ 24)

/-- The frames of a message. Operations 1 to 5 are those of R397. The model numbers the others: 0x80 acknowledgement, 0x81 NAK of sequence, 0x82 NAK
of invalid request, 0x83 NAK of remote access error, 0x84 RNR NAK, 0x85 READ response, 0x86 CNP. -/
def State.framesOf (s : State) (qp : BitVec 12) (op : Byte) (p : RdmaPkt) : List (List Byte) :=
  let psn := p.psn.toNat
  let pieces := cutData (s.qpMtu qp) p.data.length p.data
  let n := pieces.length
  -- opcodes of a message of several packets: first, middle, last, only
  let cut (first mid last only : Byte) (head : Nat → List Byte) (tail : List Byte) (asks : Bool) : List (List Byte) :=
    pieces.mapIdx fun i d =>
      let o := if n = 1 then only else if i = 0 then first else if i + 1 = n then last else mid
      s.frameOf qp o (psn + i) (asks && i + 1 == n) (head i ++ (if i + 1 = n then tail else [])) d
  let ack (syndrome : Nat) : List (List Byte) := [s.frameOf qp 0x11 psn false (aethOf syndrome) []]
  let imm := if p.hasImm then beBytes 4 p.imm.toNat else []
  let reth (i : Nat) : List Byte := if i = 0 then rethOf p else []
  let aeth (i : Nat) : List Byte := if i = 0 ∨ i + 1 = n then aethOf 0x1F else []
  match op.toNat with
  | 1 => cut 0x00 0x01 0x02 0x04 (fun _ => []) [] true
  | 2 => cut 0x00 0x01 0x03 0x05 (fun _ => []) imm true
  | 3 => cut 0x06 0x07 0x08 0x0A reth [] true
  | 4 => cut 0x06 0x07 0x09 0x0B reth imm true
  | 5 => [s.frameOf qp 0x0C psn true (rethOf p) []]
  | 0x80 => ack 0x1F
  | 0x81 => ack 0x60
  | 0x82 => ack 0x61
  | 0x83 => ack 0x62
  | 0x84 => ack (0x20 + p.imm.toNat % 32)
  | 0x85 => cut 0x0D 0x0E 0x0F 0x10 aeth [] false
  | _ => [s.frameOf qp 0x81 psn false (List.replicate 16 0) []]

/-! ### Frames in -/

/-- A packet of the transport: its opcode, its message's fields, the syndrome of an acknowledgement. -/
structure Bth where
  op : Byte
  pkt : RdmaPkt
  syndrome : Nat
  deriving DecidableEq, Repr

/-- A frame's own header: destination, tag or not, type, and what follows it. -/
def etherOf (bs : List Byte) : Nat × Nat × List Byte :=
  let type := beAt bs 12 2
  if type = 0x8100 then (beAt bs 0 6, beAt bs 16 2, bs.drop 18) else (beAt bs 0 6, type, bs.drop 14)

/-- The priorities that a frame of priority flow control names, and their times. -/
def pauseOf (bs : List Byte) : Option (Nat × List Nat) :=
  let (_, type, rest) := etherOf bs
  if type = 0x8808 ∧ beAt rest 0 2 = 0x0101 then some (beAt rest 2 2, (List.range 8).map fun i => beAt rest (4 + 2 * i) 2) else none

/-- The packet that UDP carries to port 4791, if its invariant check holds: Reliable Connection or a congestion notification, for one of the 4096
queue pairs. -/
def bthOf (v6 : Bool) (ecn : Bool) (ip udp body : List Byte) : Option Bth :=
  let n := body.length - 4
  let op := beAt body 0 1
  let qp := beAt body 5 3
  let kept := body.take n
  if beAt udp 2 2 ≠ 4791 ∨ body.length < 16 ∨ leNat (body.drop n) ≠ (icrcOf v6 ip udp kept).toNat ∨ (32 ≤ op ∧ op ≠ 0x81) ∨ 4096 ≤ qp then none
  else
    let has (l : List Nat) : Bool := l.contains op
    let r := if has [0x06, 0x0A, 0x0B, 0x0C] then 16 else 0
    let a := if has [0x0D, 0x0F, 0x10, 0x11] then 4 else 0
    let m := if has [0x03, 0x05, 0x09, 0x0B] then 4 else 0
    let other := if has [0x13, 0x14] then 28 else if has [0x16, 0x17] then 4 else 0
    let more := kept.drop 12
    let data := more.drop (r + a + m + other)
    let data := data.take (data.length - fld (beAt body 1 1) 5 4)
    some { op := BitVec.ofNat 8 op, syndrome := beAt more 0 1
           pkt := { qp := BitVec.ofNat 12 qp, psn := BitVec.ofNat 24 (beAt body 9 3), raddr := w64 (beAt more 0 8), rkey := BitVec.ofNat 32 (beAt more 8 4)
                    imm := BitVec.ofNat 32 (beAt more r 4), hasImm := m == 4, ecn := ecn, data := data
                    len := w64 (if op = 0x0C then beAt more 12 4 else data.length) } }

/-- The packet of the transport in a frame that is for this port: by its address, IPv4 or IPv6, UDP. -/
def State.packetIn (s : State) (port : Nat) (bs : List Byte) : Option Bth :=
  let (dst, type, rest) := etherOf bs
  let mine := leBytes 16 (vget s.fab.ethip port 0).toNat
  if dst ≠ bf (vget s.fab.ethmac port 0) 47 0 ∨ 3 ≤ port then none
  else if type = 0x0800 then
    let h := 4 * (beAt rest 0 1 % 16)
    let ip := rest.take h
    let pay := (rest.take (beAt rest 2 2)).drop h
    if beAt rest 0 1 / 16 ≠ 4 ∨ beAt rest 9 1 ≠ 17 ∨ (rest.drop 16).take 4 ≠ mine.drop 12 ∨ (mine.take 12) ≠ List.replicate 10 0 ++ [0xFF, 0xFF] ∨ ipCheck ip ≠ 0 then none
    else bthOf false (beAt rest 1 1 % 4 == 3) ip (pay.take 8) (pay.drop 8)
  else if type = 0x86DD then
    let pay := (rest.drop 40).take (beAt rest 4 2)
    if beAt rest 0 1 / 16 ≠ 6 ∨ beAt rest 6 1 ≠ 17 ∨ (rest.drop 24).take 16 ≠ mine then none
    else bthOf true (beAt rest 0 2 / 16 % 4 == 3) (rest.take 40) (pay.take 8) (pay.drop 8)
  else none

end Sys2Proof.Machine
end

