-- ==== Sys2Proof/Machine/Rdma.lean ====
section
/-! DEFINITION. The Ethernet engine: queue-pair contexts, rings and completions, requests and answers of peers (R395 to R398). -/

namespace Sys2Proof.Machine

/-! ### The engine and its peers -/

/-- The engine as a package agent of the context's job (R429, R431). -/
def State.qpReq (s : State) (qp : BitVec 12) (own : List Nat) : Req :=
  { pkgReq (BitVec.ofNat 16 (bf (s.qpWord qp 0) 31 16)) s.clk.hub (6 :: qp.toNat :: own) with covers := true }

/-- A peer of the context, of world scope (R339, R398). -/
def State.peerReq (s : State) (qp : BitVec 12) (own : List Nat) : Req := { s.qpReq qp own with agent := 3 }

/-- Slot of entry number n (from 1) of the ring whose register word is w. -/
def ringSlot (w : Word) (size n : Nat) : Word := w64 (bf w 63 12 * 4096 + size * ((n - 1) % 2 ^ (bf w 3 0 + 6)))

/-- Priority paused by the peer of the context's port (R395). -/
def State.qpPaused (s : State) (qp : BitVec 12) : Bool :=
  let w := s.qpWord qp 0
  (vget s.rdma.paused (bf w 3 2) 0).getLsbD (bf w 8 6)

/-! ### What goes out -/

/-- A message of a queue pair goes out, in frames (R395). -/
def State.rdmaOut (s : State) (qp : BitVec 12) (op : Byte) (p : RdmaPkt) : State :=
  let port := bf (s.qpWord qp 0) 3 2
  { s with rdma := { s.rdma with out := (qp, op, p) :: s.rdma.out, frames := ((s.framesOf qp op p).map fun f => (port, f)).reverse ++ s.rdma.frames } }

/-- An answer to a request; a request that met congestion is answered with a CNP too (R395). -/
def State.rdmaAnswer (s : State) (p : RdmaPkt) (op : Byte) (imm : BitVec 32) (data : List Byte) : State :=
  s.rdmaOut p.qp op { qp := p.qp, psn := p.psn, raddr := 0, rkey := 0, imm := imm, hasImm := false, ecn := false, data := data, len := w64 data.length }

def State.cnpFor (s : State) (p : RdmaPkt) : State := if p.ecn then s.rdmaAnswer p 0x86 0 [] else s

/-- A packet whose access waits for memory is kept, to be taken again: a request without its congestion mark, which `inOrder` answered. -/
def State.keepPkt (s : State) (op : Byte) (p : RdmaPkt) : State :=
  { s with rdma := { s.rdma with kept := if s.rdma.kept.contains (op, p) then s.rdma.kept else s.rdma.kept ++ [(op, p)] } }

/-! ### Spans of memory -/

/-- Writes bytes from an address, a sector at a time; the fuel bounds the pieces. On a wait nothing else of the attempt counts; a fault leaves what was
written before it. -/
def State.spanWrite (s0 s : State) (r : Req) : Nat → Word → List Byte → Att Unit
  | 0, _, _ => .ok () s
  | fuel + 1, a, bs =>
    if bs.isEmpty then .ok () { s with mem := s.mem.covered r.own }
    else
      let n := 256 - a.toNat % 256
      match s.memWrite r a (bs.take n) false .write {} with
      | .trap c s' => .trap c s'
      | .wait s' => .wait (s0.waitKeeping s')
      | .ok _ s' => s0.spanWrite s' r fuel (a + w64 n) (bs.drop n)

/-- Pieces of a span of n bytes. -/
def spanFuel (n : Nat) : Nat := n / 256 + 2

/-- The completion entries that wait are written, the oldest first: the entry number last, as a release at package scope (R397, R398). An entry that
cannot be written is lost. The fuel bounds the entries. -/
def State.writeCqes : Nat → State → State
  | 0, s => s
  | fuel + 1, s => match s.rdma.cqes with
    | [] => s
    | x :: rest =>
      let r := s.qpReq x.qp [x.num]
      let a := ringSlot (s.qpWord x.qp 0x20) 16 x.num
      let next (s : State) : State := State.writeCqes fuel { s with rdma := { s.rdma with cqes := rest } }
      match s.memWrite r a (leBytes 8 x.wrid.toNat ++ leBytes 4 x.bytes ++ [x.status, x.op]) false .write {} with
      | .wait s' => s.waitKeeping s'
      | .trap _ s' => next s'
      | .ok _ s' => match s'.memWrite r (a + 14) (leBytes 2 x.num) false .write {} 0x48 with
        | .wait s'' => s.waitKeeping s''
        | .trap _ s'' => next s''
        | .ok _ s'' => next s''

/-- A completion entry takes the next number of its ring. -/
def State.cqEntry (s : State) (qp : BitVec 12) (report : Bool) (wrid : Word) (bytes : Nat) (status op : Byte) : State :=
  if !report then s
  else
    let x := s.qpSide qp
    let num := x.completions + 1
    let s := s.setQp { x with completions := num }
    State.writeCqes (s.rdma.cqes.length + 1) { s with rdma := { s.rdma with cqes := s.rdma.cqes ++ [⟨qp, num, wrid, bytes, status, op⟩] } }

/-- The fields of a ring entry (R397). -/
structure RingEntry where
  op : Byte
  report : Bool
  /-- A reserved field is nonzero or LEN too large. -/
  wrong : Bool
  laddr : Word
  len : Nat
  raddr : Word
  rkey : BitVec 32
  imm : BitVec 32
  wrid : Word
  deriving DecidableEq, Repr

def ringEntry (d : List Byte) : RingEntry :=
  let n (off k : Nat) : Nat := numAt d off k
  { op := BitVec.ofNat 8 (n 0 1), report := n 1 1 % 2 == 1
    wrong := fld (n 1 1) 7 1 != 0 || n 2 6 != 0 || decide (2 ^ 31 < n 0x10 8) || n 0x30 16 != 0
    laddr := w64 (n 8 8), len := n 0x10 8, raddr := w64 (n 0x18 8), rkey := BitVec.ofNat 32 (n 0x20 4), imm := BitVec.ofNat 32 (n 0x24 4), wrid := w64 (n 0x28 8) }

/-- The next entry of the send ring, or of the receive ring: none while the doorbell's count does not cover it or its OPC is not
of that ring. -/
def State.nextEntry (s : State) (qp : BitVec 12) (recv : Bool) : Att (Option RingEntry) :=
  let x := s.qpSide qp
  let w := s.qpWord qp (if recv then 0x18 else 0x10)
  let num := (if recv then x.received else x.sent) + 1
  if x.posted ≤ x.sent + x.received then .ok none s
  else match s.readSpan s (s.qpReq qp [num]) .read 2 (ringSlot w 64 num) 64 with
    | .trap c s' => .trap c s'
    | .wait s' => .wait s'
    | .ok (d, bad) s' =>
      let e := ringEntry d
      if bad then .trap cPOISON s' else .ok (if (if recv then e.op == 0x10 else e.op != 0) then some e else none) s'

/-- Entries in flight complete with a status: the first with this one, those after it with STATUS 5, and the context fails (R397, R398). -/
def State.failFlight (s : State) (qp : BitVec 12) (status : Byte) : State :=
  let x := s.qpSide qp
  let s := (s.setQp { x with flight := [], rnr := none, retries := 0, rnrTries := 0 }).qpFails qp
  (x.flight.mapIdx fun i f => (i, f)).foldl (fun s y => s.cqEntry qp y.2.report y.2.wrid 0 (if y.1 = 0 then status else 5) y.2.op) s

/-- PSN a is at or before PSN b. -/
def psnLe (a b : Nat) : Bool := decide ((b + 2 ^ 24 - a % 2 ^ 24) % 2 ^ 24 < 2 ^ 23)

/-- The last PSN of a request. -/
def Flight.last (f : Flight) : Nat := (f.psn + f.pkts - 1) % 2 ^ 24

/-- Requests acknowledged up to a PSN complete, in order (R397). -/
def State.acked (s : State) (qp : BitVec 12) (psn : Nat) : State :=
  let x := s.qpSide qp
  let done := x.flight.takeWhile fun f => psnLe f.last psn && f.op != 5
  let s := s.setQp { x with flight := x.flight.drop done.length, retries := if done.isEmpty then x.retries else 0, rnrTries := if done.isEmpty then x.rnrTries else 0, sentAt := s.clk.ns }
  done.foldl (fun s f => s.cqEntry qp f.report f.wrid f.len 0 f.op) s

/-- Sends again every request from a PSN on (R395). -/
def State.resend (s : State) (qp : BitVec 12) (psn : Nat) : State :=
  let x := s.qpSide qp
  let s := s.setQp { x with sentAt := s.clk.ns }
  (x.flight.filter fun f => psnLe psn f.last).foldl (fun s f => s.rdmaOut qp f.op f.pkt) s

/-! ### Sending (R397, R398) -/

/-- DOORBELL_POLL: the engine reads a doorbell, with acquire. -/
def execDoorbellPoll (qp : BitVec 12) (s : State) : Out :=
  if s.qpSt qp = 1 ∨ s.qpSt qp = 2 then
    match s.memRead (s.qpReq qp [0]) (s.qpWord qp 0x28) 8 .read 0x46 with
    | .trap _ s' => .next s'
    | .wait s' => .next s'
    | .ok (bs, bad) s' => if bad then .next s' else .next (s'.onQp qp fun x => { x with posted := leNat bs })
  else .next s

/-- A SIGNAL on a doorbell word wakes the engine (R398). -/
def State.wakeEthernet (s : State) (ctx : BitVec 16) (a : Word) : State :=
  (List.range 4096).foldl (fun s i =>
    let qp : BitVec 12 := BitVec.ofNat 12 i
    let w := s.qpWord qp 0
    if (bf w 1 0 = 1 ∨ bf w 1 0 = 2) ∧ bf w 31 16 = ctx.toNat ∧ s.qpWord qp 0x28 = a then
      match s.memRead (s.qpReq qp [0]) a 8 .read 0x46 with
      | .ok (bs, bad) s' => if bad then s' else s'.onQp qp fun x => { x with posted := leNat bs }
      | .wait s' => s'
      | .trap _ s' => s'
    else s) s

/-- After the add of a SIGNAL has performed: event flags, wait nodes and doorbells of the job (R175, R398). -/
def State.signalled (s : State) (ctx : BitVec 16) (a : Word) : State := ((s.wake ctx).pollWaits ctx a).wakeEthernet ctx a

/-- The entry being taken ends at once with a status, and the context fails. -/
def State.entryFails (s : State) (qp : BitVec 12) (e : RingEntry) (status : Byte) : State :=
  ((s.onQp qp fun x => { x with sent := x.sent + 1 }).cqEntry qp e.report e.wrid 0 status e.op).qpFails qp

/-- An entry of a failed context completes with STATUS 5. -/
def State.flushEntry (s : State) (qp : BitVec 12) : State :=
  match s.nextEntry qp false with
  | .ok (some e) s' => (s'.onQp qp fun x => { x with sent := x.sent + 1 }).cqEntry qp e.report e.wrid 0 5 e.op
  | .ok none s' => match s'.nextEntry qp true with
    | .ok (some e) s'' => (s''.onQp qp fun x => { x with received := x.received + 1 }).cqEntry qp e.report e.wrid 0 5 e.op
    | .wait s'' => s''
    | _ => s'
  | .wait s' => s'
  | .trap _ s' => s'

/-- SEND_RING_ENTRY: the engine takes the next send-ring entry. -/
def execSendRingEntry (qp : BitVec 12) (s : State) : Out :=
  let x := s.qpSide qp
  if s.qpSt qp = 2 then .next (s.flushEntry qp)
  else if s.qpSt qp ≠ 1 ∨ x.rnr.isSome ∨ s.qpPaused qp then .next s
  else match s.nextEntry qp false with
    | .trap _ s' => .next (s'.entryFails qp (ringEntry []) 1)
    | .wait s' => .next s'
    | .ok none s' => .next s'
    | .ok (some e) s1 =>
      if e.wrong ∨ 5 < e.op then .next (s1.entryFails qp e 4)
      else
        let num := x.sent + 1
        let r := s1.qpReq qp [num, 1]
        let data : Att (List Byte × Bool) := if e.op = 5 then .ok ([], false) s1 else s1.readSpan s1 r .read (spanFuel e.len) e.laddr e.len
        match data with
        | .wait s' => .next (s.waitKeeping s')
        | .trap _ s' => .next (s'.entryFails qp e 1)
        | .ok (bs, bad) s2 =>
          if bad then .next (s2.entryFails qp e 1)
          else match s2.mark r 4 (w64 (qp.toNat * 2 ^ 48 + num % 2 ^ 32)) with
            | .full => .next s
            | .stall => .next s
            | .ok s3 =>
              let psn := bf (s3.qpWord qp 8) 23 0
              let pkts := s3.qpPkts qp e.len
              let p : RdmaPkt := { qp := qp, psn := BitVec.ofNat 24 psn, raddr := e.raddr, rkey := e.rkey, imm := e.imm, hasImm := e.op = 2 ∨ e.op = 4, ecn := false
                                   data := bs, len := w64 e.len }
              let f : Flight := { num := num, op := e.op, psn := psn, pkts := pkts, wrid := e.wrid, report := e.report, laddr := e.laddr, len := e.len, pkt := p }
              let s4 := s3.setQpWord qp 8 (w64 (bf (s3.qpWord qp 8) 63 24 * 2 ^ 24 + (psn + pkts) % 2 ^ 24))
              .next ((s4.setQp { x with sent := num, flight := x.flight ++ [f], sentAt := if x.flight.isEmpty then s.clk.ns else x.sentAt }).rdmaOut qp e.op p)

/-! ### Answers to this device's requests (R395, R398) -/

/-- RDMA_ACK_RECEIVED: requests up to the PSN complete; a NAK of remote access error completes its entry with STATUS 2. -/
def execRdmaAckReceived (p : RdmaPkt) (s : State) : Out :=
  if s.qpSt p.qp ≠ 1 then .next s
  else
    let s := s.cnpFor p
    if p.hasImm then
      let s := s.acked p.qp ((p.psn.toNat + 2 ^ 24 - 1) % 2 ^ 24)
      if (s.qpSide p.qp).flight.isEmpty then .next s else .next (s.failFlight p.qp 2)
    else .next (s.acked p.qp p.psn.toNat)

/-- RDMA_READ_RESPONSE: the data of a READ is written, and its entry completes. -/
def execRdmaReadResponse (p : RdmaPkt) (s : State) : Out :=
  if s.qpSt p.qp ≠ 1 then .next s
  else
    let s := s.acked p.qp ((p.psn.toNat + 2 ^ 24 - 1) % 2 ^ 24)
    match (s.qpSide p.qp).flight with
    | f :: rest =>
      if f.op = 5 ∧ f.psn = p.psn.toNat then
        match s.spanWrite s (s.peerReq p.qp [f.num, 2]) (spanFuel f.len) f.laddr (p.data.take f.len) with
        | .wait s' => .next ((s.waitKeeping s').keepPkt 0x85 p)
        | .trap _ s' => .next (s'.failFlight p.qp 1)
        | .ok _ s' =>
          let s' := (s'.onQp p.qp fun x => { x with flight := rest, retries := 0, rnrTries := 0, sentAt := s.clk.ns }).cnpFor p
          .next (s'.cqEntry p.qp f.report f.wrid f.len 0 f.op)
      else .next s
    | [] => .next s

/-- The wait of an RNR timer code, in units of 10 µs (InfiniBand encoding). -/
def rnrUnits (code : Nat) : Nat :=
  ([65536, 1, 2, 3, 4, 6, 8, 12, 16, 24, 32, 48, 64, 96, 128, 192, 256, 384, 512, 768, 1024, 1536, 2048, 3072, 4096, 6144, 8192, 12288, 16384, 24576, 32768, 49152][code % 32]?).getD 1

/-- RNR_NAK_RECEIVED: the requester waits the time of the code, then sends from the NAKed PSN. -/
def execRnrNakReceived (p : RdmaPkt) (s : State) : Out :=
  if s.qpSt p.qp ≠ 1 then .next s
  else
    let s := s.acked p.qp ((p.psn.toNat + 2 ^ 24 - 1) % 2 ^ 24)
    .next (s.onQp p.qp fun x => { x with rnr := some (s.clk.ns + 10000 * rnrUnits p.imm.toNat, p.psn.toNat) })

/-- RNR_TIMER_EXPIRY: sends again up to RRC times, then the entry completes with STATUS 6. -/
def execRnrTimerExpiry (qp : BitVec 12) (s : State) : Out :=
  let x := s.qpSide qp
  match x.rnr with
  | none => .next s
  | some (t, psn) =>
    if s.clk.ns < t then .next s
    else
      let rrc := bf (s.qpWord qp 0) 63 61
      if rrc ≠ 7 ∧ rrc ≤ x.rnrTries then .next (s.failFlight qp 6)
      else .next ((s.setQp { x with rnr := none, rnrTries := x.rnrTries + 1 }).resend qp psn)

/-- INVALID_REQUEST_NAK: the entry completes with STATUS 8, and the context fails. -/
def execInvalidRequestNak (p : RdmaPkt) (s : State) : Out :=
  if s.qpSt p.qp ≠ 1 then .next s
  else
    let s := s.acked p.qp ((p.psn.toNat + 2 ^ 24 - 1) % 2 ^ 24)
    if (s.qpSide p.qp).flight.isEmpty then .next s else .next (s.failFlight p.qp 8)

/-- One more retransmission, or STATUS 3 after seven (R395). -/
def State.retry (s : State) (qp : BitVec 12) (psn : Nat) : State :=
  let x := s.qpSide qp
  if x.flight.isEmpty then s
  else if 7 ≤ x.retries then s.failFlight qp 3
  else (s.setQp { x with retries := x.retries + 1 }).resend qp psn

/-- SEQUENCE_NAK: go-back-N from the NAKed PSN. -/
def execSequenceNak (p : RdmaPkt) (s : State) : Out :=
  if s.qpSt p.qp ≠ 1 then .next s
  else .next ((s.acked p.qp ((p.psn.toNat + 2 ^ 24 - 1) % 2 ^ 24)).retry p.qp p.psn.toNat)

/-- RDMA_RETRANSMIT_TIMEOUT: 100 µs without an answer. -/
def execRdmaRetransmitTimeout (qp : BitVec 12) (s : State) : Out :=
  let x := s.qpSide qp
  if s.qpSt qp ≠ 1 ∨ x.rnr.isSome ∨ s.clk.ns < x.sentAt + 100000 ∨ s.qpPaused qp then .next s
  else match x.flight with
    | f :: _ => .next (s.retry qp f.psn)
    | [] => .next s

/-- CNP_RECEIVED: the queue pair halves its rate. -/
def execCnpReceived (qp : BitVec 12) (s : State) : Out :=
  .next (s.onQp qp fun x => { x with rate := x.rate / 2, rateAt := s.clk.ns })

/-- RATE_INCREASE: 1 % of the port rate after 50 µs without a CNP. -/
def execRateIncrease (qp : BitVec 12) (s : State) : Out :=
  let x := s.qpSide qp
  if s.clk.ns < x.rateAt + 50000 then .next s
  else .next (s.setQp { x with rate := min 1000000 (x.rate + 10000), rateAt := s.clk.ns })

/-- PFC_PAUSE_FRAME: a peer pauses or resumes a priority of an Ethernet port. -/
def execPfcPauseFrame (port : BitVec 2) (prio : BitVec 3) (paused : Bool) (s : State) : Out :=
  let old := vget s.rdma.paused port.toNat 0
  let bit : Byte := 1#8 <<< prio.toNat
  .next { s with rdma := { s.rdma with paused := vset s.rdma.paused port.toNat (if paused then old ||| bit else old &&& ~~~bit) } }

/-! ### Requests of peers (R395, R398) -/

/-- The request is the next expected one: it acts. A repeat of an earlier one is acknowledged again, a later one gets a NAK of
sequence with the PSN that is expected; a context that is not ready takes nothing. -/
def State.inOrder (s : State) (p : RdmaPkt) (repeats : Bool) (act : State → State) : State :=
  if s.qpSt p.qp ≠ 1 then s
  else
    let s := s.cnpFor p
    let want := bf (s.qpWord p.qp 8) 55 32
    if p.psn.toNat = want then act s
    else if psnLe p.psn.toNat want then (if repeats then act s else s.rdmaAnswer { p with psn := BitVec.ofNat 24 want - 1 } 0x80 0 [])
    else s.rdmaAnswer { p with psn := BitVec.ofNat 24 want } 0x81 0 []

/-- A request of n packets is acknowledged by the PSN of its last. -/
def State.acknowledge (s : State) (p : RdmaPkt) (n : Nat) : State := s.rdmaAnswer { p with psn := p.psn + BitVec.ofNat 24 (n - 1) } 0x80 0 []

/-- The expected PSN moves past a request of n packets, unless the request was a repeat. -/
def State.expectAfter (s : State) (p : RdmaPkt) (n : Nat) : State :=
  let w := s.qpWord p.qp 8
  if p.psn.toNat = bf w 55 32 then s.setQpWord p.qp 8 (w64 ((bf w 55 32 + n) % 2 ^ 24 * 2 ^ 32 + bf w 31 0)) else s

/-- A RECV entry is used up with a status. -/
def State.recvDone (s : State) (qp : BitVec 12) (e : RingEntry) (bytes : Nat) (status : Byte) : State :=
  (s.onQp qp fun x => { x with received := x.received + 1 }).cqEntry qp e.report e.wrid bytes status e.op

/-- INCOMING_SEND. -/
def execIncomingSend (p : RdmaPkt) (s : State) : Out :=
  .next (s.inOrder p false fun s =>
    let rnr (s : State) : State := s.rdmaAnswer p 0x84 (BitVec.ofNat 32 (bf (s.qpWord p.qp 0) 60 56)) []
    match s.nextEntry p.qp true with
    | .wait s' => (s.waitKeeping s').keepPkt 1 { p with ecn := false }
    | .trap _ s' => rnr s'
    | .ok none s' => rnr s'
    | .ok (some e) s1 =>
      let bad (s : State) (status : Byte) : State := ((s.recvDone p.qp e 0 status).qpFails p.qp).rdmaAnswer p 0x82 0 []
      if e.wrong then bad s1 4
      else if e.len < p.data.length then bad s1 7
      else match s1.spanWrite s1 (s1.peerReq p.qp [p.psn.toNat, 3]) (spanFuel p.data.length) e.laddr p.data with
        | .wait s' => (s.waitKeeping s').keepPkt 1 { p with ecn := false }
        | .trap _ s' => bad s' 1
        | .ok _ s' => ((s'.expectAfter p (s'.qpPkts p.qp p.data.length)).recvDone p.qp e p.data.length 0).acknowledge p (s'.qpPkts p.qp p.data.length))

/-- The key, the permission and the range of a WRITE or READ (R398). -/
def State.rdmaAllowed (s : State) (p : RdmaPkt) (n bit : Nat) : Bool :=
  let k := s.qpWord p.qp 0x30
  let base := (s.qpWord p.qp 0x38).toNat
  bf k 31 0 == p.rkey.toNat && bt k bit && decide (base ≤ p.raddr.toNat ∧ p.raddr.toNat + n ≤ base + (s.qpWord p.qp 0x40).toNat)

/-- INCOMING_RDMA_WRITE. -/
def execIncomingRdmaWrite (p : RdmaPkt) (s : State) : Out :=
  .next (s.inOrder p false fun s =>
    if !s.rdmaAllowed p p.data.length 32 then s.rdmaAnswer p 0x83 0 []
    else match s.spanWrite s (s.peerReq p.qp [p.psn.toNat, 4]) (spanFuel p.data.length) p.raddr p.data with
      | .wait s' => (s.waitKeeping s').keepPkt 3 { p with ecn := false }
      | .trap _ s' => s'.rdmaAnswer p 0x83 0 []
      | .ok _ s' => (s'.expectAfter p (s'.qpPkts p.qp p.data.length)).acknowledge p (s'.qpPkts p.qp p.data.length))

/-- INCOMING_RDMA_READ. -/
def execIncomingRdmaRead (p : RdmaPkt) (s : State) : Out :=
  .next (s.inOrder p true fun s =>
    let n := p.len.toNat
    if !s.rdmaAllowed p n 33 then s.rdmaAnswer p 0x83 0 []
    else match s.readSpan s (s.peerReq p.qp [p.psn.toNat, 5]) .read (spanFuel n) p.raddr n with
      | .wait s' => (s.waitKeeping s').keepPkt 5 { p with ecn := false }
      | .trap _ s' => s'.rdmaAnswer p 0x83 0 []
      | .ok (bs, bad) s' =>
        if bad then s'.rdmaAnswer p 0x83 0 []
        else (s'.expectAfter p (s'.qpPkts p.qp n)).rdmaAnswer p 0x85 0 bs)

/-- Packets whose access waited are taken again, and completion entries written. -/
def State.retryRdma (s : State) : State :=
  let s := State.writeCqes s.rdma.cqes.length s
  let next (o : Out) (s : State) : State := match o with | .next t => t | _ => s
  s.rdma.kept.foldl (fun s x =>
    let s := { s with rdma := { s.rdma with kept := s.rdma.kept.filter (· != x) } }
    match x.1.toNat with
    | 1 => next (execIncomingSend x.2 s) s
    | 3 => next (execIncomingRdmaWrite x.2 s) s
    | 5 => next (execIncomingRdmaRead x.2 s) s
    | _ => next (execRdmaReadResponse x.2 s) s) s

/-- INCOMING_ATOMIC_REQUEST: answered with a NAK of invalid request (R395). -/
def execIncomingAtomicRequest (p : RdmaPkt) (s : State) : Out :=
  if s.qpSt p.qp ≠ 1 then .next s else .next ((s.cnpFor p).rdmaAnswer p 0x82 0 [])

/-! ### Frames that arrive (R395) -/

/-- A request that has arrived whole is taken, by the operation of its packets. -/
def State.takeRequest (s : State) (op : Byte) (p : RdmaPkt) : State :=
  let next (o : Out) : State := match o with | .next t => t | _ => s
  if op = 1 then next (execIncomingSend p s) else if op = 3 then next (execIncomingRdmaWrite p s) else if op = 5 then next (execIncomingRdmaRead p s)
  else if op = 0x85 then next (execRdmaReadResponse p s) else next (execIncomingAtomicRequest p s)

/-- A packet of a message of several joins it, in sequence; the message is taken with its last packet. -/
def State.takePart (s : State) (op : Byte) (p : RdmaPkt) (first last : Bool) : State :=
  let x := s.qpSide p.qp
  let begins (s : State) : State := s.setQp { x with coming := some ⟨op, 1, p⟩ }
  if first && last then (s.setQp { x with coming := none }).takeRequest op p
  else if first then
    if op = 0x85 ∨ p.psn.toNat = bf (s.qpWord p.qp 8) 55 32 then begins s else (s.setQp { x with coming := none }).inOrder p false id
  else match x.coming with
    | none => s.inOrder p false id
    | some c =>
      let want := c.pkt.psn + BitVec.ofNat 24 c.pkts
      if c.op ≠ op then s
      else if p.psn ≠ want then (if op ≠ 0x85 ∧ psnLe want.toNat p.psn.toNat then s.rdmaAnswer { p with psn := want } 0x81 0 [] else s)
      else
        let whole : RdmaPkt := { c.pkt with data := c.pkt.data ++ p.data, imm := p.imm, hasImm := p.hasImm, ecn := c.pkt.ecn || p.ecn, len := c.pkt.len + w64 p.data.length }
        if last then (s.setQp { x with coming := none }).takeRequest op whole else s.setQp { x with coming := some ⟨op, c.pkts + 1, whole⟩ }

/-- An acknowledgement, by its syndrome. -/
def State.takeAck (s : State) (p : RdmaPkt) (syndrome : Nat) : State :=
  let next (o : Out) : State := match o with | .next t => t | _ => s
  match fld syndrome 6 5 with
  | 0 => next (execRdmaAckReceived p s)
  | 1 => next (execRnrNakReceived { p with imm := BitVec.ofNat 32 (fld syndrome 4 0) } s)
  | 3 => match fld syndrome 4 0 with
    | 0 => next (execSequenceNak p s)
    | 1 => next (execInvalidRequestNak p s)
    | _ => next (execRdmaAckReceived { p with hasImm := true } s)
  | _ => s

/-- A packet of the transport, by its opcode: Reliable Connection and congestion notifications; any other transport is dropped (R395). -/
def State.takePacket (s : State) (b : Bth) : State :=
  let next (o : Out) : State := match o with | .next t => t | _ => s
  let p := b.pkt
  if b.op = 0x81 then next (execCnpReceived p.qp s)
  else if b.op ≤ 0x05 then s.takePart 1 p (b.op == 0 || b.op == 4 || b.op == 5) (decide (2 ≤ b.op))
  else if b.op ≤ 0x0B then s.takePart 3 p (b.op == 6 || b.op == 0x0A || b.op == 0x0B) (decide (8 ≤ b.op))
  else if b.op = 0x0C then s.takePart 5 p true true
  else if b.op ≤ 0x10 then s.takePart 0x85 p (b.op == 0x0D || b.op == 0x10) (b.op == 0x0F || b.op == 0x10)
  else if b.op = 0x11 then s.takeAck p b.syndrome
  else if b.op = 0x13 ∨ b.op = 0x14 ∨ b.op = 0x16 ∨ b.op = 0x17 then s.takePart 0x13 p true true
  else s

/-- A frame arrives at an Ethernet port: a pause of priorities, or a packet of the transport for a queue pair of the port; any other is dropped
(R395). -/
def State.frameArrives (s : State) (port : Nat) (bs : List Byte) : State :=
  match pauseOf bs with
  | some (mask, times) => (List.range 8).foldl (fun s i =>
      if mask.testBit i then (match execPfcPauseFrame (BitVec.ofNat 2 port) (BitVec.ofNat 3 i) (decide (times.getD i 0 ≠ 0)) s with | .next t => t | _ => s) else s) s
  | none => match s.packetIn port bs with
    | some b => if bf (s.qpWord b.pkt.qp 0) 3 2 = port then s.takePacket b else s
    | none => s

end Sys2Proof.Machine
end

