-- ==== Sys2Proof/Machine/WorkInstr.lean ====
section
/-! DEFINITION. The instructions of a strand that start, cancel and wait for work (R172 to R175). -/

namespace Sys2Proof.Machine

/-- The command processor acts on a message of the strand: both clocks advance (R154, R452). -/
def State.toCp (s : State) : State := let s := s.tick; (s.cpHears s.me.lclk).cpTick

/-- An entry of a launch timeline for the command processor's answer (R325). -/
def ltAnswer (h clk : Word) : LtEntry := { handle := if bf h 63 60 = 0 then none else some h, stamp := clk }

/-- The command processor goes on with the oldest structure that strand k presented: it waits for what it reads of it, or accepts or rejects it;
then the destination register receives the handle (R172). -/
def State.driveSubmit (s : State) (k : SId) : State :=
  match s.strandOf k with
  | none => s
  | some o => match o.as.subs with
    | [] => s
    | u :: rest =>
      let r := pkgReq o.ctx u.stamp [16, k.lid.toNat, k.cid.toNat, k.sid.toNat, u.place]
      let p : Parent := .launch (bf k.lid 12 0)
      match if u.graph then s.presentGraph r p u.at_ true else s.presentLaunch r p none u.at_ true with
      | .wait s' => s.waitKeeping s'
      | .trap _ s' => s'
      | .ok h s' => s'.onStrand k fun x =>
          { x.w u.dst h with as := { (x.w u.dst h).as with subs := rest, ltl := x.as.ltl.mapIdx fun i e => if i = u.place then ltAnswer h s'.clk.cp else e } }

/-- LAUNCH or GRAPH: a structure is presented for the strand's launch (R172). The writes that the strand issued before leave its core's stage,
as the instruction is a release at package scope (R350). -/
def State.present (s : State) (info : Word) (d a : Reg) (graph : Bool) : Out :=
  s.scalarOp info [a] [d] (
    let s1 := s.toCp.unstage
    let u : Submit := { dst := d, graph := graph, at_ := s.s a, stamp := s1.me.lclk, place := s1.me.as.ltl.length }
    let s2 := s1.setMe fun k => { k with as := { k.as with subs := k.as.subs ++ [u], ltl := k.as.ltl ++ [{ handle := none, stamp := 0, asked := true }] } }
    .next ((s2.driveSubmit s.me.id).advance))

/-- LAUNCH (R172). -/
def execLaunch (d a : Reg) (s : State) : Out := s.present (wordOf32 (.launch d a)) d a false

/-- GRAPH (R172). -/
def execGraph (d a : Reg) (s : State) : Out := s.present (wordOf32 (.graph d a)) d a true

/-- A cancel of what a handle names, with what follows in the engines (R55, R56): the completion word as it stood. -/
def State.cancelHandle (s : State) (ctx : BitVec 16) (h : Word) : Word × State :=
  match s.object ctx h with
  | none => (staleWord, s)
  | some p =>
    let (w, s') := s.cancelObj h p
    (w, (s'.sweepColls.sweepNodes).quiesce)

/-- CANCEL (R173). -/
def execCancel (d a : Reg) (s : State) : Out :=
  s.scalarOp (wordOf32 (.cancel d a)) [a] [d] (
    let out := s.toCp.cancelHandle s.me.ctx (s.s a)
    .next (out.2.finish d out.1))

/-- CWAIT (R174). -/
def execCwait (d a b : Reg) (s : State) : Out :=
  s.scalarOp (wordOf32 (.cwait d a b)) [a, b] [d] (match s.object s.me.ctx (s.s a) with
    | none => .next ((s.w d staleWord).hear 0).advance
    | some p =>
      let (w, c) := s.wordOf p
      if bf w 47 0 ≤ (s.s b).toNat ∨ bf w 63 60 ≠ 0 then .next ((s.w d w).hear c).advance else .next s)

/-- SIGNAL (R175). -/
def execSignal (d a b : Reg) (s : State) : Out :=
  let info := wordOf32 (.signal d a b)
  s.scalarOp info [a, b] [d] (
    let at_ := s.s a
    if at_.toNat % 8 ≠ 0 then .next (s.trap cMISALIGN info (some at_))
    else match s.memAtomic (s.me.req info) at_ 0x3A 8 (s.s b) 0 0x7A with
      | .trap c s' => .next (s'.trap c info (some at_))
      | .wait s' => .next s'
      | .ok old s' =>
        .next ((s'.tick.finish d (w64 old)).signalled s.me.ctx at_))

end Sys2Proof.Machine
end

