-- ==== Sys2Proof/Machine/Interrupt.lean ====
section
/-! DEFINITION. How a cancel reaches a strand (R424, R425), and what a stop leaves of a strand's vector work (R408, R411). -/

namespace Sys2Proof.Machine

/-- The vector work of the strand whose turn it is stops where it stands: claims are withdrawn, a running matrix instruction stops (R251, R270, R408). -/
def State.stopVector (s : State) : State := (s.stopMatrix).withdraw s.me.id

/-- The strand whose turn it is stops its vector work, once no request of it is under way at another device; meanwhile it starts none (R308,
R408). -/
def State.whenQuiet (s : State) (f : State → State) : State :=
  if s.vectorRemote s.me then s.halting else f (s.dropReads.setMe fun k => { k with due := { k.due with halting := false } })

/-- The strand whose turn it is takes CANCEL at its boundary (R424). -/
def State.deliverCancel (s : State) (h : Word) (t : Nat) : State :=
  let s := s.stopVector
  let s := s.setMe fun k => { k with q := [], win := [], tr := { k.tr with tcause := k.tr.tcause &&& ~~~0x20000#64 }, due := { k.due with cancel := none, cancelled := some t, vec := none } }
  let s := (s.stopCopies 0x10).stopStreams 0x10
  s.takeTrap s.me.pc cCANCEL h none none false

/-- CANCEL_DELIVERY: at a boundary with ACT clear, at most once (R424). -/
def execCancelDelivery (k : SId) (s : State) : Out :=
  let s := s.switchTo k
  if s.me.id ≠ k ∨ s.me.run ≠ .running ∨ bt s.me.tr.tcause 15 ∨ s.awaitsRemote then .next s
  else match s.me.due.cancel with
    | some (h, t) => .next (s.whenQuiet fun s => s.deliverCancel h t)
    | none => .next s

/-- CANCEL_TIMEOUT: a strand that has not ended 1 ms after its CANCEL was due is ended (R425). -/
def execCancelTimeout (k : SId) (s : State) : Out :=
  let s := s.switchTo k
  let due : Option Nat := match s.me.due.cancelled with
    | some t => some t
    | none => s.me.due.cancel.map (·.2)
  if s.me.id ≠ k ∨ !s.me.onCore ∨ s.me.run = .held then .next s
  else match due with
    | some t => if t + 1000000 ≤ s.clk.ns then .next (s.stopVector.forcedEnd cCANCEL) else .next s
    | none => .next s

end Sys2Proof.Machine
end

