-- ==== Sys2Proof/Machine/Placer.lean ====
section
/-! DEFINITION. The placer: effective priority, order, fit, choice of cores, placement, the claim, reservations, pre-emption and what
returns from it (R37, R73 to R83, R411 to R416, R434, R507, R508). -/

namespace Sys2Proof.Machine

/-! ### Launches in order (R73 to R75) -/

def Launch.crews (l : Launch) : Nat := bf l.shape 63 48
def Launch.prio (l : Launch) : Nat := bf l.shape 47 45
def Launch.spc (l : Launch) : Nat := bf l.shape 44 43 + 1
def Launch.qh (l : Launch) : Nat := bf l.shape 42 40
def Launch.scr (l : Launch) : Nat := bf l.shape 33 24
def Launch.group (l : Launch) : Nat := 2 ^ l.qh
def Launch.vrbs (l : Launch) : List Nat := (List.range l.spc).map (slotVrb l.strands)
def Launch.accs (l : Launch) : List Nat := (List.range l.spc).map (slotAcc l.strands)

/-- EP at a time in ns (R74). -/
def Launch.ep (l : Launch) (now : Nat) : Nat := if l.prio = 7 then 7 else min 6 (l.prio + (now - l.elig) / 2000000)

/-- A hold stops the placement of a job's crews (R442). -/
def State.jobHeld (s : State) (ctx : BitVec 16) : Bool := s.sessionOf ctx && bt s.dbg.ctl 62

/-- The launch has crews for the placer. -/
def Launch.waiting (l : Launch) : Bool := l.state == 0 && l.eligible && (!l.returned.isEmpty || decide (l.nextCid < l.crews))

/-- The order of R75. -/
def Launch.before (now : Nat) (a b : Launch) : Bool :=
  decide (b.ep now < a.ep now) || (a.ep now == b.ep now && (decide (a.elig < b.elig) || (a.elig == b.elig && decide (a.slot ≤ b.slot))))

/-- Launches with unplaced crews, in the order of R75. -/
def State.waitingLaunches (s : State) : List Launch := sortBy (Launch.before s.clk.ns) (s.cp.launches.filter (·.waiting))

/-- NextGroup of R75: the crew ids. -/
def Launch.nextGroup (l : Launch) : List Nat :=
  match l.returned with
  | g :: _ => g
  | [] => (List.range (min l.group (l.crews - l.nextCid))).map (l.nextCid + ·)

/-! ### What a core has free (R76) -/

/-- What the crews on a core take. -/
structure Room where
  ctxs : List (BitVec 16)
  slots : List (BitVec 2)
  vrf : Nat
  accs : Nat
  /-- Scratch ranges: base and size in 4 KiB units. -/
  scr : List (Nat × Nat)
  deriving DecidableEq, Repr

/-- The crews placed on a core. -/
def State.crewsOn (s : State) (n : BitVec 7) : List Crew := s.allCrews.filter fun c => c.placed && c.core == n

def State.strandsOf (s : State) (c : Crew) : List Strand := s.allStrands.filter fun k => k.run != .idle && k.id.lid == c.lid && k.id.cid == c.cid

/-- What these crews take of their core. -/
def State.roomOf (s : State) (cs : List Crew) : Room :=
  let ks := (cs.map s.strandsOf).flatten
  { ctxs := cs.map (·.ctx), slots := ks.map (·.slot), vrf := (ks.map (·.alloc.vrfSet)).foldl Nat.lor 0, accs := (ks.map (·.alloc.accSet)).foldl Nat.lor 0
    scr := (cs.filter (·.scr ≠ 0)).map fun c => (c.scrBase, c.scr) }

/-- The units from b on, n of them, as a mask. -/
def maskOf (b n : Nat) : Nat := (2 ^ n - 1) * 2 ^ b

/-- The lowest range of n units among `size` that a mask leaves free. -/
def freeRun (size n used : Nat) : Option Nat := (List.range (size + 1 - n)).find? fun b => Nat.land used (maskOf b n) == 0

/-- The lowest range of n scratch units free of these ranges. -/
def freeScr (n : Nat) (used : List (Nat × Nat)) : Option Nat :=
  if n = 0 then some 0
  else (sortBy (fun a b => decide (a ≤ b)) (0 :: used.map fun u => u.1 + u.2)).find? fun b =>
    decide (b + n ≤ 512) && used.all fun u => decide (b + n ≤ u.1 ∨ u.1 + u.2 ≤ b)

/-- The lowest accumulators that a mask leaves free. -/
def freeAccs (used : Nat) : List Nat := (List.range 16).filter fun i => !used.testBit i

/-- Where a crew would stand on a core: slots, register-file base, accumulators, scratch base. -/
structure Seat where
  slots : List (BitVec 2)
  vrf : Nat
  accs : List Nat
  scr : Nat
  deriving DecidableEq, Repr

/-- The die of a core has failed (R299). -/
def State.coreDead (s : State) (n : BitVec 7) : Bool := s.mem.failed.contains (n.toNat / 16)

/-- The job that a core is reserved for (R80). -/
def State.reservedFor (s : State) (n : BitVec 7) : Option (BitVec 16) := (s.cp.reserved.find? (·.1 = n)).map (·.2)

/-- A crew of a launch fits a core beside these crews (R76): where it would stand. -/
def State.fitsBeside (s : State) (l : Launch) (n : BitVec 7) (cs : List Crew) : Option Seat :=
  let r := s.roomOf cs
  let slots := (List.range 4).filterMap fun i => let b : BitVec 2 := BitVec.ofNat 2 i; if r.slots.contains b then none else some b
  let accs := freeAccs r.accs
  let may := !s.coreDead n && r.ctxs.all (· == l.ctx) && (match s.reservedFor n with | some x => x == l.ctx && l.prio == 7 | none => true)
  if !may ∨ slots.length < l.spc ∨ accs.length < l.accs.sum then none
  else match freeRun 64 l.vrbs.sum r.vrf, freeScr l.scr r.scr with
    | some v, some c => some ⟨slots.take l.spc, v, accs.take l.accs.sum, c⟩
    | _, _ => none

def State.fits (s : State) (l : Launch) (n : BitVec 7) : Option Seat := s.fitsBeside l n (s.crewsOn n)

/-- The crew of a launch with an id, as pre-emption left it. -/
def State.awayCrew (s : State) (l : Launch) (cid : Nat) : Option Crew := s.allCrews.find? fun c => c.lid == l.handle && c.cid.toNat == cid && !c.placed && c.strands != 0

/-- The old core of a returned crew fits it with the slots, range and accumulators it held, each of them free or still its own (R82, R414). -/
def State.oldSeat (s : State) (l : Launch) (cid : Nat) : Option (BitVec 7 × Seat) :=
  (s.awayCrew l cid).bind fun c =>
    let r := s.roomOf (s.crewsOn c.core)
    let ks := s.strandsOf c
    let slots := ks.map (·.slot)
    let free := slots.all (fun b => !r.slots.contains b)
      && ks.all fun k => Nat.land k.alloc.vrfSet r.vrf == 0 && Nat.land k.alloc.accSet r.accs == 0 && s.foreignOf k == 0
    if free then (s.fits l c.core).map fun seat => (c.core, seat) else none

/-! ### Choosing cores (R77) -/

/-- Keys 1 to 4 of a core for a launch; lower comes first. -/
def State.coreKey (s : State) (l : Launch) (n : BitVec 7) : List Nat :=
  let cs := s.crewsOn n
  let res := l.prio == 7 && s.reservedFor n == some l.ctx
  [if res then 0 else 1, if cs.isEmpty then 1 else 0, 4 - (s.roomOf cs).slots.length - l.spc, n.toNat]

def keyLt : List Nat → List Nat → Bool
  | [], _ => false
  | _ :: _, [] => false
  | a :: s, b :: t => decide (a < b) || (a == b && keyLt s t)

/-- The least of a list under keys. -/
def leastBy {α : Type} (key : α → List Nat) (xs : List α) : Option α :=
  xs.foldl (fun (best : Option α) x => match best with
    | none => some x
    | some b => if keyLt (key x) (key b) then some x else some b) none

/-- The n cores of a list that come first under the keys, in core order. -/
def State.bestCores (s : State) (l : Launch) (n : Nat) (cores : List (BitVec 7)) : List (BitVec 7) :=
  sortBy (fun a b => decide (a.toNat ≤ b.toNat)) ((sortBy (fun a b => !keyLt (s.coreKey l b) (s.coreKey l a)) cores).take n)

def coresOfQuad (q : Nat) : List (BitVec 7) := (List.range 4).map fun i => BitVec.ofNat 7 (4 * q + i)

/-- The cores of a quad that a group part of so many crews would take, when it fits. -/
def State.quadFor (s : State) (l : Launch) (n q : Nat) : Option (List (BitVec 7)) :=
  let ok := (coresOfQuad q).filter fun c => (s.fits l c).isSome
  if ok.length < n then none else some (s.bestCores l n ok)

/-- The totals of R77 over chosen cores. -/
def State.totals (s : State) (l : Launch) (cores : List (BitVec 7)) : List Nat :=
  let keys := cores.map (s.coreKey l)
  let sum (i : Nat) : Nat := (keys.map fun k => k.getD i 0).sum
  [sum 0, sum 1, sum 2]

/-- How many crews of a group lie in its first and in its second four crew ids (R42). -/
def halves (g : List Nat) : Nat × Nat := ((g.filter fun c => decide (c % 8 < 4)).length, (g.filter fun c => decide (4 ≤ c % 8)).length)

/-- The two quads of one compute die that the halves of an eight-crew group may take (R42). -/
def quadPairs : List (Nat × Nat) := ((List.range 32).map fun q => (List.range 4).filterMap fun i => if q / 4 * 4 + i = q then none else some (q, q / 4 * 4 + i)).flatten

/-- The cores that a group of crews takes, in crew order, among those that fit now. DESIGN CHOICE: a group of QH = 3 of which one half is left
ranks single quads. -/
def State.chooseNew (s : State) (l : Launch) (g : List Nat) : Option (List (BitVec 7)) :=
  let n := g.length
  let (x, y) := if l.qh = 3 then halves g else (n, 0)
  if l.qh = 0 then
    (leastBy (s.coreKey l) (((List.range Config.numCores).map (BitVec.ofNat 7)).filter fun c => (s.fits l c).isSome)).map fun c => [c]
  else if x = 0 ∨ y = 0 then
    (leastBy (fun x : Nat × List (BitVec 7) => s.totals l x.2 ++ [x.1]) ((List.range 32).filterMap fun q => (s.quadFor l n q).map fun cs => (q, cs))).map (·.2)
  else
    let pairs := quadPairs.filterMap fun qp => match s.quadFor l x qp.1, s.quadFor l y qp.2 with
      | some a, some b => some (qp.1 * 32 + qp.2, a ++ b)
      | _, _ => none
    (leastBy (fun x : Nat × List (BitVec 7) => s.totals l x.2 ++ [x.1]) pairs).map (·.2)

/-- ChooseCores: each crew of the group with its core, and whether it is its old one. -/
def State.chooseCores (s : State) (l : Launch) (g : List Nat) : Option (List (Nat × BitVec 7 × Bool)) :=
  let old := g.map (s.oldSeat l)
  if !g.isEmpty ∧ old.all (·.isSome) then some (g.zip (old.filterMap fun x => x.map fun y => (y.1, true)))
  else (s.chooseNew l g).map fun cs => g.zip (cs.map fun c => (c, false))

/-! ### Core scratch (R37, R413) -/

/-- Bytes of a crew's scratch, with the sectors poisoned and the stamps of the sync words in them, moved from one number to another. -/
def MemSys.moveRange (m : MemSys) (a n b : Nat) : MemSys :=
  let bad := m.bad.filterMap fun x => if a / 256 ≤ x ∧ x < (a + n) / 256 then some (x - a / 256 + b / 256) else none
  let stamps := m.syncs.filterMap fun x => if a ≤ x.1 ∧ x.1 < a + n then some (x.1 - a + b, x.2) else none
  { m with ram := (m.ram.clear b n).write b (m.ram.dense a n), bad := bad.foldl setIns (m.bad.filter fun x => !(decide (b / 256 ≤ x ∧ x < (b + n) / 256)))
           syncs := stamps ++ m.syncs.filter fun x => !(decide (b ≤ x.1 ∧ x.1 < b + n)) }

/-- Zero-fills a range. -/
def MemSys.zeroRange (m : MemSys) (b n : Nat) : MemSys :=
  { m with ram := m.ram.clear b n, bad := m.bad.filter fun x => !(decide (b / 256 ≤ x ∧ x < (b + n) / 256)), syncs := m.syncs.filter fun x => !(decide (b ≤ x.1 ∧ x.1 < b + n)) }

/-- Byte number of a crew's scratch on a core. -/
def scrAt (core : BitVec 7) (base : Nat) : Nat := scrKey core.toNat (base * 4096)

/-! ### Placement (R37, R78, R415, R507) -/

/-- The masks of the strands' shares, one after another. -/
def vrfShares : Nat → List Nat → List Nat
  | _, [] => []
  | b, n :: t => maskOf b n :: vrfShares (b + n) t

def accShares : List Nat → List Nat → List Nat
  | _, [] => []
  | free, n :: t => ((free.take n).map (2 ^ ·)).sum :: accShares (free.drop n) t

/-- A strand of a crew placed for the first time (R37). -/
def newStrand (l : Launch) (cid sid : Nat) (core : BitVec 7) (slot : BitVec 2) (vrf accs : Nat) (cp : Word) : Strand :=
  { id := ⟨l.handle, BitVec.ofNat 16 cid, BitVec.ofNat 2 sid⟩, ctx := l.ctx, run := .starting, core := core, slot := slot, pc := l.entry
    regs := (Vector.replicate 64 0).set 1 l.arg, cfg := { vslip := BitVec.ofNat 4 (bf l.shape 37 34), vpm := bt l.shape 38 }, lclk := cp + 1, startWin := l.win
    alloc := { weight := slotW l.strands sid, vrb := slotVrb l.strands sid, accn := slotAcc l.strands sid, vrfSet := vrf, accSet := accs } }

/-- Places a crew that has never been placed. -/
def State.placeNew (s : State) (l : Launch) (cid : Nat) (core : BitVec 7) (seat : Seat) : State :=
  let vs := vrfShares seat.vrf l.vrbs
  let as := accShares seat.accs l.accs
  let crew : Crew := { lid := l.handle, cid := BitVec.ofNat 16 cid, ctx := l.ctx, launch := l.slot, prio := l.prio, placed := true, core := core, strands := l.spc, live := l.spc
                       qh := l.qh, scr := l.scr, scrBase := seat.scr, order := s.cp.seq }
  let ks := (List.range l.spc).map fun i => newStrand l cid i core (seat.slots.getD i 0) (vs.getD i 0) (as.getD i 0) s.clk.cp
  { s with crews := crew :: s.crews, strands := ks ++ s.strands, mem := s.mem.zeroRange (scrAt core seat.scr) (l.scr * 4096) }

/-- The parts of vector state of a pre-empted strand that still lie on its core, as a mask. -/
def State.partsLeft (s : State) (k : Strand) : Nat :=
  let own (n : Nat) : Bool := !k.kept.parts.getLsbD n && !k.alloc.void.testBit n
  (if own 0 ∧ k.alloc.vrfSet ≠ k.alloc.lostVrf then 1 else 0) + (if own 1 ∧ k.alloc.accSet ≠ k.alloc.lostAcc then 2 else 0) + (if own 2 then 4 else 0) + (if own 3 then 8 else 0)
    + (if (s.arrays.any (·.owner == k.id)) then 16 else 0) + (if own 5 ∧ !k.win.isEmpty then 32 else 0)

/-- Parts that lie in the frame are reset in the strand itself (R37, R415). -/
def Strand.resetKept (k : Strand) : Strand :=
  let has (n : Nat) : Bool := k.kept.parts.getLsbD n
  { k with vs := { cnt := if has 0 then 0 else k.vs.cnt, bits := if has 0 then 0 else k.vs.bits, regs := if has 0 then Vector.replicate 64 {} else k.vs.regs
                   accs := if has 1 then Vector.replicate 16 {} else k.vs.accs, preds := if has 2 then Vector.replicate 64 0 else k.vs.preds
                   ka := if has 3 then [] else k.vs.ka, kb := if has 3 then [] else k.vs.kb } }

/-- A strand of a returned crew stands again at a seat (R412, R415, R416, R507). -/
def Strand.placeAgain (k : Strand) (core : BitVec 7) (slot : BitVec 2) (vrf accs : Nat) : Strand :=
  let k : Strand := k.resetKept
  let inFrame := k.kept.parts != 0
  let k := { k with core := core, slot := slot, run := if k.run = Run.ended then Run.ended else Run.starting
                    alloc := { k.alloc with vrfSet := vrf, accSet := accs, lostVrf := 0, lostAcc := 0, void := 0, frame := if inFrame then k.alloc.frame else none } }
  if inFrame then { k with due := { k.due with restart := true, resume := false } }
  else if k.due.resume then { k.resumeWindow with due := { k.due with resume := false } }
  else k

/-- Places a returned crew again, on its old core with what it held, or elsewhere: then its units go to its strands' frames first. -/
def State.placeOld (s : State) (l : Launch) (c : Crew) (core : BitVec 7) (old : Bool) (seat : Seat) : State :=
  let ks := sortBy (fun a b => decide (a.id.sid.toNat ≤ b.id.sid.toNat)) (s.strandsOf c)
  let s := if old then s else ks.foldl (fun s k => if k.run = .preempted ∧ s.partsLeft k ≠ 0 then s.keep k.id (s.partsLeft k) else s) s
  let vs := vrfShares seat.vrf l.vrbs
  let as := accShares seat.accs l.accs
  let s := ks.foldl (fun s k =>
    let i := k.id.sid.toNat
    let place (x : Strand) : Strand :=
      if old then x.placeAgain core x.slot x.alloc.vrfSet x.alloc.accSet else x.placeAgain core (seat.slots.getD i 0) (vs.getD i 0) (as.getD i 0)
    let s := match s.strandOf k.id with
      | some x => if x.kept.parts = 0 then s.releaseFrame x.alloc.frame else s
      | none => s
    s.onStrand k.id place) s
  let dst := scrAt core seat.scr
  let mem := match c.frame with
    | some f => s.mem.moveRange (s.mem.frameAt f) (c.scr * 4096) dst
    | none => s.mem.zeroRange dst (c.scr * 4096)
  let s := ({ s with mem := mem }).releaseFrame c.frame
  s.mapCrews fun x => if x.lid = c.lid ∧ x.cid = c.cid then { x with placed := true, core := core, scrBase := seat.scr, frame := none, stored := false, order := s.cp.seq } else x

/-- How the opening of a launch's window at its first crew fares (R434). -/
inductive Opened where
  | ok (s : State)
  | waits
  | fails

/-- The launch's first crew is to be placed: its window opens, and it starts (R434, R451). -/
def State.openLaunch (s : State) (l : Launch) : Opened :=
  if l.opened then .ok s
  else
    let started (s : State) (w : Nat) : State :=
      (s.mapLaunch l.slot fun x => { x with opened := true, win := w }).trace l.ctx 2 srcPackage s.clk.cp l.handle l.tag 0 []
    match s.jobOf l.ctx with
    | none => .ok (started s 0)
    | some j =>
      if !j.policy.en then .ok (started s 0)
      else match s.openWindow j 0 2 0x8000 l.handle s.clk.cp with
        | .ok s' => .ok (started s' (j.retr.issued + 1))
        | .stall => .waits
        | .full => .fails

/-- A launch whose window cannot open fails: no crew of it is placed (R434). -/
def State.launchFails (s : State) (l : Launch) : State :=
  let s := s.mapLaunch l.slot fun x => { x with nextCid := l.crews }
  let s := s.ended (.launch l.slot) cLOGFULL
  let s := s.endedTimes (.launch l.slot) (l.crews - 1)
  { s with cp := { s.cp with claim := if s.cp.claim = some l.slot then none else s.cp.claim } }

/-- Place of R75: every crew of the group stands on its core. -/
def State.placeGroup (s : State) (l : Launch) (g : List (Nat × BitVec 7 × Bool)) : State :=
  let l := (s.launchAt l.slot).getD l
  let s := (s.cpTick).nextSeq
  let s := g.foldl (fun s x =>
    let again := s.awayCrew l x.1
    let seat : Option Seat := if x.2.2 then (s.oldSeat l x.1).map (·.2) else s.fits l x.2.1
    match seat with
    | none => s
    | some seat =>
      let s := match again with
        | some c => s.placeOld l c x.2.1 x.2.2 seat
        | none => s.placeNew l x.1 x.2.1 seat
      s.trace l.ctx 4 srcPackage s.clk.cp l.handle (w64 x.1) x.2.1.toNat []) s
  let s := s.mapLaunch l.slot fun x => { x with lastPlaced := s.clk.ns, returned := x.returned.drop 1
                                                nextCid := if x.returned.isEmpty then x.nextCid + g.length else x.nextCid }
  { s with cp := { s.cp with claim := if s.cp.claim = some l.slot then none else s.cp.claim
                             preemptFor := if s.cp.preemptFor = some l.slot then none else s.cp.preemptFor } }

/-! ### Pre-emption (R81, R82, R411, R416) -/

/-- Victims of a pre-emption have still to stop, or to leave their cores. -/
def State.stopping (s : State) : Bool :=
  !s.cp.victims.isEmpty || s.allCrews.any fun c => c.placed && (s.strandsOf c).any (·.run == .preempted)

/-- A pre-emption is under way: a group of launch n has to wait for it, and for the group of another launch for which it was made (R83). -/
def State.preempting (s : State) (n : Nat) : Bool :=
  s.stopping || (s.cp.preemptFor.any fun m => m != n && (s.launchAt m).any Launch.waiting)

/-- The crews of a crew's placement group that are placed (R42). -/
def State.mates (s : State) (c : Crew) : List Crew :=
  s.allCrews.filter fun x => x.placed && x.lid == c.lid && x.cid.toNat >>> c.qh == c.cid.toNat >>> c.qh

/-- A collective of a strand of the crew still writes into its scratch (R81). -/
def State.collInScratch (s : State) (c : Crew) : Bool :=
  s.groups.any fun g => g.ctx == c.ctx && g.running.any fun x => x.lid == c.lid && x.cid == c.cid &&
    ([x.dst, x.stage, x.prog].any fun a => decide (0xFFFFFFFFFF600000 ≤ a.toNat))

/-- The crew may enter no removal set (R81). -/
def State.untouchable (s : State) (c : Crew) : Bool :=
  c.prio == 7 || (s.mates c).any fun x => s.collInScratch x || s.jobHeld x.ctx || (s.strandsOf x).any fun k => k.run == .held

/-- The order in which crews are taken (R81). -/
def Crew.takenBefore (a b : Crew) : Bool :=
  decide (a.prio < b.prio) || (a.prio == b.prio && (decide (b.order < a.order) || (a.order == b.order &&
    (decide (b.launch < a.launch) || (a.launch == b.launch && decide (b.cid.toNat ≤ a.cid.toNat))))))

/-- Sublists in order of size, then of the list's own order. -/
def choices {α : Type} : Nat → List α → List (List α)
  | 0, _ => [[]]
  | _ + 1, [] => []
  | n + 1, x :: t => (choices n t).map (x :: ·) ++ choices (n + 1) t

def Crew.name (c : Crew) : Word × BitVec 16 := (c.lid, c.cid)

/-- The removal set of a core for a launch: the crews with their groups; none when the core is no candidate. -/
def State.removal (s : State) (l : Launch) (n : BitVec 7) : Option (List Crew) :=
  let cs := sortBy Crew.takenBefore (s.crewsOn n)
  let must := cs.filter fun c => c.ctx != l.ctx
  let may := cs.filter fun c => c.ctx == l.ctx && !s.untouchable c
  if must.any s.untouchable then none
  else
    let sets := ((List.range (may.length + 1)).map fun n => choices n may).flatten.map (must ++ ·)
    (sets.find? fun set => (s.fitsBeside l n (cs.filter fun c => !(set.any fun x => x.name == c.name))).isSome).map fun set =>
      ((set.map s.mates).flatten).foldl (fun acc c => if acc.any fun x => x.name == c.name then acc else acc ++ [c]) []

/-- Strands of a crew that are still on their core. -/
def State.liveStrands (s : State) (c : Crew) : List Strand := (s.strandsOf c).filter (·.onCore)

/-- Frames that a removal takes (R416). -/
def State.framesFor (s : State) (cs : List Crew) : Nat :=
  (cs.map fun c => ((s.liveStrands c).filter fun k => k.alloc.frame.isNone).length + (if c.scr = 0 then 0 else 1)).sum

def State.framesFree (s : State) : Nat := if bt s.mem.vsscfg 31 then bf s.mem.vsscfg 10 0 - s.mem.frames.length else 0

/-- Keys 1 to 3 of a choice of cores with their removal sets. -/
def State.removalKey (s : State) (l : Launch) (cores : List (BitVec 7)) (set : List Crew) : List Nat :=
  [(set.map (·.prio)).foldl max 0, set.length, (cores.filter fun c => s.reservedFor c != some l.ctx).length]

def unionCrews (a b : List Crew) : List Crew := a ++ b.filter fun c => !(a.any fun x => x.name == c.name)

/-- The removal of a part of a group in one quad: the cores with their union. DESIGN CHOICE: where the part needs fewer than the quad's four cores,
those that come first under keys 1 to 3 and the highest core number, each core by its own removal set; R81 ranks quads only. -/
def State.quadRemoval (s : State) (l : Launch) (n q : Nat) : Option (List (BitVec 7) × List Crew) :=
  let ok := (coresOfQuad q).filterMap fun c => (s.removal l c).map fun r => (c, r)
  if ok.length < n then none
  else
    let best := (sortBy (fun a b => !keyLt (s.removalKey l [b.1] b.2 ++ [127 - b.1.toNat]) (s.removalKey l [a.1] a.2 ++ [127 - a.1.toNat])) ok).take n
    some (best.map (·.1), best.foldl (fun acc x => unionCrews acc x.2) [])

/-- The crews that a priority-7 group removes, when some choice of cores exists (R81). -/
def State.chooseVictims (s : State) (l : Launch) (g : List Nat) : Option (List Crew) :=
  let n := g.length
  let (x, y) := if l.qh = 3 then halves g else (n, 0)
  let affordable (x : List Nat × List Crew) : Bool := !x.2.isEmpty && decide (s.framesFor x.2 ≤ s.framesFree)
  let all : List (List Nat × List Crew) :=
    if l.qh = 0 then ((List.range Config.numCores).map (BitVec.ofNat 7)).filterMap fun c => (s.removal l c).map fun r => (s.removalKey l [c] r ++ [127 - c.toNat], r)
    else if x = 0 ∨ y = 0 then (List.range 32).filterMap fun q => (s.quadRemoval l n q).map fun x => (s.removalKey l x.1 x.2 ++ [q], x.2)
    else quadPairs.filterMap fun qp => match s.quadRemoval l x qp.1, s.quadRemoval l y qp.2 with
      | some a, some b => let u := unionCrews a.2 b.2; some (s.removalKey l (a.1 ++ b.1) u ++ [qp.1, qp.2], u)
      | _, _ => none
  if !bt s.mem.vsscfg 31 then none else (leastBy (fun x : List Nat × List Crew => x.1) (all.filter affordable)).map (·.2)

/-- A free frame is taken. -/
def State.takeFrame (s : State) : Option Nat × State :=
  match (List.range (bf s.mem.vsscfg 10 0)).find? fun f => !s.mem.frames.contains f with
  | some f => (some f, { s with mem := { s.mem with frames := setIns s.mem.frames f } })
  | none => (none, s)

/-- Preempt of R75: the victims are chosen, their frames taken, and they are to stop at their next boundaries (R82, R416). -/
def State.preempt (s : State) (l : Launch) (g : List Nat) : State :=
  if s.preempting l.slot then s
  else match s.chooseVictims l g with
    | none => s
    | some set =>
      let s := s.cpTick
      let s : State := { s with cp := { s.cp with preemptFor := some l.slot } }
      set.foldl (fun s c =>
        let s := if c.scr = 0 then s else
          let (f, s) := s.takeFrame
          s.mapCrews fun x => if x.name = c.name then { x with frame := f } else x
        let s := s.trace c.ctx 5 srcPackage s.clk.cp c.lid (c.cid.setWidth 64) c.core.toNat []
        (s.liveStrands c).foldl (fun s k =>
          let s := { s with cp := { s.cp with victims := s.cp.victims ++ [k.id] } }
          if k.alloc.frame.isSome then s else
            let (f, s) := s.takeFrame
            s.onStrand k.id fun x => { x with alloc := { x.alloc with frame := f } }) s) s

/-- PREEMPT_STOP: a victim stops at its boundary (R411): its vector work is held, its streams stop, its replay buffer is emptied. -/
def execPreemptStop (k : SId) (s : State) : Out :=
  let s := s.switchTo k
  if !s.cp.victims.contains k then .next s
  else if s.me.id ≠ k ∨ !s.me.onCore then .next { s with cp := { s.cp with victims := s.cp.victims.filter (· ≠ k) } }
  else if s.me.run = .held ∨ s.awaitsRemote ∨ s.me.due.forced.isSome then .next s
  else if s.vectorRemote s.me then .next s.halting
  else
    let s := (s.dropReads.unstage.stopVector.dissolve k).stopStreams 0x7F
    let foreign := s.foreign
    let units := s.foreignUnits 3
    let s := s.setMe fun x =>
      let win := x.win ++ x.frozenQueue
      { x.unwait with q := [], win := win, replay := [], run := .preempted
                      due := { x.due with resume := !bt x.tr.tcause 17 && !win.isEmpty, halting := false }
                      alloc := { x.alloc with void := Nat.land foreign 0x2C, lostVrf := (units.map (·.2.2.1)).foldl Nat.lor x.alloc.lostVrf
                                              lostAcc := (units.map (·.2.2.2)).foldl Nat.lor x.alloc.lostAcc } }
    .next { s with cp := { s.cp with victims := s.cp.victims.filter (· ≠ k) } }

/-- The strand whose turn it is steps aside. -/
def State.benchMe (s : State) : State :=
  if s.me.run = .idle then s else { s with me := {}, crew := {}, strands := s.me :: s.strands, crews := s.crew :: s.crews }

/-- A crew that a cancel reached before its stop was done is dropped (R83). -/
def State.dropCrew (s : State) (c : Crew) : State :=
  let ks := s.strandsOf c
  let s := ks.foldl (fun s k => (s.freeArray k.id).releaseFrame k.alloc.frame) s
  let s := s.releaseFrame c.frame
  ({ s with strands := s.strands.filter fun k => !(k.id.lid == c.lid && k.id.cid == c.cid), crews := s.crews.filter fun x => x.name != c.name }).ended (.launch c.launch) 0

/-- A victim crew all of whose strands have stopped, with their copies done, gives up its core (R82, R413). -/
def State.retireVictim (s : State) (c : Crew) : State :=
  if ((s.launchAt c.launch).map (·.cancelled)).getD true then s.dropCrew c
  else
    let src := scrAt c.core c.scrBase
    let n := c.scr * 4096
    let s := match c.frame with
      | some f =>
        let a := s.mem.frameAt f
        let m : MemSys := s.mem.moveRange src n a
        let enc := m.enc.filter fun (x : Nat × Nat) => !(decide (a / 256 ≤ x.1 ∧ x.1 < (a + n) / 256))
        { s with mem := ({ m with enc := enc } : MemSys).zeroRange src n }
      | none => s
    let s : State := s.mapCrews fun x => if x.name = c.name then { x with placed := false, stored := x.frame.isSome } else x
    let mates := s.allCrews.filter fun x => x.lid == c.lid && x.strands != 0 && x.cid.toNat >>> c.qh == c.cid.toNat >>> c.qh
    if mates.any (·.placed) then s
    else
      let group := sortBy (fun a b => decide (a ≤ b)) (mates.map (·.cid.toNat))
      s.mapLaunch c.launch fun l => { l with returned := l.returned ++ [group] }

/-- What pre-emption has stopped leaves its cores, once every victim has stopped with its copies done: the pass that follows then finds the room
for the group (R82). -/
def State.settlePreempted (s : State) : State :=
  let s : State := { s with cp := { s.cp with victims := s.cp.victims.filter fun k => (s.strandOf k).any (fun (x : Strand) => x.onCore) } }
  let stopped (c : Crew) : Bool := c.placed && (s.strandsOf c).any (·.run == .preempted)
    && (s.strandsOf c).all fun k => (k.run == .preempted || k.run == .ended) && k.as.copies.isEmpty
  let done := s.allCrews.filter stopped
  if done.isEmpty ∨ !s.cp.victims.isEmpty ∨ (s.allCrews.any fun c => c.placed && !stopped c && (s.strandsOf c).any (·.run == .preempted)) then s
  else
    let s := if done.any fun c => c.name == s.crew.name then s.benchMe else s
    done.foldl State.retireVictim s

/-! ### A pass of the placer (R75, R79) -/

/-- Groups of one launch are placed while they fit; the fuel bounds its groups. -/
def State.placeLaunch (n : Nat) : Nat → State → State
  | 0, s => s
  | fuel + 1, s => match (s.launchAt n).filter (·.waiting) with
    | none => s
    | some l =>
      let g := l.nextGroup
      match s.chooseCores l g with
      | none => if l.prio = 7 then s.preempt l g else s
      | some c => match s.openLaunch l with
        | .waits => s
        | .fails => s.launchFails l
        | .ok s' => State.placeLaunch n fuel (s'.placeGroup l c)

/-- One pass. -/
def State.placerPass (s : State) : State :=
  let s := s.settlePreempted
  s.waitingLaunches.foldl (fun s l =>
    let barred := match s.cp.claim with
      | some n => n != l.slot && decide (l.prio < 7)
      | none => false
    if barred || s.jobHeld l.ctx then s else State.placeLaunch l.slot 65536 s) s

/-- PLACER_PASS (R75). -/
def execPlacerPass (s : State) : Out := .next s.placerPass

/-- EP_AGING: a waiting launch's effective priority has risen (R74, R75). -/
def execEpAging (slot : BitVec 13) (s : State) : Out :=
  match s.launchAt slot.toNat with
  | some l => if l.waiting ∧ l.prio < 7 ∧ l.elig + 2000000 ≤ s.clk.ns then .next s.placerPass else .next s
  | none => .next s

/-- A launch may claim the device (R79). -/
def State.mayClaim (s : State) (l : Launch) : Bool := decide (l.prio < 7) && l.ep s.clk.ns == 6 && decide (l.lastPlaced + 20000000 ≤ s.clk.ns)

/-- PLACEMENT_CLAIM: the first in order of those that qualify takes the claim (R79). -/
def execPlacementClaim (slot : BitVec 13) (s : State) : Out :=
  match s.cp.claim, (s.waitingLaunches.filter s.mayClaim).head? with
  | none, some l => if l.slot = slot.toNat then .next { s with cp := { s.cp with claim := some l.slot } } else .next s
  | _, _ => .next s

/-- STRAND_START: a strand of a placed crew starts (R78); under a hold it starts held (R442). -/
def execStrandStart (k : SId) (s : State) : Out :=
  .next (s.onStrand k fun x => if x.run = .starting then { x with run := if s.jobHeld x.ctx then .held else .running } else x)

/-! ### NOTIFY (R508) -/

/-- The launch that owes a NOTIFY write at a slot: first one whose slot another has taken. -/
def State.owesNotify (s : State) (slot : Nat) : Option Launch := (s.cp.owed.find? (·.slot == slot)).orElse fun _ => (s.launchAt slot).filter (·.notifyDue)

/-- The NOTIFY write of a launch was made or dropped. -/
def State.notified (s : State) (l : Launch) : State :=
  let same (x : Launch) : Bool := x.slot == l.slot && x.gen == l.gen
  { s with cp := { s.cp with owed := s.cp.owed.filter fun x => !same x, launches := replaceIf same (fun x => { x with notifyDue := false }) s.cp.launches } }

/-- NOTIFY_WRITE: the completion word goes to NOTIFY, or is dropped; under the stall policy it waits for room. An error of PCI Express drops it on
its way (R508). -/
def execNotifyWrite (slot : BitVec 13) (s : State) : Out :=
  match s.owesNotify slot.toNat with
  | none => .next s
  | some l =>
    let r := pkgReq l.ctx s.clk.cp [8, l.slot, l.gen]
    let word := leBytes 8 (compWord l.state l.code l.out).toNat
    let write (s : State) (w : WMode) (ord : Byte) : State := match s.memWrite r l.notify word false .write w ord with
      | .ok _ s' => s'.notified l
      | .wait s' => s'
      | .trap _ s' => s'.notified l
    match s.homeOf r l.notify false with
    | .host _ _ => match s.find r l.notify .write with
      | .spot _ _ => match s.mark r 5 l.notify with
        | .ok s' => .next (write s' { marked := true } 0x5A)
        | .full => .next (s.notified l)
        | .stall => .next s
      | .held _ => .next (s.holdAt r l.notify .write)
      | _ => .next (s.notified l)
    | _ => .next (write s {} 0x4A)

end Sys2Proof.Machine
end

