-- ==== Sys2Proof/Machine/Owner.lean ====
section
/-! DEFINITION. The masters and the owner of the register block, and the link idle intervals that the management controller
sets (R17, R57 to R62, R470). -/

namespace Sys2Proof.Machine

/-- HOLDER as OWNER shows it (R59). -/
def masterCode : Option Master → Nat
  | none => 0
  | some .host0 => 1
  | some .host1 => 2
  | some .mc => 3

/-- The master that a HOLDER value names. -/
def masterOf : Nat → Option Master
  | 1 => some .host0
  | 2 => some .host1
  | 3 => some .mc
  | _ => none

/-- The host port of a master. -/
def masterPort : Master → Option Nat
  | .host0 => some 0
  | .host1 => some 1
  | .mc => none

/-- The master's accesses do not reach the block: its port is in D3hot (R470), or the module is without power. -/
def State.unreached (s : State) (m : Master) : Bool := !s.house.powered || ((masterPort m).any fun p => vget s.house.d3hot p false)

/-- A write that is dropped and counted (R62). -/
def State.dropWrite (s : State) : State := { s with owner := { s.owner with drops := min (2 ^ 32 - 1) (s.owner.drops + 1) } }

/-- A register write by master m: `effect` for the holder, dropped otherwise (R62). -/
def State.byHolder (s : State) (m : Master) (effect : State) : Out :=
  if s.unreached m then .next s
  else if s.owner.holder = some m then .next effect
  else .next s.dropWrite

/-- A write of OWNER by master m (R60). -/
def State.writeOwner (s : State) (m : Master) (v : Word) : State :=
  let o := s.owner
  let named := masterOf (bf v 3 0)
  let term : State := { s with owner := { o with epoch := o.epoch + 1, lapsed := false, holder := named, beat := s.clk.ns } }
  if bf v 63 32 ≠ o.epoch.toNat ∨ bf v 31 9 ≠ 0 ∨ bf v 7 4 ≠ 0 ∨ 4 ≤ bf v 3 0 then s
  else if named = some m ∧ (o.holder = none ∨ o.lapsed) then term
  else if o.holder = some m ∧ named ≠ some m then term
  else s

/-- OWNER_WRITE (R60). -/
def execOwnerWrite (m : Master) (v : Word) (s : State) : Out := if s.unreached m then .next s else .next (s.writeOwner m v)

/-- The holder's heartbeat (R61). -/
def State.heartbeat (s : State) : State := { s with owner := { s.owner with lapsed := false, beat := s.clk.ns } }

/-- HEARTBEAT: any value counts (R61). -/
def execHeartbeat (m : Master) (_ : Word) (s : State) : Out := s.byHolder m s.heartbeat

/-- HEARTBEAT_LAPSE: one second without a heartbeat of the holder (R61). -/
def execHeartbeatLapse (s : State) : Out :=
  if s.owner.holder.isSome ∧ s.owner.beat + 1000000000 ≤ s.clk.ns then .next { s with owner := { s.owner with lapsed := true } } else .next s

/-! ### LINKIDLE (R17) -/

/-- The management controller sets a link's idle interval, from its next idle period on. -/
def State.writeLinkidle (s : State) (l : Nat) (v : Word) : State :=
  if bf v 63 20 ≠ 0 ∨ 1000 < bf v 19 0 then s
  else { s with links := vset s.links l { vget s.links l {} with idle := v.setWidth 20 } }

/-- LINKIDLE_WRITE: the management controller's takes effect whether or not it holds ownership; a host's is dropped. -/
def execLinkidleWrite (m : Master) (l : BitVec 4) (v : Word) (s : State) : Out :=
  if s.unreached m then .next s
  else if m = .mc then .next (s.writeLinkidle l.toNat v)
  else .next s.dropWrite

end Sys2Proof.Machine
end

