-- ==== Sys2Proof/Machine/Debug.lean ====
section
/-! DEFINITION. Debug sessions: hold and resume, the target's registers, rewinding, re-running and releasing windows (R440 to R449). -/

namespace Sys2Proof.Machine

/-! ### Holding and resuming (R442) -/

/-- The vector work of the strand whose turn it is stops and its unretired instructions form a held window; its streams stop (R411). -/
def State.freezeMe (s : State) : State :=
  (s.unstage.stopVector.stopStreams 0x7F).setMe fun x =>
    let win := x.win ++ x.frozenQueue
    { x.unwait with q := [], win := win, due := { x.due with resume := x.due.resume || (!bt x.tr.tcause 17 && !win.isEmpty), halting := false } }

/-- The strand whose turn it is stops at its boundary for a hold and keeps its place. -/
def State.holdMe (s : State) : State := s.freezeMe.setMe fun k => { k with run := .held }

/-- Strand k, held, goes on: one that a trap stopped as ERET would, the others where they stand. No instruction completes. -/
def State.resumeHeld (s : State) (k : SId) : State :=
  let s := s.switchTo k
  if s.me.id ≠ k ∨ s.me.run ≠ .held then s
  else
    let n := s.me.icnt
    let stopped := s.me.due.stop.isSome
    let s := s.setMe fun x => { x with run := .running, due := { x.due with stop := none } }
    let s := if stopped then s.returnFromTrap else s
    if s.me.id ≠ k ∨ s.me.run ≠ .running then s
    else s.setMe fun x =>
      let x := if x.due.resume then { x.resumeWindow with due := { x.due with resume := false } } else x
      { x with icnt := n }

/-- Every held strand of a context. -/
def State.heldStrands (s : State) (ctx : BitVec 16) : List SId := (s.allStrands.filter fun k => k.ctx == ctx && k.run == .held).map (·.id)

/-- A hold ends, and with it an RSTEP. -/
def State.releaseHold (s : State) : State :=
  let ctx := BitVec.ofNat 16 (bf s.dbg.ctl 15 0)
  let s := { s with dbg := { s.dbg with ctl := s.dbg.ctl &&& 0x9FFFFFFFFFFFFFFF, rstep := none, again := none, busy := false } }
  (s.heldStrands ctx).foldl State.resumeHeld s

/-- The fields of DBGCTL that a write changes (R441). -/
def dbgctlBits : Word := 0xC0000000037FFFFF

/-- A write of DBGCTL (R441, R442). A hold needs a session. -/
def State.writeDbgctl (s : State) (v : Word) : State :=
  let old := s.dbg.ctl
  let v := v &&& dbgctlBits
  let v := if bt v 63 then v else v &&& 0x0000000003FFFFFF
  if bt old 63 ∧ bf v 15 0 ≠ bf old 15 0 then s
  else
    let s := if bt old 62 ∧ !bt v 62 then s.releaseHold else s
    let held : Word := if bt old 62 && bt v 62 then old &&& 0x2000000000000000 else 0
    { s with dbg := { s.dbg with ctl := v ||| held } }

/-- DBG_OPEN: a write of DBGCTL that opens a session (R441). -/
def execDbgOpen (m : Master) (v : Word) (s : State) : Out := s.byHolder m (s.writeDbgctl v)
/-- DBG_HOLD: a write of DBGCTL that sets HOLD (R442). -/
def execDbgHold (m : Master) (v : Word) (s : State) : Out := s.byHolder m (s.writeDbgctl v)
/-- DBG_RESUME: a write of DBGCTL that clears HOLD (R442). -/
def execDbgResume (m : Master) (v : Word) (s : State) : Out := s.byHolder m (s.writeDbgctl v)
/-- DBG_CLOSE: a write of DBGCTL that clears OPEN (R441). -/
def execDbgClose (m : Master) (v : Word) (s : State) : Out := s.byHolder m (s.writeDbgctl v)

/-- The hold of a job is complete: its placed strands have stopped, its copies and running copy nodes have finished (R442). -/
def State.holdDone (s : State) (ctx : BitVec 16) : Bool :=
  let ks := s.allStrands.filter fun k => k.ctx == ctx && k.run != .idle
  (ks.all fun k => k.as.copies.isEmpty && (!k.onCore || (k.run == .held && k.q.isEmpty && k.as.streams.isEmpty)))
    && s.cp.graphs.all fun g => g.ctx != ctx || g.nodes.all fun n => !(n.kind == 2 && n.st == .running)

/-- HOLD_COMPLETE (R442). -/
def execHoldComplete (s : State) : Out :=
  if bt s.dbg.ctl 62 ∧ s.holdDone (BitVec.ofNat 16 (bf s.dbg.ctl 15 0)) then .next { s with dbg := { s.dbg with ctl := s.dbg.ctl ||| 0x2000000000000000 } } else .next s

/-! ### The target (R441, R443) -/

/-- The placed strand of the session's context that CORE and SLOT name. -/
def State.dbgTarget (s : State) : Option Strand :=
  s.allStrands.find? fun k => k.onCore && k.ctx.toNat == bf s.dbg.ctl 15 0 && k.core.toNat == bf s.dbg.ctl 22 16 && k.slot.toNat == bf s.dbg.ctl 25 24

/-- HELD = 1. -/
def State.isHeld (s : State) : Bool := bt s.dbg.ctl 63 && bt s.dbg.ctl 61

/-- The register of a strand that DBGSEL selects. -/
def Strand.dbgGet (k : Strand) (sel : Word) : Word :=
  if bt sel 63 then (if bf sel 11 0 < 64 then k.s (BitVec.ofNat 6 (bf sel 11 0)) else 0) else (k.sysGet (BitVec.ofNat 12 (bf sel 11 0))).getD 0

def Strand.dbgPut (k : Strand) (sel x : Word) : Strand :=
  if bt sel 63 then (if bf sel 11 0 < 64 then k.w (BitVec.ofNat 6 (bf sel 11 0)) x else k) else k.sysPut (BitVec.ofNat 12 (bf sel 11 0)) x

/-- DBGDATA as it reads. -/
def State.readDbgdata (s : State) : Word := if s.isHeld then ((s.dbgTarget).map (·.dbgGet s.dbg.sel)).getD 0 else 0

def State.writeDbgdata (s : State) (v : Word) : State :=
  match if s.isHeld then s.dbgTarget else none with
  | some k => s.onStrand k.id (·.dbgPut s.dbg.sel v)
  | none => s

/-- DBGDATA_WRITE (R443). -/
def execDbgdataWrite (m : Master) (v : Word) (s : State) : Out := s.byHolder m (s.writeDbgdata v)

/-! ### Rewinding (R444, R445) -/

def State.result (s : State) (res : Byte) : State := { s with dbg := { s.dbg with res := res, busy := false, rstep := none, again := none } }

/-- The launch of a strand. -/
def State.launchOf (s : State) (k : Strand) : Option Launch := (s.launchAt (bf k.id.lid 12 0)).filter fun l => l.handle == k.id.lid

/-- The start point of a strand in window w (R435): its checkpoint, or none at the opening of its launch. -/
def State.startPoint (s : State) (k : Strand) (w : Nat) : Option (Option Ckpt) :=
  match k.ckpts.find? (·.1 = w) with
  | some c => some (some c.2)
  | none => if w ≠ 0 ∧ (s.launchOf k).any (fun l => l.opened && l.win == w) then some none else none

/-- The entry stems from a strand, or its copy engine, at the target's core and a slot of the target's crew (R445). -/
def ownSrc (k : Strand) (slots : List (BitVec 2)) (src : Nat) : Bool :=
  decide (fld src 15 14 < 2) && fld src 13 7 == k.core.toNat && slots.any fun b => b.toNat == fld src 1 0

/-- The requester of a restoring write: an entry of a strand finds its windows (R445). -/
def State.undoReq (s : State) (ctx : BitVec 16) (src : Nat) : Req :=
  let who := if fld src 15 14 < 2 then s.allStrands.find? fun k => k.onCore && k.core.toNat == fld src 13 7 && k.slot.toNat == fld src 1 0 else none
  match who with
  | some k => { pkgReq ctx 0 [7] with core := k.core, slot := k.slot, lid := k.id.lid, cid := k.id.cid }
  | none => { pkgReq ctx 0 [7] with core := BitVec.ofNat 7 (fld src 13 7) }

/-- Writes the old values of entries back, in order, at package scope (R445); one that has no home any more is passed over. On a wait nothing
but what was asked of other devices counts. -/
def State.undoAll (s0 s : State) (ctx : BitVec 16) : List LogRec → Att Unit
  | [] => .ok () s
  | e :: rest =>
    if bf e.hdr 63 60 = 1 ∨ bf e.hdr 63 60 = 2 then
      match s.memWrite (s.undoReq ctx (bf e.hdr 55 40)) e.w1 e.old (bt e.hdr 56) .write { log := false } 0x4A with
      | .ok _ s' => s0.undoAll s' ctx rest
      | .trap _ s' => s0.undoAll s' ctx rest
      | .wait s' => .wait (s0.waitKeeping s')
    else s0.undoAll s ctx rest

/-- A log cut before its first entries of window w. -/
def Retr.cut (t : Retr) (w : Nat) : Retr :=
  let gone := t.log.filter fun e => decide (w ≤ bf e.hdr 31 0)
  let tail (m : Nat) : Nat := ((gone.filter (·.seg = m)).map (·.at_)).foldl min (vget t.tail m 0)
  { t with log := t.log.filter fun e => decide (bf e.hdr 31 0 < w), tail := Vector.ofFn fun m => tail m.val, whigh := w }

/-- The strand at its start point: the checkpoint, or the state of R37 with the clock that its window's opening recorded. -/
def Strand.rewound (k : Strand) (l : Option Launch) (w : Nat) (ck : Option Ckpt) (stamp : Word) : Strand :=
  let k : Strand := { k with icnt := 0, q := [], win := [], startWin := w, ckpt := ck, ckpts := k.ckpts.filter fun c => decide (c.1 ≤ w), spoiled := {}
                             as := { k.as with stat := [] }, due := { k.due with stop := none, resume := false, vec := none, ext := none }
                             tr := { k.tr with tcause := k.tr.tcause &&& (if k.due.stop.isSome then ~~~0x28000#64 else ~~~0x20000#64) } }
  match ck with
  | some c => { k with pc := c.pc, regs := c.regs, cfg := c.cfg, lclk := c.lclk, tlc := c.tlc, vs := c.vs }
  | none =>
    let l0 : Strand := match l with
      | some l => newStrand l k.id.cid.toNat k.id.sid.toNat k.core k.slot k.alloc.vrfSet k.alloc.accSet stamp
      | none => k
    { k with pc := l0.pc, regs := l0.regs, cfg := l0.cfg, lclk := l0.lclk, tlc := 0, vs := {}, sys := true, event := false }

/-- Appends an entry again as it stood. -/
def State.reappend (s : State) (slot : Nat) (e : LogRec) : State :=
  match s.jobAt slot with
  | none => s
  | some j => match s.append j e.seg e.hdr e.w1 e.w2 e.w3 e.old with
    | .ok s' => s'
    | _ => s

/-- The rewind of R445 with its refusals: the code for RES, and the state. -/
def State.rewind (s : State) (w : Nat) (force : Bool) : Att Byte :=
  let s : State := { s with mem := s.mem.drainAll }
  let ctx := BitVec.ofNat 16 (bf s.dbg.ctl 15 0)
  match if s.isHeld then s.dbgTarget else none, s.jobOf ctx with
  | some k, some j =>
    match if w < j.retr.wlow ∨ j.retr.whigh < w then none else s.startPoint k w with
    | none => .ok 1 s
    | some ck =>
      let range := j.retr.log.filter fun e => decide (w ≤ bf e.hdr 31 0)
      let kind (e : LogRec) : Nat := bf e.hdr 63 60
      let slots := ((s.allStrands.filter fun x => x.onCore && x.id.lid == k.id.lid && x.id.cid == k.id.cid).map (·.slot))
      let xm := range.any fun e => kind e == 5
      let mix := range.any fun e => (kind e == 1 || kind e == 2) && !ownSrc k slots (bf e.hdr 55 40)
      let s : State := { s with dbg := { s.dbg with xm := xm, mix := mix } }
      let core := s.getCore k.core
      let needs : List Nat := match ck.bind (·.arr) with | some a => (List.range 16).filter a.holds | none => []
      if xm && !force then .ok 2 s
      else if range.any (fun e => bf e.hdr 39 32 != s.mem.gen.toNat % 256) && !force then .ok 3 s
      else if needs.any fun g => core.arrays.any fun a => a.owner != k.id && a.holds g then .ok 7 s
      else match s.undoAll s ctx (([0, 1, 2, 3].map fun m => range.filter (·.seg = m)).flatten) with
      | .wait s' => .wait s'
      | .trap _ s' => .ok 0 s'
      | .ok _ s =>
        let s := s.mapJob j.slot fun j => { j with retr := j.retr.cut w }
        let mine (e : LogRec) : Bool := bf e.hdr 31 0 == w && (kind e == 3 || (kind e == 4 && e.w1 == whoWord k.ctx k.id.cid k.id.sid))
        let s := (range.reverse.filter mine).foldl (fun s e => s.reappend j.slot e) s
        let stamp := ((range.find? fun e => bf e.hdr 31 0 == w && kind e == 3).map (·.w2)).getD 0
        let l := s.launchOf k
        let s := (s.freeArray k.id).onStrand k.id fun x => x.rewound l w ck stamp
        let s := match ck.bind (·.arr) with
          | some a =>
            let c := s.getCore k.core
            s.setCore { c with arrays := { a with owner := k.id, chain := none, peers := [], broken := false, arrived := none, ready := none } :: c.arrays }
          | none => s
        let s := s.mapStrands fun x => if x.ctx = ctx then { x with replay := [] } else x
        let cores := (s.allCrews.filter fun c => c.ctx == ctx && c.placed).map (·.core)
        .ok 0 (s.mapCores fun c => if cores.contains c.num then { c with icache := [] } else c)
  | _, _ => .ok 4 s

/-- The rewind of a command that ended with a code; one whose restoring writes wait goes on later. -/
def State.rewindFor (s : State) (v : Word) (w : Nat) (k : Byte → State → State) : State :=
  match s.rewind w (bt v 59) with
  | .ok code s' => k code (s'.result code)
  | .trap code s' => k code (s'.result code)
  | .wait s' => { s' with dbg := { s'.dbg with busy := true, again := some v } }

def State.cmdRwind (s : State) (v : Word) : State := s.rewindFor v (bf v 31 0) fun _ s => s

/-! ### RSTEP (R446) -/

/-- RSTEP N: the rewind, then the target runs alone. -/
def State.cmdRstep (s : State) (v : Word) : State :=
  let n := bf v 31 0
  match s.dbgTarget with
  | none => s.result 4
  | some k =>
    s.rewindFor v k.startWin fun code s =>
      if code ≠ 0 ∨ n ≤ 1 then s
      else
        let s := s.onStrand k.id fun x => { x with run := .running }
        { s with dbg := { s.dbg with busy := true, rstep := some (k.id, n, bt v 59, 0, s.clk.ns) } }

/-- A strand that an RSTEP runs while its job is held. -/
def State.runsAlone (s : State) (k : SId) : Bool := s.dbg.rstep.any fun r => r.1 == k

/-- An RSTEP ends with a result; its strand, whose turn it is, is held again, once its vector work can stop. -/
def State.endRstep (s : State) (res : Byte) : State :=
  match s.dbg.rstep with
  | none => s
  | some (k, _) =>
    let s := s.switchTo k
    if s.me.id = k ∧ s.me.run = .running ∧ s.vectorRemote s.me then s.halting
    else (if s.me.id = k ∧ s.me.run = .running then s.holdMe else s).result res

/-- What an RSTEP finds of its strand at a boundary: it ended or stopped, it has run far enough, or it goes on. -/
def State.checkRstep (s : State) : State :=
  match s.dbg.rstep with
  | none => s
  | some (k, n, force, seen, since) => match s.strandOf k with
    | none => s.result 5
    | some x =>
      if x.run = .held ∨ !x.onCore then s.result 5
      else if n ≤ x.icnt + 1 then s.endRstep 0
      else if x.icnt ≠ seen then { s with dbg := { s.dbg with rstep := some (k, n, force, x.icnt, s.clk.ns) } }
      else { s with dbg := { s.dbg with rstep := some (k, n, force, seen, since) } }

/-- RSTEP_BLOCK_TIMEOUT: the target completed no instruction for 1 ms (R446). -/
def execRstepBlockTimeout (s : State) : Out :=
  let s := s.checkRstep
  match s.dbg.rstep with
  | some (_, _, _, _, since) => if since + 1000000 ≤ s.clk.ns then .next (s.endRstep 6) else .next s
  | none => .next s

/-! ### RDROP (R447) and the command register (R444) -/

/-- RDROP w: needs a session, and never releases the current window. -/
def State.cmdRdrop (s : State) (v : Word) : State :=
  let w := bf v 31 0
  match if bt s.dbg.ctl 63 then s.jobOf (BitVec.ofNat 16 (bf s.dbg.ctl 15 0)) else none with
  | none => s.result 4
  | some j =>
    if j.retr.whigh ≤ w then s.result 4
    else (s.mapJob j.slot fun j => if j.retr.wlow ≤ w then { j with retr := j.retr.dropBelow (w + 1) } else j).result 0

/-- A command of DBGCMD. -/
def State.runDbgcmd (s : State) (v : Word) : State :=
  match bf v 63 60 with
  | 1 => s.cmdRstep v
  | 2 => s.cmdRwind v
  | 3 => s.cmdRdrop v
  | _ => s

/-- A write of DBGCMD: nothing while a command runs. -/
def State.writeDbgcmd (s : State) (v : Word) : State :=
  if s.dbg.busy then s else ({ s with dbg := { s.dbg with cmd := v &&& 0xF8000000FFFFFFFF } } : State).runDbgcmd v

/-- A command whose restoring writes waited goes on. -/
def State.retryDbg (s : State) : State :=
  match s.dbg.again with
  | some v => s.runDbgcmd v
  | none => s

/-- RSTEP (R446). -/
def execRstep (m : Master) (v : Word) (s : State) : Out := s.byHolder m (s.writeDbgcmd v)
/-- RWIND (R445). -/
def execRwind (m : Master) (v : Word) (s : State) : Out := s.byHolder m (s.writeDbgcmd v)
/-- RDROP (R447). -/
def execRdrop (m : Master) (v : Word) (s : State) : Out := s.byHolder m (s.writeDbgcmd v)

end Sys2Proof.Machine
end

