-- ==== Sys2Proof/Machine/TraceUnit.lean ====
section
/-! DEFINITION. Trace sessions: opening with the snapshots of capture, check records, closing, and a queue reset (R450, R451, R454 to R456). -/

namespace Sys2Proof.Machine

/-- The context, the queue and the flags of the session. -/
def Trace.ctx (t : Trace) : BitVec 16 := BitVec.ofNat 16 (bf t.cfg 47 32)
def Trace.sq (t : Trace) : Nat := bf t.cfg 54 52
def Trace.cap (t : Trace) : Bool := t.open_ && bt t.cfg 62
def Trace.rep (t : Trace) : Bool := t.open_ && bt t.cfg 61

/-- The fields of TRCCFG (R450). -/
def trccfgBits : Word := 0xE07FFFFF000F01FE

/-- The check list: VA, LEN and SNAP of each listed buffer (R454). -/
def State.checkList (s : State) : List (Word × Nat × Word) :=
  let w (i o : Nat) : Word := s.mem.dpa64 (s.trc.base.toNat + 32 * i + o)
  ((List.range 16).map fun i => (w i 0, (w i 8).toNat, w i 16)).takeWhile fun e => e.2.1 != 0

/-- The copies of the listed buffers to their SNAPs (R454). -/
def State.snapCopies (s : State) : List Copy :=
  (s.checkList.zipIdx).map fun x =>
    { ticket := w64 x.2, word := 0, user := false, dst := 0, src := x.1.1, to_ := x.1.2.2, rowb := x.1.2.1, rows := 1, sstr := 0, dstr := 0, swi := 0, prog := 0
      uncounted := 0, gen := s.mem.gen, stamp := s.clk.cp }

/-- A hub copy engine goes on with these copies, one after another, until one waits for memory; one that faults stops there (R454). -/
def State.snapAll : List Copy → State → State
  | [], s => { s with trc := { s.trc with snaps := [] } }
  | c :: rest, s =>
    match s.moveBytes (pkgReq s.trc.ctx s.clk.cp [11, c.ticket.toNat]) c (2 * c.rowb + 2) (c.rowb - c.prog) with
    | .going c' s' => if c'.prog < c'.total then { s' with trc := { s'.trc with snaps := c' :: rest } } else State.snapAll rest s'
    | .stopped _ _ _ s' => State.snapAll rest s'
    | .waits c' s' => { s' with trc := { s'.trc with snaps := c' :: rest } }

def State.driveSnaps (s : State) : State := if s.trc.snaps.isEmpty then s else State.snapAll s.trc.snaps s

/-- The checksums of listed buffers and the mask of those that held poison; on a wait nothing else of the attempt counts. DESIGN CHOICE: a buffer
that cannot be read has an undefined checksum. -/
def State.checkSums (s0 s : State) : List ((Word × Nat × Word) × Nat) → Att (List Byte × Nat)
  | [] => .ok ([], 0) s
  | x :: rest =>
    let go (crc : Word) (bad : Bool) (s : State) : Att (List Byte × Nat) := match s0.checkSums s rest with
      | .ok (crcs, mask) s' => .ok (leBytes 8 crc.toNat ++ crcs, mask + (if bad then 2 ^ x.2 else 0)) s'
      | o => o
    match s0.readSpan s (pkgReq s.trc.ctx s.clk.cp [11, x.2]) .read (x.1.2.1 / 256 + 2) x.1.1 x.1.2.1 with
    | .ok (bs, p) s' => go (crc64 bs) p s'
    | .trap _ s' => go (Config.freeWord s'.free) false { s' with free := s'.free + 1 }
    | .wait s' => .wait s'

/-- The check record of a captured packet (R454), or the wait for a buffer. -/
def State.checkRecord (s : State) (seq : Word) : Att Unit :=
  match s.checkSums s s.checkList.zipIdx with
  | .wait s' => .wait s'
  | .trap _ s' => .ok () s'
  | .ok (crcs, bad) s' =>
    let more := crcs ++ List.replicate ((32 - crcs.length % 32) % 32) 0
    .ok () ((s'.cpTick).record ⟨0x0C, 0x8000, BitVec.ofNat 32 bad, s'.clk.cp + 1, seq, 0, more⟩)

/-- Check records are written for the captured packets whose object has completed. -/
def State.doChecks (s : State) : State :=
  s.trc.checks.foldl (fun s x =>
    let live := (s.object s.trc.ctx x.2).any fun p => bf (s.wordOf p).1 63 60 == 0
    if live then s
    else match s.checkRecord x.1 with
      | .ok _ s' => { s' with trc := { s'.trc with checks := s'.trc.checks.filter (· != x) } }
      | .trap _ s' => s'
      | .wait s' => s') s

/-- The session closes. -/
def State.closeTrace (s : State) : State := { s with trc := { s.trc with open_ := false, reset := none, checks := [], snaps := [], cfg := s.trc.cfg &&& 0x7FFFFFFFFFFFFFFF } }

/-- A write of TRCCFG (R450): nothing while a session is open, unless it clears EN; a reserved SZ writes nothing. -/
def State.writeTrccfg (s : State) (v : Word) : State :=
  let v := v &&& trccfgBits
  if s.trc.open_ then
    if bt v 63 then s else let s := s.doChecks.closeTrace
      { s with trc := { s.trc with cfg := if bf v 51 48 ≤ 10 then v else s.trc.cfg } }
  else if 10 < bf v 51 48 then s
  else if !bt v 63 then { s with trc := { s.trc with cfg := v } }
  else
    let s : State := { s with trc := { s.trc with cfg := v, open_ := true, tail := 4096, trunc := false, lost := 0, recs := [], reset := none, checks := [], snaps := [] } }
    if bt v 62 then ({ s with trc := { s.trc with snaps := s.snapCopies } } : State).driveSnaps else s

/-- A write of TRCBASE: none while a session is open. -/
def State.writeTrcbase (s : State) (v : Word) : State := if s.trc.open_ then s else { s with trc := { s.trc with base := v &&& 0xFFFFFFFFFFFFF000 } }

/-- TRACE_OPEN: a write of TRCCFG that sets EN (R450). -/
def execTraceOpen (m : Master) (v : Word) (s : State) : Out := s.byHolder m (s.writeTrccfg v)

/-- TRACE_CLOSE: a write of TRCCFG that clears EN (R450). -/
def execTraceClose (m : Master) (v : Word) (s : State) : Out := s.byHolder m (s.writeTrccfg v)

/-- A queue reset strikes queue n (R456). -/
def State.queueReset (s : State) (n : Nat) : State :=
  if s.trc.open_ ∧ s.trc.sq = n ∧ s.trc.reset = none then
    { s with trc := { s.trc with reset := some ((s.trc.recs.map (·.stamp)).foldl maxW s.clk.cp + 1, s.clk.ns, 0) } }
  else s

/-- QUEUE_RESET_TRUNCATE: 10 µs after the reset, the TRUNCATED record is written and the session closes (R456). -/
def execQueueResetTruncate (s : State) : Out :=
  match s.trc.reset with
  | none => .next s
  | some (rs, t, n) =>
    if s.clk.ns < t + 10000 then .next s
    else
      let s := (s.putRecord ⟨0x0A, 0x8000, 0, rs, rs, w64 n, []⟩).closeTrace
      .next { s with trc := { s.trc with trunc := true } }

/-- The 64 bytes of a packet (R66). -/
def Packet.bytes (p : Packet) : List Byte :=
  [p.opc, if p.rsvZero then 0 else 1] ++ leBytes 2 p.ctx.toNat ++ [0, 0, 0, 0] ++ ([p.b0, p.b1, p.b2, p.b3, p.b4, p.b5, p.stamp].map fun x => leBytes 8 x.toNat).flatten

/-- An accepted packet is captured (R454). -/
def State.capture (s : State) (p : Packet) (result : Word) : State :=
  if s.trc.cap ∧ s.trc.sq = p.q.toNat ∧ s.trc.ctx = p.ctx then
    let s := s.cpTick
    let s := s.record ⟨0x0B, 0x8000, 0, s.clk.cp, p.stamp, result, Packet.bytes p⟩
    if (p.opc = 0x05 ∨ p.opc = 0x06) ∧ bf result 63 60 ≠ 0 then { s with trc := { s.trc with checks := s.trc.checks ++ [(p.stamp, result)] } } else s
  else s

end Sys2Proof.Machine
end

