-- ==== Sys2Proof/Machine/DieLinks.lean ====
section
/-! DEFINITION. Die-to-die links, failed dies, errors in internal stores and the scrubbers (R16, R298, R299, R420, R421, R463). -/

namespace Sys2Proof.Machine

/-- The link is awake: it delivers what it held, in the order of arrival, and a new idle period begins (R16, R17). -/
def DieLink.wakes (x : DieLink) (now : Nat) : DieLink :=
  { x with st := .awake, delivered := x.delivered ++ x.held, held := [], idleSince := now, idleNow := x.idle }

/-- LINK_SLEEP: after the idle interval that its idle period is measured against; an interval of 0 keeps it awake (R16). -/
def execLinkSleep (l : BitVec 4) (s : State) : Out :=
  let x := s.link l.toNat
  if x.st = .awake ∧ x.idleNow ≠ 0 ∧ x.idleSince + x.idleNow.toNat * 1000 ≤ s.clk.ns then .next (s.mapLink l.toNat fun x => { x with st := .asleep }) else .next s

/-- LINK_WAKE: a request meets the link. It passes an awake link at once, starts the wake of a sleeping one, and is held until the link
is awake; towards a compute die, a snoop is held with it (R16, R298). -/
def execLinkWake (l : BitVec 4) (s : State) : Out :=
  let x := s.link l.toNat
  let n := x.held.length + x.delivered.length
  let hold (x : DieLink) : DieLink := { x with held := x.held ++ [n], snoop := if l.toNat < 8 ∧ x.snoop.isNone then some (s.clk.ns, 0) else x.snoop }
  .next (s.mapLink l.toNat fun x => match x.st with
    | .awake => { x with delivered := x.delivered ++ [n], idleSince := s.clk.ns, idleNow := x.idle }
    | .asleep => hold { x with st := .waking s.clk.ns }
    | _ => hold x)

/-- LINK_WAKE_COMPLETE (R16). -/
def execLinkWakeComplete (l : BitVec 4) (s : State) : Out :=
  match (s.link l.toNat).st with
  | .waking _ => .next (s.mapLink l.toNat fun x => { x.wakes s.clk.ns with fails := 0 })
  | _ => .next s

/-- SNOOP_RESEND: at 2, 4, 6 and 8 µs; a snoop that finds the link awake is delivered, and one that was sent last at 8 µs is so as soon as it is
awake (R298). -/
def execSnoopResend (l : BitVec 4) (s : State) : Out :=
  let x := s.link l.toNat
  match x.snoop with
  | none => .next s
  | some (t, n) =>
    if n < 4 ∧ s.clk.ns < t + 2000 * (n + 1) then .next s
    else if x.st = .awake then .next (s.mapLink l.toNat fun x => { x with snoop := none })
    else if n < 4 then .next (s.mapLink l.toNat fun x => { x with snoop := some (t, n + 1) })
    else .next s

/-- A wake or a retrain that started at a time failed; the link retrains (R298, R299, R463). -/
def State.linkFails (s : State) (l since : Nat) : State :=
  (s.mapLink l fun x => { x with st := .retraining s.clk.ns, fails := x.fails + 1, firstFail := if x.fails = 0 then since else x.firstFail }).life 4 l

/-- WAKE_FAIL: a wake that has not completed after 8 µs (R298). -/
def execWakeFail (l : BitVec 4) (s : State) : Out :=
  match (s.link l.toNat).st with
  | .waking t => if t + 8000 ≤ s.clk.ns then .next (s.linkFails l.toNat t) else .next s
  | _ => .next s

/-- LINK_RETRAIN_END: an attempt that has not ended after 5 ms has failed (R298). -/
def execLinkRetrainEnd (l : BitVec 4) (ok : Bool) (s : State) : Out :=
  match (s.link l.toNat).st with
  | .retraining t =>
    if ok ∧ s.clk.ns ≤ t + 5000000 then .next (s.mapLink l.toNat fun x => { x.wakes s.clk.ns with fails := 0 })
    else .next (s.linkFails l.toNat t)
  | _ => .next s

/-- What time alone brings about at a link that wakes or retrains: its wake completes within 2 µs (R16), and a retrain fails after 5 ms (R298). -/
def State.linkTime (s : State) (l : Nat) : State :=
  match (s.link l).st with
  | .waking t => if t + 2000 ≤ s.clk.ns then s.mapLink l fun x => { x.wakes s.clk.ns with fails := 0 } else s
  | .retraining t => if t + 5000000 < s.clk.ns ∧ !s.mem.failed.contains l then s.linkFails l t else s
  | _ => s

/-! ### Failed dies (R299) -/

/-- The strand ends since its die failed, and its engines with it. -/
def State.failStrand (s : State) (k : SId) : State :=
  let s := s.switchTo k
  if s.me.id = k ∧ s.me.onCore then
    let own := [s.me.id.lid.toNat, s.me.id.cid.toNat, s.me.id.sid.toNat]
    let s := s.disown fun t => t.own.take 4 == 0 :: own || t.own.take 4 == 1 :: own || t.own.take 4 == 16 :: own
    (s.setMe fun x => { x with as := { x.as with copies := [], streams := [], subs := [] } }).forcedEnd cPOISON
  else s

/-- A compute die is gone: its crews fail, what waits in its cores' stages is lost, sectors dirty in its L1s are poisoned at their homes, held
snoops are done with. -/
def State.loseComputeDie (s : State) (d : Nat) : State :=
  let here (n : BitVec 7) : Bool := n.toNat / 16 == d
  let ks := (s.allStrands.filter fun k => k.onCore && here k.core).map (·.id)
  let s : State := { s with mem := { s.mem with stage := s.mem.stage.filter fun e => !here e.core } }
  let s := ks.foldl State.failStrand s
  let cores := (s.core :: s.cores).filter fun c => here c.num
  let dirty := ((cores.map (·.l1)).flatten.filter (·.dirty)).map (·.key)
  let s : State := { s with mem := dirty.foldl (fun m k => m.setPoison k) s.mem }
  let s := s.mapCores fun c => if here c.num then { c with l1 := [], icache := [] } else c
  s.mapLink d fun x => { x with snoop := none, waits := [] }

/-- DIE_FAILED: three failed wakes or retrains of its link, and 20 ms since the first of them started (R299). -/
def execDieFailed (die : BitVec 4) (s : State) : Out :=
  let d := die.toNat
  let x := s.link d
  if 12 ≤ d ∨ s.mem.failed.contains d ∨ x.fails < 3 ∨ s.clk.ns < x.firstFail + 20000000 then .next s
  else
    let s := ({ s with mem := { s.mem with failed := setIns s.mem.failed d } } : State).life 7 d
    .next (if d < 8 then s.loseComputeDie d else s)

/-! ### Errors in stores (R420, R421, R463) -/

/-- Where an error is counted: unit, kind, and the voltage domain; and the HBM4E stack or LPDDR channel that reports it (R26, R292). -/
structure ErrAt where
  unit : Nat
  kind : Nat
  dom : Nat
  chip : Option Nat := none
  deriving DecidableEq, Repr

/-- The place of a byte number, none in host memory. -/
def errAtKey (key : Nat) : Option ErrAt :=
  if 2 ^ 64 ≤ key then none
  else if 2 ^ 53 ≤ key then let c := (key - 2 ^ 53) / 2 ^ 21; some { unit := c, kind := 9, dom := c / 4 }
  else if 2 ^ 52 ≤ key then let d := (key - 2 ^ 52) / 2 ^ 27; some { unit := 128 + d, kind := 10, dom := 32 + d }
  else
    let d := dpaDie key
    let loc := fld key 48 0
    let hbm := fld key 49 49 == 0
    some { unit := 128 + d, kind := if hbm then 11 else 12, dom := 32 + d, chip := some (if hbm then hbmStack d loc else lpddrChannel d loc) }

/-- The place of an error site: that of the strand's core for what a strand holds there. -/
def State.errAt (s : State) (e : ErrSite) : Option ErrAt :=
  let of (k : SId) (kind : Nat) : Option ErrAt := (s.strandOf k).map fun x => { unit := x.core.toNat, kind := kind, dom := x.core.toNat / 4 }
  match e with
  | .vreg k _ _ => of k 0
  | .acc k _ _ => of k 1
  | .sreg k _ => of k 2
  | .pred k _ => of k 3
  | .ka k _ => of k 4
  | .kb k _ => of k 4
  | .queue k _ _ => of k 5
  | .l1d c _ _ => some { unit := c.toNat, kind := 6, dom := c.toNat / 4 }
  | .l1i c _ _ => some { unit := c.toNat, kind := 7, dom := c.toNat / 4 }
  | .replay k _ => of k 8
  | .mem key => errAtKey key

def insReg (l : List Reg) (r : Reg) : List Reg := if l.contains r then l else r :: l

/-- What an uncorrectable error does to the store (R420). -/
def State.corrupt (s : State) (e : ErrSite) : State :=
  match e with
  | .vreg k v b => s.onStrand k fun x => { x with vs := { x.vs with regs := vset x.vs.regs v.toNat (let r := vget x.vs.regs v.toNat {}; { r with bad := setIns r.bad b }) } }
  | .acc k m b => s.onStrand k fun x => { x with vs := { x.vs with accs := vset x.vs.accs m.toNat (let a := vget x.vs.accs m.toNat {}; { a with bad := setIns a.bad b }) } }
  | .sreg k r => s.onStrand k fun x => if r = 0 then x else { x with spoiled := { x.spoiled with sregs := insReg x.spoiled.sregs r } }
  | .pred k p => s.onStrand k fun x => if p = 0 then x else { x with spoiled := { x.spoiled with preds := insReg x.spoiled.preds p } }
  | .ka k n => s.onStrand k fun x => { x with spoiled := { x.spoiled with ka := setIns x.spoiled.ka n.toNat } }
  | .kb k n => s.onStrand k fun x => { x with spoiled := { x.spoiled with kb := setIns x.spoiled.kb n.toNat } }
  | .queue k q i => s.mapCrews fun c => if c.lid = k.lid ∧ c.cid = k.cid then
      { c with queues := vset c.queues q.toNat ((vget c.queues q.toNat []).mapIdx fun n x => if n = i then { x with bad := true } else x) } else c
  | .l1d core ctx sector =>
    let hit (t : L1Tag) : Bool := t.ctx == ctx && t.sector == sector
    let keys := ((s.getCore core).l1.filter fun t => hit t && t.dirty).map (·.key)
    let s : State := { s with mem := keys.foldl (fun m k => m.setPoison k) s.mem }
    s.mapCores fun c => if c.num = core then { c with l1 := c.l1.filter fun t => !hit t } else c
  | .l1i core ctx sector => s.mapCores fun c => if c.num = core then { c with icache := c.icache.filter fun l => !(l.ctx == ctx && l.sector == sector) } else c
  | .replay k a => s.onStrand k fun x => { x with replay := x.replay.filter (·.addr ≠ a) }
  | .mem key => { s with mem := s.mem.setPoison key }

/-- UNCORRECTABLE_ERROR (R420, R463). -/
def execUncorrectableError (e : ErrSite) (s : State) : Out :=
  match s.errAt e with
  | none => .next s
  | some p => .next ((s.corrupt e).life 2 (p.unit * 16 + p.kind))

/-- A corrected error is counted in the records and in its domain's rate (R463, R466). -/
def State.corrected (s : State) (p : ErrAt) : State := (s.life 1 (p.unit * 16 + p.kind)).domainError p.dom

/-- CORRECTED_ERROR (R420). -/
def execCorrectedError (e : ErrSite) (s : State) : Out :=
  match s.errAt e with
  | none => .next s
  | some p => .next (s.corrected p)

/-- SCRUB_PASS: the sectors of a memory die that the scrubber corrected, and those that it could not (R421). -/
def execScrubPass (die : BitVec 2) (fixed bad : List Nat) (s : State) : Out :=
  let mine (key : Nat) : Option ErrAt := (errAtKey key).filter fun p => p.unit == 128 + die.toNat
  let s := (fixed.filterMap mine).foldl State.corrected s
  .next (bad.foldl (fun s key => match mine key with
    | some p => ({ s with mem := s.mem.setPoison key } : State).life 2 (p.unit * 16 + p.kind)
    | none => s) s)

end Sys2Proof.Machine
end

