-- ==== Sys2Proof/Machine/Fetch.lean ====
section
/-! DEFINITION. Fetching a scalar instruction through the L1 instruction cache, and the words that raise ILLEGAL or fault on
the fetch (R85, R152, R163, R181, R279). -/

namespace Sys2Proof.Machine

/-- A cached sector serves a fetch: at user level only one that was fetched at user level, whose leaf is known to admit that level (R291). -/
def ILine.serves (l : ILine) (k : Strand) (sector : Nat) : Bool := l.ctx == k.ctx && l.sector == sector && (k.sys || l.user)

/-- A sector's instruction bytes from the core's cache, or read from its home and kept there, in no more lines than it has (R18, R279). -/
def State.instrSector (s : State) (sector : Nat) : Att (List Byte) :=
  match s.core.icache.find? fun l => l.serves s.me sector with
  | some l => .ok l.data s
  | none =>
    match s.memRead { s.me.req 0 with scalar := false } (w64 (sector * 256)) 256 .fetch with
    | .trap c s' => .trap c s'
    | .wait s' => .wait s'
    | .ok (bs, bad) s' =>
      if bad then .trap cPOISON s'
      else
        let rest := s'.core.icache.filter fun l => !(l.ctx == s.me.ctx && l.sector == sector)
        .ok bs { s' with core := { s'.core with icache := keepLines (fun l => (l.ctx.toNat, l.sector / 4)) l1Lines [] (⟨s.me.ctx, sector, bs, !s.me.sys⟩ :: rest) } }

/-- The word at the PC. -/
def State.fetchWord (s : State) : Att (BitVec 32) :=
  match s.instrSector (s.me.pc.toNat / 256) with
  | .ok bs s' => .ok (BitVec.ofNat 32 (numAt bs (s.me.pc.toNat % 256) 4)) s'
  | .trap c s' => .trap c s'
  | .wait s' => .wait s'

/-- ILLEGAL_WORD: a scalar word that names no instruction; TADDR is its address (R85). -/
def execIllegalWord (w : BitVec 32) (s : State) : Out := .next (s.trap cILLEGAL (w.setWidth 64) (some s.me.pc))

/-- INSTRUCTION_FETCH_FAULT: XLATE, PROT or POISON with TPC = TADDR = the PC (R163). No word was read, and the manual
states no TINFO: it is a free value (R10). -/
def execInstructionFetchFault (code : Byte) (s : State) : Out :=
  .next ({ s with free := s.free + 1 }.trap code (Config.freeWord s.free) (some s.me.pc))

/-- What happens at a strand's boundary. -/
inductive AtBoundary where
  /-- The boundary is used up. -/
  | taken (s : State)
  /-- This instruction executes. -/
  | instr (i : Instr) (s : State)

/-- Fetches and decodes the instruction at the PC of the strand whose turn it is. A PC that an ERET left off a word
boundary meets the misaligned access of R153 (DEDUCED). -/
def State.fetchInstr (s : State) : AtBoundary :=
  match if s.me.pc.toNat % 4 = 0 then s.fetchWord else .trap cMISALIGN s with
  | .wait s' => .taken s'
  | .trap c s' => match execInstructionFetchFault c s' with | .next s'' => .taken s'' | _ => .taken s'
  | .ok w s' => match decodeScalar w with
    | some i => .instr i s'
    | none => match execIllegalWord w s' with | .next s'' => .taken s'' | _ => .taken s'

end Sys2Proof.Machine
end

