-- ==== Sys2Proof/Machine/Halt.lean ====
section
/-! DEFINITION. HALT, and what the end of a crew brings with it (R178, R454, R457, R458). -/

namespace Sys2Proof.Machine

/-- HALT: discards a held window, ends open streams as STREAMX does, waits for the queue and the engines, and ends the strand
(R178, R427, R457). The last strand of a crew is followed by check records and a placer pass (R454, R458). -/
def execHalt (s : State) : Out :=
  let s := (s.dropWindow).endStreams fun _ => true
  if !s.me.qEmpty ∨ !s.me.as.copies.isEmpty ∨ !s.me.as.streams.isEmpty ∨ !s.me.as.colls.isEmpty ∨ !s.me.as.subs.isEmpty then .next s
  else
    let t := ((s.freeArray s.me.id).tick).strandEnds 0
    .next (if s.crew.live ≤ 1 then t.doChecks.placerPass else t)

end Sys2Proof.Machine
end

