-- ==== Sys2Proof/Machine/Maint.lean ====
section
/-! DEFINITION. Maintenance of memory: the region table, shoot-downs, buffer versions, pool regions, the save store and the pod
number as their registers set them (R282 to R285, R293 to R297, R363, R416). -/

namespace Sys2Proof.Machine

/-! ### The region table (R283, R285) -/

/-- A staged entry that a commit refuses. -/
def State.rteBad (s : State) (e : Rte) : Bool :=
  bt e.w0 63 && (bf e.w0 59 56 != 0 || bf e.w0 29 26 != 0 || bf e.w1 63 32 != 0 || bf e.w1 6 5 != 0 || bf e.w1 3 2 != 0
    || decide (2 ^ 26 < bf e.w0 55 30 + bf e.w0 25 0 + 1) || (bf e.w0 62 61 == 2 && bf e.w1 15 7 == s.dev.toNat))

/-- The memory die that is home to a sector of a context, if one is. -/
def State.homeDie (s : State) (ctx : BitVec 16) (sector : Nat) : Option Nat :=
  match s.rteOf ctx (w64 (sector * 256)) with
  | none => none
  | some e => match bf e.w0 62 61 with
    | 0 => some (interleave (sector * 256))
    | 1 => some (bf e.w1 1 0)
    | _ => none

/-- A snoop waits for a die-to-die link: a commit waits for the access that needs it (R298, R301). -/
def State.snoopWaits (s : State) : Bool := s.links.toList.any (·.snoop.isSome)

/-- A commit of the staged region table (R285): refused, under way while a snoop waits, or done. Requests that a link holds were routed under the
old generation, and are retargeted there (R286). DEDUCED: that the hub routes no new request meanwhile only delays them. -/
def State.commit (s : State) : State :=
  match s.mem.staged.toList.findIdx? s.rteBad with
  | some i => { s with mem := { s.mem with rtErr := true, rtErrIdx := BitVec.ofNat 8 i, committing := false } }
  | none =>
    if s.snoopWaits then { s with mem := { s.mem with committing := true } }
    else
      let m := s.mem.drainAll
      let s : State := { s with mem := { m with live := m.staged, gen := m.gen + 1, rtErr := false, rtErrIdx := 0, committing := false } }
      { s with mem := { s.mem with lines := s.mem.lines.filter fun l => s.homeDie l.ctx l.sector == some l.die } }

/-- A commit that waited goes on. -/
def State.tryCommit (s : State) : State := if s.mem.committing then s.commit else s

/-- A write of RTCTL: nothing while a commit is under way. -/
def State.writeRtctl (s : State) (v : Word) : State := if bt v 0 && !s.mem.committing then s.commit else s

/-- RT_COMMIT (R285). -/
def execRtCommit (m : Master) (v : Word) (s : State) : Out := s.byHolder m (s.writeRtctl v)

/-! ### Shoot-down and buffer versions (R294, R297) -/

/-- Drops what is held of the sectors of a context that `hit` names, and the cached translations of it that `page` names: recorded
translations, L1 sectors; and the instruction caches and replay buffers that serve the context. Writes that wait in stages leave them before. -/
def State.shoot (s : State) (ctx : BitVec 16) (hit : Nat → Bool) (page : Tlb → Bool) : State :=
  let cores := (s.allCrews.filter fun c => c.ctx == ctx && c.placed).map (·.core)
  let m := s.mem.drainAll
  let s : State := { s with mem := { m with lines := m.lines.filter fun l => !(l.ctx == ctx && hit l.sector), tlbs := m.tlbs.filter fun t => !(t.ctx == ctx && page t) } }
  let s := s.mapCores fun c => { c with l1 := c.l1.filter fun t => !(t.ctx == ctx && hit t.sector)
                                        icache := if cores.contains c.num then [] else c.icache }
  s.mapStrands fun k => if k.ctx = ctx then { k with replay := [] } else k

def State.maintErr (s : State) (e : Bool) : State := { s with mem := { s.mem with mstatErr := e } }

/-- A write of XINVC (R294). -/
def State.writeXinvc (s : State) (v : Word) : State :=
  let ctx := BitVec.ofNat 16 (bf v 47 32)
  let all := bt v 31
  let s : State := { s with mem := { s.mem with xinvc := v &&& 0x0000FFFF80FFFFFF } }
  let bad := bf v 63 48 != 0 || bf v 30 24 != 0 || (s.jobOf ctx).isNone
    || (!all && (bf v 23 0 == 0 || !canonical s.mem.xinva || bf s.mem.xinva 15 0 != 0))
  if bad then s.maintErr true
  else
    let lo := bf s.mem.xinva 55 0 / 256
    let hi := lo + bf v 23 0 * 256
    (s.shoot ctx (fun x => all || decide (lo ≤ x ∧ x < hi)) fun t => all || decide (t.page * 2 ^ t.lo < hi * 256 ∧ lo * 256 < (t.page + 1) * 2 ^ t.lo)).maintErr false

/-- SHOOT_DOWN (R294). -/
def execShootDown (m : Master) (v : Word) (s : State) : Out := s.byHolder m (s.writeXinvc v)

/-- A write of BUFV (R297): the lines of the buffer go without a write-back, and its version advances. -/
def State.writeBufv (s : State) (v : Word) : State :=
  let s : State := { s with mem := { s.mem with bufv := v &&& 0x0000FFFF00000FFF } }
  match s.jobOf (BitVec.ofNat 16 (bf v 47 32)) with
  | none => s.maintErr true
  | some j =>
    if bf v 63 48 ≠ 0 ∨ bf v 31 12 ≠ 0 then s.maintErr true
    else
      let mine := (s.mem.lines.filter fun l => l.ctx == j.ctx && bf l.leaf 63 52 == bf v 11 0).map (·.sector)
      let s := s.shoot j.ctx mine.contains fun t => bf t.leaf 63 52 == bf v 11 0
      let at_ := j.buft + 8 * bf v 11 0
      let e := s.mem.dpa64 at_
      ({ s with mem := s.mem.putRaw (at_ + 4) (leBytes 4 (bf e 63 32 + 1)) } : State).maintErr false

/-- BUFV_ADVANCE (R297). -/
def execBufvAdvance (m : Master) (v : Word) (s : State) : Out := s.byHolder m (s.writeBufv v)

/-! ### Pool regions (R293) -/

/-- The sectors of a pool region hold undefined bytes: they stand under a tag that no reader has. -/
def MemSys.scramble (m : MemSys) (die region salt : Nat) : MemSys :=
  let lo := poolKey die (region * 2 ^ 20) / 256
  let tag := voidTag salt
  { m with enc := ((List.range 4096).map fun i => (lo + i, tag)) ++ m.enc.filter fun x => !(decide (lo ≤ x.1 ∧ x.1 < lo + 4096))
           bad := m.bad.filter fun x => !(decide (lo ≤ x ∧ x < lo + 4096)) }

/-- A write of POOLCFGL or POOLCFGH of a die: regions that turn to scratch lose what they cached and hold undefined bytes; regions
that turn to cache lose their contents. -/
def State.writePoolcfg (s : State) (die : Nat) (hi : Bool) (v : Word) : State :=
  let old := vget s.mem.poolcfg die 0
  let new : BitVec 96 := if hi then BitVec.ofNat 96 (bf v 31 0 * 2 ^ 64 + old.toNat % 2 ^ 64) else BitVec.ofNat 96 (old.toNat / 2 ^ 64 * 2 ^ 64 + v.toNat)
  let turned := (List.range 96).filter fun j => new.getLsbD j != old.getLsbD j
  let lost := turned.filter new.getLsbD
  let gone (key : Nat) : Bool := decide (poolKey die 0 ≤ key) && turned.contains ((key - poolKey die 0) / 2 ^ 20)
  let s : State := { s with mem := s.mem.drainAll }
  let s := s.mapCores fun c => { c with l1 := c.l1.filter fun t => !gone t.key }
  let mem : MemSys := { s.mem with poolcfg := vset s.mem.poolcfg die new, lines := if lost.isEmpty then s.mem.lines else s.mem.lines.filter (·.die ≠ die) }
  { s with free := s.free + 1, mem := lost.foldl (fun m j => m.scramble die j s.free) mem }

/-- POOLCFG_WRITE (R293). -/
def execPoolcfgWrite (m : Master) (die : BitVec 2) (hi : Bool) (v : Word) (s : State) : Out := s.byHolder m (s.writePoolcfg die.toNat hi v)

/-! ### PODCFG (R363) and the save store (R416) -/

/-- A write of PODCFG. EN does not change before the device is ready (R468). -/
def State.writePodcfg (s : State) (v : Word) : State :=
  let old := s.fab.podcfg
  if bt old 63 ∧ bf v 8 0 ≠ bf old 8 0 then s
  else
    let en : Word := if s.house.bootReady then v &&& 0x8000000000000000 else old &&& 0x8000000000000000
    let dup : Word := if bf v 8 0 = bf old 8 0 then old &&& 0x200 else 0
    { s with fab := { s.fab with podcfg := en ||| dup ||| (v &&& 0x1FF) } }

/-- PODCFG_WRITE (R363). -/
def execPodcfgWrite (m : Master) (v : Word) (s : State) : Out := s.byHolder m (s.writePodcfg v)

/-- A write of VSSBASE: none while a frame is in use. -/
def State.writeVssbase (s : State) (v : Word) : State :=
  if s.mem.frames.isEmpty then { s with mem := { s.mem with vssbase := v &&& 0x000FFFFFFFE00000 } } else s

/-- A write of VSSCFG. -/
def State.writeVsscfg (s : State) (v : Word) : State :=
  if !s.mem.frames.isEmpty ∨ 1024 < bf v 10 0 then s
  else
    let en : Word := if s.house.bootReady then v &&& 0x80000000 else s.mem.vsscfg &&& 0x80000000
    { s with mem := { s.mem with vsscfg := en ||| (v &&& 0x7FF) } }

/-- VSSCFG_WRITE (R416). -/
def execVsscfgWrite (m : Master) (v : Word) (s : State) : Out := s.byHolder m (s.writeVsscfg v)

end Sys2Proof.Machine
end

