-- ==== Sys2Proof/Machine/Packets.lean ====
section
/-! DEFINITION. Submission queues: fetching and accepting packets, what each opcode does, completion entries, reservations and the end of
a job (R57 to R72, R80, R428, R434, R460). -/

namespace Sys2Proof.Machine

/-! ### Queues (R63 to R68) -/

def State.queue (s : State) (q : Nat) : SubQ := vget s.cp.queues q {}
def State.mapQueue (s : State) (q : Nat) (f : SubQ → SubQ) : State := { s with cp := { s.cp with queues := vset s.cp.queues q (f (s.queue q)) } }

/-- Packets of a queue's ring. -/
def SubQ.size (x : SubQ) : Nat := 2 ^ (bf x.sqcfg 3 0 + 6)

/-- The byte number behind a ring base at an offset, and the host port that carries it. -/
def ringKey (base : Word) (off : Nat) : Nat :=
  let a := bf base 63 12 * 4096 + off
  if bt base 0 then a else hostKey (bf base 1 1) a

/-- A place of a ring that cannot be used: no such device address, a failed die, or a page of a host that answers with an error of PCI Express
(R68). -/
def State.ringDead (s : State) (base : Word) (off : Nat) : Bool :=
  let key := ringKey base off
  if bt base 0 then !dpaOk key || s.mem.failed.contains (8 + dpaDie key) else s.mem.hostFails key

/-- A queue faults at a packet number (R68). -/
def State.queueFault (s : State) (q : Nat) (code : Byte) (seq : Nat) : State :=
  (s.mapQueue q fun x => { x with st := 2, fcode := code, fseq := BitVec.ofNat 32 seq, refetch := 0, lastRead := none }).queueReset q

/-- A queue whose packet has finished its acceptance stops when EN was cleared meanwhile (R64). -/
def State.queueIdle (s : State) (q : Nat) : State := s.mapQueue q fun x => if !bt x.sqcfg 8 ∧ x.st = 1 then { x with st := 0 } else x

/-- Replay holds a queue until the object of its last LAUNCH or GRAPH packet has completed and its check record is written (R455). -/
def State.replayHolds (s : State) (q : Nat) : Bool :=
  s.trc.rep && s.trc.sq == q && (match (s.queue q).waitFor with
    | none => false
    | some h => s.cp.launches.any (fun l => l.handle == h && l.state == 0) || s.cp.graphs.any (fun g => g.handle == h && g.state == 0)
        || s.trc.checks.any fun x => x.2 == h)

/-- The queue may take its next packet (R65, R69, R70, R454, R455). -/
def State.queueOpen (s : State) (q : Nat) : Bool :=
  let x := s.queue q
  x.st == 1 && bt x.sqcfg 8 && decide (x.head.toNat < x.tail.toNat) && x.ending.isNone && x.owed.isNone && x.held.isNone && !s.replayHolds q
    && !(s.trc.open_ && s.trc.sq == q && !s.trc.snaps.isEmpty)

/-- This is the packet that its queue accepts next, or whose acceptance waits. -/
def State.accepts (s : State) (p : Packet) : Bool :=
  (s.queue p.q.toNat).held == some p || (s.queueOpen p.q.toNat && p.stamp == (s.queue p.q.toNat).head + 1)

/-- The acceptance of a packet waits; other queues have their turns meanwhile (R69). -/
def State.holds (s : State) (p : Packet) : State :=
  let q := p.q.toNat
  if (s.queue q).held = some p then s
  else
    let s := s.mapQueue q fun x => { x with held := some p, refetch := 0, lastRead := none }
    { s with cp := { s.cp with turn := (q + 1) % 8 } }

/-! ### Completion entries (R70) -/

/-- A write of the command processor behind a ring base: a posted one to a host may be held by PCI Express (R345). -/
def MemSys.ringPut (m : MemSys) (base : Word) (key : Nat) (bs : List Byte) (relaxed : Bool) : MemSys :=
  if !bt base 0 && m.hostHold then { m with posted := m.posted ++ [⟨key, bs, false, relaxed, [], 3⟩] }
  else (if bt base 0 then m else m.flushHost).putRaw key bs

/-- Writes RESULT, then the number in a later write without relaxed ordering. An uncorrectable error in device memory fails the write (R68). -/
def State.writeEntry (s : State) (q : Nat) (k result : Word) : State :=
  let x := s.queue q
  let off := 16 * ((k.toNat - 1) % x.size)
  let key := ringKey x.cqbase off
  if s.ringDead x.cqbase off || (bt x.cqbase 0 && s.mem.poisoned key) then s.queueFault q 0x03 k.toNat
  else { s with mem := (s.mem.ringPut x.cqbase (key + 8) (leBytes 8 result.toNat) true).ringPut x.cqbase key (leBytes 8 k.toNat) false }

/-- The entry of a packet with its EXTERNAL mark, which goes to the job of `ctx` when that is given; under the stall policy it waits. -/
def State.putEntry (s : State) (q : Nat) (k result : Word) (ctx : Option (BitVec 16)) : State :=
  let x := s.queue q
  match if bt x.cqbase 0 then none else ctx with
  | none => (s.writeEntry q k result).queueIdle q
  | some c =>
    let at_ := w64 (bf x.cqbase 63 12 * 4096 + 16 * ((k.toNat - 1) % x.size))
    match s.mark (pkgReq c s.clk.cp [10, q]) 5 at_ with
    | .ok s' => (s'.writeEntry q k result).queueIdle q
    | .full => (s.writeEntry q k result).queueIdle q
    | .stall => s.mapQueue q fun x => { x with owed := some (k, result, c) }

/-- An entry that waits for room is tried again. -/
def State.payOwed (s : State) (q : Nat) : State :=
  match (s.queue q).owed with
  | none => s
  | some (k, result, c) => (s.mapQueue q fun x => { x with owed := none }).putEntry q k result (some c)

/-- The stamp of the packet matched: SQHEAD counts it, and the next queue has its turn (R65, R69). -/
def State.taken (s : State) (p : Packet) : State :=
  let turn := if (s.queue p.q.toNat).held = some p then s.cp.turn else (p.q.toNat + 1) % 8
  let s := s.mapQueue p.q.toNat fun x => { x with head := p.stamp, refetch := 0, lastRead := none, waitFor := none, held := none }
  { s with cp := { s.cp with turn := turn } }

/-- The packet is carried out with a result; `log` says that its job's log may take the mark. -/
def State.carried (s : State) (p : Packet) (result : Word) (log : Bool) : State :=
  let s := s.capture p result
  let s := if (p.opc = 0x05 ∨ p.opc = 0x06) ∧ bf result 63 60 ≠ 0 then s.mapQueue p.q.toNat fun x => { x with waitFor := some result } else s
  s.putEntry p.q.toNat p.stamp result (if log then some p.ctx else none)

/-- The packet is rejected with a code (R72). DESIGN CHOICE: where several rows of the table apply, the packet reports the first of them. -/
def State.rejected (s : State) (p : Packet) (err : Nat) : State := (s.taken p).carried p (rejectHandle err) (p.opc != 0x02)

/-! ### Checks that packets share (R72) -/

/-- Reserved fields and the body words from index n on are zero. -/
def Packet.clean (p : Packet) (n : Nat) : Bool := p.rsvZero && (([p.b0, p.b1, p.b2, p.b3, p.b4, p.b5].drop n).all (· == 0))

/-- A packet of an existing job: what it does when it is the next of its queue, clean, and its job lives. -/
def State.forJob (s : State) (p : Packet) (words : Nat) (act : Job → State) (clean : Bool := true) : Out :=
  if !s.accepts p then .next s
  else if !(Packet.clean p words && clean) then .next (s.rejected p 0x0B)
  else match s.jobOf p.ctx with
    | none => .next (s.rejected p 0x0C)
    | some j => .next (act j)

/-! ### Reservations (R80) -/

/-- The reservation of a context becomes n cores. -/
def State.reserveCores (s : State) (ctx : BitVec 16) (n : Nat) : State :=
  let mine := (s.cp.reserved.filter (·.2 = ctx)).take n
  let others := s.cp.reserved.filter (·.2 ≠ ctx)
  let free := (List.range Config.numCores).reverse.filter fun c => !(others ++ mine).any fun x => x.1.toNat == c
  let more := (free.take (n - mine.length)).map fun c => (BitVec.ofNat 7 c, ctx)
  let s : State := { s with cp := { s.cp with reserved := others ++ mine ++ more } }
  match s.jobOf ctx with
  | some j => s.mapJob j.slot fun j => { j with rsv := n }
  | none => s

/-- What the other live jobs reserve. -/
def State.reservedElse (s : State) (ctx : BitVec 16) : Nat := ((s.cp.jobs.filter fun j => j.live && j.ctx != ctx).map (·.rsv)).sum

/-! ### Phases (R46) -/

/-- 256 phases live. -/
def State.phasesFull (s : State) : Bool := decide (256 ≤ (s.cp.phases.filter (·.state == 0)).length)

/-- Opens a new phase of a job: its handle. -/
def State.newPhase (s : State) (j : Job) : Word × State :=
  let (slot, gen) := allocSlot Config.phaseSlots (s.cp.phases.map fun x => (x.slot, x.gen, x.doneSeq))
  let ph : Phase := { slot := slot, gen := gen, ctx := j.ctx, closed := false, state := 0, code := 0, out := 0, clk := s.clk.cp, cancelled := false, failed := false
                      opened := false, order := s.cp.seq, doneSeq := none }
  let s : State := { s with cp := { s.cp with phases := ph :: s.cp.phases.filter (·.slot ≠ slot) } }
  let s := (s.nextSeq).mapJob j.slot fun j => { j with phase := slot }
  (ph.handle, (s.changed (.phase slot) j.ctx).openPhases j.ctx)

/-- Closes a phase: it completes when its OUT is 0 (R46). -/
def State.closePhase (s : State) (n : Nat) : State :=
  match s.phaseAt n with
  | none => s
  | some ph =>
    let s := s.mapPhase n fun x => { x with closed := true }
    if ph.out = 0 ∧ ph.state = 0 then
      (((s.mapPhase n fun x => { x with state := finalState x.failed x.cancelled, doneSeq := some s.cp.seq }).nextSeq).changed (.phase n) ph.ctx).openPhases ph.ctx
    else s

/-! ### JOBNEW (R71, R289, R428, R434) -/

/-- A device physical address that can be read for n bytes: within its memory, on a working die, without poison. -/
def State.dpaReads (s : State) (a n : Nat) : Bool :=
  dpaOk a && dpaOk (a + n - 1) && !s.mem.failed.contains (8 + dpaDie a) && (List.range ((n + 255) / 256)).all fun i => !s.mem.poisoned (a + 256 * i)

/-- The segment of 2^n bytes at a base lies on memory die m. -/
def segmentOk (m n a : Nat) : Bool := dpaOk a && dpaDie a == m && decide (a % 2 ^ n = 0) && dpaOk (a + 2 ^ n - 1)

/-- The policy block at a: none when JOBNEW is to be rejected (R428). -/
def State.readPolicy (s : State) (a : Word) : Option Policy :=
  if a = 0 then some {}
  else if a.toNat % 64 ≠ 0 ∨ !s.dpaReads a.toNat 64 then none
  else
    let ctl := s.mem.dpa64 a.toNat
    let bases := (List.range 4).map fun m => (s.mem.dpa64 (a.toNat + 8 + 8 * m)).toNat
    let zeros := bf ctl 7 4 == 0 && bf ctl 63 14 == 0 && (List.range 3).all fun i => s.mem.dpa64 (a.toNat + 0x28 + 8 * i) == 0
    let seg := bf ctl 13 8
    if !zeros then none
    else if !bt ctl 0 then some {}
    else
      let theirs : List (Nat × Nat) := ((s.cp.jobs.filter fun j => j.live && j.policy.en).map fun j => j.policy.bases.toList.map fun b => (b, 2 ^ j.policy.seg)).flatten
      let overlaps (b : Nat) : Bool := theirs.any fun t => decide (b < t.1 + t.2 ∧ t.1 < b + 2 ^ seg)
      if bf ctl 2 1 = 3 ∨ seg < 20 ∨ 34 < seg ∨ !((bases.zipIdx).all fun x => segmentOk x.2 seg x.1) ∨ bases.any overlaps then none
      else some { en := true, pol := bf ctl 2 1, xstop := bt ctl 3, seg := seg, bases := Vector.ofFn fun m => bases.getD m.val 0 }

/-- JOBNEW: a job with its tables, keys, policy and reservation; its first phase; window 1. It waits while 256 phases live. -/
def execJobnew (p : Packet) (s : State) : Out :=
  if !s.accepts p then .next s
  else
    let addrs := decide (p.b0.toNat % 8192 = 0) && decide (p.b1.toNat % 64 = 0) && decide (p.b2.toNat % 64 = 0) && dpaOk p.b0.toNat && dpaOk p.b1.toNat && dpaOk p.b2.toNat
    match if Packet.clean p 5 && bf p.b4 63 8 == 0 && addrs then s.readPolicy p.b3 else none with
    | none => .next (s.rejected p 0x0B)
    | some pol =>
      if (s.jobOf p.ctx).isSome then .next (s.rejected p 0x0C)
      else if Config.maxJobs ≤ (s.cp.jobs.filter (·.live)).length then .next (s.rejected p 0x0D)
      else if 128 < s.reservedElse p.ctx + bf p.b4 7 0 then .next (s.rejected p 0x0E)
      else if s.phasesFull then .next (s.holds p)
      else
        let s := (s.taken p).cpTick
        let (slot, gen) := allocSlot Config.jobSlots (s.cp.jobs.map fun j => (j.slot, j.gen, if j.live then none else some j.endSeq))
        let j : Job := { slot := slot, gen := gen, live := true, ctx := p.ctx, root := p.b0.toNat, buft := p.b1.toNat, keys := s.mem.bytesUnder 0 p.b2.toNat 1024, rsv := 0
                         policy := pol, retr := {}, code := 0, out := 0, clk := s.clk.cp, phase := 0, cancelled := false, endSeq := 0, final := 0 }
        let s : State := { s with cp := { s.cp with jobs := j :: s.cp.jobs.filter (·.slot ≠ slot) } }
        let s := (s.newPhase j).2
        let s := s.reserveCores p.ctx (bf p.b4 7 0)
        let s := match (s.jobOf p.ctx).filter (·.policy.en) with
          | some j' => (match s.openWindow j' 0 1 0x8000 0 s.clk.cp with | .ok s' => s' | _ => s)
          | none => s
        .next (s.carried p j.handle true)

/-! ### The other opcodes (R71) -/

/-- NOP: no effect and RESULT 0; its CTX must name a job (R72). -/
def execNopPacket (p : Packet) (s : State) : Out := s.forJob p 0 fun _ => (s.taken p).carried p 0 true

/-- PHASE: closes the open phase and opens the next; waits while 256 phases would live besides it. -/
def execPhase (p : Packet) (s : State) : Out :=
  s.forJob p 0 fun j =>
    let t := ((s.taken p).cpTick).closePhase j.phase
    if t.phasesFull then s.holds p
    else match t.jobOf p.ctx with
      | none => t
      | some j => let out := t.newPhase j; out.2.carried p out.1 true

/-- GRAPH: presents the image into the open phase. -/
def execGraphPacket (p : Packet) (s : State) : Out :=
  s.forJob p 1 fun j =>
    match s.cpTick.presentGraph (pkgReq p.ctx s.clk.cp [2, p.q.toNat]) (.phase j.phase) p.b0 false with
    | .wait s' => (s.waitKeeping s').holds p
    | .trap _ s' => s'.rejected p 0x01
    | .ok h s' => (s'.taken p).carried p h true

/-- LAUNCH: a graph of one launch node in the open phase, with its launch (R51, R71, R73). -/
def execLaunchPacket (p : Packet) (s : State) : Out :=
  s.forJob p 1 fun j =>
    match s.cpRead s (pkgReq p.ctx s.clk.cp [2, p.q.toNat]) 8 p.b0 64 with
    | .wait s' => (s.waitKeeping s').holds p
    | .trap _ s' => s'.rejected p 0x01
    | .ok d s1 =>
      let e := s1.descCheck j p.b0 d
      if e ≠ 0 then s1.rejected p e
      else if Config.maxGraphs ≤ liveGraphs s1 then s1.rejected p 0x0A
      else
        let s2 := (s1.taken p).cpTick
        let node : Node := { kind := 1, any := false, npred := 0, efirst := 0, body := leBytes 8 p.b0.toNat ++ List.replicate 48 0, st := .running, code := 0, taken := false
                             since := s2.clk.ns, coll := some 0, result := 0 }
        let (g, _, s3) := s2.newGraph p.ctx (.phase j.phase) 0 [node] []
        let opened := (s3.phaseAt j.phase).any (·.opened)
        let out := s3.newLaunch p.ctx (.graph g) (some (g, 0)) d opened
        out.2.carried p out.1 true

/-- CANCEL (R55, R56). -/
def execCancelPacket (p : Packet) (s : State) : Out :=
  s.forJob p 1 fun _ =>
    let out := ((s.taken p).cpTick).cancelHandle p.ctx p.b0
    out.2.carried p out.1 true

/-- RESERVE (R80). -/
def execReserve (p : Packet) (s : State) : Out :=
  s.forJob p 1 (fun _ =>
    if 128 < s.reservedElse p.ctx + bf p.b0 7 0 then s.rejected p 0x0E
    else ((s.taken p).reserveCores p.ctx (bf p.b0 7 0)).carried p 0 true) (bf p.b0 63 8 == 0)

/-- QUERY. -/
def execQuery (p : Packet) (s : State) : Out :=
  s.forJob p 1 fun _ => (s.taken p).carried p (match s.object p.ctx p.b0 with | some o => (s.wordOf o).1 | none => staleWord) true

/-! ### JOBEND (R71, R460) -/

/-- The job of a context is destroyed: its final completion word (R71), and the steps of R460. -/
def State.destroyJob (s : State) (j : Job) (hadOut : Bool) : Word × State :=
  let word := if j.code ≠ 0 then compWord 3 j.code 0 else compWord (if hadOut then 2 else 1) 0 0
  let s := (s.shoot j.ctx (fun _ => true) fun _ => true).reserveCores j.ctx 0
  let s : State := { s with groups := s.groups.filter (·.ctx ≠ j.ctx), cp := { s.cp with
    launches := replaceIf (·.ctx == j.ctx) (fun l => { l with orphan := true }) s.cp.launches
    graphs := replaceIf (·.ctx == j.ctx) (fun g => { g with orphan := true }) s.cp.graphs
    phases := replaceIf (·.ctx == j.ctx) (fun x => { x with orphan := true }) s.cp.phases } }
  (word, (s.mapJob j.slot fun x => { x with live := false, retr := {}, policy := {}, keys := [], endSeq := s.cp.seq, final := word }).nextSeq)

/-- A JOBEND that its queue holds is done once its job's OUT is 0. -/
def State.finishEnding (s : State) (q : Nat) : State :=
  match (s.queue q).ending with
  | none => s
  | some (p, hadOut) => match s.jobOf p.ctx with
    | none => s.mapQueue q fun x => { x with ending := none }
    | some j =>
      if j.out ≠ 0 then s
      else
        let (word, s) := s.destroyJob j hadOut
        (s.mapQueue q fun x => { x with ending := none }).carried p word false

/-- JOBEND: closes a debug session of the context, cancels the job, closes its open phase, and holds the queue until OUT = 0. -/
def execJobend (p : Packet) (s : State) : Out :=
  if (s.queue p.q.toNat).ending.any (fun e => e.1 == p) then .next (s.finishEnding p.q.toNat)
  else s.forJob p 0 fun j =>
    let s := (s.taken p).cpTick
    let s := if s.sessionOf p.ctx then s.writeDbgctl (s.dbg.ctl &&& 0x0000000003FFFFFF) else s
    let out := s.cancelHandle p.ctx j.handle
    let s := out.2.closePhase j.phase
    (s.mapQueue p.q.toNat fun x => { x with ending := some (p, bf out.1 47 0 != 0) }).finishEnding p.q.toNat

/-! ### Fetching (R65 to R69) -/

/-- The packet in the 64 bytes of a ring slot. -/
def packetOf (q : BitVec 3) (bs : List Byte) : Packet :=
  let w (o : Nat) : Word := w64 (numAt bs o 8)
  { q := q, opc := BitVec.ofNat 8 (numAt bs 0 1), rsvZero := numAt bs 1 1 == 0 && numAt bs 4 4 == 0, ctx := BitVec.ofNat 16 (numAt bs 2 2)
    b0 := w 8, b1 := w 16, b2 := w 24, b3 := w 32, b4 := w 40, b5 := w 48, stamp := w 56 }

/-- Carries out a packet by its opcode. -/
def State.dispatchPacket (s : State) (p : Packet) : Out :=
  match p.opc.toNat with
  | 1 => execNopPacket p s
  | 2 => execJobnew p s
  | 3 => execJobend p s
  | 4 => execPhase p s
  | 5 => execGraphPacket p s
  | 6 => execLaunchPacket p s
  | 7 => execCancelPacket p s
  | 8 => execReserve p s
  | 9 => execQuery p s
  | _ => if s.accepts p then .next (s.rejected p 0x0B) else .next s

/-- The ring of a queue lies behind a host port in D3hot (R470). -/
def State.ringAsleep (s : State) (base : Word) : Bool := !bt base 0 && vget s.house.d3hot (bf base 1 1) false

/-- Reads the slot of the queue's next packet once: the packet when its stamp matches, a fault, or a mismatch at which `miss` acts. -/
def State.readSlot (s : State) (q : BitVec 3) (miss : State → State) : Out :=
  let x := s.queue q.toNat
  let seq := x.head.toNat + 1
  let off := 64 * (x.head.toNat % x.size)
  let key := ringKey x.sqbase off
  if s.ringDead x.sqbase off ∨ s.mem.poisoned key then .next (s.queueFault q.toNat 0x03 seq)
  else
    let s : State := if bt x.sqbase 0 then s else { s with mem := s.mem.flushHost }
    let p := packetOf q (s.mem.bytesUnder 0 key 64)
    if p.stamp = w64 seq then s.dispatchPacket p else .next (miss s)

/-- The queue whose turn it is: the next in number among those that can take a packet (R69). -/
def State.nextQueue (s : State) : Option Nat :=
  ((List.range 8).map fun i => (s.cp.turn + i) % 8).find? fun q => s.queueOpen q && (s.queue q).lastRead.isNone && !s.ringAsleep (s.queue q).sqbase

/-- PACKET_FETCH: the queue whose turn it is reads its next slot; a queue that holds a JOBEND, a packet or an entry tries again to finish it. -/
def execPacketFetch (q : BitVec 3) (s : State) : Out :=
  let n := q.toNat
  let s := s.doChecks
  if (s.queue n).owed.isSome then .next (s.payOwed n)
  else if (s.queue n).ending.isSome then .next (s.finishEnding n)
  else match (s.queue n).held with
    | some p => s.dispatchPacket p
    | none =>
      if s.nextQueue ≠ some n then .next s
      else s.readSlot q fun s => s.mapQueue n fun x => { x with refetch := 0, lastRead := some s.clk.ns }

/-- PACKET_REFETCH: at least 100 ns after the last read; the queue faults when 256 re-fetches have not found the stamp (R67). -/
def execPacketRefetch (q : BitVec 3) (s : State) : Out :=
  let n := q.toNat
  let x := s.queue n
  match x.lastRead with
  | none => .next s
  | some t =>
    if s.clk.ns < t + 100 ∨ !s.queueOpen n ∨ s.ringAsleep x.sqbase then .next s
    else s.readSlot q fun s => if 256 ≤ x.refetch + 1 then s.queueFault n 0x01 (x.head.toNat + 1)
        else s.mapQueue n fun x => { x with refetch := x.refetch + 1, lastRead := some s.clk.ns }

/-! ### The queue registers (R63 to R65, R68) -/

/-- A write of SQTAIL. -/
def State.writeSqtail (s : State) (q : Nat) (v : Word) : State :=
  let x := s.queue q
  if x.st ≠ 1 ∨ v = x.tail then s
  else if v.toNat < x.tail.toNat ∨ x.head.toNat + x.size < v.toNat then s.queueFault q 0x02 (x.head.toNat + 1)
  else s.mapQueue q fun x => { x with tail := v }

/-- SQTAIL_WRITE (R65, R68). -/
def execSqtailWrite (m : Master) (q : BitVec 3) (v : Word) (s : State) : Out := s.byHolder m (s.writeSqtail q.toNat v)

/-- A write of SQCFG (R64): a reserved SZ or field writes nothing, and while EN = 1 only a write that clears EN counts. EN cannot be
set before the device is ready (R468). -/
def State.writeSqcfg (s : State) (q : Nat) (v : Word) : State :=
  let x := s.queue q
  if bf v 63 9 ≠ 0 ∨ bf v 7 4 ≠ 0 ∨ 10 < bf v 3 0 then s
  else if bt x.sqcfg 8 then
    if bt v 8 then s
    else
      let busy := x.ending.isSome || x.owed.isSome || x.held.isSome
      let s := if x.st = 1 then s.queueReset q else s
      s.mapQueue q fun x => { x with sqcfg := v, st := if x.st = 1 ∧ busy then 1 else 0, refetch := 0, lastRead := none }
  else if bt v 8 ∧ s.house.bootReady then
    s.mapQueue q fun x => { x with sqcfg := v, tail := x.head, st := 1, fcode := 0, fseq := 0, refetch := 0, lastRead := none }
  else s.mapQueue q fun x => { x with sqcfg := v &&& 0xF }

/-- SQ_ENABLE: a write of SQCFG that sets EN (R64). -/
def execSqEnable (m : Master) (q : BitVec 3) (v : Word) (s : State) : Out := s.byHolder m (s.writeSqcfg q.toNat v)

/-- SQ_DISABLE: a write of SQCFG that clears EN (R64). -/
def execSqDisable (m : Master) (q : BitVec 3) (v : Word) (s : State) : Out := s.byHolder m (s.writeSqcfg q.toNat v)

/-- A write of SQBASE or CQBASE: none while EN = 1, or with a reserved field that is not zero (R64). -/
def State.writeRing (s : State) (q : Nat) (cq : Bool) (v : Word) : State :=
  if bt (s.queue q).sqcfg 8 || bf v 11 2 != 0 then s
  else s.mapQueue q fun x => if cq then { x with cqbase := v } else { x with sqbase := v }

/-- SQSTAT as it reads. -/
def SubQ.stat (x : SubQ) : Word := w64 (x.fseq.toNat * 2 ^ 16 + x.fcode.toNat * 2 ^ 8 + x.st.toNat)

end Sys2Proof.Machine
end

