-- ==== Sys2Proof/Machine/House.lean ====
section
/-! DEFINITION. The management controller's housekeeping: lifetime records, undervolting, boot, attestation, power and clock (R31, R32,
R462 to R470). -/

namespace Sys2Proof.Machine

/-! ### Records (R463, R464) -/

/-- The bin of a temperature in °C. -/
def tempBin (t : Int) : Nat := if t < 40 then 0 else if 96 ≤ t then 15 else ((t - 36) / 4).toNat

/-- TEMPERATURE_SAMPLE: once a second, the hottest sensor of each domain. -/
def execTemperatureSample (temps : List Int) (s : State) : Out :=
  if s.clk.ns < s.house.sampledAt + 1000000000 then .next s
  else
    let s : State := { s with house := { s.house with sampledAt := s.clk.ns } }
    .next (((temps.take 37).zipIdx).foldl (fun s x => s.life 5 (x.2 * 16 + tempBin x.1)) s)

/-- VOLTAGE_DROOP. -/
def execVoltageDroop (d : BitVec 6) (s : State) : Out := if d.toNat < 37 then .next (s.life 3 d.toNat) else .next s

/-- POWERED_HOUR. -/
def execPoweredHour (s : State) : Out :=
  if s.house.powered ∧ s.house.hourAt + 3600000000000 ≤ s.clk.ns then .next (({ s with house := { s.house with hourAt := s.clk.ns } } : State).life 8 0) else .next s

/-- The counts go to non-volatile storage. -/
def State.flushCounts (s : State) : State := { s with house := { s.house with stored := s.house.counts } }

/-- LIFETIME_FLUSH (R464). -/
def execLifetimeFlush (s : State) : Out := .next s.flushCounts

/-! ### Undervolting (R465, R466) -/

/-- DOMSTAT at a time. -/
def Domain.stat (x : Domain) : Word :=
  w64 (min (2 ^ 32 - 1) x.rate * 2 ^ 32 + x.offs % 256 * 2 ^ 16 + (if x.hold then 8 else 0) + (if x.meas then 4 else 0) + (if x.pf then 2 else 0) + (if x.uven then 1 else 0))

def State.domain (s : State) (d : Nat) : Domain := vget s.house.domains d {}

/-- UNDERVOLT_STEP: a further 10 mV after 24 h in which RATE stayed at or below a quarter of PFTHR. -/
def execUndervoltStep (d : BitVec 6) (s : State) : Out :=
  let x := s.domain d.toNat
  if x.uven ∧ !x.hold ∧ !x.pf ∧ !x.meas ∧ x.offs < 60 ∧ x.quietSince + 86400000000000 ≤ s.clk.ns ∧ 4 * x.rate ≤ s.house.pfthr.toNat then
    .next (s.mapDomain d.toNat fun x => { x with offs := x.offs + 10, quietSince := s.clk.ns })
  else .next s

/-- ERROR_RATE_CROSSING: back to nominal with a re-measurement, or PF at nominal. -/
def execErrorRateCrossing (d : BitVec 6) (s : State) : Out :=
  let x := s.domain d.toNat
  let above := decide (s.house.pfthr.toNat < x.rate)
  if 0 < x.offs ∧ (above ∨ x.sdc) then
    .next (s.mapDomain d.toNat fun x => { x with offs := 0, meas := true, measSince := s.clk.ns, measErrs := 0, crossings := x.crossings + 1, sdc := false })
  else if x.offs = 0 ∧ !x.meas ∧ above then .next (s.mapDomain d.toNat fun x => { x with pf := true, sdc := false })
  else .next (s.mapDomain d.toNat fun x => { x with sdc := false })

/-- REMEASURE_END: after 10 minutes, RATE is 6 times the errors counted. -/
def execRemeasureEnd (d : BitVec 6) (s : State) : Out :=
  let x := s.domain d.toNat
  if !x.meas ∨ s.clk.ns < x.measSince + 600000000000 then .next s
  else
    let rate := 6 * x.measErrs
    let high := decide (s.house.pfthr.toNat < rate)
    .next (s.mapDomain d.toNat fun x => { x with meas := false, rate := rate, errs := [], quietSince := s.clk.ns, pf := x.pf || high, hold := x.hold || !high
                                                 holdUntil := s.clk.ns + 604800000000000, holdForever := x.holdForever || decide (2 ≤ x.crossings) })

/-- HOLD_EXPIRY: after 7 days, unless a second crossing holds the domain for good. -/
def execHoldExpiry (d : BitVec 6) (s : State) : Out :=
  let x := s.domain d.toNat
  if x.hold ∧ !x.holdForever ∧ x.holdUntil ≤ s.clk.ns then .next (s.mapDomain d.toNat fun x => { x with hold := false, quietSince := s.clk.ns }) else .next s

/-! ### Boot (R467, R468) -/

/-- The first check that an image of a stage fails, as ERR codes it; 0 when it is accepted. -/
def imageErr (stage minSvn : Nat) (img : List Byte) : Byte :=
  let key := (img.drop 0x60).take 1793
  let zero (o n : Nat) : Bool := ((img.drop o).take n).all (· == 0)
  if img.length < 0x1000 ∨ img.length < 0x1000 + numAt img 0 8 then 6
  else if Config.shake256 key 32 ≠ Config.rootDigest then 1
  else if !Config.falconVerify key (Config.shake256 (img.take 0x768) 64) ((img.drop 0x768).take 1280) then 2
  else if (img.drop 0x20).take 64 ≠ Config.shake256 ((img.drop 0x1000).take (numAt img 0 8)) 64 then 3
  else if numAt img 0xC 4 < minSvn then 4
  else if numAt img 8 4 ≠ stage ∨ fld (numAt img 0x10 4) 31 1 ≠ 0 ∨ !zero 0x14 12 ∨ !zero 0x761 7 ∨ !zero 0xC68 920 then 5
  else 0

/-- How far the boot has come: the state of the records, and the images accepted. -/
structure Boot where
  house : House
  accepted : List (Nat × List Byte)
  stopped : Bool

/-- One stage: slot A, then slot B. -/
def Boot.stage (b : Boot) (n : Nat) : Boot :=
  if b.stopped then b
  else
    let slots := [b.house.images.getD (2 * (n - 1)) [], b.house.images.getD (2 * (n - 1) + 1) []]
    let errs := slots.map (imageErr n (vget b.house.minSvn (n - 1) 0).toNat)
    let fail (h : House) (e : Byte) : House := if h.bootErr = 0 then { h with bootErr := e } else h
    let take (h : House) (img : List Byte) : Boot :=
      { b with accepted := b.accepted ++ [(n, img)]
               house := { h with bootStage := BitVec.ofNat 4 n, svn := vset h.svn (n - 1) (BitVec.ofNat 32 (numAt img 0xC 4))
                                 measure := Config.shake256 (h.measure ++ (img.drop 0x20).take 64) 64 } }
    match errs, slots with
    | [ea, eb], [a, c] =>
      if ea = 0 then take b.house a
      else if eb = 0 then take (fail b.house ea) c
      else { b with house := fail b.house ea, stopped := true }
    | _, _ => { b with stopped := true }

/-- The boot of R467 from reset: READY when every stage is accepted; then images with RAISE raise the minimum of their own stage. -/
def House.boot (h : House) : House :=
  let h : House := { h with bootStage := 0, bootReady := false, bootErr := 0, measure := List.replicate 64 0, svn := Vector.replicate 3 0 }
  let b := [1, 2, 3].foldl Boot.stage ⟨h, [], false⟩
  if b.stopped then b.house
  else
    let raise (h : House) (x : Nat × List Byte) : House :=
      let svn := BitVec.ofNat 32 (numAt x.2 0xC 4)
      if fld (numAt x.2 0x10 4) 0 0 = 1 ∧ (vget h.minSvn (x.1 - 1) 0).toNat < svn.toNat then { h with minSvn := vset h.minSvn (x.1 - 1) svn } else h
    b.accepted.foldl raise { b.house with bootReady := true }

/-- BOOTSTAT as it reads. -/
def House.bootstat (h : House) : Word := w64 (h.bootErr.toNat * 2 ^ 8 + (if h.bootReady then 16 else 0) + h.bootStage.toNat)

/-! ### Reset and power (R464, R465, R470) -/

/-- What outlasts a reset of the device: the records, HOLD and PF, the images and the fused minima. The 24 h of R466 begin anew. -/
def House.kept (h : House) (now : Nat) : House :=
  { counts := h.counts, stored := h.stored, images := h.images, minSvn := h.minSvn, hourAt := h.hourAt, sampledAt := h.sampledAt
    domains := h.domains.map fun (d : Domain) => { hold := d.hold, holdForever := d.holdForever, holdUntil := d.holdUntil, pf := d.pf, crossings := d.crossings, quietSince := now } }

/-- The machine after a reset: every register at its reset value; host memory, the records and the time go on. Writes on their way to a host
arrive. -/
def State.cleared (s : State) (house : House) : State :=
  let m := s.mem.flushHost
  { State.reset with house := house, mem := { ram := m.ram.filter fun c => decide (2 ^ 64 ≤ c.1), bad := m.bad.filter fun x => decide (2 ^ 56 ≤ x)
                                              hostHold := m.hostHold, hostDead := m.hostDead }
                     clk := { ns := s.clk.ns, cyc := s.clk.cyc }, agenda := s.agenda, free := s.free }

/-- DEVICE_RESET: the device is reset, and the boot stages run (R467). -/
def execDeviceReset (s : State) : Out := .next (s.cleared (s.house.kept s.clk.ns).boot)

/-- ORDERLY_POWER_DOWN (R464). -/
def execOrderlyPowerDown (s : State) : Out := let s := s.flushCounts; .next (s.cleared { s.house.kept s.clk.ns with powered := false })

/-- POWER_LOSS: counts that were not written are lost (R464). -/
def execPowerLoss (s : State) : Out := .next (s.cleared { s.house.kept s.clk.ns with counts := s.house.stored, powered := false })

/-- A host port enters or leaves D3hot (R470). -/
def State.setD3 (s : State) (m : Master) (on : Bool) : State :=
  match masterPort m with
  | some p => { s with house := { s.house with d3hot := vset s.house.d3hot p on } }
  | none => s

/-- D3HOT_ENTRY. -/
def execD3hotEntry (m : Master) (s : State) : Out := .next (s.setD3 m true)

/-- D0_ENTRY. -/
def execD0Entry (m : Master) (s : State) : Out := .next (s.setD3 m false)

/-- CLOCK_THROTTLE: the controller sets the core clock, in MHz, up to the nominal 1400; it never stops it (R31, R32). -/
def execClockThrottle (mhz : BitVec 16) (s : State) : Out :=
  if 0 < mhz.toNat ∧ mhz.toNat ≤ 1400 then .next { s with house := { s.house with mhz := mhz } } else .next s

/-! ### Attestation (R469) -/

/-- Exactly n bytes. -/
def fitTo (n : Nat) (bs : List Byte) : List Byte := (bs ++ List.replicate n 0).take n

/-- The quote. -/
def House.quote (h : House) : List Byte :=
  let head := fitTo 64 h.measure ++ leBytes 32 h.nonce.toNat ++ (h.svn.toList.map fun x => leBytes 4 x.toNat).flatten ++ [0, 0, 0, 0]
    ++ fitTo 1793 Config.identityKey ++ List.replicate 7 0
  head ++ fitTo 1280 (Config.identitySign (Config.shake256 head 64))

/-- A write of ATTCTL: GO writes the quote and the certificate, then DONE or ERR is set. -/
def State.writeAttctl (s : State) (v : Word) : State :=
  if !bt v 0 then s
  else
    let a := s.house.attbuf.toNat
    let bytes := fitTo 0x1000 s.house.quote ++ Config.identityCert
    let done (n : BitVec 3) (s : State) : State := { s with house := { s.house with attctl := n } }
    if !dpaOk a ∨ !dpaOk (a + bytes.length - 1) ∨ s.mem.failed.contains (8 + dpaDie a) then done 4 s
    else done 2 { s with mem := (s.mem.putRaw a s.house.quote).putRaw (a + 0x1000) Config.identityCert }

/-- ATTEST_GO (R469). -/
def execAttestGo (m : Master) (v : Word) (s : State) : Out := s.byHolder m (s.writeAttctl v)

end Sys2Proof.Machine
end

