-- ==== Sys2Proof/Machine/Registers.lean ====
section
/-! DEFINITION. The register block as a whole: what each offset reads and what a write of it does, writes of registers without a row of their
own, and the management interface (R9, R28, R58, R62, R282, R363, R416, R440, R450, R462). -/

namespace Sys2Proof.Machine

/-- OWNER as it reads (R59). -/
def Owner.word (o : Owner) : Word := w64 (o.epoch.toNat * 2 ^ 32 + (if o.lapsed then 256 else 0) + masterCode o.holder)

/-- DBGSTAT and DBGWIN as they read (R443, R444). -/
def State.dbgstat (s : State) : Word :=
  w64 ((if s.dbg.busy then 2 ^ 63 else 0) + s.dbg.res.toNat * 2 ^ 48 + (if s.dbg.mix then 2 ^ 47 else 0) + (if s.dbg.xm then 2 ^ 46 else 0)
    + ((s.dbgTarget).map (·.icnt)).getD 0)

/-- The Retriever state of the job that DBGCTL.CTX selects. -/
def State.dbgRetr (s : State) : Retr := ((s.jobOf (BitVec.ofNat 16 (bf s.dbg.ctl 15 0))).map (·.retr)).getD {}

/-- TRCSTAT as it reads. -/
def Trace.stat (t : Trace) : Word := w64 ((if t.open_ then 2 ^ 63 else 0) + (if t.trunc then 2 ^ 62 else 0) + t.lost)

/-- Registers below 0x400, by offset. DESIGN CHOICE: without a holder, HEARTBEAT counts from the release that left none, or from reset (R61). -/
def State.readLow (s : State) (off : Nat) : Option Word :=
  match off with
  | 0x000 => some s.owner.word
  | 0x008 => some (w64 (min (2 ^ 32 - 1) ((s.clk.ns - s.owner.beat) / 1000000)))
  | 0x010 => some (w64 s.owner.drops)
  | 0x100 => some (w64 (s.mem.rtErrIdx.toNat * 2 ^ 16 + (if s.mem.rtErr then 256 else 0) + (if s.mem.committing then 1 else 0)))
  | 0x108 => some (s.mem.gen.setWidth 64)
  | 0x110 => some s.mem.xinva
  | 0x118 => some s.mem.xinvc
  | 0x120 => some (if s.mem.mstatErr then 2 else 0)
  | 0x128 => some s.mem.bufv
  | 0x130 => some s.mem.vssbase
  | 0x138 => some s.mem.vsscfg
  | 0x300 => some s.fab.podcfg
  | 0x308 => some s.fab.qptab
  | _ =>
    if 0x140 ≤ off ∧ off < 0x1A0 then some ((s.link ((off - 0x140) / 8)).idle.setWidth 64)
    else if 0x200 ≤ off ∧ off < 0x240 then
      let p := (vget s.mem.poolcfg ((off - 0x200) / 16) 0).toNat
      some (if off % 16 = 0 then w64 (p % 2 ^ 64) else w64 (p / 2 ^ 64))
    else none

/-- Registers of the debugger, the trace unit and the housekeeping. -/
def State.readHigh (s : State) (off : Nat) : Option Word :=
  match off with
  | 0x600 => some s.dbg.ctl
  | 0x608 => some s.dbg.cmd
  | 0x610 => some s.dbgstat
  | 0x618 => some (w64 (s.dbgRetr.whigh * 2 ^ 32 + s.dbgRetr.wlow))
  | 0x620 => some s.dbg.trap
  | 0x628 => some s.dbg.sel
  | 0x630 => some s.readDbgdata
  | 0x700 => some s.trc.base
  | 0x708 => some s.trc.cfg
  | 0x710 => some (w64 s.trc.tail)
  | 0x718 => some s.trc.stat
  | 0x800 => some s.house.ltsel
  | 0x808 => some (w64 (kvGet s.house.counts (bf s.house.ltsel 23 0)))
  | 0x810 => some (s.house.pfthr.setWidth 64)
  | 0x818 => some s.house.bootstat
  | 0x820 => some (s.house.attctl.setWidth 64)
  | 0x848 => some s.house.attbuf
  | _ =>
    if 0x640 ≤ off ∧ off < 0x680 then
      some (w64 (vget (if off % 16 = 0 then s.dbgRetr.head else s.dbgRetr.tail) ((off - 0x640) / 16) 0))
    else if 0x828 ≤ off ∧ off < 0x848 then some (w64 (s.house.nonce.toNat / 2 ^ (8 * (off - 0x828)) % 2 ^ 64))
    else if 0x900 ≤ off ∧ off < 0x900 + 8 * 37 then some (s.domain ((off - 0x900) / 8)).stat
    else none

/-- The fields of the words of a region-table entry (R283): the others read zero (R9); a commit refuses an entry in which one of them was
written (R285). -/
def rteBits (hi : Bool) : Word := if hi then 0xFFFFFF93 else 0xF0FFFFFFC3FFFFFF

/-- The register at a byte offset, none where the block has none (R9). -/
def State.readReg (s : State) (off : Nat) : Option Word :=
  if off % 8 ≠ 0 then none
  else if off < 0x400 then s.readLow off
  else if off < 0x460 then
    let e := (off - 0x400) / 0x20
    match off % 0x20 with
    | 0 => some (vget s.fab.ethmac e 0)
    | 8 => some (w64 ((vget s.fab.ethip e 0).toNat % 2 ^ 64))
    | 16 => some (w64 ((vget s.fab.ethip e 0).toNat / 2 ^ 64))
    | _ => none
  else if off < 0x1000 then s.readHigh off
  else if off < 0x1200 then
    let x := s.queue ((off - 0x1000) / 0x40)
    match off % 0x40 with
    | 0x00 => some x.sqbase
    | 0x08 => some x.sqcfg
    | 0x10 => some x.tail
    | 0x18 => some x.head
    | 0x20 => some x.stat
    | 0x28 => some x.cqbase
    | _ => none
  else if 0x2000 ≤ off ∧ off < 0x3000 then
    let e := vget s.mem.staged ((off - 0x2000) / 16) {}
    some (if off % 16 = 0 then e.w0 &&& rteBits false else e.w1 &&& rteBits true)
  else if 0x3000 ≤ off ∧ off < 0x3200 then some (vget s.fab.ports ((off - 0x3000) / 8) {}).stat
  else none

/-- Half i of a 128-bit value replaced. -/
def setHalf (x : BitVec 128) (i : Nat) (v : Word) : BitVec 128 :=
  if i = 0 then BitVec.ofNat 128 (x.toNat / 2 ^ 64 * 2 ^ 64 + v.toNat) else BitVec.ofNat 128 (v.toNat * 2 ^ 64 + x.toNat % 2 ^ 64)

/-- Doubleword i of a 256-bit value replaced. -/
def setQuarter (x : BitVec 256) (i : Nat) (v : Word) : BitVec 256 :=
  BitVec.ofNat 256 (leNat (putAt (leBytes 32 x.toNat) (8 * i) (leBytes 8 v.toNat)))

/-- Writes below 0x400 by the holder. -/
def State.writeLow (s : State) (off : Nat) (v : Word) : State :=
  match off with
  | 0x008 => s.heartbeat
  | 0x100 => s.writeRtctl v
  | 0x110 => { s with mem := { s.mem with xinva := v } }
  | 0x118 => s.writeXinvc v
  | 0x128 => s.writeBufv v
  | 0x130 => s.writeVssbase v
  | 0x138 => s.writeVsscfg v
  | 0x300 => s.writePodcfg v
  | 0x308 => { s with fab := { s.fab with qptab := v &&& 0xFFFFFFFFFFFFF000 } }
  | _ => if 0x200 ≤ off ∧ off < 0x240 then s.writePoolcfg ((off - 0x200) / 16) (off % 16 != 0) v else s

/-- Writes of the debugger, the trace unit and the housekeeping by the holder. -/
def State.writeHigh (s : State) (off : Nat) (v : Word) : State :=
  match off with
  | 0x600 => s.writeDbgctl v
  | 0x608 => s.writeDbgcmd v
  | 0x620 => { s with dbg := { s.dbg with trap := v &&& 0xFFFFE } }
  | 0x628 => { s with dbg := { s.dbg with sel := v &&& 0x8000000000000FFF } }
  | 0x630 => s.writeDbgdata v
  | 0x700 => s.writeTrcbase v
  | 0x708 => s.writeTrccfg v
  | 0x800 => { s with house := { s.house with ltsel := v &&& 0xFFFFFF } }
  | 0x810 => { s with house := { s.house with pfthr := v.setWidth 32 } }
  | 0x820 => s.writeAttctl v
  | 0x848 => { s with house := { s.house with attbuf := v &&& 0xFFFFFFFFFFFFF000 } }
  | _ =>
    if 0x828 ≤ off ∧ off < 0x848 then { s with house := { s.house with nonce := setQuarter s.house.nonce ((off - 0x828) / 8) v } }
    else if 0x900 ≤ off ∧ off < 0x900 + 8 * 37 then s.mapDomain ((off - 0x900) / 8) fun x => { x with uven := bt v 0 }
    else s

/-- What a write of the register at an offset does when its master may write it; a register that is only read stays. -/
def State.writeReg (s : State) (off : Nat) (v : Word) : State :=
  if off < 0x400 then s.writeLow off v
  else if off < 0x460 then
    let e := (off - 0x400) / 0x20
    match off % 0x20 with
    | 0 => { s with fab := { s.fab with ethmac := vset s.fab.ethmac e (v &&& 0x0000FFFFFFFFFFFF) } }
    | 8 => { s with fab := { s.fab with ethip := vset s.fab.ethip e (setHalf (vget s.fab.ethip e 0) 0 v) } }
    | 16 => { s with fab := { s.fab with ethip := vset s.fab.ethip e (setHalf (vget s.fab.ethip e 0) 1 v) } }
    | _ => s
  else if off < 0x1000 then s.writeHigh off v
  else if off < 0x1200 then
    let q := (off - 0x1000) / 0x40
    match off % 0x40 with
    | 0x00 => s.writeRing q false v
    | 0x08 => s.writeSqcfg q v
    | 0x10 => s.writeSqtail q v
    | 0x28 => s.writeRing q true v
    | _ => s
  else if 0x2000 ≤ off ∧ off < 0x3000 then
    let n := (off - 0x2000) / 16
    let e := vget s.mem.staged n {}
    if s.mem.committing then s
    else { s with mem := { s.mem with staged := vset s.mem.staged n (if off % 16 = 0 then { e with w0 := v } else { e with w1 := v }) } }
  else s

/-- A write of any register by master m (R17, R60, R62). A write at an offset that names no register has no effect (R9). -/
def State.writeBy (s : State) (m : Master) (off : Nat) (v : Word) : Out :=
  if (s.readReg off).isNone then .next s
  else if off = 0 then execOwnerWrite m v s
  else if 0x140 ≤ off ∧ off < 0x1A0 then execLinkidleWrite m (BitVec.ofNat 4 ((off - 0x140) / 8)) v s
  else s.byHolder m (s.writeReg off v)

/-- REGISTER_WRITE: a write of a register without a row of its own (R62). -/
def execRegisterWrite (m : Master) (off : BitVec 14) (v : Word) (s : State) : Out := s.writeBy m off.toNat v

/-! ### The management interface (R28) -/

/-- The offset that a private write of n bytes with a third byte c names: none when the write is to be ignored. -/
def i3cOff (bytes : List Byte) (n : Nat) (c : Byte) : Option (BitVec 14) :=
  let off := numAt bytes 0 2
  if bytes.length = n ∧ bytes[2]? = some c ∧ off % 8 = 0 ∧ off < 0x4000 then some (BitVec.ofNat 14 off) else none

/-- A private write of three bytes selects the register that a private read returns; any other that is no register write is ignored,
and a read after it returns bytes of 0xFF. -/
def State.i3cSelect (s : State) (bytes : List Byte) : State :=
  match i3cOff bytes 3 0 with
  | none => { s with i3c := { s.i3c with sel := none, out := List.replicate 8 0xFF } }
  | some off => { s with i3c := { s.i3c with sel := some off, out := leBytes 8 ((s.readReg off.toNat).getD 0).toNat } }

/-- I3C_REGISTER_WRITE: a private write; the controller performs that of a register as its own. DESIGN CHOICE: a private read that follows the
write of a register returns what the selection before it left; R28 gives such a read no meaning. -/
def execI3cRegisterWrite (bytes : List Byte) (s : State) : Out :=
  match i3cOff bytes 11 1 with
  | some off => s.writeBy .mc off.toNat (w64 (numAt bytes 3 8))
  | none => .next (s.i3cSelect bytes)

/-- I3C_REGISTER_READ: a private write that selects a register, then a private read of its value (R9). -/
def execI3cRegisterRead (bytes : List Byte) (s : State) : Out := .next (s.i3cSelect bytes)

/-- I3C_DYNAMIC_ADDRESS. -/
def execI3cDynamicAddress (addr : BitVec 7) (s : State) : Out := .next { s with i3c := { s.i3c with addr := addr, dynamic := true } }

end Sys2Proof.Machine
end

