-- ==== Sys2Proof/Machine/Remote.lean ====
section
/-! DEFINITION. Messages and links of the fabric: requests of other devices, notices and the replica, flits, training (R363 to R375). -/

namespace Sys2Proof.Machine

/-! ### Requests and answers (R370, R372, R373) -/

/-- ATOMIC: an atomic, CAS or SIGNAL, which wakes on the device of its word what a SIGNAL there wakes (R175); a poisoned old value is returned as such, and nothing is written (R372). -/
def State.serveAtomic (s : State) (msg : Msg) : State :=
  let opc := numAt msg.body 0x0A 1
  s.serve msg fun r va n s => match s.memAtomic r va opc n (w64 (numAt msg.body 0x10 8)) (w64 (numAt msg.body 0x18 8)) 0 with
    | .ok old s' => .ok (false, 0, leBytes 8 old) (if opc = 0x3A then s'.signalled msg.ctx va else s')
    | .trap c s' => match s.find r va .both with
      | .dead => .trap c s'
      | _ => match if c = cPOISON then s.memRead r va n .both else .trap c s' with
        | .ok (bs, _) s' => .ok (true, 0, bs ++ List.replicate (8 - n) 0) s'
        | .trap c s' => .trap c s'
        | .wait s' => .wait s'
    | .wait s' => .wait s'

/-- READ (R372). -/
def execReadMsg (msg : Msg) (s : State) : Out := .next (s.deliver 0x01 msg (·.serveRead msg))
/-- WRITE (R372). -/
def execWriteMsg (msg : Msg) (s : State) : Out := .next (s.deliver 0x02 msg (·.serveWrite msg))
/-- ATOMIC (R372). -/
def execAtomicMsg (msg : Msg) (s : State) : Out := .next (s.deliver 0x03 msg (·.serveAtomic msg))
/-- ADD (R372). -/
def execAddMsg (msg : Msg) (s : State) : Out := .next (s.deliver 0x04 msg (·.serveAdd msg))
/-- RESPONSE (R372). -/
def execResponseMsg (msg : Msg) (s : State) : Out := .next (s.deliver 0x05 msg (·.takeResponse msg))
/-- ADMIT (R369, R373). -/
def execAdmitMsg (msg : Msg) (s : State) : Out := .next (s.deliver 0x10 msg (·.takeAdmit msg))
/-- ADMITANS (R369, R373). -/
def execAdmitansMsg (msg : Msg) (s : State) : Out := .next (s.deliver 0x11 msg (·.takeAdmitans msg))

/-! ### Notices (R375) -/

/-- Ports that are up or degraded. -/
def State.livePorts (s : State) : List Nat := (List.range 64).filter fun n => linkCarries (vget s.fab.ports n {}).stat

/-- Originates a notice with this device's own entries. -/
def State.originate (s : State) : State :=
  if !s.inPod then s
  else
    let seq := s.fab.noticeSeq + 1
    let hub := s.clk.hub + 1
    let body := leBytes 4 seq.toNat ++ leBytes 4 0 ++ ((s.fab.ports.toList.map fun p => leBytes 8 p.stat.toNat).flatten)
    let s' := { s with fab := { s.fab with noticeSeq := seq, noticeAt := s.clk.ns }, clk := { s.clk with hub := hub } }
    s'.emit 0x12 ⟨s.dev, 0, 0, 0, hub, body⟩ s'.livePorts

/-- NOTICE_ORIGINATE: every 10 ms in any case (R375). -/
def execNoticeOriginate (s : State) : Out := if s.fab.noticeAt + 10000000 ≤ s.clk.ns then .next s.originate else .next s

/-- Messages that wait in the hub for a route are sent by the routes now known (R370). -/
def State.reroute (s : State) : State :=
  s.fab.stranded.foldl (fun s x => s.send x.1 x.2) { s with fab := { s.fab with stranded := [] } }

/-- What the hub does when its replica or its own links have changed: messages find new routes, and the trees in use are looked at (R370, R377). -/
def State.mapChanged (s : State) : State := (s.reroute.checkTrees).quiesce

/-- This device originated the notice. -/
def State.originated (s : State) (msg : Msg) : Bool := s.fab.out.any fun x => x.mt == 0x12 && x.msg == msg

/-- A notice arrives by a port: a newer one replaces the row and is forwarded; one under this device's own number that this device
did not originate sets DUP (R363, R375). -/
def State.takeNotice (s : State) (msg : Msg) (port : Option Nat) : State :=
  if !bt s.fab.podcfg 63 || !msgOk 0x12 msg then s
  else
    let s := s.hubHears msg.stamp
    let seq := BitVec.ofNat 32 (numAt msg.body 0 4)
    if msg.sdev = s.dev then
      if s.originated msg then s else { s with fab := { s.fab with podcfg := s.fab.podcfg ||| 0x200 } }
    else
      let newer := match s.fab.replica.find? (·.dev = msg.sdev) with
        | some r => decide (r.seq < seq)
        | none => true
      if !newer then s
      else
        let row : Row := { dev := msg.sdev, seq := seq, entries := (numsOf 8 64 (msg.body.drop 8)).map w64, at_ := s.clk.ns }
        let s := { s with fab := { s.fab with replica := row :: s.fab.replica.filter (·.dev ≠ msg.sdev) } }
        (s.emit 0x12 msg (s.livePorts.filter fun n => some n ≠ port)).mapChanged

/-- NOTICE (R375). DEDUCED: it arrived by one of the live ports; which one is a free value. -/
def execNoticeMsg (msg : Msg) (s : State) : Out :=
  match s.livePorts with
  | [] => .next (s.takeNotice msg none)
  | ps => .next ({ s with free := s.free + 1 }.takeNotice msg (ps[Config.freeChoice s.free % ps.length]?))

/-- ROW_STALE: a row with no new notice for 50 ms is taken as all down (R375). -/
def execRowStale (dev : BitVec 9) (s : State) : Out :=
  match s.fab.replica.find? (·.dev = dev) with
  | some r => if r.at_ + 50000000 ≤ s.clk.ns then .next s.mapChanged else .next s
  | none => .next s

/-! ### Link states (R366, R367) -/

def State.port (s : State) (n : Nat) : Port := vget s.fab.ports n {}

def State.setPort (s : State) (n : Nat) (p : Port) : State := { s with fab := { s.fab with ports := vset s.fab.ports n p } }

/-- STATE of a port's link. -/
def Port.state (p : Port) : Nat := bf p.stat 33 32

/-- A port's entry changes: PORTSTAT is set, and a notice goes out (R367, R375). -/
def State.relink (s : State) (n : Nat) (p : Port) : State := (s.setPort n p).originate.mapChanged

/-- A link entry with another STATE. -/
def withLinkState (e : Word) (st : Nat) : Word := (e &&& 0xFFFFFFFCFFFFFFFF) ||| w64 (st * 2 ^ 32)

/-- The link goes to training. -/
def State.toTraining (s : State) (n : Nat) : State :=
  let p := s.port n
  let s := s.life 4 (12 + n)
  s.relink n { p with stat := withLinkState p.stat 1, attempts := 0, since := s.clk.ns, naks := 0 }

/-- The peer takes the link to training: the two ends agree on its state (R367). -/
def State.peerTrains (s : State) (n : Nat) : State := if (s.port n).state = 1 ∨ 64 ≤ n then s else s.toTraining n

/-- The link goes down: what it had not delivered returns to the hub for routing (R366). -/
def State.toDown (s : State) (n : Nat) : State :=
  let p := s.port n
  let back := (p.unacked.map fun x => (x.1, x.2.1)) ++ p.queue
  let s := s.relink n { p with stat := withLinkState p.stat 0, since := s.clk.ns, unacked := [], unsent := 0, queue := [], rx := [], txSeq := p.txSeq - BitVec.ofNat 12 p.pending, paused := false }
  (back.filter (·.1 ≠ 0x12)).foldl (fun s x => s.send x.1 x.2) s

/-- One attempt of the training under way failed (R367). -/
def State.attemptFails (s : State) (n : Nat) : State :=
  let p := s.port n
  if 3 ≤ p.attempts + 1 then s.toDown n else s.setPort n { p with attempts := p.attempts + 1, since := s.clk.ns }

/-- Sends again, in order, the flits of a port that were sent and are not acknowledged (R366). -/
def State.resendFlits (s : State) (n : Nat) : State :=
  let p := s.port n
  let base := p.txSeq - BitVec.ofNat 12 p.pending
  (List.range p.pending).foldl (fun s i => let f := flitAt p.unacked i; s.sendFlit n (base + 1 + BitVec.ofNat 12 i) f.1 f.2) s

/-- ACK_TIMEOUT: 20 µs with flits unacknowledged and no advance of ACK (R366). -/
def execAckTimeout (port : BitVec 6) (s : State) : Out :=
  let p := s.port port.toNat
  if linkCarries p.stat ∧ p.pending ≠ 0 ∧ p.ackAt + 20000 ≤ s.clk.ns then .next (s.toTraining port.toNat) else .next s

/-- LINK_TRAINED: an attempt ends with so many lanes and this round trip (R364, R367, R368). Held flits are sent again, then new ones (R366). -/
def execLinkTrained (port : BitVec 6) (t : Trained) (s : State) : Out :=
  let n := port.toNat
  let p := s.port n
  if p.state ≠ 1 then .next s
  else if t.rttNs ≤ 8000 ∧ (t.lanes = 1 ∨ t.lanes = 2) then
    let e := w64 (min 65535 (t.rttNs / 2) * 2 ^ 48 + (t.lanes + 1) * 2 ^ 32 + 2 ^ 31 + t.pport.toNat * 2 ^ 16 + t.pdev.toNat)
    let s := s.setPort n { p with rtt := t.rttNs, ackAt := s.clk.ns }
    let s := State.pump n pumpFuel ((s.setPort n { s.port n with stat := e, attempts := 0, since := s.clk.ns, naks := 0 }).resendFlits n)
    .next (s.relink n (s.port n))
  else .next (s.attemptFails n)

/-- TRAINING_ATTEMPT_TIMEOUT: an attempt takes at most 5 ms (R367). -/
def execTrainingAttemptTimeout (port : BitVec 6) (s : State) : Out :=
  let p := s.port port.toNat
  if p.state = 1 ∧ p.since + 5000000 ≤ s.clk.ns then .next (s.attemptFails port.toNat) else .next s

/-- LINK_DOWN_RETRY: the hub retries once every second (R367). -/
def execLinkDownRetry (port : BitVec 6) (s : State) : Out :=
  let p := s.port port.toNat
  if p.state = 0 ∧ p.since + 1000000000 ≤ s.clk.ns then .next (s.toTraining port.toNat) else .next s

/-! ### Flits (R365, R366, R368, R371) -/

/-- A message taken by its type. -/
def State.takeMsg (s : State) (mt : Byte) (msg : Msg) (port : Nat) : State :=
  match mt.toNat with
  | 0x01 => s.deliver mt msg (·.serveRead msg)
  | 0x02 => s.deliver mt msg (·.serveWrite msg)
  | 0x03 => s.deliver mt msg (·.serveAtomic msg)
  | 0x04 => s.deliver mt msg (·.serveAdd msg)
  | 0x05 => s.deliver mt msg (·.takeResponse msg)
  | 0x10 => s.deliver mt msg (·.takeAdmit msg)
  | 0x11 => s.deliver mt msg (·.takeAdmitans msg)
  | 0x12 => s.takeNotice msg (some port)
  | n => if 0x20 ≤ n ∧ n ≤ 0x2A then s.collMsg mt msg else s

/-- The message at the start of these payload bytes, once whole; none when a reserved field of the header is nonzero (R371). -/
def parseMsg (bs : List Byte) : Option (Byte × Msg) :=
  let n (off k : Nat) : Nat := numAt bs off k
  if n 1 1 ≠ 0 ∨ fld (n 2 2) 15 9 ≠ 0 ∨ fld (n 4 2) 15 9 ≠ 0 ∨ n 0x0C 4 ≠ 0 then none
  else some (BitVec.ofNat 8 (n 0 1), ⟨BitVec.ofNat 9 (n 2 2), BitVec.ofNat 9 (n 4 2), BitVec.ofNat 16 (n 6 2), w64 (n 0x10 8), w64 (n 0x18 8), (bs.drop 32).take (n 8 4)⟩)

/-- The peer acknowledges flits up to ACK: n of the oldest messages' flits are done. -/
def dropFlits : Nat → List (Byte × Msg × Nat) → List (Byte × Msg × Nat)
  | _, [] => []
  | n, (mt, m, k) :: t => if n = 0 then (mt, m, k) :: t else if k ≤ n then dropFlits (n - k) t else (mt, m, k - n) :: t

/-- ACK, NAK and PAUSE of a flit that arrived whole (R366, R368). DEDUCED: NAKs are in a row that name one SEQ with no advance of ACK between
them. -/
def State.heedFlit (s : State) (n : Nat) (h : Word) : State :=
  let p := s.port n
  let ack : BitVec 12 := BitVec.ofNat 12 (bf h 51 40)
  let base := p.txSeq - BitVec.ofNat 12 p.pending
  let k := (ack - base).toNat
  let news := decide (0 < k ∧ k ≤ p.pending)
  let p := if news then { p with unacked := dropFlits k p.unacked, ackAt := s.clk.ns, naks := 0 } else p
  let p := { p with paused := bt h 38 }
  let nak := bt h 39
  let p := if nak then { p with naks := if p.nakSeq = ack then p.naks + 1 else 1, nakSeq := ack } else p
  let s := s.setPort n p
  if nak ∧ 16 ≤ p.naks then s.toTraining n
  else State.pump n pumpFuel (if nak then s.resendFlits n else s)

/-- The payload of an accepted flit joins its message, which is taken once whole: one whose type travels in other flits is discarded (R371). -/
def State.takePayload (s : State) (n : Nat) (type : Byte) (payload : List Byte) : State :=
  let p := s.port n
  let rx := if p.rx.isEmpty ∨ p.rxType = type then p.rx ++ payload else payload
  let flits := (32 + numAt rx 8 4 + 239) / 240
  if rx.length < 240 * flits then s.setPort n { p with rx := rx, rxType := type }
  else
    let s := s.setPort n { p with rx := [], rxType := 0 }
    match parseMsg rx with
    | some (mt, msg) => if flitType mt = type then s.takeMsg mt msg n else s
    | none => s

/-- The hub takes what lies in a port's receive buffer, unless it is busy (R368). -/
def State.emptyBuffer (s : State) (n : Nat) : State :=
  let p := s.port n
  if p.busy then s else p.buf.foldl (fun s x => s.takePayload n x.1 x.2) (s.setPort n { p with buf := [] })

/-- The hub takes nothing from a port's receive buffer, or takes it again; the peer is told in an idle flit (R366, R368). -/
def State.hubBusy (s : State) (n : Nat) (on : Bool) : State :=
  if 64 ≤ n then s
  else
    let s := (s.setPort n { s.port n with busy := on }).emptyBuffer n
    if linkCarries (s.port n).stat then s.sendIdle n else s

/-- A port with nothing to send sends an idle flit (R366). -/
def State.idleFlit (s : State) (n : Nat) : State := if 64 ≤ n ∨ !linkCarries (s.port n).stat then s else s.sendIdle n

/-- A flit is discarded: NAK goes to the peer, with the last SEQ accepted (R366). -/
def State.discardFlit (s : State) (n : Nat) : State := (s.setPort n { s.port n with nak := true }).sendIdle n

/-- An accepted flit lies in the receive buffer, and its ACK goes to the peer with the flits that a port has to send, or in an idle flit (R366). -/
def State.acceptFlit (s : State) (n : Nat) (h : Word) (type : Byte) (seq : BitVec 12) (payload : List Byte) : State :=
  let p := s.port n
  let s1 := (s.setPort n { p with rxSeq := seq, buf := p.buf ++ [(type, payload)] }).heedFlit n h
  let s2 := s1.emptyBuffer n
  let sent (x : State) : Nat := (x.fab.wire.filter (·.1 = n)).length
  if linkCarries (s2.port n).stat ∧ sent s2 = sent s then s2.sendIdle n else s2

/-- FLIT_ACCEPT (R366). -/
def execFlitAccept (port : BitVec 6) (bytes : List Byte) (s : State) : Out :=
  let n := port.toNat
  let p := s.port n
  let h := w64 (numAt bytes 0 8)
  let type := bf h 37 34
  let seq : BitVec 12 := BitVec.ofNat 12 (bf h 63 52)
  if !linkCarries p.stat then .next s
  else if bytes.length ≠ 256 ∨ crc64 (bytes.take 248) ≠ w64 (numAt bytes 248 8) ∨ 3 ≤ type then .next (s.discardFlit n)
  else if type = 0 then .next (s.heedFlit n h)
  else if seq ≠ p.rxSeq + 1 then .next (s.discardFlit n)
  else .next (s.acceptFlit n h (BitVec.ofNat 8 type) seq ((bytes.drop 8).take 240))

end Sys2Proof.Machine
end

