-- ==== Sys2Proof/Machine/ScalarAlu.lean ====
section
/-! DEFINITION. Scalar register arithmetic: ALU-R, the immediate forms and the constant builders (R155 to R160). -/

namespace Sys2Proof.Machine

/-- A scalar instruction that only computes: it waits as R127 says, writes its result and completes. -/
def State.alu (s : State) (i : Instr) (reads : List Reg) (d : Reg) (x : Word) : Out :=
  s.scalarOp (wordOf32 i) reads [d] (.next (s.finish d x))

/-! ### Values (R155 to R157) -/

/-- sext(x[31:0], 32). -/
def sext32 (x : Word) : Word := (x.setWidth 32).signExtend 64

/-- Signed division of R156. -/
def divS (a b : Word) : Word := if b = 0 then -1 else BitVec.sdiv a b
/-- Unsigned division of R156. -/
def divU (a b : Word) : Word := if b = 0 then -1 else BitVec.udiv a b
/-- Signed remainder of R156: the sign of a. -/
def remS (a b : Word) : Word := if b = 0 then a else BitVec.srem a b
/-- Unsigned remainder of R156. -/
def remU (a b : Word) : Word := if b = 0 then a else BitVec.umod a b

/-- Bits 127:64 of the signed and of the unsigned product. -/
def mulHigh (a b : Word) : Word := wInt (a.toInt * b.toInt / 2 ^ 64)
def mulHighU (a b : Word) : Word := w64 (a.toNat * b.toNat / 2 ^ 64)

/-- Number of leading zero bits among the n low bits of x. -/
def countLeading : Nat → Nat → Nat
  | 0, _ => 0
  | n + 1, x => if x.testBit n then 0 else 1 + countLeading n x

/-- Number of trailing zero bits among n bits of x. -/
def countTrailing : Nat → Nat → Nat
  | 0, _ => 0
  | n + 1, x => if x % 2 = 1 then 0 else 1 + countTrailing n (x / 2)

/-- Number of one bits among n bits of x. -/
def countOnes : Nat → Nat → Nat
  | 0, _ => 0
  | n + 1, x => x % 2 + countOnes n (x / 2)

/-- Byte j of the result is byte 7 − j. -/
def swapBytes (a : Word) : Word := w64 (leNat (leBytes 8 a.toNat).reverse)

/-- HMIX of R157. -/
def hmix (a b : Word) : Word :=
  let t := a + b
  let t := t ^^^ (t >>> 29)
  let t := t * 0xB7E1516A9C3F2D85#64
  t ^^^ (t >>> 32)

def imm14 (i : BitVec 14) : Word := i.signExtend 64

/-! ### ALU-R (R155) -/

/-- ADD (R155). -/
def execAdd (d a b : Reg) (s : State) : Out := s.alu (.add d a b) [a, b] d (s.s a + s.s b)
/-- SUB (R155). -/
def execSub (d a b : Reg) (s : State) : Out := s.alu (.sub d a b) [a, b] d (s.s a - s.s b)
/-- AND (R155). -/
def execAnd (d a b : Reg) (s : State) : Out := s.alu (.and d a b) [a, b] d (s.s a &&& s.s b)
/-- OR (R155). -/
def execOr (d a b : Reg) (s : State) : Out := s.alu (.or d a b) [a, b] d (s.s a ||| s.s b)
/-- XOR (R155). -/
def execXor (d a b : Reg) (s : State) : Out := s.alu (.xor d a b) [a, b] d (s.s a ^^^ s.s b)
/-- ANDN (R155). -/
def execAndn (d a b : Reg) (s : State) : Out := s.alu (.andn d a b) [a, b] d (s.s a &&& ~~~(s.s b))
/-- ORN (R155). -/
def execOrn (d a b : Reg) (s : State) : Out := s.alu (.orn d a b) [a, b] d (s.s a ||| ~~~(s.s b))
/-- XNOR (R155). -/
def execXnor (d a b : Reg) (s : State) : Out := s.alu (.xnor d a b) [a, b] d (~~~(s.s a ^^^ s.s b))
/-- SHL (R155). -/
def execShl (d a b : Reg) (s : State) : Out := s.alu (.shl d a b) [a, b] d (s.s a <<< ((s.s b).toNat % 64))
/-- SHR: zeros shifted in (R155). -/
def execShr (d a b : Reg) (s : State) : Out := s.alu (.shr d a b) [a, b] d (s.s a >>> ((s.s b).toNat % 64))
/-- SHA: bit 63 copied in (R155). -/
def execSha (d a b : Reg) (s : State) : Out := s.alu (.sha d a b) [a, b] d ((s.s a).sshiftRight ((s.s b).toNat % 64))
/-- ROR (R155). -/
def execRor (d a b : Reg) (s : State) : Out := s.alu (.ror d a b) [a, b] d ((s.s a).rotateRight ((s.s b).toNat % 64))
/-- MUL (R155). -/
def execMul (d a b : Reg) (s : State) : Out := s.alu (.mul d a b) [a, b] d (s.s a * s.s b)
/-- MULH (R155). -/
def execMulh (d a b : Reg) (s : State) : Out := s.alu (.mulh d a b) [a, b] d (mulHigh (s.s a) (s.s b))
/-- MULHU (R155). -/
def execMulhu (d a b : Reg) (s : State) : Out := s.alu (.mulhu d a b) [a, b] d (mulHighU (s.s a) (s.s b))
/-- DIV (R156). -/
def execDiv (d a b : Reg) (s : State) : Out := s.alu (.div d a b) [a, b] d (divS (s.s a) (s.s b))
/-- DIVU (R156). -/
def execDivu (d a b : Reg) (s : State) : Out := s.alu (.divu d a b) [a, b] d (divU (s.s a) (s.s b))
/-- REM (R156). -/
def execRem (d a b : Reg) (s : State) : Out := s.alu (.rem d a b) [a, b] d (remS (s.s a) (s.s b))
/-- REMU (R156). -/
def execRemu (d a b : Reg) (s : State) : Out := s.alu (.remu d a b) [a, b] d (remU (s.s a) (s.s b))
/-- MIN, signed (R155). -/
def execMin (d a b : Reg) (s : State) : Out := s.alu (.min d a b) [a, b] d (if (s.s b).slt (s.s a) then s.s b else s.s a)
/-- MAX, signed (R155). -/
def execMax (d a b : Reg) (s : State) : Out := s.alu (.max d a b) [a, b] d (if (s.s a).slt (s.s b) then s.s b else s.s a)
/-- MINU (R155). -/
def execMinu (d a b : Reg) (s : State) : Out := s.alu (.minu d a b) [a, b] d (if (s.s b).ult (s.s a) then s.s b else s.s a)
/-- MAXU (R155). -/
def execMaxu (d a b : Reg) (s : State) : Out := s.alu (.maxu d a b) [a, b] d (if (s.s a).ult (s.s b) then s.s b else s.s a)
/-- SEQ (R155). -/
def execSeq (d a b : Reg) (s : State) : Out := s.alu (.seq d a b) [a, b] d (wBool (s.s a == s.s b))
/-- SNE (R155). -/
def execSne (d a b : Reg) (s : State) : Out := s.alu (.sne d a b) [a, b] d (wBool (s.s a != s.s b))
/-- SLT (R155). -/
def execSlt (d a b : Reg) (s : State) : Out := s.alu (.slt d a b) [a, b] d (wBool ((s.s a).slt (s.s b)))
/-- SLTU (R155). -/
def execSltu (d a b : Reg) (s : State) : Out := s.alu (.sltu d a b) [a, b] d (wBool ((s.s a).ult (s.s b)))
/-- SLE (R155). -/
def execSle (d a b : Reg) (s : State) : Out := s.alu (.sle d a b) [a, b] d (wBool ((s.s a).sle (s.s b)))
/-- SLEU (R155). -/
def execSleu (d a b : Reg) (s : State) : Out := s.alu (.sleu d a b) [a, b] d (wBool ((s.s a).ule (s.s b)))
/-- ADDW (R155). -/
def execAddw (d a b : Reg) (s : State) : Out := s.alu (.addw d a b) [a, b] d (sext32 (s.s a + s.s b))
/-- SUBW (R155). -/
def execSubw (d a b : Reg) (s : State) : Out := s.alu (.subw d a b) [a, b] d (sext32 (s.s a - s.s b))
/-- MULW (R155). -/
def execMulw (d a b : Reg) (s : State) : Out := s.alu (.mulw d a b) [a, b] d (sext32 (s.s a * s.s b))
/-- HMIX (R157). -/
def execHmix (d a b : Reg) (s : State) : Out := s.alu (.hmix d a b) [a, b] d (hmix (s.s a) (s.s b))
/-- CLZ (R155). -/
def execClz (d a : Reg) (s : State) : Out := s.alu (.clz d a) [a] d (w64 (countLeading 64 (s.s a).toNat))
/-- CTZ (R155). -/
def execCtz (d a : Reg) (s : State) : Out := s.alu (.ctz d a) [a] d (w64 (countTrailing 64 (s.s a).toNat))
/-- POPC (R155). -/
def execPopc (d a : Reg) (s : State) : Out := s.alu (.popc d a) [a] d (w64 (countOnes 64 (s.s a).toNat))
/-- BREV (R155). -/
def execBrev (d a : Reg) (s : State) : Out := s.alu (.brev d a) [a] d ((s.s a).reverse)
/-- BSWAP (R155). -/
def execBswap (d a : Reg) (s : State) : Out := s.alu (.bswap d a) [a] d (swapBytes (s.s a))

/-! ### Immediates (R158, R159) -/

/-- ADDI (R158). -/
def execAddi (d a : Reg) (imm : BitVec 14) (s : State) : Out := s.alu (.addi d a imm) [a] d (s.s a + imm14 imm)
/-- ANDI (R158). -/
def execAndi (d a : Reg) (imm : BitVec 14) (s : State) : Out := s.alu (.andi d a imm) [a] d (s.s a &&& imm14 imm)
/-- ORI (R158). -/
def execOri (d a : Reg) (imm : BitVec 14) (s : State) : Out := s.alu (.ori d a imm) [a] d (s.s a ||| imm14 imm)
/-- XORI (R158). -/
def execXori (d a : Reg) (imm : BitVec 14) (s : State) : Out := s.alu (.xori d a imm) [a] d (s.s a ^^^ imm14 imm)
/-- SLTI (R158). -/
def execSlti (d a : Reg) (imm : BitVec 14) (s : State) : Out := s.alu (.slti d a imm) [a] d (wBool ((s.s a).slt (imm14 imm)))
/-- SLTUI (R158). -/
def execSltui (d a : Reg) (imm : BitVec 14) (s : State) : Out := s.alu (.sltui d a imm) [a] d (wBool ((s.s a).ult (imm14 imm)))
/-- MULI (R158). -/
def execMuli (d a : Reg) (imm : BitVec 14) (s : State) : Out := s.alu (.muli d a imm) [a] d (s.s a * imm14 imm)
/-- ADDIW (R158). -/
def execAddiw (d a : Reg) (imm : BitVec 14) (s : State) : Out := s.alu (.addiw d a imm) [a] d (sext32 (s.s a + imm14 imm))
/-- SHLI (R159). -/
def execShli (d a : Reg) (n : BitVec 6) (s : State) : Out := s.alu (.shli d a n) [a] d (s.s a <<< n.toNat)
/-- SHRI (R159). -/
def execShri (d a : Reg) (n : BitVec 6) (s : State) : Out := s.alu (.shri d a n) [a] d (s.s a >>> n.toNat)
/-- SHAI (R159). -/
def execShai (d a : Reg) (n : BitVec 6) (s : State) : Out := s.alu (.shai d a n) [a] d ((s.s a).sshiftRight n.toNat)
/-- RORI (R159). -/
def execRori (d a : Reg) (n : BitVec 6) (s : State) : Out := s.alu (.rori d a n) [a] d ((s.s a).rotateRight n.toNat)

/-! ### Constants (R160) -/

/-- sext(v << 12, 32). -/
def upper20 (v : BitVec 20) : Word := (v ++ 0#12).signExtend 64

/-- LUI (R160). -/
def execLui (d : Reg) (imm : BitVec 20) (s : State) : Out := s.alu (.lui d imm) [] d (upper20 imm)
/-- LHI: it reads its destination (R160). -/
def execLhi (d : Reg) (imm : BitVec 20) (s : State) : Out :=
  s.alu (.lhi d imm) [d] d ((s.s d &&& 0xFFFFFFFFFFF#64) ||| (imm.setWidth 64 <<< 44))
/-- ADDPC: from its own address (R160). -/
def execAddpc (d : Reg) (imm : BitVec 20) (s : State) : Out := s.alu (.addpc d imm) [] d (s.me.pc + upper20 imm)

end Sys2Proof.Machine
end

