-- ==== Sys2Proof/Machine/ScalarMem.lean ====
section
/-! DEFINITION. Branches and jumps (R161 to R163), plain loads and stores (R164, R165), ordered accesses and atomics (R166 to R170),
FENCE (R171). -/

namespace Sys2Proof.Machine

/-! ### Branches and jumps -/

/-- PC + 4·sext(off). -/
def State.target (s : State) {n : Nat} (off : BitVec n) : Word := s.me.pc + 4 * off.signExtend 64

/-- A compare and branch (R161). -/
def State.branch (s : State) (i : Instr) (a b : Reg) (off : BitVec 14) (taken : Bool) : Out :=
  s.scalarOp (wordOf32 i) [a, b] [] (.next (if taken then s.goto (s.target off) else s.advance))

/-- BEQ (R161). -/
def execBeq (a b : Reg) (off : BitVec 14) (s : State) : Out := s.branch (.beq a b off) a b off (s.s a == s.s b)
/-- BNE (R161). -/
def execBne (a b : Reg) (off : BitVec 14) (s : State) : Out := s.branch (.bne a b off) a b off (s.s a != s.s b)
/-- BLT (R161). -/
def execBlt (a b : Reg) (off : BitVec 14) (s : State) : Out := s.branch (.blt a b off) a b off ((s.s a).slt (s.s b))
/-- BGE (R161). -/
def execBge (a b : Reg) (off : BitVec 14) (s : State) : Out := s.branch (.bge a b off) a b off ((s.s b).sle (s.s a))
/-- BLTU (R161). -/
def execBltu (a b : Reg) (off : BitVec 14) (s : State) : Out := s.branch (.bltu a b off) a b off ((s.s a).ult (s.s b))
/-- BGEU (R161). -/
def execBgeu (a b : Reg) (off : BitVec 14) (s : State) : Out := s.branch (.bgeu a b off) a b off ((s.s b).ule (s.s a))

/-- Bit i of predicate p: p0 reads all ones (R117). -/
def VState.pred (v : VState) (p : Reg) (i : Nat) : Bool := if p = 0 then true else (v.preds[p.toNat]'p.isLt).getLsbD i

/-- Some bit of predicate p below VL is set (R162). -/
def Strand.anyPred (k : Strand) (p : Reg) : Bool :=
  if p = 0 then decide (0 < k.cfg.vl.toNat) else decide ((k.vs.preds[p.toNat]'p.isLt).toNat % 2 ^ (min k.cfg.vl.toNat 8192) ≠ 0)

/-- BPANY and BPNONE wait for the predicate and VL (R127), then branch (R162); a predicate of another owner raises VSTATE
(R415), one whose storage failed POISON (R420). -/
def State.predBranch (s : State) (i : Instr) (p : Reg) (off : BitVec 14) (want : Bool) : Out :=
  if s.me.vlPending ∨ (s.me.unfinished.any fun e => vPredDest e.instr == some p) then .next s
  else if p ≠ 0 ∧ s.foreign.testBit 2 then .next (s.trap cVSTATE (wordOf32 i) (some (w64 (s.foreignIn 4))))
  else if s.me.spoiled.preds.contains p then .next (s.trap cPOISON (wordOf32 i) (some (spoilAddr 1 p.toNat)))
  else .next (if s.me.anyPred p == want then s.goto (s.target off) else s.advance)

/-- BPANY (R162). -/
def execBpany (a : Reg) (off : BitVec 14) (s : State) : Out := s.predBranch (.bpany a off) a off true
/-- BPNONE (R162). -/
def execBpnone (a : Reg) (off : BitVec 14) (s : State) : Out := s.predBranch (.bpnone a off) a off false

/-- J (R163). -/
def execJ (off : BitVec 26) (s : State) : Out := .next (s.goto (s.target off))

/-- JAL: links into s63 (R163). -/
def execJal (off : BitVec 26) (s : State) : Out :=
  s.scalarOp (wordOf32 (.jal off)) [] [63] (.next ((s.w 63 (s.me.pc + 4)).goto (s.target off)))

/-- JALR: the target must be a multiple of 4; the base is read before the link is written (R163). -/
def execJalr (d a : Reg) (imm : BitVec 14) (s : State) : Out :=
  s.scalarOp (wordOf32 (.jalr d a imm)) [a] [d] (
    let t := s.s a + imm.signExtend 64
    if t.toNat % 4 ≠ 0 then .next (s.trap cMISALIGN (wordOf32 (.jalr d a imm)) (some t))
    else .next ((s.w d (s.me.pc + 4)).goto t))

/-! ### Plain loads and stores (R164, R165) -/

/-- The value that a load of n bytes writes: sign- or zero-extended. -/
def loadValue (n : Nat) (signed : Bool) (bs : List Byte) : Word := if signed then wInt (sgn (8 * n) (leNat bs)) else w64 (leNat bs)

/-- A load of n bytes from address a into d. -/
def State.loadFrom (s : State) (info : Word) (d : Reg) (a : Word) (n : Nat) (signed : Bool) (ord : Byte) : Out :=
  match s.memRead (s.me.req info) a n .read ord with
  | .trap c s' => .next (s'.trap c info (some a))
  | .wait s' => .next s'
  | .ok (bs, bad) s' => .next (if bad then s'.trap cPOISON info (some a) else s'.finish d (loadValue n signed bs))

/-- A store of n bytes x at address a. -/
def State.storeTo (s : State) (info : Word) (a : Word) (n : Nat) (x : Word) (need : Need) (ord : Byte) : Out :=
  match s.memWrite (s.me.req info) a (leBytes n x.toNat) false need {} ord with
  | .trap c s' => .next (s'.trap c info (some a))
  | .wait s' => .next s'
  | .ok _ s' => .next s'.advance

def State.load (s : State) (i : Instr) (d a : Reg) (imm : BitVec 14) (n : Nat) (signed : Bool) : Out :=
  s.scalarOp (wordOf32 i) [a] [d] (
    let addr := s.s a + imm.signExtend 64
    if addr.toNat % n ≠ 0 then .next (s.trap cMISALIGN (wordOf32 i) (some addr))
    else s.loadFrom (wordOf32 i) d addr n signed 0)

def State.store (s : State) (i : Instr) (a b : Reg) (off : BitVec 14) (n : Nat) : Out :=
  s.scalarOp (wordOf32 i) [a, b] [] (
    let addr := s.s a + off.signExtend 64
    if addr.toNat % n ≠ 0 then .next (s.trap cMISALIGN (wordOf32 i) (some addr))
    else s.storeTo (wordOf32 i) addr n (s.s b) .write 0)

/-- LDB (R164). -/
def execLdb (d a : Reg) (imm : BitVec 14) (s : State) : Out := s.load (.ldb d a imm) d a imm 1 true
/-- LDBU (R164). -/
def execLdbu (d a : Reg) (imm : BitVec 14) (s : State) : Out := s.load (.ldbu d a imm) d a imm 1 false
/-- LDH (R164). -/
def execLdh (d a : Reg) (imm : BitVec 14) (s : State) : Out := s.load (.ldh d a imm) d a imm 2 true
/-- LDHU (R164). -/
def execLdhu (d a : Reg) (imm : BitVec 14) (s : State) : Out := s.load (.ldhu d a imm) d a imm 2 false
/-- LDW (R164). -/
def execLdw (d a : Reg) (imm : BitVec 14) (s : State) : Out := s.load (.ldw d a imm) d a imm 4 true
/-- LDWU (R164). -/
def execLdwu (d a : Reg) (imm : BitVec 14) (s : State) : Out := s.load (.ldwu d a imm) d a imm 4 false
/-- LDD (R164). -/
def execLdd (d a : Reg) (imm : BitVec 14) (s : State) : Out := s.load (.ldd d a imm) d a imm 8 true
/-- STB (R164). -/
def execStb (a b : Reg) (off : BitVec 14) (s : State) : Out := s.store (.stb a b off) a b off 1
/-- STH (R164). -/
def execSth (a b : Reg) (off : BitVec 14) (s : State) : Out := s.store (.sth a b off) a b off 2
/-- STW (R164). -/
def execStw (a b : Reg) (off : BitVec 14) (s : State) : Out := s.store (.stw a b off) a b off 4
/-- STD (R164). -/
def execStd (a b : Reg) (off : BitVec 14) (s : State) : Out := s.store (.std a b off) a b off 8

/-! ### Ordered accesses and atomics (R166 to R170) -/

/-- The access size of SZ (R166). -/
def szBytes (dw : Bool) : Nat := if dw then 8 else 4

/-- The checks that come before an ordered access: alignment, then scope (R153, R167). -/
def State.ordered (s : State) (info : Word) (a : Word) (sc : BitVec 4) (dw : Bool) (effect : Out) : Out :=
  if a.toNat % szBytes dw ≠ 0 then .next (s.trap cMISALIGN info (some a))
  else if !s.scopeOk (s.me.req info) a sc.toNat then .next (s.trap cSCOPE info (some a))
  else effect

/-- The ORD byte of an ordered access: scope, order and size (R372). -/
def ordByte (sc : BitVec 4) (ord : BitVec 2) (dw : Bool) : Byte := sc ++ ord ++ BitVec.ofBool dw ++ 0#1

/-- LDA: the read alone, sign-extended (R166, R168). -/
def execLda (d a : Reg) (sc : BitVec 4) (ord : BitVec 2) (dw : Bool) (s : State) : Out :=
  let info := wordOf32 (.lda d a sc ord dw)
  s.scalarOp info [a] [d] (s.ordered info (s.s a) sc dw (s.loadFrom info d (s.s a) (szBytes dw) true (ordByte sc ord dw)))

/-- STR: needs read and write permission (R166, R168). -/
def execStr (a b : Reg) (sc : BitVec 4) (ord : BitVec 2) (dw : Bool) (s : State) : Out :=
  let info := wordOf32 (.str a b sc ord dw)
  s.scalarOp info [a, b] [] (s.ordered info (s.s a) sc dw (s.storeTo info (s.s a) (szBytes dw) (s.s b) .both (ordByte sc ord dw)))

/-- An atomic or CAS that could be performed or was refused: its old value goes to d, sign-extended. -/
def State.atomicAt (s : State) (info : Word) (d : Reg) (a : Word) (opc n : Nat) (arg exp : Word) (ord : Byte) : Out :=
  match s.memAtomic (s.me.req info) a opc n arg exp ord with
  | .trap c s' => .next (s'.trap c info (some a))
  | .wait s' => .next s'
  | .ok old s' => .next (s'.finish d (wInt (sgn (8 * n) old)))

/-- The atomics of R168; opc is the scalar major opcode. -/
def State.atomic (s : State) (i : Instr) (opc : Nat) (d a b : Reg) (sc : BitVec 4) (ord : BitVec 2) (dw : Bool) : Out :=
  let info := wordOf32 i
  s.scalarOp info [a, b] [d] (s.ordered info (s.s a) sc dw
    (s.atomicAt info d (s.s a) opc (szBytes dw) (s.s b) 0 (ordByte sc ord dw)))

/-- SWAP (R168). -/
def execSwap (d a b : Reg) (sc : BitVec 4) (ord : BitVec 2) (dw : Bool) (s : State) : Out :=
  s.atomic (.swap d a b sc ord dw) 0x2D d a b sc ord dw
/-- AADD (R168). -/
def execAadd (d a b : Reg) (sc : BitVec 4) (ord : BitVec 2) (dw : Bool) (s : State) : Out :=
  s.atomic (.aadd d a b sc ord dw) 0x2E d a b sc ord dw
/-- AAND (R168). -/
def execAand (d a b : Reg) (sc : BitVec 4) (ord : BitVec 2) (dw : Bool) (s : State) : Out :=
  s.atomic (.aand d a b sc ord dw) 0x2F d a b sc ord dw
/-- AOR (R168). -/
def execAor (d a b : Reg) (sc : BitVec 4) (ord : BitVec 2) (dw : Bool) (s : State) : Out :=
  s.atomic (.aor d a b sc ord dw) 0x30 d a b sc ord dw
/-- AXOR (R168). -/
def execAxor (d a b : Reg) (sc : BitVec 4) (ord : BitVec 2) (dw : Bool) (s : State) : Out :=
  s.atomic (.axor d a b sc ord dw) 0x31 d a b sc ord dw
/-- AMIN (R168). -/
def execAmin (d a b : Reg) (sc : BitVec 4) (ord : BitVec 2) (dw : Bool) (s : State) : Out :=
  s.atomic (.amin d a b sc ord dw) 0x32 d a b sc ord dw
/-- AMAX (R168). -/
def execAmax (d a b : Reg) (sc : BitVec 4) (ord : BitVec 2) (dw : Bool) (s : State) : Out :=
  s.atomic (.amax d a b sc ord dw) 0x33 d a b sc ord dw
/-- AMINU (R168). -/
def execAminu (d a b : Reg) (sc : BitVec 4) (ord : BitVec 2) (dw : Bool) (s : State) : Out :=
  s.atomic (.aminu d a b sc ord dw) 0x34 d a b sc ord dw
/-- AMAXU (R168). -/
def execAmaxu (d a b : Reg) (sc : BitVec 4) (ord : BitVec 2) (dw : Bool) (s : State) : Out :=
  s.atomic (.amaxu d a b sc ord dw) 0x35 d a b sc ord dw

/-- CAS: the expected value is in the destination register (R169). -/
def execCas (d a b : Reg) (sc : BitVec 4) (ord : BitVec 2) (dw : Bool) (s : State) : Out :=
  let info := wordOf32 (.cas d a b sc ord dw)
  s.scalarOp info [a, b, d] [d] (s.ordered info (s.s a) sc dw
    (s.atomicAt info d (s.s a) 0x36 (szBytes dw) (s.s b) (s.s d) (ordByte sc ord dw)))

/-! ### FENCE (R171) -/

/-- An instruction of the vector groups that access memory (R112 to R114). -/
def isVMem (i : Instr) : Bool := match i.vparts with | some p => decide (0x18 ≤ p.vop.toNat ∧ p.vop.toNat ≤ 0x1B) | none => false

/-- An unfinished copy, stream or collective of the strand. -/
def Strand.enginesBusy (k : Strand) : Bool := !k.as.copies.isEmpty || !k.as.streams.isEmpty || !k.as.colls.isEmpty

/-- An instruction of the matrix group (R115). -/
def isMatrix (i : Instr) : Bool := match i.vparts with | some p => p.vop == 0x20 | none => false

/-- What a fence of a scope moves out of the core: at quad or wider every write in its stage (R352); at host or wider the strand's later writes
to host memory come after its earlier ones (R345). -/
def State.fenced (s : State) (sc : BitVec 4) : State :=
  let s := if 2 ≤ sc.toNat then s.unstage else s
  if 5 ≤ sc.toNat then s.setMe fun k => { k with hostOrd := true } else s

/-- FENCE: with `vec` it waits until the queue holds no memory access still to perform and no matrix instruction, with `eng` until no engine
command is unfinished; with `st` or `vec` the writes that the strand could read perform at the scope (R171, R275, R352). Held
instructions are not waited for (R407). -/
def execFence (sc : BitVec 4) (mask : BitVec 4) (s : State) : Out :=
  if mask.getLsbD 2 ∧ (s.me.q.any fun e => !e.done && (isVMem e.instr || isMatrix e.instr)) then .next s
  else if mask.getLsbD 3 ∧ s.me.enginesBusy then .next s
  else .next ((if mask.getLsbD 1 || mask.getLsbD 2 then s.fenced sc else s).advance)

end Sys2Proof.Machine
end

