-- ==== Sys2Proof/Machine/VectorCmp.lean ====
section
/-! DEFINITION. Vector compares into a predicate (R106, R228). -/

namespace Sys2Proof.Machine

/-- VCMPEQ (R106, R228). -/
def execVcmpeq (v : VArgs) (s : State) : Out := s.compare (.vcmpeq v) v fun c a b => (c.f.icmp 0 a b, 0)

/-- VCMPNE (R106, R228). -/
def execVcmpne (v : VArgs) (s : State) : Out := s.compare (.vcmpne v) v fun c a b => (c.f.icmp 1 a b, 0)

/-- VCMPLT (R106, R228). -/
def execVcmplt (v : VArgs) (s : State) : Out := s.compare (.vcmplt v) v fun c a b => (c.f.icmp 2 a b, 0)

/-- VCMPLE (R106, R228). -/
def execVcmple (v : VArgs) (s : State) : Out := s.compare (.vcmple v) v fun c a b => (c.f.icmp 3 a b, 0)

/-- VCMPGT (R106, R228). -/
def execVcmpgt (v : VArgs) (s : State) : Out := s.compare (.vcmpgt v) v fun c a b => (c.f.icmp 4 a b, 0)

/-- VCMPGE (R106, R228). -/
def execVcmpge (v : VArgs) (s : State) : Out := s.compare (.vcmpge v) v fun c a b => (c.f.icmp 5 a b, 0)

/-- VCMPLTU (R106, R228). -/
def execVcmpltu (v : VArgs) (s : State) : Out := s.compare (.vcmpltu v) v fun c a b => (c.f.icmp 6 a b, 0)

/-- VCMPLEU (R106, R228). -/
def execVcmpleu (v : VArgs) (s : State) : Out := s.compare (.vcmpleu v) v fun c a b => (c.f.icmp 7 a b, 0)

/-- VCMPGTU (R106, R228). -/
def execVcmpgtu (v : VArgs) (s : State) : Out := s.compare (.vcmpgtu v) v fun c a b => (c.f.icmp 8 a b, 0)

/-- VCMPGEU (R106, R228). -/
def execVcmpgeu (v : VArgs) (s : State) : Out := s.compare (.vcmpgeu v) v fun c a b => (c.f.icmp 9 a b, 0)

/-- VFCMPEQ (R106, R228). -/
def execVfcmpeq (v : VArgs) (s : State) : Out := s.compare (.vfcmpeq v) v fun c a b => c.f.fcmp c.nm 16 a b

/-- VFCMPNE (R106, R228). -/
def execVfcmpne (v : VArgs) (s : State) : Out := s.compare (.vfcmpne v) v fun c a b => c.f.fcmp c.nm 17 a b

/-- VFCMPLT (R106, R228). -/
def execVfcmplt (v : VArgs) (s : State) : Out := s.compare (.vfcmplt v) v fun c a b => c.f.fcmp c.nm 18 a b

/-- VFCMPLE (R106, R228). -/
def execVfcmple (v : VArgs) (s : State) : Out := s.compare (.vfcmple v) v fun c a b => c.f.fcmp c.nm 19 a b

/-- VFCMPGT (R106, R228). -/
def execVfcmpgt (v : VArgs) (s : State) : Out := s.compare (.vfcmpgt v) v fun c a b => c.f.fcmp c.nm 20 a b

/-- VFCMPGE (R106, R228). -/
def execVfcmpge (v : VArgs) (s : State) : Out := s.compare (.vfcmpge v) v fun c a b => c.f.fcmp c.nm 21 a b

/-- VFCMPUN (R106, R228). -/
def execVfcmpun (v : VArgs) (s : State) : Out := s.compare (.vfcmpun v) v fun c a b => c.f.fcmp c.nm 22 a b


end Sys2Proof.Machine
end

