-- ==== Sys2Proof/Machine/VectorFp.lean ====
section
/-! DEFINITION. Floating vector arithmetic, fused multiply-add and the special functions (R104, R105, R224 to R227, R232 to R234). -/

namespace Sys2Proof.Machine

/-- VFADD (R224). -/
def execVfadd (v : VArgs) (s : State) : Out := s.binary (.vfadd v) v fun c a b => c.f.fadd c.nm a b

/-- VFSUB (R224). -/
def execVfsub (v : VArgs) (s : State) : Out := s.binary (.vfsub v) v fun c a b => c.f.fsub c.nm a b

/-- VFMUL (R224). -/
def execVfmul (v : VArgs) (s : State) : Out := s.binary (.vfmul v) v fun c a b => c.f.fmul c.nm a b

/-- VFMIN (R225). -/
def execVfmin (v : VArgs) (s : State) : Out := s.binary (.vfmin v) v fun c a b => c.f.fminmax c.nm false a b

/-- VFMAX (R225). -/
def execVfmax (v : VArgs) (s : State) : Out := s.binary (.vfmax v) v fun c a b => c.f.fminmax c.nm true a b

/-- VFABS (R226). -/
def execVfabs (v : VArgs) (s : State) : Out := s.unary (.vfabs v) v fun c a => c.f.fabs a

/-- VFNEG (R226). -/
def execVfneg (v : VArgs) (s : State) : Out := s.unary (.vfneg v) v fun c a => c.f.fneg a

/-- VFSGN (R226). -/
def execVfsgn (v : VArgs) (s : State) : Out := s.binary (.vfsgn v) v fun c a b => c.f.fsgn a b

/-- VFMA: a·b + c, rounded once (R105, R227). -/
def execVfma (v : VArgs) (s : State) : Out := s.ternary (.vfma v) v fun c x y z => c.f.fma c.nm false false x y z

/-- VFMS: a·b − c, rounded once (R105, R227). -/
def execVfms (v : VArgs) (s : State) : Out := s.ternary (.vfms v) v fun c x y z => c.f.fma c.nm false true x y z

/-- VFNMA: −a·b + c, rounded once (R105, R227). -/
def execVfnma (v : VArgs) (s : State) : Out := s.ternary (.vfnma v) v fun c x y z => c.f.fma c.nm true false x y z

/-- VFNMS: −a·b − c, rounded once (R105, R227). -/
def execVfnms (v : VArgs) (s : State) : Out := s.ternary (.vfnms v) v fun c x y z => c.f.fma c.nm true true x y z

/-- VEXP2 (R232 to R234). -/
def execVexp2 (v : VArgs) (s : State) : Out := s.unary (.vexp2 v) v fun c a => c.f.exp2 c.nm a

/-- VLOG2 (R232 to R234). -/
def execVlog2 (v : VArgs) (s : State) : Out := s.unary (.vlog2 v) v fun c a => c.f.vlog2 c.nm a

/-- VRCP (R232 to R234). -/
def execVrcp (v : VArgs) (s : State) : Out := s.unary (.vrcp v) v fun c a => c.f.rcp c.nm a

/-- VRSQ (R232 to R234). -/
def execVrsq (v : VArgs) (s : State) : Out := s.unary (.vrsq v) v fun c a => c.f.rsq c.nm a

/-- VSQRT (R232 to R234). -/
def execVsqrt (v : VArgs) (s : State) : Out := s.unary (.vsqrt v) v fun c a => c.f.sqrt c.nm a

/-- VFDIV (R232, R233). -/
def execVfdiv (v : VArgs) (s : State) : Out := s.binary (.vfdiv v) v fun c a b => c.f.fdiv c.nm a b


end Sys2Proof.Machine
end

