-- ==== Sys2Proof/Machine/VectorInt.lean ====
section
/-! DEFINITION. Integer vector arithmetic (R104, R221, R222). -/

namespace Sys2Proof.Machine

/-- VADD (R221). -/
def execVadd (v : VArgs) (s : State) : Out := s.binary (.vadd v) v fun c a b => c.f.vadd c.sat a b

/-- VSUB (R221). -/
def execVsub (v : VArgs) (s : State) : Out := s.binary (.vsub v) v fun c a b => c.f.vsub c.sat a b

/-- VMUL (R221). -/
def execVmul (v : VArgs) (s : State) : Out := s.binary (.vmul v) v fun c a b => c.f.vmul c.sat a b

/-- VMULH: the high half of the exact product (R221). -/
def execVmulh (v : VArgs) (s : State) : Out := s.binary (.vmulh v) v fun c a b => c.f.vmulh a b

/-- VMIN: the smaller, both signed (R221). -/
def execVmin (v : VArgs) (s : State) : Out := s.binary (.vmin v) v fun c a b => c.f.vminmax true false a b

/-- VMAX: the larger, both signed (R221). -/
def execVmax (v : VArgs) (s : State) : Out := s.binary (.vmax v) v fun c a b => c.f.vminmax true true a b

/-- VMINU: the smaller, both unsigned (R221). -/
def execVminu (v : VArgs) (s : State) : Out := s.binary (.vminu v) v fun c a b => c.f.vminmax false false a b

/-- VMAXU: the larger, both unsigned (R221). -/
def execVmaxu (v : VArgs) (s : State) : Out := s.binary (.vmaxu v) v fun c a b => c.f.vminmax false true a b

/-- VABS (R221). -/
def execVabs (v : VArgs) (s : State) : Out := s.unary (.vabs v) v fun c a => c.f.vabs c.sat a

/-- VNEG (R221). -/
def execVneg (v : VArgs) (s : State) : Out := s.unary (.vneg v) v fun c a => c.f.vneg c.sat a

/-- VSADD: saturating whatever SAT says (R221). -/
def execVsadd (v : VArgs) (s : State) : Out := s.binary (.vsadd v) v fun c a b => c.f.vadd true a b

/-- VSSUB: saturating whatever SAT says (R221). -/
def execVssub (v : VArgs) (s : State) : Out := s.binary (.vssub v) v fun c a b => c.f.vsub true a b

/-- VDIV (R222). -/
def execVdiv (v : VArgs) (s : State) : Out := s.binary (.vdiv v) v fun c a b => c.f.vdiv a b


end Sys2Proof.Machine
end

