-- ==== Sys2Proof/Machine/VectorLog.lean ====
section
/-! DEFINITION. Bitwise vector instructions and shifts on the w-bit pattern; no flag is set (R104, R223). -/

namespace Sys2Proof.Machine

/-- VAND (R223). -/
def execVand (v : VArgs) (s : State) : Out := s.binary (.vand v) v fun c a b => (c.f.pad (Nat.land a b), 0)

/-- VOR (R223). -/
def execVor (v : VArgs) (s : State) : Out := s.binary (.vor v) v fun c a b => (c.f.pad (Nat.lor a b), 0)

/-- VXOR (R223). -/
def execVxor (v : VArgs) (s : State) : Out := s.binary (.vxor v) v fun c a b => (c.f.pad (Nat.xor a b), 0)

/-- VANDN: a and not b (R223). -/
def execVandn (v : VArgs) (s : State) : Out := s.binary (.vandn v) v fun c a b => (c.f.pad (Nat.land a (Nat.xor (b % 2 ^ c.f.width) (2 ^ c.f.width - 1))), 0)

/-- VNOT (R223). -/
def execVnot (v : VArgs) (s : State) : Out := s.unary (.vnot v) v fun c a => (c.f.pad (Nat.xor (a % 2 ^ c.f.width) (2 ^ c.f.width - 1)), 0)

/-- VSHL (R223). -/
def execVshl (v : VArgs) (s : State) : Out := s.binary (.vshl v) v fun c a b => c.f.vshl a b

/-- VSHR (R223). -/
def execVshr (v : VArgs) (s : State) : Out := s.binary (.vshr v) v fun c a b => c.f.vshr a b

/-- VSHA (R223). -/
def execVsha (v : VArgs) (s : State) : Out := s.binary (.vsha v) v fun c a b => c.f.vsha a b

/-- VCLZ (R223). -/
def execVclz (v : VArgs) (s : State) : Out := s.unary (.vclz v) v fun c a => (c.f.pad (lzBits c.f.width a), 0)

/-- VPOPC (R223). -/
def execVpopc (v : VArgs) (s : State) : Out := s.unary (.vpopc v) v fun c a => (c.f.pad (oneBits c.f.width a), 0)


end Sys2Proof.Machine
end

