-- ==== Sys2Proof/Machine/VectorPred.lean ====
section
/-! DEFINITION. Predicate instructions (R111, R245). -/

namespace Sys2Proof.Machine

/-- PAND (R245). -/
def execPand (v : VArgs) (s : State) : Out := s.predOp (.pand v) v [v.a, v.b] fun s _ i => s.pred v.a i && s.pred v.b i

/-- POR (R245). -/
def execPor (v : VArgs) (s : State) : Out := s.predOp (.por v) v [v.a, v.b] fun s _ i => s.pred v.a i || s.pred v.b i

/-- PXOR (R245). -/
def execPxor (v : VArgs) (s : State) : Out := s.predOp (.pxor v) v [v.a, v.b] fun s _ i => s.pred v.a i != s.pred v.b i

/-- PANDN (R245). -/
def execPandn (v : VArgs) (s : State) : Out := s.predOp (.pandn v) v [v.a, v.b] fun s _ i => s.pred v.a i && !s.pred v.b i

/-- PNOT (R245). -/
def execPnot (v : VArgs) (s : State) : Out := s.predOp (.pnot v) v [v.a] fun s _ i => !s.pred v.a i

/-- PSET (R245). -/
def execPset (v : VArgs) (s : State) : Out := s.predOp (.pset v) v [] fun _ _ _ => true

/-- PCLR (R245). -/
def execPclr (v : VArgs) (s : State) : Out := s.predOp (.pclr v) v [] fun _ _ _ => false

/-- PLT: i below the captured scalar or immediate, unsigned (R245). -/
def execPlt (v : VArgs) (s : State) : Out := s.predOp (.plt v) v [] fun _ e i => decide (i < indexB e v)

/-- PFIRST: a barrier (R144, R245). -/
def execPfirst (v : VArgs) (s : State) : Out :=
  s.whole (.pfirst v) v (.pred v.d.toNat) (fun _ _ => ⟨[], [v.p, v.a]⟩) fun s c _ =>
    let first := (s.activeIdx c v).find? (s.pred v.a)
    ((s.activeIdx c v).map fun i => ⟨i, if some i = first then 1 else 0, false⟩, [], 0)

/-- PCNT: the count goes to s(D) at completion (R128, R245). -/
def execPcnt (v : VArgs) (s : State) : Out :=
  s.issue (.pcnt v) (fun _ _ => ⟨[], [v.p, v.a]⟩) fun c n e s =>
    let k := ((s.activeIdx c v).filter (s.pred v.a)).length
    s.runWhole c n e v [] fun s => (s.putScalar v.d (w64 k)).complete n e 0


end Sys2Proof.Machine
end

