-- ==== Sys2Proof/Machine/VectorRed.lean ====
section
/-! DEFINITION. Reductions and the scan: barriers, all-or-nothing (R109, R237 to R240). -/

namespace Sys2Proof.Machine

/-- The exact sum of integer elements brought into the format, or the tree or chain of R238 for floating ones. -/
def sumOf (c : VCtx) (xs : List (Option Nat)) (tree : Bool) : Res :=
  if c.f.isInt then c.f.wrapInt c.sat ((xs.filterMap fun x => x.map c.f.int).sum)
  else
    let ins := xs.map fun x => x.map (c.f.enter c.nm true)
    let r := if tree then
        let h := if xs.length ≤ 1 then 0 else Nat.log2 (xs.length - 1) + 1
        treeSum (c.f.comb c.nm) h (ins ++ List.replicate (2 ^ h - xs.length) none)
      else ins.foldl (c.f.comb c.nm) none
    r.getD (0, 0)

/-- VRSUM and VRSUMO over the positions below VL (R238). -/
def State.vsum (s : State) (i : Instr) (v : VArgs) (tree : Bool) : Out :=
  s.issue i (fun c _ => ⟨[(srcA v, c.f)], [v.p]⟩) fun c n e s =>
    let xs := (List.range c.vl).map fun i => if s.active v i then some (i, s.elem c c.f (srcA v) i) else none
    let bad := xs.filterMap fun x => x.bind fun y => if y.2.2 then some y.1 else none
    let r := sumOf c (xs.map fun x => x.map (·.2.1)) tree
    s.runWhole c n e v bad fun s => (s.putScalar v.d (c.f.extend r.1)).complete n e r.2

/-- VRSUM: a fixed binary tree over element positions (R238). -/
def execVrsum (v : VArgs) (s : State) : Out := s.vsum (.vrsum v) v true

/-- VRSUMO: ascending element order (R238). -/
def execVrsumo (v : VArgs) (s : State) : Out := s.vsum (.vrsumo v) v false

/-- The largest or smallest of a list (R239). -/
def extremum (c : VCtx) (wantMax : Bool) (xs : List Nat) : Res :=
  let ins := xs.map (c.f.enter c.nm false)
  match ins with
  | [] => (0, 0)
  | r :: rest => rest.foldl (fun a b =>
      let x := if c.f.isInt then c.f.vminmax c.f.signed wantMax a.1 b.1 else c.f.fminmax c.nm wantMax a.1 b.1
      (x.1, Nat.lor a.2 (Nat.lor b.2 x.2))) r

/-- VRMAX (R239). -/
def execVrmax (v : VArgs) (s : State) : Out := s.reduce (.vrmax v) v fun c xs => extremum c true xs

/-- VRMIN (R239). -/
def execVrmin (v : VArgs) (s : State) : Out := s.reduce (.vrmin v) v fun c xs => extremum c false xs

/-- VRAND: all ones with no active element (R237, R239). -/
def execVrand (v : VArgs) (s : State) : Out := s.reduce (.vrand v) v fun c xs => (xs.foldl Nat.land (2 ^ c.f.width - 1), 0)

/-- VROR (R239). -/
def execVror (v : VArgs) (s : State) : Out := s.reduce (.vror v) v fun _ xs => (xs.foldl Nat.lor 0, 0)

/-- The inclusive prefix sums of integer elements, each brought into the format from the exact sum (R240). -/
def scanInt (c : VCtx) : Int → List (Nat × Nat) → List (Nat × Res)
  | _, [] => []
  | acc, x :: t => (x.1, c.f.wrapInt c.sat (acc + c.f.int x.2)) :: scanInt c (acc + c.f.int x.2) t

/-- The inclusive prefix sums of floating elements (R240). -/
def scanFp (c : VCtx) : Option Res → List (Nat × Nat) → List (Nat × Res)
  | _, [] => []
  | acc, x :: t =>
    let r := c.f.comb c.nm acc (some (c.f.enter c.nm true x.2))
    (x.1, r.getD (0, 0)) :: scanFp c r t

/-- VSCAN: inclusive prefix sums of the active elements (R240). -/
def execVscan (v : VArgs) (s : State) : Out :=
  s.whole (.vscan v) v (destD v) (fun c _ => ⟨[((destD v).src, c.f), (srcA v, c.f)], [v.p]⟩) fun s c _ =>
    let xs := (s.activeIdx c v).map fun i => (i, s.elem c c.f (srcA v) i)
    let ins := xs.map fun x => (x.1, x.2.1)
    let rs := if c.f.isInt then scanInt c 0 ins else scanFp c none ins
    (rs.map fun r => ⟨r.1, r.2.1, false⟩, (xs.filter (·.2.2)).map (·.1), (rs.map (·.2.2)).foldl Nat.lor 0)


end Sys2Proof.Machine
end

