-- ==== Sys2Proof/Machine/VectorXLane.lean ====
section
/-! DEFINITION. Cross-lane instructions: barriers, all-or-nothing (R110, R241 to R244). -/

namespace Sys2Proof.Machine

/-- The operands of a move from va to vd (R110). -/
def moveNeeds (v : VArgs) (c : VCtx) : Needs := ⟨[(.reg v.d.toNat, c.f), (.reg v.a.toNat, c.f)], [v.p]⟩

/-- VPERM: the data source carries its poison, the index source is consumed (R215, R242). -/
def execVperm (v : VArgs) (s : State) : Out :=
  s.whole (.vperm v) v (.reg v.d.toNat)
    (fun c _ => ⟨[(.reg v.d.toNat, c.f), (.reg v.a.toNat, c.f), (.reg v.b.toNat, c.f)], [v.p]⟩) fun s c _ =>
    let ks := (s.activeIdx c v).map fun i => (i, s.elem c c.f (.reg v.b.toNat) i)
    (ks.map fun k => let x := if k.2.1 < c.vl then s.elem c c.f (.reg v.a.toNat) k.2.1 else (0, false)
                     ⟨k.1, x.1, x.2⟩, (ks.filter (·.2.2)).map (·.1), 0)

/-- Element i of D taken from element `from_ i` of A: none writes nothing there, an index at or above VL gives 0. -/
def State.moveBy (s : State) (i : Instr) (v : VArgs) (from_ : VCtx → QEntry → Nat → Option Nat) : Out :=
  s.whole i v (.reg v.d.toNat) (fun c _ => moveNeeds v c) fun s c e =>
    ((s.activeIdx c v).filterMap fun i => (from_ c e i).map fun k =>
      let x := if k < c.vl then s.elem c c.f (.reg v.a.toNat) k else (0, false)
      (⟨i, x.1, x.2⟩ : Put), [], 0)

/-- VSLUP: element i − s; an element below s counts as masked off (R242). -/
def execVslup (v : VArgs) (s : State) : Out :=
  s.moveBy (.vslup v) v fun _ e i => if indexB e v ≤ i then some (i - indexB e v) else none

/-- VSLDN: element i + s, 0 from VL upward (R242). -/
def execVsldn (v : VArgs) (s : State) : Out := s.moveBy (.vsldn v) v fun _ e i => some (i + indexB e v)

/-- VREV: element VL − 1 − i (R242). -/
def execVrev (v : VArgs) (s : State) : Out := s.moveBy (.vrev v) v fun c _ i => some (c.vl - 1 - i)

/-- VCMPR: the active elements, packed (R243). -/
def execVcmpr (v : VArgs) (s : State) : Out :=
  s.whole (.vcmpr v) v (.reg v.d.toNat) (fun c _ => moveNeeds v c) fun s c _ =>
    ((s.activeIdx c v).mapIdx fun k i => let x := s.elem c c.f (.reg v.a.toNat) i
                                         ⟨k, x.1, x.2⟩, [], 0)

/-- VEXPD: the elements from 0 upward, spread over the active indices (R243). -/
def execVexpd (v : VArgs) (s : State) : Out :=
  s.whole (.vexpd v) v (.reg v.d.toNat) (fun c _ => moveNeeds v c) fun s c _ =>
    ((s.activeIdx c v).mapIdx fun k i => let x := s.elem c c.f (.reg v.a.toNat) k
                                         ⟨i, x.1, x.2⟩, [], 0)

/-- Marks each element whose pattern an earlier one of the list has. -/
def conflicts (w : Nat) : List Nat → List (Nat × Nat) → List Put
  | _, [] => []
  | seen, x :: t => ⟨x.1, if seen.contains (x.2 % 2 ^ w) then 1 else 0, false⟩ :: conflicts w (x.2 % 2 ^ w :: seen) t

/-- VCONFL: bit i is set when an earlier active element has the pattern of element i (R244). -/
def execVconfl (v : VArgs) (s : State) : Out :=
  s.whole (.vconfl v) v (.pred v.d.toNat) (fun c _ => ⟨[(.reg v.a.toNat, c.f)], [v.p]⟩) fun s c _ =>
    let xs := (s.activeIdx c v).map fun i => (i, s.elem c c.f (.reg v.a.toNat) i)
    (conflicts c.f.width [] (xs.map fun x => (x.1, x.2.1)), (xs.filter (·.2.2)).map (·.1), 0)


end Sys2Proof.Machine
end

