-- ==== Sys2Proof/Machine/Dispatch.lean ====
section
/-! DEFINITION. The meaning of every instruction: one arm per constructor. -/

namespace Sys2Proof.Machine

def exec (i : Instr) (s : State) : Host.Outcome State Fault Refusal :=
  match i with
  | .add d a b => Sys2Proof.Machine.execAdd d a b s
  | .sub d a b => Sys2Proof.Machine.execSub d a b s
  | .and d a b => Sys2Proof.Machine.execAnd d a b s
  | .or d a b => Sys2Proof.Machine.execOr d a b s
  | .xor d a b => Sys2Proof.Machine.execXor d a b s
  | .andn d a b => Sys2Proof.Machine.execAndn d a b s
  | .orn d a b => Sys2Proof.Machine.execOrn d a b s
  | .xnor d a b => Sys2Proof.Machine.execXnor d a b s
  | .shl d a b => Sys2Proof.Machine.execShl d a b s
  | .shr d a b => Sys2Proof.Machine.execShr d a b s
  | .sha d a b => Sys2Proof.Machine.execSha d a b s
  | .ror d a b => Sys2Proof.Machine.execRor d a b s
  | .mul d a b => Sys2Proof.Machine.execMul d a b s
  | .mulh d a b => Sys2Proof.Machine.execMulh d a b s
  | .mulhu d a b => Sys2Proof.Machine.execMulhu d a b s
  | .div d a b => Sys2Proof.Machine.execDiv d a b s
  | .divu d a b => Sys2Proof.Machine.execDivu d a b s
  | .rem d a b => Sys2Proof.Machine.execRem d a b s
  | .remu d a b => Sys2Proof.Machine.execRemu d a b s
  | .min d a b => Sys2Proof.Machine.execMin d a b s
  | .max d a b => Sys2Proof.Machine.execMax d a b s
  | .minu d a b => Sys2Proof.Machine.execMinu d a b s
  | .maxu d a b => Sys2Proof.Machine.execMaxu d a b s
  | .seq d a b => Sys2Proof.Machine.execSeq d a b s
  | .sne d a b => Sys2Proof.Machine.execSne d a b s
  | .slt d a b => Sys2Proof.Machine.execSlt d a b s
  | .sltu d a b => Sys2Proof.Machine.execSltu d a b s
  | .sle d a b => Sys2Proof.Machine.execSle d a b s
  | .sleu d a b => Sys2Proof.Machine.execSleu d a b s
  | .clz d a => Sys2Proof.Machine.execClz d a s
  | .ctz d a => Sys2Proof.Machine.execCtz d a s
  | .popc d a => Sys2Proof.Machine.execPopc d a s
  | .brev d a => Sys2Proof.Machine.execBrev d a s
  | .bswap d a => Sys2Proof.Machine.execBswap d a s
  | .addw d a b => Sys2Proof.Machine.execAddw d a b s
  | .subw d a b => Sys2Proof.Machine.execSubw d a b s
  | .mulw d a b => Sys2Proof.Machine.execMulw d a b s
  | .hmix d a b => Sys2Proof.Machine.execHmix d a b s
  | .addi d a imm => Sys2Proof.Machine.execAddi d a imm s
  | .andi d a imm => Sys2Proof.Machine.execAndi d a imm s
  | .ori d a imm => Sys2Proof.Machine.execOri d a imm s
  | .xori d a imm => Sys2Proof.Machine.execXori d a imm s
  | .shli d a n => Sys2Proof.Machine.execShli d a n s
  | .shri d a n => Sys2Proof.Machine.execShri d a n s
  | .shai d a n => Sys2Proof.Machine.execShai d a n s
  | .rori d a n => Sys2Proof.Machine.execRori d a n s
  | .slti d a imm => Sys2Proof.Machine.execSlti d a imm s
  | .sltui d a imm => Sys2Proof.Machine.execSltui d a imm s
  | .muli d a imm => Sys2Proof.Machine.execMuli d a imm s
  | .lui d imm => Sys2Proof.Machine.execLui d imm s
  | .lhi d imm => Sys2Proof.Machine.execLhi d imm s
  | .addpc d imm => Sys2Proof.Machine.execAddpc d imm s
  | .addiw d a imm => Sys2Proof.Machine.execAddiw d a imm s
  | .beq a b off => Sys2Proof.Machine.execBeq a b off s
  | .bne a b off => Sys2Proof.Machine.execBne a b off s
  | .blt a b off => Sys2Proof.Machine.execBlt a b off s
  | .bge a b off => Sys2Proof.Machine.execBge a b off s
  | .bltu a b off => Sys2Proof.Machine.execBltu a b off s
  | .bgeu a b off => Sys2Proof.Machine.execBgeu a b off s
  | .bpany a off => Sys2Proof.Machine.execBpany a off s
  | .bpnone a off => Sys2Proof.Machine.execBpnone a off s
  | .j off => Sys2Proof.Machine.execJ off s
  | .jal off => Sys2Proof.Machine.execJal off s
  | .jalr d a imm => Sys2Proof.Machine.execJalr d a imm s
  | .ldb d a imm => Sys2Proof.Machine.execLdb d a imm s
  | .ldbu d a imm => Sys2Proof.Machine.execLdbu d a imm s
  | .ldh d a imm => Sys2Proof.Machine.execLdh d a imm s
  | .ldhu d a imm => Sys2Proof.Machine.execLdhu d a imm s
  | .ldw d a imm => Sys2Proof.Machine.execLdw d a imm s
  | .ldwu d a imm => Sys2Proof.Machine.execLdwu d a imm s
  | .ldd d a imm => Sys2Proof.Machine.execLdd d a imm s
  | .stb a b off => Sys2Proof.Machine.execStb a b off s
  | .sth a b off => Sys2Proof.Machine.execSth a b off s
  | .stw a b off => Sys2Proof.Machine.execStw a b off s
  | .std a b off => Sys2Proof.Machine.execStd a b off s
  | .lda d a sc ord dw => Sys2Proof.Machine.execLda d a sc ord dw s
  | .str a b sc ord dw => Sys2Proof.Machine.execStr a b sc ord dw s
  | .swap d a b sc ord dw => Sys2Proof.Machine.execSwap d a b sc ord dw s
  | .aadd d a b sc ord dw => Sys2Proof.Machine.execAadd d a b sc ord dw s
  | .aand d a b sc ord dw => Sys2Proof.Machine.execAand d a b sc ord dw s
  | .aor d a b sc ord dw => Sys2Proof.Machine.execAor d a b sc ord dw s
  | .axor d a b sc ord dw => Sys2Proof.Machine.execAxor d a b sc ord dw s
  | .amin d a b sc ord dw => Sys2Proof.Machine.execAmin d a b sc ord dw s
  | .amax d a b sc ord dw => Sys2Proof.Machine.execAmax d a b sc ord dw s
  | .aminu d a b sc ord dw => Sys2Proof.Machine.execAminu d a b sc ord dw s
  | .amaxu d a b sc ord dw => Sys2Proof.Machine.execAmaxu d a b sc ord dw s
  | .cas d a b sc ord dw => Sys2Proof.Machine.execCas d a b sc ord dw s
  | .fence sc mask => Sys2Proof.Machine.execFence sc mask s
  | .vdecl d a b => Sys2Proof.Machine.execVdecl d a b s
  | .vsett d a => Sys2Proof.Machine.execVsett d a s
  | .vsetl d a => Sys2Proof.Machine.execVsetl d a s
  | .vcoll d a => Sys2Proof.Machine.execVcoll d a s
  | .vfetch a => Sys2Proof.Machine.execVfetch a s
  | .vprot d a => Sys2Proof.Machine.execVprot d a s
  | .vsave d a b => Sys2Proof.Machine.execVsave d a b s
  | .vload d a b => Sys2Proof.Machine.execVload d a b s
  | .cpy d a b => Sys2Proof.Machine.execCpy d a b s
  | .cpyR d a b => Sys2Proof.Machine.execCpyR d a b s
  | .cpy2 d a => Sys2Proof.Machine.execCpy2 d a s
  | .cpy2R d a => Sys2Proof.Machine.execCpy2R d a s
  | .stream d a => Sys2Proof.Machine.execStream d a s
  | .streamx a => Sys2Proof.Machine.execStreamx a s
  | .coll d a => Sys2Proof.Machine.execColl d a s
  | .tlread d a => Sys2Proof.Machine.execTlread d a s
  | .tlwait a b => Sys2Proof.Machine.execTlwait a b s
  | .syncw d a b => Sys2Proof.Machine.execSyncw d a b s
  | .launch d a => Sys2Proof.Machine.execLaunch d a s
  | .graph d a => Sys2Proof.Machine.execGraph d a s
  | .cancel d a => Sys2Proof.Machine.execCancel d a s
  | .cwait d a b => Sys2Proof.Machine.execCwait d a b s
  | .signal d a b => Sys2Proof.Machine.execSignal d a b s
  | .qpush a q => Sys2Proof.Machine.execQpush a q s
  | .qpop d q => Sys2Proof.Machine.execQpop d q s
  | .qpeek d q => Sys2Proof.Machine.execQpeek d q s
  | .qtry d q => Sys2Proof.Machine.execQtry d q s
  | .sysr d y => Sys2Proof.Machine.execSysr d y s
  | .sysw a y => Sys2Proof.Machine.execSysw a y s
  | .sysset d a y => Sys2Proof.Machine.execSysset d a y s
  | .sysclr d a y => Sys2Proof.Machine.execSysclr d a y s
  | .trap n => Sys2Proof.Machine.execTrap n s
  | .wmark d => Sys2Proof.Machine.execWmark d s
  | .tmark a => Sys2Proof.Machine.execTmark a s
  | .break n => Sys2Proof.Machine.execBreak n s
  | .vadd v => Sys2Proof.Machine.execVadd v s
  | .vsub v => Sys2Proof.Machine.execVsub v s
  | .vmul v => Sys2Proof.Machine.execVmul v s
  | .vmulh v => Sys2Proof.Machine.execVmulh v s
  | .vmin v => Sys2Proof.Machine.execVmin v s
  | .vmax v => Sys2Proof.Machine.execVmax v s
  | .vminu v => Sys2Proof.Machine.execVminu v s
  | .vmaxu v => Sys2Proof.Machine.execVmaxu v s
  | .vabs v => Sys2Proof.Machine.execVabs v s
  | .vneg v => Sys2Proof.Machine.execVneg v s
  | .vsadd v => Sys2Proof.Machine.execVsadd v s
  | .vssub v => Sys2Proof.Machine.execVssub v s
  | .vdiv v => Sys2Proof.Machine.execVdiv v s
  | .vand v => Sys2Proof.Machine.execVand v s
  | .vor v => Sys2Proof.Machine.execVor v s
  | .vxor v => Sys2Proof.Machine.execVxor v s
  | .vandn v => Sys2Proof.Machine.execVandn v s
  | .vnot v => Sys2Proof.Machine.execVnot v s
  | .vshl v => Sys2Proof.Machine.execVshl v s
  | .vshr v => Sys2Proof.Machine.execVshr v s
  | .vsha v => Sys2Proof.Machine.execVsha v s
  | .vclz v => Sys2Proof.Machine.execVclz v s
  | .vpopc v => Sys2Proof.Machine.execVpopc v s
  | .vfadd v => Sys2Proof.Machine.execVfadd v s
  | .vfsub v => Sys2Proof.Machine.execVfsub v s
  | .vfmul v => Sys2Proof.Machine.execVfmul v s
  | .vfmin v => Sys2Proof.Machine.execVfmin v s
  | .vfmax v => Sys2Proof.Machine.execVfmax v s
  | .vfabs v => Sys2Proof.Machine.execVfabs v s
  | .vfneg v => Sys2Proof.Machine.execVfneg v s
  | .vfsgn v => Sys2Proof.Machine.execVfsgn v s
  | .vexp2 v => Sys2Proof.Machine.execVexp2 v s
  | .vlog2 v => Sys2Proof.Machine.execVlog2 v s
  | .vrcp v => Sys2Proof.Machine.execVrcp v s
  | .vrsq v => Sys2Proof.Machine.execVrsq v s
  | .vsqrt v => Sys2Proof.Machine.execVsqrt v s
  | .vfdiv v => Sys2Proof.Machine.execVfdiv v s
  | .vfma v => Sys2Proof.Machine.execVfma v s
  | .vfms v => Sys2Proof.Machine.execVfms v s
  | .vfnma v => Sys2Proof.Machine.execVfnma v s
  | .vfnms v => Sys2Proof.Machine.execVfnms v s
  | .vcmpeq v => Sys2Proof.Machine.execVcmpeq v s
  | .vcmpne v => Sys2Proof.Machine.execVcmpne v s
  | .vcmplt v => Sys2Proof.Machine.execVcmplt v s
  | .vcmple v => Sys2Proof.Machine.execVcmple v s
  | .vcmpgt v => Sys2Proof.Machine.execVcmpgt v s
  | .vcmpge v => Sys2Proof.Machine.execVcmpge v s
  | .vcmpltu v => Sys2Proof.Machine.execVcmpltu v s
  | .vcmpleu v => Sys2Proof.Machine.execVcmpleu v s
  | .vcmpgtu v => Sys2Proof.Machine.execVcmpgtu v s
  | .vcmpgeu v => Sys2Proof.Machine.execVcmpgeu v s
  | .vfcmpeq v => Sys2Proof.Machine.execVfcmpeq v s
  | .vfcmpne v => Sys2Proof.Machine.execVfcmpne v s
  | .vfcmplt v => Sys2Proof.Machine.execVfcmplt v s
  | .vfcmple v => Sys2Proof.Machine.execVfcmple v s
  | .vfcmpgt v => Sys2Proof.Machine.execVfcmpgt v s
  | .vfcmpge v => Sys2Proof.Machine.execVfcmpge v s
  | .vfcmpun v => Sys2Proof.Machine.execVfcmpun v s
  | .vcvt v => Sys2Proof.Machine.execVcvt v s
  | .vscaleKa v => Sys2Proof.Machine.execVscaleKa v s
  | .vscaleKb v => Sys2Proof.Machine.execVscaleKb v s
  | .vmov v => Sys2Proof.Machine.execVmov v s
  | .vsplat v => Sys2Proof.Machine.execVsplat v s
  | .viota v => Sys2Proof.Machine.execViota v s
  | .vsel v => Sys2Proof.Machine.execVsel v s
  | .vgete v => Sys2Proof.Machine.execVgete v s
  | .vsete v => Sys2Proof.Machine.execVsete v s
  | .vrsum v => Sys2Proof.Machine.execVrsum v s
  | .vrsumo v => Sys2Proof.Machine.execVrsumo v s
  | .vrmax v => Sys2Proof.Machine.execVrmax v s
  | .vrmin v => Sys2Proof.Machine.execVrmin v s
  | .vrand v => Sys2Proof.Machine.execVrand v s
  | .vror v => Sys2Proof.Machine.execVror v s
  | .vscan v => Sys2Proof.Machine.execVscan v s
  | .vperm v => Sys2Proof.Machine.execVperm v s
  | .vslup v => Sys2Proof.Machine.execVslup v s
  | .vsldn v => Sys2Proof.Machine.execVsldn v s
  | .vcmpr v => Sys2Proof.Machine.execVcmpr v s
  | .vexpd v => Sys2Proof.Machine.execVexpd v s
  | .vrev v => Sys2Proof.Machine.execVrev v s
  | .vconfl v => Sys2Proof.Machine.execVconfl v s
  | .pand v => Sys2Proof.Machine.execPand v s
  | .por v => Sys2Proof.Machine.execPor v s
  | .pxor v => Sys2Proof.Machine.execPxor v s
  | .pandn v => Sys2Proof.Machine.execPandn v s
  | .pnot v => Sys2Proof.Machine.execPnot v s
  | .pset v => Sys2Proof.Machine.execPset v s
  | .pclr v => Sys2Proof.Machine.execPclr v s
  | .pfirst v => Sys2Proof.Machine.execPfirst v s
  | .pcnt v => Sys2Proof.Machine.execPcnt v s
  | .plt v => Sys2Proof.Machine.execPlt v s
  | .vld v => Sys2Proof.Machine.execVld v s
  | .vlds v => Sys2Proof.Machine.execVlds v s
  | .vldff v => Sys2Proof.Machine.execVldff v s
  | .vldseg v => Sys2Proof.Machine.execVldseg v s
  | .vst v => Sys2Proof.Machine.execVst v s
  | .vstu v => Sys2Proof.Machine.execVstu v s
  | .vsts v => Sys2Proof.Machine.execVsts v s
  | .vstseg v => Sys2Proof.Machine.execVstseg v s
  | .vldx v => Sys2Proof.Machine.execVldx v s
  | .vstx v => Sys2Proof.Machine.execVstx v s
  | .vstxa v => Sys2Proof.Machine.execVstxa v s
  | .vscldKa v => Sys2Proof.Machine.execVscldKa v s
  | .vscldKb v => Sys2Proof.Machine.execVscldKb v s
  | .mmode v => Sys2Proof.Machine.execMmode v s
  | .mfree v => Sys2Proof.Machine.execMfree v s
  | .mwld v => Sys2Proof.Machine.execMwld v s
  | .mmac v => Sys2Proof.Machine.execMmac v s
  | .mrsmac v => Sys2Proof.Machine.execMrsmac v s
  | .mdrain v => Sys2Proof.Machine.execMdrain v s
  | .mzeroMd v => Sys2Proof.Machine.execMzeroMd v s
  | .mzeroArray v => Sys2Proof.Machine.execMzeroArray v s
  | .mchain v => Sys2Proof.Machine.execMchain v s
  | .nopPacket p => Sys2Proof.Machine.execNopPacket p s
  | .jobnew p => Sys2Proof.Machine.execJobnew p s
  | .jobend p => Sys2Proof.Machine.execJobend p s
  | .phase p => Sys2Proof.Machine.execPhase p s
  | .graphPacket p => Sys2Proof.Machine.execGraphPacket p s
  | .launchPacket p => Sys2Proof.Machine.execLaunchPacket p s
  | .cancelPacket p => Sys2Proof.Machine.execCancelPacket p s
  | .reserve p => Sys2Proof.Machine.execReserve p s
  | .query p => Sys2Proof.Machine.execQuery p s
  | .packetFetch q => Sys2Proof.Machine.execPacketFetch q s
  | .packetRefetch q => Sys2Proof.Machine.execPacketRefetch q s
  | .ownerWrite m v => Sys2Proof.Machine.execOwnerWrite m v s
  | .heartbeat m v => Sys2Proof.Machine.execHeartbeat m v s
  | .sqtailWrite m q v => Sys2Proof.Machine.execSqtailWrite m q v s
  | .sqEnable m q v => Sys2Proof.Machine.execSqEnable m q v s
  | .sqDisable m q v => Sys2Proof.Machine.execSqDisable m q v s
  | .registerWrite m off v => Sys2Proof.Machine.execRegisterWrite m off v s
  | .linkidleWrite m l v => Sys2Proof.Machine.execLinkidleWrite m l v s
  | .i3cRegisterWrite bytes => Sys2Proof.Machine.execI3cRegisterWrite bytes s
  | .i3cRegisterRead bytes => Sys2Proof.Machine.execI3cRegisterRead bytes s
  | .rtCommit m v => Sys2Proof.Machine.execRtCommit m v s
  | .shootDown m v => Sys2Proof.Machine.execShootDown m v s
  | .bufvAdvance m v => Sys2Proof.Machine.execBufvAdvance m v s
  | .poolcfgWrite m die hi v => Sys2Proof.Machine.execPoolcfgWrite m die hi v s
  | .podcfgWrite m v => Sys2Proof.Machine.execPodcfgWrite m v s
  | .vsscfgWrite m v => Sys2Proof.Machine.execVsscfgWrite m v s
  | .epAging slot => Sys2Proof.Machine.execEpAging slot s
  | .placementClaim slot => Sys2Proof.Machine.execPlacementClaim slot s
  | .strandStart k => Sys2Proof.Machine.execStrandStart k s
  | .preemptStop k => Sys2Proof.Machine.execPreemptStop k s
  | .notifyWrite slot => Sys2Proof.Machine.execNotifyWrite slot s
  | .nodeDecide g n => Sys2Proof.Machine.execNodeDecide g n s
  | .waitNodePoll g n => Sys2Proof.Machine.execWaitNodePoll g n s
  | .waitNodeTimeout g n => Sys2Proof.Machine.execWaitNodeTimeout g n s
  | .copyNodeComplete g n => Sys2Proof.Machine.execCopyNodeComplete g n s
  | .vectorTrap k => Sys2Proof.Machine.execVectorTrap k s
  | .cancelDelivery k => Sys2Proof.Machine.execCancelDelivery k s
  | .cancelTimeout k => Sys2Proof.Machine.execCancelTimeout k s
  | .laneGroupIssue core lg => Sys2Proof.Machine.execLaneGroupIssue core lg s
  | .vectorRetire k => Sys2Proof.Machine.execVectorRetire k s
  | .retarget k ticket => Sys2Proof.Machine.execRetarget k ticket s
  | .copyComplete k ticket => Sys2Proof.Machine.execCopyComplete k ticket s
  | .syncWordUpdate k ticket => Sys2Proof.Machine.execSyncWordUpdate k ticket s
  | .stripLand k ticket => Sys2Proof.Machine.execStripLand k ticket s
  | .chainTimeout k => Sys2Proof.Machine.execChainTimeout k s
  | .chainStartTimeout k => Sys2Proof.Machine.execChainStartTimeout k s
  | .wfeTimeout k => Sys2Proof.Machine.execWfeTimeout k s
  | .linkSleep l => Sys2Proof.Machine.execLinkSleep l s
  | .linkWake l => Sys2Proof.Machine.execLinkWake l s
  | .linkWakeComplete l => Sys2Proof.Machine.execLinkWakeComplete l s
  | .snoopResend l => Sys2Proof.Machine.execSnoopResend l s
  | .wakeFail l => Sys2Proof.Machine.execWakeFail l s
  | .dieFailed die => Sys2Proof.Machine.execDieFailed die s
  | .uncorrectableError e => Sys2Proof.Machine.execUncorrectableError e s
  | .scrubPass die fixed bad => Sys2Proof.Machine.execScrubPass die fixed bad s
  | .flitAccept port bytes => Sys2Proof.Machine.execFlitAccept port bytes s
  | .ackTimeout port => Sys2Proof.Machine.execAckTimeout port s
  | .linkTrained port t => Sys2Proof.Machine.execLinkTrained port t s
  | .trainingAttemptTimeout port => Sys2Proof.Machine.execTrainingAttemptTimeout port s
  | .linkDownRetry port => Sys2Proof.Machine.execLinkDownRetry port s
  | .rowStale dev => Sys2Proof.Machine.execRowStale dev s
  | .transactionReissue tid => Sys2Proof.Machine.execTransactionReissue tid s
  | .admitRetry tid => Sys2Proof.Machine.execAdmitRetry tid s
  | .readMsg msg => Sys2Proof.Machine.execReadMsg msg s
  | .writeMsg msg => Sys2Proof.Machine.execWriteMsg msg s
  | .atomicMsg msg => Sys2Proof.Machine.execAtomicMsg msg s
  | .addMsg msg => Sys2Proof.Machine.execAddMsg msg s
  | .responseMsg msg => Sys2Proof.Machine.execResponseMsg msg s
  | .admitMsg msg => Sys2Proof.Machine.execAdmitMsg msg s
  | .admitansMsg msg => Sys2Proof.Machine.execAdmitansMsg msg s
  | .noticeMsg msg => Sys2Proof.Machine.execNoticeMsg msg s
  | .matchMsg msg => Sys2Proof.Machine.execMatchMsg msg s
  | .stopMsg msg => Sys2Proof.Machine.execStopMsg msg s
  | .agreqMsg msg => Sys2Proof.Machine.execAgreqMsg msg s
  | .proposeMsg msg => Sys2Proof.Machine.execProposeMsg msg s
  | .answerMsg msg => Sys2Proof.Machine.execAnswerMsg msg s
  | .commitMsg msg => Sys2Proof.Machine.execCommitMsg msg s
  | .cackMsg msg => Sys2Proof.Machine.execCackMsg msg s
  | .resumeMsg msg => Sys2Proof.Machine.execResumeMsg msg s
  | .memberLost ctx grp rank => Sys2Proof.Machine.execMemberLost ctx grp rank s
  | .chunkMsg msg => Sys2Proof.Machine.execChunkMsg msg s
  | .writtenMsg msg => Sys2Proof.Machine.execWrittenMsg msg s
  | .doneMsg msg => Sys2Proof.Machine.execDoneMsg msg s
  | .doorbellPoll qp => Sys2Proof.Machine.execDoorbellPoll qp s
  | .sendRingEntry qp => Sys2Proof.Machine.execSendRingEntry qp s
  | .incomingSend p => Sys2Proof.Machine.execIncomingSend p s
  | .incomingRdmaWrite p => Sys2Proof.Machine.execIncomingRdmaWrite p s
  | .incomingRdmaRead p => Sys2Proof.Machine.execIncomingRdmaRead p s
  | .rnrNakReceived p => Sys2Proof.Machine.execRnrNakReceived p s
  | .invalidRequestNak p => Sys2Proof.Machine.execInvalidRequestNak p s
  | .sequenceNak p => Sys2Proof.Machine.execSequenceNak p s
  | .rdmaRetransmitTimeout qp => Sys2Proof.Machine.execRdmaRetransmitTimeout qp s
  | .cnpReceived qp => Sys2Proof.Machine.execCnpReceived qp s
  | .rateIncrease qp => Sys2Proof.Machine.execRateIncrease qp s
  | .dbgOpen m v => Sys2Proof.Machine.execDbgOpen m v s
  | .dbgHold m v => Sys2Proof.Machine.execDbgHold m v s
  | .dbgResume m v => Sys2Proof.Machine.execDbgResume m v s
  | .dbgClose m v => Sys2Proof.Machine.execDbgClose m v s
  | .dbgdataWrite m v => Sys2Proof.Machine.execDbgdataWrite m v s
  | .rstep m v => Sys2Proof.Machine.execRstep m v s
  | .rwind m v => Sys2Proof.Machine.execRwind m v s
  | .rdrop m v => Sys2Proof.Machine.execRdrop m v s
  | .traceOpen m v => Sys2Proof.Machine.execTraceOpen m v s
  | .traceClose m v => Sys2Proof.Machine.execTraceClose m v s
  | .attestGo m v => Sys2Proof.Machine.execAttestGo m v s
  | .clockThrottle mhz => Sys2Proof.Machine.execClockThrottle mhz s
  | .temperatureSample temps => Sys2Proof.Machine.execTemperatureSample temps s
  | .undervoltStep d => Sys2Proof.Machine.execUndervoltStep d s
  | .errorRateCrossing d => Sys2Proof.Machine.execErrorRateCrossing d s
  | .remeasureEnd d => Sys2Proof.Machine.execRemeasureEnd d s
  | .holdExpiry d => Sys2Proof.Machine.execHoldExpiry d s
  | .d3hotEntry m => Sys2Proof.Machine.execD3hotEntry m s
  | .d0Entry m => Sys2Proof.Machine.execD0Entry m s
  | .illegalWord w => Sys2Proof.Machine.execIllegalWord w s
  | .instructionFetchFault code => Sys2Proof.Machine.execInstructionFetchFault code s
  | .linkRetrainEnd l ok => Sys2Proof.Machine.execLinkRetrainEnd l ok s
  | .correctedError e => Sys2Proof.Machine.execCorrectedError e s
  | .voltageDroop d => Sys2Proof.Machine.execVoltageDroop d s
  | .i3cDynamicAddress addr => Sys2Proof.Machine.execI3cDynamicAddress addr s
  | .rdmaAckReceived p => Sys2Proof.Machine.execRdmaAckReceived p s
  | .rdmaReadResponse p => Sys2Proof.Machine.execRdmaReadResponse p s
  | .incomingAtomicRequest p => Sys2Proof.Machine.execIncomingAtomicRequest p s
  | .rnrTimerExpiry qp => Sys2Proof.Machine.execRnrTimerExpiry qp s
  | .pfcPauseFrame port prio paused => Sys2Proof.Machine.execPfcPauseFrame port prio paused s
  | .vreplay => Sys2Proof.Machine.execVreplay s
  | .vsync => Sys2Proof.Machine.execVsync s
  | .eret => Sys2Proof.Machine.execEret s
  | .halt => Sys2Proof.Machine.execHalt s
  | .yield => Sys2Proof.Machine.execYield s
  | .wfe => Sys2Proof.Machine.execWfe s
  | .iflush => Sys2Proof.Machine.execIflush s
  | .vstop => Sys2Proof.Machine.execVstop s
  | .vnop => Sys2Proof.Machine.execVnop s
  | .heartbeatLapse => Sys2Proof.Machine.execHeartbeatLapse s
  | .placerPass => Sys2Proof.Machine.execPlacerPass s
  | .noticeOriginate => Sys2Proof.Machine.execNoticeOriginate s
  | .holdComplete => Sys2Proof.Machine.execHoldComplete s
  | .rstepBlockTimeout => Sys2Proof.Machine.execRstepBlockTimeout s
  | .queueResetTruncate => Sys2Proof.Machine.execQueueResetTruncate s
  | .deviceReset => Sys2Proof.Machine.execDeviceReset s
  | .lifetimeFlush => Sys2Proof.Machine.execLifetimeFlush s
  | .poweredHour => Sys2Proof.Machine.execPoweredHour s
  | .orderlyPowerDown => Sys2Proof.Machine.execOrderlyPowerDown s
  | .powerLoss => Sys2Proof.Machine.execPowerLoss s

end Sys2Proof.Machine
end

