-- ==== Sys2Proof/Machine/Sched.lean ====
section
/-! DEFINITION. Which agent moves and what it meets first: the boundary of a strand (R405), the entry of the vector queue that issues
(R140), a strand's turn, turns that no word encodes, what happens when the agenda names nothing, and how a test word is placed. -/

namespace Sys2Proof.Machine

/-! ### The boundary of a strand (R402, R405, R439, R442) -/

/-- The state that an instruction answers; unchanged for an instruction without a meaning. -/
def outState (o : Out) (s : State) : State := match o with | .next t => t | _ => s

/-- One core cycle passes at a core clock in MHz (R31). -/
def Clocks.cycle (c : Clocks) (mhz : Nat) : Clocks := { c with cyc := c.cyc + 1, ns := c.ns + (c.frac + 1000) / mhz, frac := (c.frac + 1000) % mhz }

/-- EXTERNAL marks in the log of a context. -/
def State.marks (s : State) (ctx : BitVec 16) : Nat := ((s.jobOf ctx).map fun j => (j.retr.log.filter fun e => bf e.hdr 63 60 == 5).length).getD 0

/-- The first destination byte of an unfinished copy leaves the device. -/
def State.copyLeaves (s : State) (c : Copy) : Bool :=
  match s.homeOf (s.me.creq c.word c.user c.ticket) c.to_ false with
  | .host _ _ => true
  | .remote _ => true
  | _ => false

/-- An instruction would append an EXTERNAL mark, or start a copy that does (R446). -/
def State.wouldMark (s : State) (i : Instr) : Bool :=
  let t := outState (exec i s) s
  decide (s.marks s.me.ctx < t.marks s.me.ctx) || (t.me.as.copies.any fun c => !(s.me.as.copies.any (·.ticket = c.ticket)) && s.copyLeaves c)

def isHalt : Instr → Bool
  | .halt => true
  | _ => false

/-- The oldest entry of the queue that has not completed, unless a trap bars it. -/
def Strand.nextVector (k : Strand) : Option Instr :=
  if k.due.vec.isSome then none
  else match k.q.find? fun e => !e.done with
    | some e => if e.fault.isSome then none else some e.instr
    | none => none

/-- The strand that an RSTEP runs, at its boundary (R446). -/
def State.stepBoundary (s : State) (force : Bool) : AtBoundary :=
  if !force && s.me.nextVector.any s.wouldMark then .taken (s.endRstep 5)
  else match s.fetchInstr with
    | .taken t => .taken t
    | .instr i t => if isHalt i || (!force && t.wouldMark i) then .taken (t.endRstep 5) else .instr i t

/-- What is left of a strand that is ended by force: it ends once its copies have stopped and its structures are answered (R403). -/
def State.forcedOn (s : State) (code : Byte) : State := if s.me.as.copies.isEmpty && s.me.as.subs.isEmpty then s.endForced code else s

/-- The pause of YIELD; and vector work that was to stop for an event that no longer stands goes on. -/
def State.pausedFirst (s : State) : Option State :=
  if s.clk.cyc < s.me.yieldUntil then some { s with clk := s.clk.cycle s.house.mhz.toNat }
  else if s.me.due.halting && !s.runsAlone s.me.id then some (s.setMe fun k => { k with due := { k.due with halting := false } })
  else none

/-- The events due before the instruction, in the order of R405: an end by force, pre-emption and hold, CANCEL, a vector trap, the restart trap,
EXTERNAL; and the pause of YIELD. None while the instruction waits for another device. -/
def State.dueFirst (s : State) : Option State :=
  let k := s.me
  let act := bt k.tr.tcause 15
  if k.due.forced.isSome then k.due.forced.map s.forcedOn
  else if s.awaitsRemote then none
  else if s.cp.victims.contains k.id then some (outState (execPreemptStop k.id s) s)
  else if s.jobHeld k.ctx && !s.runsAlone k.id then some (s.whenQuiet State.holdMe)
  else if k.due.cancel.isSome && !act then some (outState (execCancelDelivery k.id s) s)
  else if k.vectorDue.isSome && !act then some (outState (execVectorTrap k.id s) s)
  else if k.due.restart && !act then
    some ((({ s with free := s.free + 1 } : State).setMe fun x => { x with due := { x.due with restart := false } }).takeTrap k.pc cVSTATE (Config.freeWord s.free)
      (some (k.kept.parts.setWidth 64)) none false)
  else match k.due.ext with
    | some (word, detail) =>
      let own := decide (word.toNat < 2 ^ 32)
      if act && !own then s.pausedFirst
      else some ((s.setMe fun x => { x with due := { x.due with ext := none } }).takeTrap k.pc cEXTERNAL word (some detail) none own)
    | none => s.pausedFirst

/-- What the strand whose turn it is meets at its boundary. A strand stopped for the debugger lets its vector work stop there, and ends an
RSTEP of it. -/
def State.atBoundary (s : State) : AtBoundary :=
  if s.me.run = .held ∧ s.runsAlone s.me.id then .taken s.checkRstep
  else if s.me.run = .held then .taken (if s.me.q.isEmpty && s.me.as.streams.isEmpty then s else s.whenQuiet State.freezeMe)
  else if s.me.run ≠ .running then .taken s
  else match s.dueFirst with
    | some t => .taken t
    | none => match if s.runsAlone s.me.id then s.dbg.rstep else none with
      | none => s.fetchInstr
      | some (_, _, force, _) =>
        let t := s.checkRstep
        if t.dbg.rstep.isNone then .taken t else t.stepBoundary force

/-- An instruction that an RSTEP is not to run (R446). -/
def State.barred (s : State) (i : Instr) : Bool := match if s.runsAlone s.me.id then s.dbg.rstep else none with
  | some (_, _, force, _) => !force && s.wouldMark i
  | none => false

/-- The entry at a place of the queue may be performed: it has started wherever it has an element group, or meets the trap for which it is
never ready (R139, R140). -/
def State.mayIssue (s : State) (n : Nat) (i : Instr) : Bool :=
  match s.me.q[n]? with
  | none => false
  | some e => e.startedAll s.core || ((outState (exec i s) s).me.q[n]?).any (·.fault.isSome)

/-- The vector instruction of the strand whose turn it is that issues next. -/
def State.toIssue (s : State) : Option Instr :=
  if s.me.run ≠ .running ∨ s.me.due.halting then none
  else match s.me.nextVector with
    | none => none
    | some i => if s.barred i || !s.mayIssue s.me.place i then none else some i

/-- The entry at a place of the queue is performed, all of it or the elements of a mask (R346). -/
def State.performAt (s : State) (n : Nat) (mask : Option Nat) : State :=
  match s.me.q[n]? with
  | none => s
  | some e => (outState (exec e.instr (s.setMe fun k => { k with picked := some (n, mask) })) s).setMe fun k => { k with picked := none }

/-- Of a strand whose vector work is to stop, the first entry for which an answer of another device has come takes it. -/
def State.settleTurn (s : State) : State :=
  if !s.me.due.halting then s
  else match s.me.q.findIdx? fun e => s.fab.txs.any fun t => s.me.asked e t && t.resp.isSome with
    | some n => s.performAt n none
    | none => s

/-- Entry n of strand k's queue is performed before its turn, if it may be (R346). -/
def State.pickTurn (s : State) (k : SId) (n : Nat) (mask : Option Nat) : State :=
  let t := s.switchTo k
  if t.me.id ≠ k ∨ t.me.run ≠ .running ∨ t.me.due.halting ∨ t.me.due.vec.isSome ∨ !t.mayLead n ∨ (t.me.q[n]?).any (fun e => t.barred e.instr) then s
  else t.performAt n mask

/-- Strand k is brought in, if there is one. -/
def State.hasTurn (s : State) (k : SId) : Bool := (s.switchTo k).me.id == k

/-! ### Turns that execute no instruction -/

/-- Turns that execute no instruction. -/
def State.quietTurn (s : State) : Turn → State
  | .retire k => outState (execVectorRetire k s) s
  | .copyBytes k ticket n => s.driveCopy k ticket n
  | .nodeBytes g n k => s.driveNode g n k
  | .elapse ns cyc => ({ s with clk := { s.clk with ns := s.clk.ns + ns, cyc := s.clk.cyc + cyc } } : State).ageErrors
  | .evictD core ctx sector => s.mapCores fun c => if c.num = core then { c with l1 := c.l1.filter fun t => !(t.ctx == ctx && t.sector == sector) } else c
  | .forget die ctx va => { s with mem := { s.mem with tlbs := s.mem.tlbs.filter fun t => !(t.die == die && t.ctx == ctx && t.page == va >>> t.lo) } }
  | .staging core on =>
    let s : State := if on then s else { s with mem := s.mem.drainCore core }
    s.setCore { s.getCore core with staging := on }
  | .leave n => { s with mem := s.mem.leave n }
  | .hostHold on => { s with mem := { (if on then s.mem else s.mem.flushHost) with hostHold := on } }
  | .hostArrive n => { s with mem := s.mem.hostArrive n }
  | .hostWrite key bytes => if key < 2 ^ 64 then s else { s with mem := s.mem.putRaw key bytes }
  | .hostDead page dead => { s with mem := { s.mem with hostDead := if dead then setIns s.mem.hostDead page else setDel s.mem.hostDead page } }
  | .idleFlit port => s.idleFlit port
  | .frame port bytes => s.frameArrives port bytes
  | .peerTrains port => s.peerTrains port
  | .hubBusy port on => s.hubBusy port on
  | .pick k n mask => s.pickTurn k n mask
  | .answer k => s.driveSubmit k
  | .evictI core ctx sector => s.mapCores fun c => if c.num = core then { c with icache := c.icache.filter fun l => !(l.ctx == ctx && l.sector == sector) } else c
  | .disagree k i => s.onStrand k fun x => { x with due := { x.due with sdc := some i } }
  | .voted core pair => s.votedCorrection core pair
  | .evictReplay k a => s.onStrand k fun x => { x with replay := x.replay.filter (·.addr ≠ a) }
  | .evictLine ctx sector => { s with mem := { s.mem with lines := s.mem.lines.filter fun l => !(l.ctx == ctx && l.sector == sector) } }
  | _ => s

/-! ### When the agenda names nothing -/

/-- A strand's scalar turn, and its vector turn. -/
def State.scalarTurn (s : State) (k : SId) : State :=
  if !s.hasTurn k then s else match (s.switchTo k).atBoundary with
    | .taken t => t
    | .instr i t => outState (exec i t) t

def State.vectorTurn (s : State) (k : SId) : State :=
  if !s.hasTurn k then s else match (s.switchTo k).toIssue with
    | some i => outState (exec i (s.switchTo k)) s
    | none => (s.switchTo k).settleTurn

/-- Work on strand k that only brings it in has done nothing. -/
def worked (k : SId) (f : State → State) (s : State) : State := let t := f s; if t = s.switchTo k then s else t

/-- What strand k can do: retire, issue, execute. -/
def strandWork (k : SId) : List (State → State) :=
  [worked k fun s => outState (execVectorRetire k s) s, worked k fun s => s.vectorTurn k, worked k fun s => s.scalarTurn k]

/-- Cores whose strands have vector work that is still to start. -/
def State.busyCores (s : State) : List (BitVec 7) :=
  ((s.allStrands.filter fun k => k.run == .running && k.q.any fun e => !e.done && e.fault.isNone).map (·.core)).eraseDups

/-- One core cycle of the issue slots (R141). -/
def State.issueCycle (s : State) : State :=
  s.busyCores.foldl (fun s c => (List.range 16).foldl (fun s g => outState (execLaneGroupIssue c (BitVec.ofNat 4 g) s) s) s) s

/-- Queue pairs whose contexts in memory are not all zero. -/
def State.knownQps (s : State) : List (BitVec 12) :=
  if s.fab.qptab = 0 then []
  else
    let base := s.qpAt 0 0
    ((s.mem.ram.filter fun c => decide (base ≤ c.1 ∧ c.1 < base + 4096 * 128)).map fun c => BitVec.ofNat 12 ((c.1 - base) / 128)).eraseDups

/-- What the engines and the command processor can do without waiting for time. -/
def State.deviceWork (s : State) : List (State → State) :=
  let copies := (s.allStrands.map fun k => k.as.copies.map fun c => (k.id, c.ticket)).flatten
  let streams := (s.allStrands.map fun k => k.as.streams.map fun x => (k.id, x.ticket)).flatten
  let nodes := ((s.cp.graphs.filter (·.state == 0)).map fun g => (List.range g.nodes.length).map fun n => (BitVec.ofNat 13 g.slot, BitVec.ofNat 12 n)).flatten
  let run (f : State → Out) : State → State := fun s => outState (f s) s
  [State.doChecks, State.checkRstep] ++ (List.range 8).map (fun q => run (execPacketFetch (BitVec.ofNat 3 q))) ++ (List.range 8).map (fun q => run (execPacketRefetch (BitVec.ofNat 3 q)))
    ++ nodes.map (fun x => run (execNodeDecide x.1 x.2)) ++ nodes.map (fun x => run (execCopyNodeComplete x.1 x.2)) ++ nodes.map (fun x => run (execWaitNodePoll x.1 x.2))
    ++ (s.cp.owed ++ s.cp.launches.filter (·.notifyDue)).map (fun l => run (execNotifyWrite (BitVec.ofNat 13 l.slot)))
    ++ [State.tryCommit, State.driveSnaps, State.retryDbg, State.retryColls, State.retryRdma]
    ++ (s.allStrands.filter fun k => !k.as.subs.isEmpty).map (fun k => fun s => s.driveSubmit k.id)
    ++ (s.knownQps.map fun q => [run (execDoorbellPoll q), run (execSendRingEntry q)]).flatten
    ++ [run execPlacerPass, run execHoldComplete] ++ s.allStrands.map (fun k => run (execStrandStart k.id))
    ++ copies.map (fun x => run (execCopyComplete x.1 x.2)) ++ streams.map (fun x => run (execStripLand x.1 x.2))

/-- What falls due by time alone: each does nothing before its time. -/
def State.timerWork (s : State) : List (State → State) :=
  let run (f : State → Out) : State → State := fun s => outState (f s) s
  let nodes := ((s.cp.graphs.filter (·.state == 0)).map fun g => (List.range g.nodes.length).map fun n => (BitVec.ofNat 13 g.slot, BitVec.ofNat 12 n)).flatten
  let lns := (List.range 12).filter fun l => (s.link l).st != .awake || (s.link l).snoop.isSome || decide ((s.link l).idleSince < s.clk.ns)
  let prt := ((List.range 64).filter fun n => let p := vget s.fab.ports n {}; decide (p.since + 5000000 ≤ s.clk.ns) || decide (p.ackAt + 20000 ≤ s.clk.ns)).map (BitVec.ofNat 6)
  let qps := s.rdma.qps.map (·.qp)
  let doms := (List.range 37).map (BitVec.ofNat 6)
  let members := (s.groups.map fun g => (List.range g.members.length).map fun n => (g.ctx, g.grp, BitVec.ofNat 9 n)).flatten
  [State.ageErrors, run execHeartbeatLapse, run execRstepBlockTimeout, run execQueueResetTruncate] ++ nodes.map (fun x => run (execWaitNodeTimeout x.1 x.2))
    ++ (s.cp.launches.filter (·.state == 0)).map (fun l => run (execPlacementClaim (BitVec.ofNat 13 l.slot)))
    ++ s.allStrands.map (fun k => worked k.id (run (execCancelTimeout k.id))) ++ s.allStrands.map (fun k => run (execChainTimeout k.id))
    ++ s.allStrands.map (fun k => run (execChainStartTimeout k.id)) ++ s.fab.txs.map (fun t => run (execTransactionReissue t.tid))
    ++ s.fab.txs.map (fun t => run (execAdmitRetry t.tid)) ++ members.map (fun x => run (execMemberLost x.1 x.2.1 x.2.2))
    ++ lns.map (fun l => fun s => s.linkTime l) ++ lns.map (fun l => run (execSnoopResend (BitVec.ofNat 4 l))) ++ lns.map (fun l => run (execDieFailed (BitVec.ofNat 4 l)))
    ++ lns.map (fun l => run (execLinkSleep (BitVec.ofNat 4 l))) ++ prt.map (fun n => run (execAckTimeout n)) ++ prt.map (fun n => run (execTrainingAttemptTimeout n))
    ++ prt.map (fun n => run (execLinkDownRetry n)) ++ s.fab.replica.map (fun r => run (execRowStale r.dev)) ++ [run execNoticeOriginate, run execPoweredHour]
    ++ qps.map (fun q => run (execRnrTimerExpiry q)) ++ qps.map (fun q => run (execRdmaRetransmitTimeout q)) ++ qps.map (fun q => run (execRateIncrease q))
    ++ doms.map (fun d => run (execErrorRateCrossing d)) ++ doms.map (fun d => run (execRemeasureEnd d)) ++ doms.map (fun d => run (execHoldExpiry d))
    ++ doms.map (fun d => run (execUndervoltStep d))

/-- The state but for the idle times of the die links, which an access that only asks again begins anew. -/
def State.calm (s : State) : State := { s with links := s.links.map fun x => { x with idleSince := 0, idleNow := 0 } }

/-- The state after these up to the first that does more than cross a link, and whether there is one. -/
def State.firstChange (s : State) : List (State → State) → Bool × State
  | [] => (false, s)
  | f :: t => let s' := f s; if s'.calm = s.calm then s'.firstChange t else (true, s')

/-- What happens when the agenda names nothing: work of the command processor and the engines comes first, then what time has made due, then
the strands in turn; one cycle of the issue slots passes with it. When nothing can be done, 1 µs passes: as many cycles as the core clock has
MHz (R31). -/
def State.idleStep (s : State) : State :=
  let s := s.issueCycle
  let mhz := s.house.mhz.toNat
  let ks := (s.allStrands.filter fun k => k.run != .idle).map (·.id)
  let turn := s.clk.cyc % max 1 ks.length
  match s.firstChange (s.deviceWork ++ s.timerWork ++ ((ks.drop turn ++ ks.take turn).map strandWork).flatten) with
  | (true, t) => { t with clk := t.clk.cycle mhz }
  | (false, t) => { t with clk := { t.clk with ns := t.clk.ns + 1000, cyc := t.clk.cyc + mhz } }

/-! ### Placing a test word -/

/-- The strand ready to run from its PC with nothing due. -/
def Strand.atRest (k : Strand) : Strand := { k with run := .running, due := {}, yieldUntil := 0, picked := none }

/-- Nothing stands before the strand's next instruction: no hold, no pre-emption, no transaction of its own. -/
def State.unbarred (s : State) : State :=
  { s with me := s.me.atRest, cp := { s.cp with victims := [] }, dbg := { s.dbg with ctl := s.dbg.ctl &&& 0x9FFFFFFFFFFFFFFF, rstep := none } }

/-- Places a 32-bit word where the strand's next fetch finds it: in its core's instruction cache. -/
def State.placeScalar (s : State) (w : Nat) : State :=
  let line := putAt (List.replicate 256 0) (s.me.pc.toNat % 256) (leBytes 4 w)
  let t := s.unbarred
  { t with core := { t.core with icache := ⟨s.me.ctx, s.me.pc.toNat / 256, line, true⟩ :: t.core.icache }, agenda := [.scalar s.me.id] }

/-- Places a 64-bit word as the one entry of the strand's vector queue, as a VFETCH of a block of it would, started at every lane group. -/
def State.placeVector (s : State) (w : Nat) : State :=
  let t := s.unbarred
  let t : State := { t with agenda := [.vector s.me.id] }
  match decodeVector (BitVec.ofNat 64 w) with
  | none => t
  | some i =>
    let lanes := t.core.lanes t.me.cfg.vpm
    let e : QEntry := { instr := i, word := w64 w, block := 0, idx := 0, fetch := t.me.fetches, snap := { regs := t.me.regs, cfg := t.me.cfg }, lanes := some lanes, started := lanes }
    t.setMe fun k => { k with q := [e], win := [] }

end Sys2Proof.Machine
end

