-- ==== Sys2Proof/Machine/Step.lean ====
section
/-! DEFINITION. One step of the device: the turn that the agenda names, or what happens when it names none. -/

namespace Sys2Proof.Machine

/-- A turn is performed. A turn of a strand that is not there does nothing. -/
def perform (t : Turn) (s : State) : Host.Outcome State Fault Refusal :=
  match t with
  | .scalar k =>
    if !s.hasTurn k then .next s
    else match (s.switchTo k).atBoundary with
      | .taken s' => .next s'
      | .instr i s' => exec i s'
  | .vector k =>
    if !s.hasTurn k then .next s
    else match (s.switchTo k).toIssue with
      | some i => exec i (s.switchTo k)
      | none => .next (s.switchTo k).settleTurn
  | .event i => exec i s
  | t => .next (s.quietTurn t)

/-- One step of the device. -/
def step (s : State) : Host.Outcome State Fault Refusal :=
  match s.agenda with
  | [] => .next s.idleStep
  | t :: rest => perform t { s with agenda := rest }

/-- The state in which the next step fetches and runs the instruction whose bits are w. -/
def State.withFetchWord (s : State) (nbits w : Nat) : State :=
  if nbits = 32 then s.placeScalar w else s.placeVector w

end Sys2Proof.Machine
end

