-- ==== Sys2Proof/Safety.lean ====
section
/-! DEFINITION. The terms in which statements speak: the canonical form of memory (R306), an instruction that nothing delays or
stops, and what one leaves of the machine besides its result. -/

namespace Sys2Proof.Machine

/-- The byte map of the device and the hosts is in its canonical form. -/
def State.ramOk (s : State) : Prop := s.mem.ram.wf = true

/-! ### Scalar instructions -/

/-- Nothing delays or stops a scalar instruction that reads and writes these registers: none of them is pending (R127, R128),
none that it reads carries an unreported copy fault (R322) or a storage error (R420). -/
structure State.Clear (s : State) (reads writes : List Reg) : Prop where
  settled : ∀ r ∈ reads ++ writes, s.me.pending r = false
  faultless : ∀ r ∈ reads, s.me.faultOf r = none
  stored : ∀ r ∈ reads, r ∉ s.me.spoiled.sregs

/-- The strand t is k after an instruction that wrote x to d, changed nothing else but the PC, and went on to pc: s0 discards the write
(R86), a register that is written no longer carries a copy status or a storage error (R322, R420), the instruction counts in ICNT (R435),
and the strand waits in no instruction. -/
def Strand.wentOn (k : Strand) (d : Reg) (x pc : Word) : Strand :=
  let l := if d = 0 then k else
    { k with regs := k.regs.set d.toNat x d.isLt, as := { k.as with stat := k.as.stat.filter (·.1 ≠ d) },
             spoiled := { k.spoiled with sregs := k.spoiled.sregs.filter (· ≠ d) } }
  { l with pc := pc, icnt := min (2 ^ 32 - 1) (k.icnt + 1), qwait := none, tlWait := none, wfeSince := none }

/-- An execution of i in s completes: it writes x to d and goes on to pc, and leaves the rest of the machine as it is. -/
def State.Gives (s : State) (i : Instr) (d : Reg) (x pc : Word) : Prop :=
  exec i s = .next { s with me := s.me.wentOn d x pc }

/-- An execution of i in s completes with a result in d and advances the PC by 4 (R152). -/
def State.Computes (s : State) (i : Instr) (d : Reg) (x : Word) : Prop := s.Gives i d x (s.me.pc + 4)

/-! ### Traps -/

/-- A trap with this code enters the strand's handler: there is one, none is active, no debugger takes the code (R402, R442), and no trace
session records traps of the context (R451). -/
structure State.MayEnter (s : State) (code : Byte) : Prop where
  handler : s.me.tr.tvec ≠ 0
  idle : s.me.tr.tcause.getLsbD 15 = false
  nodebug : s.debugStops code = false
  untraced : (s.trc.open_ && bf s.trc.cfg 47 32 == s.me.ctx.toNat && s.trc.cfg.getLsbD 6) = false

/-- The strand k after the entry of a trap without restart indices (R402): the old level, code and addresses are saved, the level is system,
LCLK is one more, and control is at TVEC. -/
def Strand.inHandler (k : Strand) (code : Byte) (info : Word) (addr : Option Word) : Strand :=
  { k with
    tr := { k.tr with
      tcause := (k.tr.tcause &&& 0x20000) ||| 0x8000 ||| (if k.sys then 0x4000 else 0) ||| code.setWidth 64
      tpc := k.pc, tinfo := info, taddr := addr.getD k.tr.taddr }
    sys := true, lclk := k.lclk + 1, pc := k.tr.tvec, qwait := none, tlWait := none, wfeSince := none }

/-- An execution of i takes this trap, and leaves the rest of the machine as it is. -/
def State.Traps (s : State) (i : Instr) (code : Byte) (info : Word) (addr : Option Word) : Prop :=
  exec i s = .next { s with me := s.me.inHandler code info addr }

/-! ### Accesses to memory -/

/-- The machine t differs from s at most in the strand, in memory, in what the L1 directory tracks, and in when the links to the hub last carried
traffic, none of which changes its state (R16, R281). -/
def State.sameButAccess (s t : State) : Prop :=
  t = { s with me := t.me, mem := t.mem, core := t.core, cores := t.cores, links := t.links } ∧
    (∀ n, { t.getCore n with l1 := [] } = { s.getCore n with l1 := [] }) ∧ ∀ l, (t.link l).st = (s.link l).st

/-- Nothing stands between an access and memory at p: no write waits in the stage of a core (R343); to a host no write is under way or held, and
the host answers (R170, R345). -/
structure MemSys.Open (m : MemSys) (p : Spot) : Prop where
  unstaged : m.stage = []
  hosts : p.host = true → m.posted = [] ∧ m.hostHold = false ∧ m.hostFails p.key = false

/-- A write of n bytes at a by r goes straight to memory at p: nothing stands between, the core puts no write into its stage (R343), and no
running collective works on the bytes (R399). -/
structure State.Through (s : State) (r : Req) (a : Word) (n : Nat) (p : Spot) : Prop where
  way : s.mem.Open p
  unstaged : (s.getCore r.core).staging = false
  apart : s.disturbs r a n = false

/-- Every link to the hub carries traffic and holds nothing (R16, R298). -/
def State.linksOpen (s : State) : Prop := ∀ l, (s.link l).st = .awake ∧ (s.link l).waits = [] ∧ (s.link l).snoop = none

/-- A write of these bytes at p, within one sector, takes memory m to m': the bytes stand there under the tag of p, every other byte of the
sector reads under that tag as before, and every other sector, its tag and every mark of poison are what they were (R306); a strip slot that is
being filled may note the write (R337). -/
def MemSys.Wrote (m m' : MemSys) (p : Spot) (bs : List Byte) : Prop :=
  (∀ j, j < bs.length → m'.byteUnder p.tag (p.key + j) = bs.getD j 0) ∧
  (∀ k, k / 256 = p.key / 256 → k < p.key ∨ p.key + bs.length ≤ k → m'.byteUnder p.tag k = m.byteUnder p.tag k) ∧
  (∀ k, k / 256 ≠ p.key / 256 → m'.ram.get k = m.ram.get k) ∧
  (∀ sec, sec ≠ p.key / 256 → kvGet m'.enc sec = kvGet m.enc sec) ∧
  m' = { m with ram := m'.ram, enc := m'.enc, watch := m'.watch }

/-- What goes before a write of n bytes at p: an EXTERNAL mark for host memory, else the old value in the log (R117, R438). -/
def State.logged (s : State) (r : Req) (a : Word) (p : Spot) (n : Nat) : Appended :=
  if p.host then s.mark r 1 a else s.logOld r a p n

/-- An access of r to a lands at p whatever else memory holds, and its translation records nothing more. -/
def State.Steady (s : State) (r : Req) (a : Word) (n : Need) (p : Spot) : Prop :=
  ∀ u : State, u.crew = s.crew → u.crews = s.crews → u.mem.live = s.mem.live → u.mem.failed = s.mem.failed → u.mem.lines = s.mem.lines →
    u.linksOpen → u.find r a n = .spot p u.mem

/-- An access of r to a lands at p and its translation leaves memory as it is, however the links stand open and whatever the scalar caches
hold. -/
def State.LandsAt (s : State) (r : Req) (a : Word) (n : Need) (p : Spot) : Prop :=
  s.mem.Open p ∧ ∀ u : State, s.sameButAccess u → u.mem = s.mem → u.linksOpen → u.find r a n = .spot p s.mem

/-- A read that lands so. -/
def State.ReadsAt (s : State) (r : Req) (a : Word) (p : Spot) : Prop := s.LandsAt r a .read p

/-- No collective of the strand's job is under way (R384, R399). -/
def State.noColl (s : State) : Prop := ∀ g ∈ s.groups, g.ctx = s.me.ctx → g.colls = []

/-! ### Vector instructions -/

/-- The entry of the strand's vector queue on which an execution of i acts, its context, and the lane groups that serve it. -/
def State.atEntry (s : State) (i : Instr) : QEntry := (s.entryFor i).2.1
def State.entryCtx (s : State) (i : Instr) : VCtx := s.vctx (s.atEntry i)
def State.entryLanes (s : State) (i : Instr) : List Nat := (s.atEntry i).lanes.getD (s.core.lanes (s.entryCtx i).vpm)

/-- Nothing delays or stops a vector instruction that reads and names these: what it accesses is the strand's own (R415), its operands
pass the checks at issue (R203, R212), lane groups are free (R138), no predicate it reads lost its storage (R420), no earlier asynchronous
write to its scalar destination is under way (R128), it has not been stopped part-way and has written nothing yet (R215, R409), and its copies
agree (R218). The lane groups that serve it are different ones of the sixteen (R138). -/
structure State.VReady (s : State) (i : Instr) (need : Needs) : Prop where
  own : s.foreignIn (need.parts i) = 0
  operands : ∀ o ∈ need.ops, s.operandOk (s.entryCtx i) o.2 o.1 = true
  lanes : s.entryLanes i ≠ []
  mapped : (s.entryLanes i).Nodup ∧ ∀ h ∈ s.entryLanes i, h < 16
  preds : ∀ p ∈ need.preds, p ≠ 0 → p ∉ s.me.spoiled.preds
  dest : ∀ d, vScalarDest i = some d → d ∉ s.me.asyncDests
  fresh : (s.atEntry i).rest = none
  unwritten : (s.atEntry i).clean = 0 ∧ (s.atEntry i).soiled = 0
  agree : s.me.due.sdc = none

/-- The instruction is one that the decoder gives, and the captured VT names a format and a group size that VSETT admits (R102, R201). -/
structure State.VAdmitted (s : State) (i : Instr) : Prop where
  formed : i.wf = true
  format : (s.entryCtx i).f.valid = true
  group : (s.entryCtx i).g ≤ 8

/-- The queue after i completed with these flags: its entry is marked done and keeps the flags until it retires (R132, R135). -/
def State.queueDone (s : State) (i : Instr) (flags : Nat) : List QEntry :=
  (s.entryFor i).2.2.me.q.set (s.entryFor i).1
    { s.atEntry i with lanes := some (s.entryLanes i), done := true, rest := none, flags := (s.atEntry i).flags ||| w64 flags }

/-- The flags that the active elements below VL set together. -/
def State.allFlags (s : State) (c : VCtx) (v : VArgs) (fl : Nat → Nat) : Nat := ((s.activeIdx c v).map fl).foldl Nat.lor 0

/-- The mark of the register that holds element k of an operand lies above it; an accumulator has no mark. -/
def State.marked (s : State) (c : VCtx) (d : Dest) (k : Nat) : Prop :=
  match d with
  | .reg r => k % c.mvl < (vget s.me.vs.regs (r + k / c.mvl) {}).mark
  | _ => True

/-- Bit k of predicate p as it is stored. -/
def State.bit (s : State) (p : Reg) (k : Nat) : Bool := (s.me.vs.preds[p.toNat]'p.isLt).getLsbD k

/-- An execution of i in s completes, setting these flags, and gives every element k below VL of a register group for which `new k` is a
pattern that pattern, with its padding bits (R189). An element for which it is none becomes zero under Z; without it an element below the mark
keeps its pattern. All else stays as it is (R204, R241). -/
def State.GivesMoves (s : State) (i : Instr) (v : VArgs) (d : Dest) (flags : Nat) (new : Nat → Option Nat) : Prop :=
  let c := s.entryCtx i
  ∃ t : State, exec i s = .next t ∧
    t.me.q = s.queueDone i flags ∧
    (∀ k x, k < c.vl → new k = some x → (t.elem c c.f d.src k).1 = c.f.pad x) ∧
    (∀ k, k < c.vl → new k = none → v.z = true → (t.elem c c.f d.src k).1 = 0) ∧
    (∀ k, k < c.vl → new k = none → v.z = false → s.marked c d k → (t.elem c c.f d.src k).1 = (s.elem c c.f d.src k).1) ∧
    (∀ r, (∀ x, d = .reg x → r < x ∨ x + c.g ≤ r) → vget t.me.vs.regs r {} = vget s.me.vs.regs r {}) ∧
    (∀ m, d ≠ .acc m → vget t.me.vs.accs m {} = vget s.me.vs.accs m {}) ∧
    t = { s with me := { s.me with q := t.me.q, vs := { s.me.vs with regs := t.me.vs.regs, accs := t.me.vs.accs } } }

/-- An element-wise instruction (R213): every active element k below VL receives the pattern and the flags `res k`. -/
def State.GivesElems (s : State) (i : Instr) (v : VArgs) (d : Dest) (res : Nat → Res) : Prop :=
  s.GivesMoves i v d (s.allFlags (s.entryCtx i) v fun k => (res k).2) fun k => if s.active v k then some (res k).1 else none

/-- An execution of i in s completes, setting these flags, and gives every bit k below VL of predicate p for which `new k` is a value that
value; of the others below VL, Z clears each and without Z each stays. From VL upward the bits clear under TA and stay without it. A
predicate written whole no longer carries a storage error (R420). Every other predicate and all else stay as they are (R204, R228, R241). -/
def State.GivesMarks (s : State) (i : Instr) (v : VArgs) (p : Reg) (flags : Nat) (new : Nat → Option Bool) : Prop :=
  let c := s.entryCtx i
  ∃ t : State, exec i s = .next t ∧
    t.me.q = s.queueDone i flags ∧
    (∀ k, k < 8192 → k < c.vl → t.bit p k = (new k).getD (if v.z then false else s.bit p k)) ∧
    (∀ k, k < 8192 → c.vl ≤ k → t.bit p k = (if c.ta then false else s.bit p k)) ∧
    (∀ r k, r ≠ p → t.bit r k = s.bit r k) ∧
    t = { s with me := { s.me with q := t.me.q, vs := { s.me.vs with preds := t.me.vs.preds },
                                   spoiled := { s.me.spoiled with preds := if (c.ta || c.vl = 8192) && (v.p == 0 || v.z)
                                     then s.me.spoiled.preds.filter (· ≠ p) else s.me.spoiled.preds } } }

/-- An element-wise instruction that writes a predicate (R106, R111): every active bit k below VL receives the value and the flags `res k`. -/
def State.GivesBits (s : State) (i : Instr) (v : VArgs) (p : Reg) (res : Nat → Bool × Nat) : Prop :=
  s.GivesMarks i v p (s.allFlags (s.entryCtx i) v fun k => (res k).2) fun k => if s.active v k then some (res k).1 else none

/-- An execution of i in s completes: it writes x to scalar register d (R109, R128), and leaves all but its queue entry as it is. -/
def State.GivesScalar (s : State) (i : Instr) (d : Reg) (x : Word) (flags : Nat) : Prop :=
  exec i s = .next { s with me := { s.me.w d x with q := s.queueDone i flags } }

/-- No active element below VL of an operand carries poison. -/
def State.unpoisoned (s : State) (i : Instr) (v : VArgs) (f : Fmt) (o : Src) : Prop :=
  ∀ k, k < (s.entryCtx i).vl → s.active v k = true → (s.elem (s.entryCtx i) f o k).2 = false

/-! ### Command packets -/

/-- The packet is the next of its queue, which is enabled, and its completion entry goes to a ring that can be written, of which no Retriever log
hears and no trace session (R65, R68, R70, R438, R454); no write to a host is under way (R345). -/
structure State.Takes (s : State) (p : Packet) : Prop where
  next : s.accepts p = true
  enabled : (s.queue p.q.toNat).st = 1 ∧ (s.queue p.q.toNat).sqcfg.getLsbD 8 = true
  ring : s.ringDead (s.queue p.q.toNat).cqbase (16 * ((p.stamp.toNat - 1) % (s.queue p.q.toNat).size)) = false
  unlogged : (s.queue p.q.toNat).cqbase.getLsbD 0 = true ∨ ∀ j ∈ s.cp.jobs, j.ctx = p.ctx → j.policy.en = false
  untraced : s.trc.cap = false
  direct : if (s.queue p.q.toNat).cqbase.getLsbD 0 = true then
      s.mem.poisoned (ringKey (s.queue p.q.toNat).cqbase (16 * ((p.stamp.toNat - 1) % (s.queue p.q.toNat).size))) = false
    else s.mem.hostHold = false ∧ s.mem.posted = []

/-- The byte number of the completion entry of a packet (R70). -/
def State.entryKey (s : State) (p : Packet) : Nat :=
  ringKey (s.queue p.q.toNat).cqbase (16 * ((p.stamp.toNat - 1) % (s.queue p.q.toNat).size))

/-- An execution of i in s accepts the packet, and leaves the machine as u but for its queue and its completion entry: SQHEAD is its number, the
next queue has its turn (or had it when the packet began to wait), and the entry holds the number and the result (R65, R69, R70). -/
def State.Carries (s : State) (i : Instr) (p : Packet) (u : State) (result : Word) : Prop :=
  ∃ t : State, exec i s = .next t ∧
    (t.queue p.q.toNat).head = p.stamp ∧ (t.queue p.q.toNat).tail = (s.queue p.q.toNat).tail ∧ (t.queue p.q.toNat).st = 1 ∧
    (∀ n, n ≠ p.q.toNat → t.queue n = s.queue n) ∧ t.cp.turn = (if (s.queue p.q.toNat).held = some p then s.cp.turn else (p.q.toNat + 1) % 8) ∧
    u.mem.Wrote t.mem ⟨s.entryKey p, 0, false, false⟩ (leBytes 8 p.stamp.toNat ++ leBytes 8 result.toNat) ∧
    t = { u with mem := t.mem, cp := { u.cp with queues := t.cp.queues, turn := t.cp.turn } }

end Sys2Proof.Machine
end

