-- ==== Sys2Proof/Certificates/Slice0/Obligations.lean ====
section
/-! DEFINITION. The statements for the provers. -/

section

open Sys2Proof Sys2Proof.Machine

/-- R155: each ALU-R instruction but division and HMIX writes the table's function of S(A) and S(B) to s(D), as 64-bit values, and leaves all
else as it is but the PC, which advances by 4, and ICNT. R155: the counting and reversing forms, which read S(A) alone. A leading zero count
of n says that the bits above bit 63 − n are zeros and bit 63 − n is a one, a trailing count the same from below, and the population count
is the number of bit positions that hold a one. R156: division never traps. Every divisor has its result: truncation toward zero, the sign
of a remainder is that of a, a division by 0 gives all ones and the remainder a, and −2^63 by −1 gives −2^63 with remainder 0. R157: HMIX
gives the mixing function of S(A) and S(B); for a fixed S(B) it is a permutation of S(A). The words of the ALU-R group: OP 0x01 with D, A
and B and the F of R155's table, B zero in the unary forms. -/
def Obligations.RegisterArithmetic : Prop :=
  (∀ (d a b : Reg) (s : State), s.Clear [a, b] [d] →
     s.Computes (.add d a b) d (s.s a + s.s b) ∧
     s.Computes (.sub d a b) d (s.s a - s.s b) ∧
     s.Computes (.and d a b) d (s.s a &&& s.s b) ∧
     s.Computes (.or d a b) d (s.s a ||| s.s b) ∧
     s.Computes (.xor d a b) d (s.s a ^^^ s.s b) ∧
     s.Computes (.andn d a b) d (s.s a &&& ~~~ s.s b) ∧
     s.Computes (.orn d a b) d (s.s a ||| ~~~ s.s b) ∧
     s.Computes (.xnor d a b) d (~~~ (s.s a ^^^ s.s b)) ∧
     s.Computes (.shl d a b) d (s.s a <<< ((s.s b).toNat % 64)) ∧
     s.Computes (.shr d a b) d (s.s a >>> ((s.s b).toNat % 64)) ∧
     s.Computes (.sha d a b) d (BitVec.ofInt 64 ((s.s a).toInt / 2 ^ ((s.s b).toNat % 64))) ∧
     s.Computes (.ror d a b) d ((s.s a >>> ((s.s b).toNat % 64)) ||| (s.s a <<< (64 - (s.s b).toNat % 64))) ∧
     s.Computes (.mul d a b) d (BitVec.ofNat 64 ((s.s a).toNat * (s.s b).toNat)) ∧
     s.Computes (.mulh d a b) d (BitVec.ofInt 64 ((s.s a).toInt * (s.s b).toInt / 2 ^ 64)) ∧
     s.Computes (.mulhu d a b) d (BitVec.ofNat 64 ((s.s a).toNat * (s.s b).toNat / 2 ^ 64)) ∧
     s.Computes (.min d a b) d (BitVec.ofInt 64 (min (s.s a).toInt (s.s b).toInt)) ∧
     s.Computes (.max d a b) d (BitVec.ofInt 64 (max (s.s a).toInt (s.s b).toInt)) ∧
     s.Computes (.minu d a b) d (BitVec.ofNat 64 (min (s.s a).toNat (s.s b).toNat)) ∧
     s.Computes (.maxu d a b) d (BitVec.ofNat 64 (max (s.s a).toNat (s.s b).toNat)) ∧
     s.Computes (.seq d a b) d (if s.s a = s.s b then 1 else 0) ∧
     s.Computes (.sne d a b) d (if s.s a = s.s b then 0 else 1) ∧
     s.Computes (.slt d a b) d (if (s.s a).toInt < (s.s b).toInt then 1 else 0) ∧
     s.Computes (.sltu d a b) d (if (s.s a).toNat < (s.s b).toNat then 1 else 0) ∧
     s.Computes (.sle d a b) d (if (s.s a).toInt ≤ (s.s b).toInt then 1 else 0) ∧
     s.Computes (.sleu d a b) d (if (s.s a).toNat ≤ (s.s b).toNat then 1 else 0) ∧
     s.Computes (.addw d a b) d (((s.s a + s.s b).extractLsb' 0 32).signExtend 64) ∧
     s.Computes (.subw d a b) d (((s.s a - s.s b).extractLsb' 0 32).signExtend 64) ∧
     s.Computes (.mulw d a b) d (((s.s a * s.s b).extractLsb' 0 32).signExtend 64)) ∧
  (∀ (d a : Reg) (s : State), s.Clear [a] [d] →
     (∃ n, n ≤ 64 ∧ s.Computes (.clz d a) d (BitVec.ofNat 64 n) ∧
       (∀ j, 64 - n ≤ j → j < 64 → (s.s a).getLsbD j = false) ∧ (n < 64 → (s.s a).getLsbD (63 - n) = true)) ∧
     (∃ n, n ≤ 64 ∧ s.Computes (.ctz d a) d (BitVec.ofNat 64 n) ∧
       (∀ j, j < n → (s.s a).getLsbD j = false) ∧ (n < 64 → (s.s a).getLsbD n = true)) ∧
     s.Computes (.popc d a) d (BitVec.ofNat 64 ((List.range 64).filter fun j => (s.s a).getLsbD j).length) ∧
     (∃ x : Word, s.Computes (.brev d a) d x ∧ ∀ j, j < 64 → x.getLsbD j = (s.s a).getLsbD (63 - j)) ∧
     (∃ x : Word, s.Computes (.bswap d a) d x ∧ ∀ j, j < 8 → x.extractLsb' (8 * j) 8 = (s.s a).extractLsb' (8 * (7 - j)) 8)) ∧
  (∀ (d a b : Reg) (s : State), s.Clear [a, b] [d] →
     s.Computes (.div d a b) d (if s.s b = 0 then 0xFFFFFFFFFFFFFFFF#64 else BitVec.ofInt 64 ((s.s a).toInt.tdiv (s.s b).toInt)) ∧
     s.Computes (.divu d a b) d (if s.s b = 0 then 0xFFFFFFFFFFFFFFFF#64 else BitVec.ofNat 64 ((s.s a).toNat / (s.s b).toNat)) ∧
     s.Computes (.rem d a b) d (if s.s b = 0 then s.s a else BitVec.ofInt 64 ((s.s a).toInt.tmod (s.s b).toInt)) ∧
     s.Computes (.remu d a b) d (if s.s b = 0 then s.s a else BitVec.ofNat 64 ((s.s a).toNat % (s.s b).toNat))) ∧
  (∃ mix : Nat → Nat → Nat,
     (∀ x y, mix x y = let t := (x + y) % 2 ^ 64
                       let t := Nat.xor t (t / 2 ^ 29)
                       let t := t * 0xB7E1516A9C3F2D85 % 2 ^ 64
                       Nat.xor t (t / 2 ^ 32)) ∧
     (∀ (d a b : Reg) (s : State), s.Clear [a, b] [d] → s.Computes (.hmix d a b) d (BitVec.ofNat 64 (mix (s.s a).toNat (s.s b).toNat))) ∧
     ∀ x x' y : Word, mix x.toNat y.toNat = mix x'.toNat y.toNat → x = x') ∧
  (∀ d a b : Reg,
     let field (r : Reg) (n : Nat) : BitVec 32 := r.setWidth 32 <<< n
     (∀ x ∈ ([(.add d a b, 0x00), (.sub d a b, 0x01), (.and d a b, 0x02), (.or d a b, 0x03), (.xor d a b, 0x04), (.andn d a b, 0x05), (.orn d a b, 0x06),
       (.xnor d a b, 0x07), (.shl d a b, 0x08), (.shr d a b, 0x09), (.sha d a b, 0x0A), (.ror d a b, 0x0B), (.mul d a b, 0x10), (.mulh d a b, 0x11),
       (.mulhu d a b, 0x12), (.div d a b, 0x13), (.divu d a b, 0x14), (.rem d a b, 0x15), (.remu d a b, 0x16), (.min d a b, 0x18), (.max d a b, 0x19),
       (.minu d a b, 0x1A), (.maxu d a b, 0x1B), (.seq d a b, 0x20), (.sne d a b, 0x21), (.slt d a b, 0x22), (.sltu d a b, 0x23), (.sle d a b, 0x24),
       (.sleu d a b, 0x25), (.addw d a b, 0x30), (.subw d a b, 0x31), (.mulw d a b, 0x32), (.hmix d a b, 0x38)] : List (Instr × BitVec 32)),
       encode32 x.1 = some (0x04000000 ||| field d 20 ||| field a 14 ||| field b 8 ||| x.2)) ∧
     (∀ x ∈ ([(.clz d a, 0x28), (.ctz d a, 0x29), (.popc d a, 0x2A), (.brev d a, 0x2B), (.bswap d a, 0x2C)] : List (Instr × BitVec 32)),
       encode32 x.1 = some (0x04000000 ||| field d 20 ||| field a 14 ||| x.2)))

/-- R158, R159, R160: the immediate forms. The 14-bit immediate is sign-extended, a shift takes six bits of it, and LUI, LHI and ADDPC put a
20-bit field where a long constant has its parts. R160: LUI writes sext(v << 12, 32); LHI keeps bits 43:0 of its destination, which it
reads, and puts v above them; ADDPC adds sext(v << 12, 32) to its own address. The words of the immediate forms: OP of R158's table in bits
31:26, then D, A and I14. -/
def Obligations.ImmediateArithmetic : Prop :=
  (∀ (d a : Reg) (s : State), s.Clear [a] [d] →
     (∀ imm : BitVec 14,
       s.Computes (.addi d a imm) d (BitVec.ofInt 64 ((s.s a).toInt + imm.toInt)) ∧
       s.Computes (.andi d a imm) d (s.s a &&& imm.signExtend 64) ∧
       s.Computes (.ori d a imm) d (s.s a ||| imm.signExtend 64) ∧
       s.Computes (.xori d a imm) d (s.s a ^^^ imm.signExtend 64) ∧
       s.Computes (.slti d a imm) d (if (s.s a).toInt < imm.toInt then 1 else 0) ∧
       s.Computes (.sltui d a imm) d (if (s.s a).toNat < (imm.signExtend 64).toNat then 1 else 0) ∧
       s.Computes (.muli d a imm) d (BitVec.ofInt 64 ((s.s a).toInt * imm.toInt)) ∧
       s.Computes (.addiw d a imm) d (((s.s a + imm.signExtend 64).extractLsb' 0 32).signExtend 64)) ∧
     (∀ n : BitVec 6,
       s.Computes (.shli d a n) d (s.s a <<< n.toNat) ∧
       s.Computes (.shri d a n) d (s.s a >>> n.toNat) ∧
       s.Computes (.shai d a n) d (BitVec.ofInt 64 ((s.s a).toInt / 2 ^ n.toNat)) ∧
       s.Computes (.rori d a n) d ((s.s a >>> n.toNat) ||| (s.s a <<< (64 - n.toNat))))) ∧
  (∀ (d : Reg) (v : BitVec 20) (s : State),
     (s.Clear [] [d] →
       s.Computes (.lui d v) d (BitVec.ofInt 64 (v.toInt * 4096)) ∧
       s.Computes (.addpc d v) d (s.me.pc + BitVec.ofInt 64 (v.toInt * 4096))) ∧
     (s.Clear [d] [d] → s.Computes (.lhi d v) d (BitVec.ofNat 64 (v.toNat * 2 ^ 44 + (s.s d).toNat % 2 ^ 44)))) ∧
  (∀ (d a : Reg) (imm : BitVec 14),
     ∀ x ∈ ([(.addi d a imm, 0x02), (.andi d a imm, 0x03), (.ori d a imm, 0x04), (.xori d a imm, 0x05), (.slti d a imm, 0x07), (.sltui d a imm, 0x08),
       (.muli d a imm, 0x09), (.addiw d a imm, 0x0D)] : List (Instr × BitVec 32)),
       encode32 x.1 = some ((x.2 <<< 26) ||| (d.setWidth 32 <<< 20) ||| (a.setWidth 32 <<< 14) ||| imm.setWidth 32))

/-- R161: each compare and branch goes to PC + 4·sext(O14, 14) when its test holds and to PC + 4 otherwise, and leaves all else as it is. -/
def Obligations.CompareAndBranch : Prop :=
  ∀ (a b : Reg) (off : BitVec 14) (s : State), s.Clear [a, b] [] →
    let goes (i : Instr) (test : Prop) : Prop :=
      (test → s.Gives i 0 0 (s.me.pc + BitVec.ofInt 64 (4 * off.toInt))) ∧ (¬ test → s.Gives i 0 0 (s.me.pc + 4))
    goes (.beq a b off) (s.s a = s.s b) ∧
    goes (.bne a b off) (s.s a ≠ s.s b) ∧
    goes (.blt a b off) ((s.s a).toInt < (s.s b).toInt) ∧
    goes (.bge a b off) ((s.s b).toInt ≤ (s.s a).toInt) ∧
    goes (.bltu a b off) ((s.s a).toNat < (s.s b).toNat) ∧
    goes (.bgeu a b off) ((s.s b).toNat ≤ (s.s a).toNat)

/-- R162: BPANY branches when some bit of the predicate below VL is set and BPNONE when none is, p0 reading all ones; both wait, changing
nothing, until the predicate is final and VL is not pending (R127), raise VSTATE where predicates have another owner (R415), and POISON
where the predicate lost its storage (R420). -/
def Obligations.PredicateBranch : Prop :=
  ∀ (p : Reg) (off : BitVec 14) (s : State), s.me.cfg.vl.toNat ≤ 8192 →
    let waits : Prop := s.me.vlPending = true ∨ ∃ e ∈ s.me.unfinished, vPredDest e.instr = some p
    let foreign : Prop := p ≠ 0 ∧ s.foreign.testBit 2 = true
    let any : Prop := ∃ k, k < s.me.cfg.vl.toNat ∧ (p = 0 ∨ s.bit p k = true)
    let target : Word := s.me.pc + BitVec.ofInt 64 (4 * off.toInt)
    let clear : Prop := ¬ waits ∧ ¬ foreign ∧ p ∉ s.me.spoiled.preds
    (clear → any → s.Gives (.bpany p off) 0 0 target ∧ s.Gives (.bpnone p off) 0 0 (s.me.pc + 4)) ∧
    (clear → ¬ any → s.Gives (.bpany p off) 0 0 (s.me.pc + 4) ∧ s.Gives (.bpnone p off) 0 0 target) ∧
    (waits → exec (.bpany p off) s = .next s ∧ exec (.bpnone p off) s = .next s) ∧
    (¬ waits → foreign → ∀ i : Instr, i = .bpany p off ∨ i = .bpnone p off → exec i s = .next (s.trap 0x07 (wordOf32 i) (some 4))) ∧
    (¬ waits → ¬ foreign → p ∈ s.me.spoiled.preds → ∀ i : Instr, i = .bpany p off ∨ i = .bpnone p off →
      exec i s = .next (s.trap 0x06 (wordOf32 i) (some (BitVec.ofNat 64 (2 ^ 63 + 256 + p.toNat)))))

/-- R163: J and JAL go to PC + 4·sext(O26, 26); JAL and JALR write the address of the next instruction, JAL to s63. JALR goes to S(A) +
sext(I14, 14), its base read before the link is written, and on a target that is no multiple of 4 it traps with MISALIGN, TADDR the target,
the link not written. -/
def Obligations.Jumps : Prop :=
  (∀ (off : BitVec 26) (s : State),
    s.Gives (.j off) 0 0 (s.me.pc + BitVec.ofInt 64 (4 * off.toInt)) ∧
    (s.Clear [] [63] → s.Gives (.jal off) 63 (s.me.pc + 4) (s.me.pc + BitVec.ofInt 64 (4 * off.toInt)))) ∧
  ∀ (d a : Reg) (imm : BitVec 14) (s : State), s.Clear [a] [d] →
    let t := s.s a + BitVec.ofInt 64 imm.toInt
    (t.toNat % 4 = 0 → s.Gives (.jalr d a imm) d (s.me.pc + 4) t) ∧
    (t.toNat % 4 ≠ 0 → exec (.jalr d a imm) s = .next (s.trap 0x03 (wordOf32 (.jalr d a imm)) (some t)))

/-- R164: a load of n bytes from a multiple of n, where the access lands in unpoisoned memory that no write is on its way to, writes the bytes
there to its destination, sign- or zero-extended. Memory is what the translation of the address left, and no byte is stored. R164, R165: a
store of n bytes to a multiple of n, where the access lands within a sector of memory with nothing between and the old value is logged or
needs no log, leaves the low n bytes of S(B) there and every other byte as it was, poisoned or not. Model's choices or readings on which it
rests: log entries 1, 5. -/
def Obligations.LoadsAndStores : Prop :=
  (∀ (d a : Reg) (off : BitVec 14) (s : State) (p : Spot) (m : MemSys), s.Clear [a] [d] →
     let loads (i : Instr) (n : Nat) (value : Nat → Word) : Prop :=
       (s.s a + off.signExtend 64).toNat % n = 0 →
       s.find (s.me.req (wordOf32 i)) (s.s a + off.signExtend 64) .read = .spot p m → m.Open p → m.poisoned p.key = false →
       ∃ t, exec i s = .next t ∧ s.sameButAccess t ∧ t.mem = m ∧
         t.me = s.me.wentOn d (value (leNat (m.bytesUnder p.tag p.key n))) (s.me.pc + 4)
     loads (.ldb d a off) 1 (fun x => (BitVec.ofNat 8 x).signExtend 64) ∧
     loads (.ldbu d a off) 1 (fun x => BitVec.ofNat 64 x) ∧
     loads (.ldh d a off) 2 (fun x => (BitVec.ofNat 16 x).signExtend 64) ∧
     loads (.ldhu d a off) 2 (fun x => BitVec.ofNat 64 x) ∧
     loads (.ldw d a off) 4 (fun x => (BitVec.ofNat 32 x).signExtend 64) ∧
     loads (.ldwu d a off) 4 (fun x => BitVec.ofNat 64 x) ∧
     loads (.ldd d a off) 8 (fun x => BitVec.ofNat 64 x)) ∧
  (∀ (a b : Reg) (off : BitVec 14) (s s2 : State) (p : Spot) (m : MemSys), s.Clear [a, b] [] →
     let addr := s.s a + off.signExtend 64
     let stores (i : Instr) (n : Nat) : Prop :=
       addr.toNat % n = 0 → s.find (s.me.req (wordOf32 i)) addr .write = .spot p m → m.Open p → p.key % 256 + n ≤ 256 →
       ({ s with mem := m } : State).logged (s.me.req (wordOf32 i)) addr p n = .ok s2 → s2.Through (s.me.req (wordOf32 i)) addr n p →
       ∃ t, exec i s = .next t ∧ s2.sameButAccess t ∧ s2.mem.Wrote t.mem p (leBytes n (s.s b).toNat) ∧
         t.me = s2.me.wentOn 0 0 (s2.me.pc + 4)
     stores (.stb a b off) 1 ∧ stores (.sth a b off) 2 ∧ stores (.stw a b off) 4 ∧ stores (.std a b off) 8)

/-- R166, R168: LDA is the read alone and sign-extends a word; STR stores S(B). Both are at the address S(A), of 4 or 8 bytes by SZ, and within
the scope that the address asks for (R167). R168, R169: an atomic reads the old value, writes the table's function of it and of the low 8n
bits of S(B), and returns the old value sign-extended; every atomic writes. CAS writes S(B) when the old value equals the low bits of S(D),
and nothing otherwise; only then does it mark its leaf as written (R169, R291). Host memory accepts SWAP, AADD and CAS (R170). R343, R344,
R350, R352: where the core puts its scalar writes into its stage, a store leaves memory as it was and stands last in the stage. A plain load
of a strand of that core finds the newest staged bytes over those of memory, an ordered load with acquire at quad or wider and a vector
access only those of the strand's own stores, and every agent of another kind none. A FENCE with `st` at quad or wider brings every write of
the core's stage into memory, in order, and takes them out of the stage; one at `str` or `cor` moves none. Model's choices or readings on
which it rests: log entries 1, 5. -/
def Obligations.OrderedAccessesAndAtomics : Prop :=
  (∀ (d a b : Reg) (sc : BitVec 4) (ord : BitVec 2) (dw : Bool) (s s2 : State) (p : Spot) (m : MemSys),
     let n := if dw then 8 else 4
     let addr := s.s a
     addr.toNat % n = 0 →
     (let i : Instr := .lda d a sc ord dw
      s.Clear [a] [d] → s.scopeOk (s.me.req (wordOf32 i)) addr sc.toNat = true →
      s.find (s.me.req (wordOf32 i)) addr .read = .spot p m → m.Open p → m.poisoned p.key = false →
      ∃ t, exec i s = .next t ∧ s.sameButAccess t ∧ t.mem = m ∧
        t.me = s.me.wentOn d ((BitVec.ofNat (8 * n) (leNat (m.bytesUnder p.tag p.key n))).signExtend 64) (s.me.pc + 4)) ∧
     (let i : Instr := .str a b sc ord dw
      s.Clear [a, b] [] → s.scopeOk (s.me.req (wordOf32 i)) addr sc.toNat = true →
      s.find (s.me.req (wordOf32 i)) addr .both = .spot p m → m.Open p → p.key % 256 + n ≤ 256 →
      ({ s with mem := m } : State).logged (s.me.req (wordOf32 i)) addr p n = .ok s2 → s2.Through (s.me.req (wordOf32 i)) addr n p →
      ∃ t, exec i s = .next t ∧ s2.sameButAccess t ∧ s2.mem.Wrote t.mem p (leBytes n (s.s b).toNat) ∧
        t.me = s2.me.wentOn 0 0 (s2.me.pc + 4))) ∧
  (∀ (d a b : Reg) (sc : BitVec 4) (ord : BitVec 2) (dw : Bool) (s s2 : State) (p : Spot) (m m' : MemSys),
     let n := if dw then 8 else 4
     let addr := s.s a
     let old := leNat (m.bytesUnder p.tag p.key n)
     let y := (s.s b).toNat % 2 ^ (8 * n)
     let sg (x : Nat) : Int := (BitVec.ofNat (8 * n) x).toInt
     let result := (BitVec.ofNat (8 * n) old).signExtend 64
     let lands (need : Need) (i : Instr) : Prop :=
       addr.toNat % n = 0 ∧ s.scopeOk (s.me.req (wordOf32 i)) addr sc.toNat = true ∧
       s.find (s.me.req (wordOf32 i)) addr need = .spot p m ∧ m.Open p ∧ m.poisoned p.key = false ∧ p.key % 256 + n ≤ 256
     let writes (i : Instr) (x : MemSys) (new : Nat) : Prop :=
       ({ s with mem := x } : State).logged (s.me.req (wordOf32 i)) addr p n = .ok s2 → s2.disturbs (s.me.req (wordOf32 i)) addr n = false →
       ∃ t, exec i s = .next t ∧ s2.sameButAccess t ∧ s2.mem.Wrote t.mem p (leBytes n new) ∧
         t.me = s2.me.wentOn d result (s2.me.pc + 4)
     let swaps (i : Instr) (new : Nat) : Prop := lands .both i → writes i m new
     (s.Clear [a, b] [d] →
       swaps (.swap d a b sc ord dw) y ∧
       swaps (.aadd d a b sc ord dw) ((old + y) % 2 ^ (8 * n)) ∧
       (p.host = false →
         swaps (.aand d a b sc ord dw) (old &&& y) ∧
         swaps (.aor d a b sc ord dw) (old ||| y) ∧
         swaps (.axor d a b sc ord dw) (old ^^^ y) ∧
         swaps (.amin d a b sc ord dw) (if sg y < sg old then y else old) ∧
         swaps (.amax d a b sc ord dw) (if sg old < sg y then y else old) ∧
         swaps (.aminu d a b sc ord dw) (min old y) ∧
         swaps (.amaxu d a b sc ord dw) (max old y))) ∧
     (let i : Instr := .cas d a b sc ord dw
      s.Clear [a, b, d] [d] → lands .probe i →
       (old = (s.s d).toNat % 2 ^ (8 * n) → ({ s with mem := m } : State).find (s.me.req (wordOf32 i)) addr .both = .spot p m' → m'.Open p →
         writes i m' y) ∧
       (old ≠ (s.s d).toNat % 2 ^ (8 * n) →
         ∃ t, exec i s = .next t ∧ s.sameButAccess t ∧ t.mem = m ∧ t.me = s.me.wentOn d result (s.me.pc + 4)))) ∧
  (∀ (a b : Reg) (off : BitVec 14) (s : State) (p : Spot) (m : MemSys),
     let i : Instr := .std a b off
     let r := s.me.req (wordOf32 i)
     let addr := s.s a + off.signExtend 64
     let e : Staged := ⟨s.me.core, r.strand, p.key, p.tag, leBytes 8 (s.s b).toNat⟩
     (s.Clear [a, b] [] → addr.toNat % 8 = 0 → s.find r addr .write = .spot p m → p.host = false → s.logs s.me.ctx = false →
       (s.getCore s.me.core).staging = true → ({ s with mem := m } : State).disturbs r addr 8 = false →
       ∃ t, exec i s = .next t ∧ s.sameButAccess t ∧ t.mem = { m with stage := m.stage ++ [e] } ∧ t.me = s.me.wentOn 0 0 (s.me.pc + 4)) ∧
     (∀ (v : View) (tag key n j : Nat), j < n →
       (({ m with stage := m.stage ++ [e] } : MemSys).seen v tag key n)[j]? =
         if v.sees e = true ∧ p.key ≤ key + j ∧ key + j < p.key + 8 then (leBytes 8 (s.s b).toNat)[key + j - p.key]? else (m.seen v tag key n)[j]?) ∧
     (∀ (ord : Byte) (info : Word) (evicts covers : Nat), r.view 0 = .core s.me.core ∧
       (ord.getLsbD 2 = true → 2 ≤ ord.toNat / 16 → r.view ord = .own r.strand) ∧ (s.me.vreq info evicts covers).view 0 = .own r.strand ∧
       (∀ q : Req, q.agent ≠ 0 → q.view ord = .home) ∧
       (∀ x : Staged, (View.home.sees x = false) ∧ (∀ c, (View.core c).sees x = decide (x.core = c)) ∧ ∀ k, (View.own k).sees x = decide (x.own = k))) ∧
     (∀ (sc mask : BitVec 4), mask.getLsbD 1 = true → mask.getLsbD 2 = false → mask.getLsbD 3 = false →
       ∃ t, exec (.fence sc mask) s = .next t ∧ t.me.pc = s.me.pc + 4 ∧
         t.mem.stage = (if 2 ≤ sc.toNat then s.mem.stage.filter (·.core ≠ s.me.core) else s.mem.stage) ∧
         (2 ≤ sc.toNat → { t.mem with stage := [] } = { s.mem.leaveAll (s.mem.stage.filter (·.core = s.me.core)) with stage := [] }) ∧
         (sc.toNat < 2 → t.mem = s.mem)))

/-- R153, R164 to R170: what stops a scalar access, the first condition first: MISALIGN, SCOPE, the fault of the translation or of its
permissions, POISON of data read and at a failed memory die, PROT of an atomic that a host does not take, LOGFULL. TADDR is the address,
TINFO the word, and nothing is performed. Under the stall policy the instruction waits instead of LOGFULL, and nothing changes; where a link
on the way is not awake (R16, R298), it waits there. R167: an address that the region table sends to host memory needs scope host, one of a
remote device scope pod; any other address takes every scope. -/
def Obligations.AccessTrapsAndScope : Prop :=
  (∀ (d a b : Reg) (off : BitVec 14) (sc : BitVec 4) (ord : BitVec 2) (dw : Bool) (s : State), s.Clear [a, b, d] [d] →
     let z := if dw then 8 else 4
     let plain : List (Instr × Nat × Need) :=
       [(.ldb d a off, 1, .read), (.ldbu d a off, 1, .read), (.ldh d a off, 2, .read), (.ldhu d a off, 2, .read), (.ldw d a off, 4, .read),
        (.ldwu d a off, 4, .read), (.ldd d a off, 8, .read), (.stb a b off, 1, .write), (.sth a b off, 2, .write), (.stw a b off, 4, .write),
        (.std a b off, 8, .write)]
     let ordered : List (Instr × Nat × Need) :=
       [(.lda d a sc ord dw, z, .read), (.str a b sc ord dw, z, .both), (.swap d a b sc ord dw, z, .both), (.aadd d a b sc ord dw, z, .both),
        (.aand d a b sc ord dw, z, .both), (.aor d a b sc ord dw, z, .both), (.axor d a b sc ord dw, z, .both), (.amin d a b sc ord dw, z, .both),
        (.amax d a b sc ord dw, z, .both), (.aminu d a b sc ord dw, z, .both), (.amaxu d a b sc ord dw, z, .both), (.cas d a b sc ord dw, z, .probe)]
     let stops (addr : Word) (x : Instr × Nat × Need) : Prop :=
       let traps (code : Byte) : Prop := exec x.1 s = .next (s.trap code (wordOf32 x.1) (some addr))
       let r := s.me.req (wordOf32 x.1)
       (∀ c, s.find r addr x.2.2 = .fault c → traps c) ∧
       (s.find r addr x.2.2 = .dead → traps 0x06) ∧
       (∀ ls, s.find r addr x.2.2 = .held ls → exec x.1 s = .next (s.holdAt r addr x.2.2)) ∧
       (∀ p m, s.find r addr x.2.2 = .spot p m → m.Open p → x.2.2 = .read → m.poisoned p.key = true →
         ∃ t, exec x.1 s = .next (t.trap 0x06 (wordOf32 x.1) (some addr)) ∧ s.sameButAccess t ∧ t.mem = m ∧ t.me = s.me) ∧
       (∀ p m, s.find r addr x.2.2 = .spot p m → m.Open p → (x.2.2 = .write ∨ x.1 = .str a b sc ord dw) →
         (({ s with mem := m } : State).logged r addr p x.2.1 = .full → traps 0x0B) ∧
         (({ s with mem := m } : State).logged r addr p x.2.1 = .stall → exec x.1 s = .next s))
     (∀ x ∈ plain,
       let addr := s.s a + off.signExtend 64
       (addr.toNat % x.2.1 ≠ 0 → exec x.1 s = .next (s.trap 0x03 (wordOf32 x.1) (some addr))) ∧ (addr.toNat % x.2.1 = 0 → stops addr x)) ∧
     (∀ x ∈ ordered,
       let addr := s.s a
       let ok := s.scopeOk (s.me.req (wordOf32 x.1)) addr sc.toNat
       (addr.toNat % z ≠ 0 → exec x.1 s = .next (s.trap 0x03 (wordOf32 x.1) (some addr))) ∧
       (addr.toNat % z = 0 → ok = false → exec x.1 s = .next (s.trap 0x09 (wordOf32 x.1) (some addr))) ∧
       (addr.toNat % z = 0 → ok = true → stops addr x)) ∧
     (∀ x ∈ ordered.drop 2, ∀ p m, (s.s a).toNat % z = 0 → s.scopeOk (s.me.req (wordOf32 x.1)) (s.s a) sc.toNat = true →
       s.find (s.me.req (wordOf32 x.1)) (s.s a) x.2.2 = .spot p m → m.Open p →
       (p.host = true → x ∈ (ordered.drop 4).take 7 → exec x.1 s = .next (s.trap 0x05 (wordOf32 x.1) (some (s.s a)))) ∧
       (p.host = false → m.poisoned p.key = true → exec x.1 s = .next (s.trap 0x06 (wordOf32 x.1) (some (s.s a)))))) ∧
  (∀ (s : State) (r : Req) (a : Word) (sc : Nat),
     (s.scopeOk r a sc = true ↔
       (∀ d port, s.homeOf r a false = .host d port → 5 ≤ sc) ∧ (∀ dev, s.homeOf r a false = .remote dev → 7 ≤ sc)))

/-- R277, R278: an address whose bits 63:56 do not all equal bit 55 has no translation. In the LOCAL window byte x of the crew's own scratch
allocation answers, whatever the page tables say, and raises PROT beyond the allocation; no fetch reaches the windows. R16, R288, R291,
R298, R299: a die that failed answers nothing, and where a link on the way of an access, or of a snoop that it needs, is not awake, the
access is held there. Where an address of a memory die lies in no sector that a pool line holds, and the die has cached no translation that
admits the access, the tables translate it, and it goes on only with the permissions that it needs: R to read, W to write, X to fetch, U
besides at user level. It then marks the leaf accessed, and dirty for a write, and leaves the rest of memory's bytes as they read. Model's
choices or readings on which it rests: log entries 7, 45. -/
def Obligations.AddressesAndPermissions : Prop :=
  (∀ (s : State) (r : Req) (a : Word) (n : Need),
     (2 ^ 55 ≤ a.toNat → a.toNat < 2 ^ 64 - 2 ^ 55 → s.find r a n = .fault 0x04) ∧
     (∀ x, x < 2 ^ 21 → a.toNat = 2 ^ 64 - 2 ^ 21 + x →
       (n.ex = true → s.find r a n = .fault 0x05) ∧
       (∀ c, s.crewOf r = some c → c.placed = true → n.ex = false →
         (x < c.scr * 4096 → s.find r a n = .spot ⟨2 ^ 53 + c.core.toNat * 2 ^ 21 + (c.scrBase * 4096 + x), 0, false, false⟩ s.mem) ∧
         (c.scr * 4096 ≤ x → s.find r a n = .fault 0x05)))) ∧
  (∀ (s : State) (r : Req) (a : Word) (n : Need) (d : Nat) (inter : Bool), s.homeOf r a n.ex = .die d inter →
     let va := a.toNat % 2 ^ 56
     let held := s.heldOn r a n ++ s.snoopHeld r a n
     (8 + d ∈ s.mem.failed → s.find r a n = .dead) ∧
     (8 + d ∉ s.mem.failed → held ≠ [] → s.find r a n = .held held) ∧
     (8 + d ∉ s.mem.failed → held = [] → (s.mem.lines.find? fun l => l.ctx == r.ctx && l.sector == va / 256) = none →
       (∀ t, s.mem.cached d r.ctx va = some t → n.admits r.user t.leaf = false) →
       (∀ code, s.translate r.ctx (.die d inter) va = .error code → s.find r a n = .fault code) ∧
       (∀ leaf at_ key tag, s.translate r.ctx (.die d inter) va = .ok (leaf, at_, key, tag) →
         let admitted : Prop := (n.rd = true → leaf.getLsbD 1 = true) ∧ (n.wr = true → leaf.getLsbD 2 = true) ∧
           (n.ex = true → leaf.getLsbD 3 = true) ∧ (r.user = true → leaf.getLsbD 4 = true)
         (¬ admitted → s.find r a n = .fault 0x05) ∧
         (admitted → at_ % 8 = 0 → ∃ m, s.find r a n = .spot ⟨key, tag, leaf.getLsbD 7, leaf.toNat / 256 % 4 = 2⟩ m ∧
           m.dpa64 at_ = s.mem.dpa64 at_ ||| (if n.wr = true ∧ n.clean = false then 0x60 else 0x20) ∧
           (∀ k, k / 256 = at_ / 256 → k < at_ ∨ at_ + 8 ≤ k → m.byteUnder 0 k = s.mem.byteUnder 0 k) ∧
           (∀ k, k / 256 ≠ at_ / 256 → m.ram.get k = s.mem.ram.get k) ∧ m.bad = s.mem.bad))))

/-- R402: TRAP and BREAK enter the handler: TPC is their own address, TINFO the immediate, TADDR is not written, the level and LCLK are saved
and raised as for every trap. A word that names no instruction raises ILLEGAL with its word and address; a fault on a fetch has TPC and
TADDR at the address fetched from (R163), and nothing is said of its TINFO, which is free. R402, R403: without a handler, or with an active
one, a trap of the strand's own instruction ends the strand by force with the trap's code; every scalar trap is taken by the one operation.
Model's choices or readings on which it rests: log entry 23. -/
def Obligations.TakingATrap : Prop :=
  (∀ s : State,
     (∀ n : BitVec 6, s.MayEnter 0x0D → s.Traps (.trap n) 0x0D (n.setWidth 64) none) ∧
     (∀ n : BitVec 6, s.MayEnter 0x0C → s.Traps (.break n) 0x0C (n.setWidth 64) none) ∧
     (∀ w : BitVec 32, s.MayEnter 0x01 → s.Traps (.illegalWord w) 0x01 (w.setWidth 64) (some s.me.pc)) ∧
     (∀ code : Byte, s.MayEnter code → ∃ info, exec (.instructionFetchFault code) s
       = .next { s with me := s.me.inHandler code info (some s.me.pc), free := s.free + 1 })) ∧
  (∀ (s : State) (code : Byte) (info : Word) (addr : Option Word),
     (s.MayEnter code → s.trap code info addr = { s with me := s.me.inHandler code info addr }) ∧
     (s.debugStops code = false → s.me.tr.tvec = 0 ∨ s.me.tr.tcause.getLsbD 15 = true →
       s.trap code info addr = (s.setMe Strand.unwait).forcedEnd code))

/-- R404: ERET at system level returns to TPC at the level that TCAUSE.PL holds and clears ACT; a held window is discarded with SQ; FAIL ends
the strand with TCAUSE.CODE. LCLK stays. -/
def Obligations.ReturnFromTrap : Prop :=
  ∀ s : State, s.me.sys = true →
    (s.me.tr.tcause.getLsbD 63 = true → exec .eret s = .next (s.forcedEnd (s.me.tr.tcause.setWidth 8))) ∧
    (s.me.tr.tcause.getLsbD 63 = false → ∃ cause : Word,
      (∀ k, k < 64 → cause.getLsbD k = (s.me.tr.tcause.getLsbD k && k != 15 && k != 17)) ∧
      exec .eret s = .next { s with me := { s.me with
        sys := s.me.tr.tcause.getLsbD 14, pc := s.me.tr.tpc, tr := { s.me.tr with tcause := cause },
        win := if s.me.tr.tcause.getLsbD 17 then [] else s.me.win, icnt := min (2 ^ 32 - 1) (s.me.icnt + 1) } })

/-- R85, R98, R400: at user level ERET, VREPLAY, VSAVE, VLOAD and every access to a system register from 0x100 up raise PRIV, whatever their
operands; TINFO is the word. A number that no system register has raises ILLEGAL at either level, with TADDR the instruction's address. -/
def Obligations.Privilege : Prop :=
  ∀ (d a b : Reg) (y : BitVec 12) (s : State),
    (s.me.sys = false → s.MayEnter 0x02 →
      (∀ i ∈ [.eret, .vreplay, .vsave d a b, .vload d a b], s.Traps i 0x02 (wordOf32 i) none) ∧
      (0x100 ≤ y.toNat → y.toNat ≤ 0x105 ∨ 0x110 ≤ y.toNat ∧ y.toNat ≤ 0x11F →
        ∀ i ∈ [.sysr d y, .sysw a y, .sysset d a y, .sysclr d a y], s.Traps i 0x02 (wordOf32 i) none)) ∧
    (s.MayEnter 0x01 →
      (y.toNat = 6 ∨ y.toNat = 7 ∨ (9 < y.toNat ∧ y.toNat < 16) ∨ (0x15 < y.toNat ∧ y.toNat < 0x100) ∨ (0x105 < y.toNat ∧ y.toNat < 0x110)
        ∨ 0x11F < y.toNat) →
      ∀ i ∈ [.sysr d y, .sysw a y, .sysset d a y, .sysclr d a y], s.Traps i 0x01 (wordOf32 i) (some s.me.pc))

/-- R97, R98: SYSR, SYSSET and SYSCLR write the register's value to their destination. The identifiers are those of the strand and its core:
core number, quad within the die, and die. R97, R99: SYSW writes S(A) to a register, SYSSET the old value with the bits of S(A) set and
SYSCLR with them clear; both return the old value. A register that a program may only read keeps its value, VSLIP takes four bits, TVEC has
bits 1:0 zero, and SQ of TCAUSE stays as the device set it. -/
def Obligations.SystemRegisters : Prop :=
  (∀ (d : Reg) (s : State), s.Clear [] [d] →
     let reads (y : BitVec 12) (x : Word) : Prop := s.Computes (.sysr d y) d x
     (s.me.vlPending = false → reads 0x000 s.me.cfg.vl) ∧
     reads 0x001 (s.me.cfg.vt.setWidth 64) ∧ reads 0x002 s.me.cfg.nm ∧ reads 0x003 s.me.cfg.mvl ∧ reads 0x004 (s.me.cfg.vslip.setWidth 64) ∧
     reads 0x005 (if s.me.cfg.vpm then 1 else 0) ∧ reads 0x008 s.me.tlc ∧ reads 0x009 s.me.lclk ∧
     reads 0x010 (s.me.id.sid.setWidth 64) ∧ reads 0x011 (s.me.id.cid.setWidth 64) ∧ reads 0x012 s.me.id.lid ∧
     reads 0x013 (s.me.core.setWidth 64) ∧ reads 0x014 (BitVec.ofNat 64 (s.me.core.toNat / 4 % 4)) ∧ reads 0x015 (BitVec.ofNat 64 (s.me.core.toNat / 16)) ∧
     (s.me.sys = true →
       reads 0x100 s.me.tr.tcause ∧ reads 0x101 s.me.tr.tpc ∧ reads 0x102 s.me.tr.tinfo ∧ reads 0x103 s.me.tr.taddr ∧ reads 0x104 s.me.tr.mrp ∧
       reads 0x105 s.me.tr.tvec ∧ ∀ n : Fin 16, reads (BitVec.ofNat 12 (0x110 + n.val)) s.me.tr.tlg[n])) ∧
  (∀ (d a : Reg) (s : State), s.Clear [a] [d] →
     let writes (y : BitVec 12) (old : Word) (put : Word → Strand) : Prop :=
       exec (.sysw a y) s = .next { s with me := (put (s.s a)).wentOn 0 0 (s.me.pc + 4) } ∧
       exec (.sysset d a y) s = .next { s with me := (put (old ||| s.s a)).wentOn d old (s.me.pc + 4) } ∧
       exec (.sysclr d a y) s = .next { s with me := (put (old &&& ~~~ s.s a)).wentOn d old (s.me.pc + 4) }
     let ignored (y : BitVec 12) (old : Word) : Prop := writes y old fun _ => s.me
     let k := s.me
     (k.vlPending = false → ignored 0x000 k.cfg.vl) ∧
     ignored 0x001 (k.cfg.vt.setWidth 64) ∧ ignored 0x003 k.cfg.mvl ∧ ignored 0x005 (if k.cfg.vpm then 1 else 0) ∧
     ignored 0x008 k.tlc ∧ ignored 0x009 k.lclk ∧ ignored 0x010 (k.id.sid.setWidth 64) ∧ ignored 0x011 (k.id.cid.setWidth 64) ∧
     ignored 0x012 k.id.lid ∧ ignored 0x013 (k.core.setWidth 64) ∧
     writes 0x002 k.cfg.nm (fun x => { k with cfg := { k.cfg with nm := x &&& 0x3F1F } }) ∧
     writes 0x004 (k.cfg.vslip.setWidth 64) (fun x => { k with cfg := { k.cfg with vslip := x.setWidth 4 } }) ∧
     (k.sys = true →
       (∃ keep : Word → Word, writes 0x100 k.tr.tcause (fun x => { k with tr := { k.tr with tcause := keep x } }) ∧
         ∀ x, (keep x).getLsbD 17 = k.tr.tcause.getLsbD 17 ∧ ∀ n ∈ [0, 1, 2, 3, 4, 5, 6, 7, 14, 15, 16, 63], (keep x).getLsbD n = x.getLsbD n) ∧
       writes 0x101 k.tr.tpc (fun x => { k with tr := { k.tr with tpc := x } }) ∧
       writes 0x102 k.tr.tinfo (fun x => { k with tr := { k.tr with tinfo := x } }) ∧
       writes 0x103 k.tr.taddr (fun x => { k with tr := { k.tr with taddr := x } }) ∧
       writes 0x105 k.tr.tvec (fun x => { k with tr := { k.tr with tvec := BitVec.ofNat 64 (x.toNat / 4 * 4) } }) ∧
       ∀ n : Fin 16, writes (BitVec.ofNat 12 (0x110 + n.val)) k.tr.tlg[n] (fun x => { k with tr := { k.tr with tlg := k.tr.tlg.set n x } })))

/-- R127, R128, R322, R420: what holds a scalar instruction that reads a and writes d back, shown on ADDI and the others of its form: a pending
register delays it and nothing changes; an unreported copy fault of a register read is reported as COPYFAULT with the status in TINFO; a
register whose storage failed raises POISON. Model's choices or readings on which it rests: log entry 3. -/
def Obligations.ScalarWaits : Prop :=
  ∀ (d a : Reg) (imm : BitVec 14) (s : State) (i : Instr),
    i ∈ [.addi d a imm, .andi d a imm, .ori d a imm, .xori d a imm, .slti d a imm, .sltui d a imm, .muli d a imm, .addiw d a imm] →
    (s.me.pending a = true ∨ s.me.pending d = true → exec i s = .next s) ∧
    (s.me.pending a = false → s.me.pending d = false →
      (∀ f, s.me.faultOf a = some f → (s.setMe (·.reported f.ticket)).MayEnter 0x0E →
        exec i s = .next { s with me := (s.me.reported f.ticket).inHandler 0x0E f.status (some f.faultAt) }) ∧
      (s.me.faultOf a = none → a ∈ s.me.spoiled.sregs → s.MayEnter 0x06 →
        s.Traps i 0x06 (wordOf32 i) (some (BitVec.ofNat 64 (2 ^ 63 + a.toNat)))))

/-- R137, R171, R179, R181, R183, R275: FENCE and VSYNC go on when nothing that they wait for is left and change nothing while it is. A FENCE
with `st` or `vec` at quad or wider, and every VSYNC, empties the core's stage into memory (R352); one at host or wider orders the strand's
later writes to host memory after its earlier ones (R345). YIELD sets the strand's deficit counters to 0 and bars it from issuing for 16
cycles; IFLUSH empties the core's L1 instruction cache and the strand's replay buffer; TMARK advances LCLK. R180: WFE takes the event flag
when it is set; else it waits, and goes on 65,536 cycles after it began to wait, by itself or at WFE_TIMEOUT. R178, R457: HALT of a strand
whose queue is empty and whose engines and presented structures have nothing under way ends it, with LCLK one more; while other strands of
its crew live, only its own resources go: the crew counts one live strand less, and memory takes what stood in the core's stage and no other
byte. Before that HALT waits: no register changes and the PC stays. R182: WMARK waits for the vector queue, and like VSYNC empties the
core's stage into memory; with Retriever off for the context it writes 0 and advances LCLK. Model's choices or readings on which it rests:
log entries 3, 5, 37, 56. -/
def Obligations.ControlInstructions : Prop :=
  (∀ s : State,
     (∀ sc mask : BitVec 4,
       let vec := mask.getLsbD 2 = true ∧ ∃ e ∈ s.me.q, e.done = false ∧ (isVMem e.instr = true ∨ isMatrix e.instr = true)
       let eng := mask.getLsbD 3 = true ∧ (s.me.as.copies ≠ [] ∨ s.me.as.streams ≠ [] ∨ s.me.as.colls ≠ [])
       let writes := mask.getLsbD 1 || mask.getLsbD 2
       (¬ vec → ¬ eng → exec (.fence sc mask) s = .next { s with
         me := { s.me.wentOn 0 0 (s.me.pc + 4) with hostOrd := s.me.hostOrd || (writes && decide (5 ≤ sc.toNat)) }
         mem := if writes && decide (2 ≤ sc.toNat) then s.mem.drainCore s.me.core else s.mem }) ∧
       (vec ∨ eng → exec (.fence sc mask) s = .next s)) ∧
     (s.me.q = [] → exec .vsync s = .next { s with me := s.me.wentOn 0 0 (s.me.pc + 4), mem := s.mem.drainCore s.me.core }) ∧
     (s.me.q ≠ [] → exec .vsync s = .next s) ∧
     (∃ t, exec .yield s = .next t ∧ t.me = { s.me.wentOn 0 0 (s.me.pc + 4) with yieldUntil := s.clk.cyc + 16 } ∧
       (∀ g : Fin 16, ∀ k : Fin 4, t.core.arbs[g].cur = s.core.arbs[g].cur ∧
         t.core.arbs[g].dc[k] = if k.val = s.me.slot.toNat then 0 else s.core.arbs[g].dc[k]) ∧
       t = { s with me := t.me, core := { s.core with arbs := t.core.arbs } }) ∧
     exec .iflush s = .next { s with core := { s.core with icache := [] }, me := { s.me.wentOn 0 0 (s.me.pc + 4) with replay := [] } } ∧
     (∀ a : Reg, s.Clear [a] [] → (s.trc.open_ && bf s.trc.cfg 47 32 == s.me.ctx.toNat && s.trc.cfg.getLsbD 1) = false →
       exec (.tmark a) s = .next { s with me := { s.me.wentOn 0 0 (s.me.pc + 4) with lclk := s.me.lclk + 1 } })) ∧
  (∀ s : State,
     (s.me.event = true → exec .wfe s = .next { s with me := { s.me.wentOn 0 0 (s.me.pc + 4) with event := false } }) ∧
     (s.me.event = false → s.me.wfeSince = none → exec .wfe s = .next { s with me := { s.me with wfeSince := some s.clk.cyc } }) ∧
     (s.me.event = false → ∀ c, s.me.wfeSince = some c →
       (s.clk.cyc < c + 65536 → exec .wfe s = .next s) ∧
       (c + 65536 ≤ s.clk.cyc → s.Gives .wfe 0 0 (s.me.pc + 4) ∧
         (s.me.run = .running → s.Gives (.wfeTimeout s.me.id) 0 0 (s.me.pc + 4))))) ∧
  (∀ s : State, s.me.as.streams = [] → s.me.tr.tcause.getLsbD 17 = false → s.me.win = [] →
     let busy := s.me.q ≠ [] ∨ s.me.as.copies ≠ [] ∨ s.me.as.colls ≠ [] ∨ s.me.as.subs ≠ []
     (¬ busy → 2 ≤ s.crew.live → s.core.arrays = [] → (∀ c ∈ s.cores, c.arrays = []) →
       ∃ t, exec .halt s = .next t ∧ t.me.run = .ended ∧ t.me.regs = s.me.regs ∧ t.me.pc = s.me.pc ∧ t.me.lclk = s.me.lclk + 1 ∧
         t.me.vs = s.me.vs ∧ t.me.replay = [] ∧ t.crew = { s.crew with live := s.crew.live - 1 } ∧ t.strands = s.strands ∧
         t.mem = { s.mem.drainCore s.me.core with frames := t.mem.frames } ∧
         (∀ n, n ∈ t.mem.frames ↔ n ∈ s.mem.frames ∧ s.me.alloc.frame ≠ some n) ∧ t.cp = s.cp ∧ t.clk = s.clk ∧ t.fab = s.fab) ∧
     (busy → exec .halt s = .next s)) ∧
  (∀ (d : Reg) (s : State), s.Clear [] [d] →
     (s.me.q ≠ [] → exec (.wmark d) s = .next s) ∧
     (s.me.q = [] → s.logs s.me.ctx = false →
       exec (.wmark d) s = .next { s with
         me := { s.me.wentOn d 0 (s.me.pc + 4) with lclk := s.me.lclk + 1 }, mem := s.mem.drainCore s.me.core }))

/-- R148, R149: the queue instructions where none waits. QPUSH appends its value with the strand's advanced clock, QPOP removes the head, QPEEK
reads it, QTRY answers whether there was one; a strand that takes an entry hears its stamp. With a full or an empty queue QPUSH, QPOP and
QPEEK wait: no register, PC or queue changes. R147, R149: an entry that arrives at an empty queue goes to the strand that waits first in
QPOP, which goes on; the queue stays empty. Model's choices or readings on which it rests: log entry 3. -/
def Obligations.QueueRegisters : Prop :=
  (∀ (a d : Reg) (q : BitVec 3) (s : State),
     let queue := s.crew.queues[q.toNat]'q.isLt
     let withQueue (l : List QCell) : Crew := { s.crew with queues := s.crew.queues.set q.toNat l q.isLt }
     let heard (stamp : Word) : Word := (if s.me.lclk.toNat < stamp.toNat then stamp else s.me.lclk) + 1
     (s.Clear [a] [] →
       (queue.length < 8 → s.waiters q 1 = [] → s.waiters q 2 = [] → exec (.qpush a q) s = .next { s with
         me := { s.me.wentOn 0 0 (s.me.pc + 4) with lclk := s.me.lclk + 1 }, crew := withQueue (queue ++ [⟨s.s a, s.me.lclk + 1, false⟩]) }) ∧
       (8 ≤ queue.length → ∃ w, exec (.qpush a q) s = .next { s with me := { s.me with qwait := some w } } ∧ w.queue = q ∧ w.kind = 0 ∧ w.reg = a)) ∧
     (s.Clear [] [d] →
       (∀ c rest, queue = c :: rest → c.bad = false →
         (s.waiters q 0 = [] →
           exec (.qpop d q) s = .next { s with me := { s.me.wentOn d c.val (s.me.pc + 4) with lclk := heard c.stamp }, crew := withQueue rest }) ∧
         exec (.qpeek d q) s = .next { s with me := { s.me.wentOn d c.val (s.me.pc + 4) with lclk := heard c.stamp } }) ∧
       (queue = [] → ∀ i kind, (i, kind) = (Instr.qpop d q, 1#2) ∨ (i, kind) = (.qpeek d q, 2#2) →
         ∃ w, exec i s = .next { s with me := { s.me with qwait := some w } } ∧ w.queue = q ∧ w.kind = kind ∧ w.reg = d)) ∧
     (s.Clear [] [d, d + 1] →
       (∀ c rest, queue = c :: rest → c.bad = false → s.waiters q 0 = [] →
         exec (.qtry d q) s = .next { s with me := { (s.me.w (d + 1) 1).wentOn d c.val (s.me.pc + 4) with lclk := heard c.stamp }, crew := withQueue rest }) ∧
       (queue = [] → exec (.qtry d q) s = .next { s with me := (s.me.w d 0).wentOn (d + 1) 0 (s.me.pc + 4) }))) ∧
  (∀ (a : Reg) (q : BitVec 3) (s : State) (k : Strand) (w : QWait), s.Clear [a] [] → s.crew.queues[q.toNat]'q.isLt = [] →
     s.strands = [k] → k.run = .running → k.id ≠ s.me.id → k.id.lid = s.crew.lid → k.id.cid = s.crew.cid → k.qwait = some w → w.queue = q → w.kind = 1 →
     s.me.qwait = none →
     exec (.qpush a q) s = .next { s with
       me := { s.me.wentOn 0 0 (s.me.pc + 4) with lclk := s.me.lclk + 1 }
       strands := [{ k.wentOn w.reg (s.s a) (k.pc + 4) with lclk := (if k.lclk.toNat < (s.me.lclk + 1).toNat then s.me.lclk + 1 else k.lclk) + 1 }] })

/-- R205: VDECL declares S(A) registers of the width that S(B) names, all zero, with MVL what the strand's budget yields, and sets VL to 0; an
operand out of range, or fewer than 256 elements, leaves none declared. It writes MVL to s(D), waits for the vector queue, and raises VSTATE
where the registers have another owner. The word of VDECL: 0xE0000001 | D << 20 | A << 14 | B << 8. Model's choices or readings on which it
rests: log entries 22, 30. -/
def Obligations.DeclareRegisters : Prop :=
  (∀ (d a b : Reg) (s : State), s.Clear [a, b] [d] →
     let cnt := (s.s a).toNat
     let w := (s.s b).toNat
     let bits := if w = 8 ∨ w = 16 ∨ w = 32 ∨ w = 64 then w else if 1 ≤ w ∧ w ≤ 4 then 4 * w else 0
     let half := if s.me.cfg.vpm then 2 else 1
     let m := if 1 ≤ cnt ∧ cnt ≤ 64 ∧ bits ≠ 0 then min (8192 / half) (s.me.alloc.vrb * 16384 * 8 / (half * cnt * bits)) / 256 * 256 else 0
     (s.me.q = [] → s.foreign.testBit 0 = false →
       exec (.vdecl d a b) s = .next { s with me := ({ s.me with
         vs := { s.me.vs with cnt := if m = 0 then 0 else cnt, bits := if m = 0 then 0 else bits, regs := Vector.replicate 64 {} }
         cfg := { s.me.cfg with mvl := BitVec.ofNat 64 m, vl := 0 } } : Strand).wentOn d (BitVec.ofNat 64 m) (s.me.pc + 4) }) ∧
     (s.me.q ≠ [] → exec (.vdecl d a b) s = .next s) ∧
     (s.me.q = [] → s.foreign.testBit 0 = true → s.MayEnter 0x07 → s.Traps (.vdecl d a b) 0x07 (wordOf32 (.vdecl d a b)) (some 1))) ∧
  (∀ d a b : Reg, encode32 (.vdecl d a b) = some (0xE0000001 ||| (d.setWidth 32 <<< 20) ||| (a.setWidth 32 <<< 14) ||| (b.setWidth 32 <<< 8)))

/-- R201, R202, R206, R207: VSETT takes a valid VT and cuts VL to the new VLMAX, or writes 0 and changes nothing; VSETL sets VL to the smaller
of S(A) and VLMAX and writes it. VLMAX is the smaller of 8192, or 4096 in protected mode, and of the elements of a register group. R131:
while VL is pending VSETT, VSETL and VCOLL wait, and nothing changes. The words of VSETT and VSETL: 0xE0000002 and 0xE0000003, with D << 20
and A << 14. -/
def Obligations.TypeAndLength : Prop :=
  (∀ (d a : Reg) (s : State), s.Clear [a] [d] → s.me.vlPending = false →
     let top := if s.me.cfg.vpm then 4096 else 8192
     let v := s.s a
     let valid : Prop := v.toNat < 2 ^ 24 ∧ (Fmt.of v.toNat).valid = true ∧ v.toNat / 2 ^ 20 % 4 = (if v.toNat % 16 = 5 then 2 else 1) ∧
       v.toNat / 2 ^ 13 % 8 < 4
     (valid → exec (.vsett d a) s = .next { s with me := ({ s.me with cfg := { s.me.cfg with
       vt := v.setWidth 32
       vl := BitVec.ofNat 64 (min s.me.cfg.vl.toNat (min top (2 ^ (v.toNat / 2 ^ 13 % 8) * s.me.cfg.mvl.toNat))) } } : Strand).wentOn d v (s.me.pc + 4) }) ∧
     (¬ valid → s.Computes (.vsett d a) d 0) ∧
     (let vl := BitVec.ofNat 64 (min v.toNat (min top (2 ^ (s.me.cfg.vt.toNat / 2 ^ 13 % 8) * s.me.cfg.mvl.toNat)))
      exec (.vsetl d a) s = .next { s with me := ({ s.me with cfg := { s.me.cfg with vl := vl } } : Strand).wentOn d vl (s.me.pc + 4) })) ∧
  (∀ (d a : Reg) (s : State), s.Clear [a] [d, d + 1, d + 2] → s.me.vlPending = true →
     exec (.vsett d a) s = .next s ∧ exec (.vsetl d a) s = .next s ∧ exec (.vcoll d a) s = .next s) ∧
  (∀ d a : Reg,
     encode32 (.vsett d a) = some (0xE0000002 ||| (d.setWidth 32 <<< 20) ||| (a.setWidth 32 <<< 14)) ∧
     encode32 (.vsetl d a) = some (0xE0000003 ||| (d.setWidth 32 <<< 20) ||| (a.setWidth 32 <<< 14)))

/-- R208, R209: VCOLL merges the innermost dimensions of the descriptor at S(A) that lie contiguously, sets VL to the smaller of the merged
length and VLMAX, and writes VL, the merged dimensions and the count of the outer ones to three registers; a descriptor that breaks R208
writes three zeros and keeps VL. A misaligned address traps. R422: VPROT discards a held window, and on a changed mode sets VPM, gives a
declaration the MVL of the new mode, lowers every mark above it, cuts VL to VLMAX, and writes MVL. Model's choices or readings on which it
rests: log entry 30. -/
def Obligations.CollapseAndProtect : Prop :=
  (∀ (d a : Reg) (s : State), s.Clear [a] [d, d + 1, d + 2] → s.me.vlPending = false →
     let i : Instr := .vcoll d a
     let a0 := s.s a
     let three (k : Strand) (x y z : Word) : Strand := ((k.w d x).w (d + 1) y).wentOn (d + 2) z (s.me.pc + 4)
     (a0.toNat % 8 ≠ 0 → s.MayEnter 0x03 → s.Traps i 0x03 (wordOf32 i) (some a0)) ∧
     (a0.toNat % 8 = 0 → a0.toNat % 256 + 64 ≤ 256 → ∀ p m, s.find (s.me.req (wordOf32 i)) a0 .read = .spot p m → m.Open p → m.poisoned p.key = false →
       let desc := m.bytesUnder p.tag p.key 64
       let ext (j : Nat) : Nat := numAt desc (16 * j) 8
       let str (j : Nat) : Int := (BitVec.ofNat 64 (numAt desc (16 * j + 8) 8)).toInt
       let prod (lo hi : Nat) : Nat := ((List.range hi).filter (lo ≤ ·)).foldl (fun acc j => acc * ext j) 1
       ∀ n j, n ≤ 4 → (∀ x, x < n → ext x ≠ 0) → (n < 4 → ext n = 0) → j < max n 1 →
         (∀ x, x < j → str (x + 1) = str x * ext x) → (j + 1 < n → str (j + 1) ≠ str j * ext j) →
         let len := prod 0 (j + 1)
         let outer := prod (j + 1) n
         let refused : Prop := n = 0 ∨ (∃ x, n ≤ x ∧ x < 4 ∧ (ext x ≠ 0 ∨ str x ≠ 0)) ∨ (∃ x, x < n ∧ 2 ^ 32 ≤ ext x) ∨ 2 ^ 64 ≤ len ∨ 2 ^ 64 ≤ outer ∨
           s.me.cfg.fmt.plane = true
         let vl := BitVec.ofNat 64 (min len (vlmax s.me.cfg s.me.cfg.mvl.toNat))
         ∃ t, exec i s = .next t ∧ s.sameButAccess t ∧ t.mem = m ∧
           (refused → t.me = three s.me 0 0 0) ∧
           (¬ refused → t.me = three { s.me with cfg := { s.me.cfg with vl := vl } } vl (BitVec.ofNat 64 (j + 1)) (BitVec.ofNat 64 outer)))) ∧
  (∀ (d a : Reg) (s : State), s.Clear [a] [d] →
     let v := (s.s a).getLsbD 0
     let half := if v then 2 else 1
     let m := min (8192 / half) (s.me.alloc.vrb * 16384 * 8 / (half * s.me.vs.cnt * s.me.vs.bits)) / 256 * 256
     (s.me.q ≠ [] → exec (.vprot d a) s = .next s) ∧
     (s.me.q = [] → s.foreign ≠ 0 → s.MayEnter 0x07 → s.Traps (.vprot d a) 0x07 (wordOf32 (.vprot d a)) (some (BitVec.ofNat 64 s.foreign))) ∧
     (s.me.q = [] → s.foreign = 0 → ∃ t, exec (.vprot d a) s = .next t ∧
       t.me.win = [] ∧ t.me.tr.tcause = s.me.tr.tcause &&& ~~~ 0x20000 ∧ t.me.cfg.vpm = v ∧ t.me.pc = s.me.pc + 4 ∧
       (d ≠ 0 → t.me.s d = t.me.cfg.mvl) ∧ (∀ r, r ≠ d → t.me.s r = s.me.s r) ∧
       (v = s.me.cfg.vpm → t.me.cfg = s.me.cfg ∧ t.me.vs = s.me.vs) ∧
       (v ≠ s.me.cfg.vpm →
         t.me.cfg.vl = BitVec.ofNat 64 (min s.me.cfg.vl.toNat (min (8192 / half) (2 ^ (s.me.cfg.vt.toNat / 2 ^ 13 % 8) * t.me.cfg.mvl.toNat))) ∧
         (s.me.vs.cnt = 0 → t.me.cfg.mvl = s.me.cfg.mvl ∧ t.me.vs = s.me.vs) ∧
         (1 ≤ s.me.vs.cnt → s.me.vs.cnt ≤ 64 → s.me.vs.bits ≠ 0 →
           t.me.cfg.mvl = BitVec.ofNat 64 m ∧ (m = 0 → t.me.vs.cnt = 0) ∧ (m ≠ 0 → t.me.vs.cnt = s.me.vs.cnt ∧ t.me.vs.bits = s.me.vs.bits) ∧
           ∀ r : Fin 64, m ≠ 0 → (t.me.vs.regs[r]).mark = min m (s.me.vs.regs[r]).mark)) ∧
       t.me.vs.accs = s.me.vs.accs ∧ t.me.vs.preds = s.me.vs.preds ∧ t.me.vs.ka = s.me.vs.ka ∧ t.me.vs.kb = s.me.vs.kb ∧
       t = { s with me := t.me }))

/-- R129, R130: a VFETCH of a block that the replay buffer holds, with nothing to wait for, appends its instructions to the vector queue in
block order, each with the snapshot of the strand's registers and configuration as they are, names the block most recently, and reads no
memory. While captured scalars or VL are pending, or room is lacking, it waits, and the block is the one named most recently. It traps on a
misaligned address and on a format that the captured VT does not admit. R410: VREPLAY without a held window, or with vector state of another
owner, only advances the PC; else it returns the window to issue, ahead of what the queue holds, in its order, and clears SQ. An instruction
that completed stays done, and each keeps its snapshot. Model's choices or readings on which it rests: log entry 8. -/
def Obligations.FetchAndReplay : Prop :=
  (∀ (a : Reg) (s : State) (b : RBlock), s.Clear [a] [] →
     let i : Instr := .vfetch a
     let srcs := (b.insns.map fun x => vScalarSrcs x.2).flatten
     let waits : Prop := (∃ r ∈ srcs, s.me.pending r = true) ∨ s.me.vlPending = true ∨ 64 < s.me.q.length + s.me.win.length + b.insns.length
     let named := s.me.replay.filter (·.addr ≠ s.s a)
     ((s.s a).toNat % 8 ≠ 0 → s.MayEnter 0x03 → s.Traps i 0x03 (wordOf32 i) (some (s.s a))) ∧
     ((s.s a).toNat % 8 = 0 → s.me.replay.find? (·.addr = s.s a) = some b →
       (waits → exec i s = .next { s with me := { s.me with replay := ({ addr := s.s a, insns := b.insns } :: named).take 32 } }) ∧
       (¬ waits → (∀ x ∈ b.insns, formatOk x.2 s.me.cfg = true) → (∀ r ∈ srcs, s.me.faultOf r = none ∧ r ∉ s.me.spoiled.sregs) →
         ∃ (t : State) (new : List QEntry), exec i s = .next t ∧ t.me.q = s.me.q ++ new ∧ new.length = b.insns.length ∧
           (∀ (n : Nat) (e : QEntry), new[n]? = some e → b.insns[n]? = some (e.word, e.instr) ∧ e.block = s.s a ∧ e.idx = n ∧ e.snap = { regs := s.me.regs, cfg := s.me.cfg } ∧
             e.done = false ∧ e.lanes = none ∧ e.started = [] ∧ e.fault = none ∧ e.flags = 0) ∧
           t.me.replay = ({ addr := s.s a, insns := b.insns } :: named).take 32 ∧
           t = { s with me := { s.me.wentOn 0 0 (s.me.pc + 4) with
             q := t.me.q, replay := t.me.replay, fetches := t.me.fetches, traced := t.me.traced } }) ∧
       (¬ waits → ∀ n w x, b.insns[n]? = some (w, x) → formatOk x s.me.cfg = false → (∀ j y, j < n → b.insns[j]? = some y → formatOk y.2 s.me.cfg = true) →
         s.MayEnter 0x01 → 
           exec i s = .next { s with me := ({ s.me with replay := ({ addr := s.s a, insns := b.insns } :: named).take 32 } : Strand).inHandler 0x01 w (some (s.s a + BitVec.ofNat 64 (8 * n))) }))) ∧
  (∀ s : State, s.me.sys = true →
     (s.me.tr.tcause.getLsbD 17 = false ∨ s.foreign ≠ 0 → s.Gives .vreplay 0 0 (s.me.pc + 4)) ∧
     (s.me.tr.tcause.getLsbD 17 = true → s.foreign = 0 → ∃ (t : State) (back : List QEntry), exec .vreplay s = .next t ∧ t.me.q = back ++ s.me.q ∧
       back.length = s.me.win.length ∧
       (∀ (n : Nat) (e o : QEntry), back[n]? = some e → s.me.win[n]? = some o → e.instr = o.instr ∧ e.snap = o.snap ∧ e.done = o.done ∧ e.flags = o.flags ∧ e.lanes = none ∧
         (o.taken = false → e.rest = o.rest ∧ e.fault = o.fault) ∧
         (o.taken = true → e.fault = none ∧ ∃ r, e.rest = some r ∧ r.tlg = s.me.tr.tlg.toList.map (·.toNat))) ∧
       t = { s with me := { s.me.wentOn 0 0 (s.me.pc + 4) with q := t.me.q, win := [], tr := { s.me.tr with tcause := s.me.tr.tcause &&& ~~~ 0x20000 } } }))

/-- R415, R417, R418: VSAVE of a mask with a bit above 5 writes 0. With an address it writes the image of the strand's own parts there, sector
by sector, and the image's length to s(D); it waits for instructions in flight, and traps on a misaligned address and on foreign parts.
Without an address, where no unit is foreign it writes 0; where units of one other strand are, they go to that strand's frame and are the
strand's own from then on. What it writes to s(D) then is a free value: no rule gives a unit a number of bytes. R417, R419: VLOAD restores
the parts of its mask that an image holds, from the strand's frame where S(A) is 0, else from memory at S(A), when the image's header is
sound and fits, and writes the bytes that it read; it writes 0 and changes nothing else when it does not fit, or the mask has a bit above 5.
A restored register has the saved declaration, mark and contents, MVL is the saved one, and a part not named keeps what it is. It traps on
foreign parts, on a misaligned address, and where another strand claims the array's lane groups. Model's choices or readings on which it
rests: log entries 14, 22, 26, 51. -/
def Obligations.SaveAndLoad : Prop :=
  (∀ (d a b : Reg) (s : State), s.me.sys = true → s.Clear [a, b] [d] →
     let i : Instr := .vsave d a b
     let mask := (s.s b).toNat
     let r := s.imageReq (wordOf32 i)
     let image := (s.me.imaged (s.heldParts s.me mask)).image s.imageName
     let len := image.1.length
     (s.me.inFlight = true → exec i s = .next s) ∧
     (s.me.inFlight = false →
       (64 ≤ mask → s.Computes i d 0) ∧
       (mask < 64 → s.s a = 0 →
         (s.foreignUnits mask = [] → exec i s = .next { s with me := s.me.wentOn d 0 (s.me.pc + 4), free := s.free + 1 }) ∧
         (∀ x k, s.foreignUnits mask = [x] → s.strandOf x.1 = some k → x.1 ≠ s.me.id →
           let parts := s.heldParts k x.2.1
           ∃ t k', exec i s = .next t ∧ t.me.pc = s.me.pc + 4 ∧ (∀ n, n ≠ d → t.me.s n = s.me.s n) ∧ t.me.vs = s.me.vs ∧
             t.strandOf x.1 = some k' ∧ k'.kept.parts = k.kept.parts ||| BitVec.ofNat 6 parts ∧
             (parts.testBit 0 = true → k'.kept.vs.regs = k.vs.regs ∧ k'.kept.vs.cnt = k.vs.cnt ∧ k'.kept.vs.bits = k.vs.bits) ∧
             (parts.testBit 1 = true → k'.kept.vs.accs = k.vs.accs) ∧ (parts.testBit 2 = true → k'.kept.vs.preds = k.vs.preds) ∧
             (parts.testBit 3 = true → k'.kept.vs.ka = k.vs.ka ∧ k'.kept.vs.kb = k.vs.kb) ∧
             (parts.testBit 5 = true → k'.kept.win = k.win ∧ k'.win = []) ∧
             k'.alloc.lostVrf = Nat.lor k.alloc.lostVrf x.2.2.1 ∧ k'.alloc.lostAcc = Nat.lor k.alloc.lostAcc x.2.2.2)) ∧
       (mask < 64 → s.s a ≠ 0 →
         ((s.s a).toNat % 256 ≠ 0 → s.MayEnter 0x03 → s.Traps i 0x03 (wordOf32 i) (some (s.s a))) ∧
         ((s.s a).toNat % 256 = 0 → s.foreignIn mask ≠ 0 → s.MayEnter 0x07 → s.Traps i 0x07 (wordOf32 i) (some (BitVec.ofNat 64 (s.foreignIn mask)))) ∧
         ((s.s a).toNat % 256 = 0 → s.foreignIn mask = 0 → s.linksOpen → s.mem.stage = [] → s.noColl → s.logs s.me.ctx = false →
           ∀ at_ : Nat → Spot,
             (∀ n, n < len / 256 → s.Steady r (s.s a + BitVec.ofNat 64 (256 * n)) .write (at_ n) ∧ (at_ n).host = false ∧ (at_ n).key % 256 = 0 ∧
               ∀ m, m < n → (at_ m).key ≠ (at_ n).key) →
             ∃ t, exec i s = .next t ∧ s.sameButAccess t ∧ t.me = s.me.wentOn d (BitVec.ofNat 64 len) (s.me.pc + 4) ∧ len % 256 = 0 ∧
               (∀ n j, n < len / 256 → j < 256 → t.mem.byteUnder (at_ n).tag ((at_ n).key + j) = image.1.getD (256 * n + j) 0) ∧
               (∀ n, n < len / 256 → t.mem.bad.contains ((at_ n).key / 256) = image.2.contains n) ∧
               ∀ x, (∀ n, n < len / 256 → x / 256 ≠ (at_ n).key / 256) → t.mem.ram.get x = s.mem.ram.get x)))) ∧
  (∀ (d a b : Reg) (s : State), s.me.sys = true → s.Clear [a, b] [d] → s.me.inFlight = false →
     let i : Instr := .vload d a b
     let mask := (s.s b).toNat
     let r := s.imageReq (wordOf32 i)
     let held (y : Loaded) (arr : Arr) : Prop := mask.testBit 4 = true ∧ y.parts.testBit 4 = true ∧ y.arr = some arr
     let clash (y : Loaded) : Prop := ∃ arr g, held y arr ∧ g < 16 ∧ arr.holds g = true ∧
       ((∃ o ∈ s.core.arrays, o.owner ≠ s.me.id ∧ o.holds g = true) ∨ ∃ c ∈ s.core.claims, c.1 ≠ s.me.id ∧ c.2.contains g = true)
     let restored (y : Loaded) (t : State) : Prop :=
       let has (n : Nat) : Prop := mask.testBit n = true ∧ y.parts.testBit n = true
       t.me.pc = s.me.pc + 4 ∧ (∀ n, n ≠ d → t.me.s n = s.me.s n) ∧ t.mem.ram = s.mem.ram ∧
         (d ≠ 0 → t.me.s d = BitVec.ofNat 64 (256 + (((List.range 6).filter (Nat.land mask y.parts).testBit).map y.size).sum)) ∧
         (has 0 → t.me.vs.cnt = y.vs.cnt ∧ t.me.vs.bits = y.vs.bits ∧ t.me.cfg.mvl = BitVec.ofNat 64 y.mvl ∧
           ∀ v : Fin 64, (t.me.vs.regs[v]).mark = (y.vs.regs[v]).mark ∧ (t.me.vs.regs[v]).data = (y.vs.regs[v]).data) ∧
         (¬ has 0 → t.me.vs.cnt = s.me.vs.cnt ∧ t.me.vs.regs = s.me.vs.regs ∧ t.me.cfg = s.me.cfg) ∧
         (has 1 → ∀ m : Fin 16, m.val < y.accn → t.me.vs.accs[m] = y.vs.accs[m]) ∧ (¬ has 1 → t.me.vs.accs = s.me.vs.accs) ∧
         (has 2 → t.me.vs.preds = y.vs.preds) ∧ (¬ has 2 → t.me.vs.preds = s.me.vs.preds) ∧
         (has 3 → t.me.vs.ka = y.vs.ka ∧ t.me.vs.kb = y.vs.kb) ∧ (¬ has 3 → t.me.vs.ka = s.me.vs.ka ∧ t.me.vs.kb = s.me.vs.kb) ∧
         (has 5 → t.me.win = y.win ∧ (y.win ≠ [] → t.me.tr.tcause.getLsbD 17 = true)) ∧ (¬ has 5 → t.me.win = s.me.win) ∧
         (∀ arr, held y arr → ∃ o ∈ t.core.arrays, o.owner = s.me.id ∧ ∀ g, o.holds g = arr.holds g)
     (64 ≤ mask → s.Computes i d 0) ∧
     (mask < 64 → s.foreignIn mask ≠ 0 → s.MayEnter 0x07 → s.Traps i 0x07 (wordOf32 i) (some (BitVec.ofNat 64 (s.foreignIn mask)))) ∧
     (mask < 64 → s.foreignIn mask = 0 →
       (s.s a = 0 →
         let y := s.me.keptLoaded
         (y.fits s.me mask 1 = false → s.Computes i d 0) ∧
         (y.fits s.me mask 1 = true → clash y → s.MayEnter 0x0F → s.Traps i 0x0F (wordOf32 i) (some 2)) ∧
         (y.fits s.me mask 1 = true → ¬ clash y → ∃ t, exec i s = .next t ∧ restored y t)) ∧
       (s.s a ≠ 0 → (s.s a).toNat % 256 ≠ 0 → s.MayEnter 0x03 → s.Traps i 0x03 (wordOf32 i) (some (s.s a))) ∧
       (s.s a ≠ 0 → (s.s a).toNat % 256 = 0 → s.linksOpen → s.mem.stage = [] →
         ∀ at_ : Nat → Spot, s.ReadsAt r (s.s a) (at_ 0) → s.mem.poisoned (at_ 0).key = false →
           let sector (n : Nat) : List Byte := s.mem.bytesUnder (at_ n).tag (at_ n).key 256
           let h := headerLoaded (sector 0)
           let ns := List.range (h.len / 256)
           let y := h.fill s.mem.imgs (ns.map sector).flatten (ns.filter fun n => s.mem.poisoned (at_ n).key)
           h.wrong = false → h.len = h.offset 6 → (∀ n, n < h.len / 256 → s.ReadsAt r (s.s a + BitVec.ofNat 64 (256 * n)) (at_ n)) → y.fits s.me mask (numAt (sector 0) 0x30 8) = true → ¬ clash y →
           ∃ t, exec i s = .next t ∧ restored y t)))

/-- R319, R320, R323: a copy takes the next ticket of the copy timeline, advances LCLK, and becomes one of the strand's unfinished copies, with
the operands that its registers give; a resumed one begins at the PROG of S(D), and completes at once where no byte remains. A reserved
field or a limit broken refuses it with FC = 1, and with 32 operations unfinished it waits. R320, R321, R330, R286: a copy that has moved
all its bytes completes: it is unfinished no longer, its register holds its ticket, FC = 0 and the bytes moved, and its fault list nothing;
a copy of one piece moves exactly the source bytes to the destination on the way. The bytes that a copy moved since its last count are added
to COUNT of its sync word, and GEN counts how often COUNT reached TARGET. A retargeted copy goes on under the current GEN of the region
table, with nothing moved. Model's choices or readings on which it rests: log entries 3, 10, 16. -/
def Obligations.Copies : Prop :=
  (∀ (d a b : Reg) (s : State), s.me.run = .running → s.trc.open_ = false →
     let ticket := s.me.tlc + 1
     let issues (i : Instr) (reads : List Reg) (rowb rows swi prog : Nat) (resumed : Bool) (sstr dstr : Int) (wrong : Prop) : Prop :=
       s.Clear reads [d] →
       (32 ≤ s.me.as.copies.length + s.me.as.streams.length → exec i s = .next s) ∧
       (s.me.as.copies.length + s.me.as.streams.length < 32 →
         (¬ wrong → swi = 0 ∨ (∃ key, s.syncKey (s.me.req 0) (s.s a) swi = some key) → (resumed = true → prog < rowb * rows) →
           exec i s = .next { s with me := { s.me.wentOn 0 0 (s.me.pc + 4) with tlc := ticket, lclk := s.me.lclk + 1, as := { s.me.as with
             copies := s.me.as.copies ++ [{ ticket := ticket, word := wordOf32 i, user := !s.me.sys, dst := d, src := s.s (a + 1), to_ := s.s a, rowb := rowb, rows := rows, sstr := sstr, dstr := dstr, swi := swi, prog := prog, uncounted := 0, gen := s.mem.gen, stamp := s.me.lclk + 1 }]
             stat := s.me.as.stat.filter (·.1 ≠ d) } } }) ∧
         (wrong ∨ (swi = 0 ∧ resumed = true ∧ rowb * rows ≤ prog) → ∃ t, exec i s = .next t ∧ t.me.pc = s.me.pc + 4 ∧ t.me.tlc = ticket ∧
           t.me.lclk = s.me.lclk + 1 ∧ t.me.as.copies = s.me.as.copies.filter (·.ticket ≠ ticket) ∧ (∀ r, r ≠ d → t.me.s r = s.me.s r) ∧
           { t.mem with watch := s.mem.watch } = s.mem ∧
           (wrong → d ≠ 0 → t.me.s d = BitVec.ofNat 64 (ticket.toNat % 2 ^ 16 * 2 ^ 48 + 2 ^ 41)) ∧
           (¬ wrong → d ≠ 0 → t.me.s d = BitVec.ofNat 64 (ticket.toNat % 2 ^ 16 * 2 ^ 48 + rowb * rows % 2 ^ 41))))
     let n := (s.s b).toNat % 2 ^ 41
     let wrong : Prop := (s.s b).toNat / 2 ^ 41 % 2 ^ 7 ≠ 0 ∨ 2 ^ 40 < n
     let rowb := (s.s (d + 1)).toNat
     let rows := (s.s (d + 2)).toNat % 2 ^ 48
     let wrong2 : Prop := rowb = 0 ∨ 2 ^ 40 < rowb ∨ 2 ^ 40 < rowb * rows
     let swi := (s.s b).toNat / 2 ^ 48
     let swi2 := (s.s (d + 2)).toNat / 2 ^ 48
     let sstr := ((s.s (d + 3)).extractLsb' 32 32).toInt
     let dstr := ((s.s (d + 3)).extractLsb' 0 32).toInt
     let from_ := (s.s d).toNat % 2 ^ 41
     issues (.cpy d a b) [a, a + 1, b] n (if n = 0 then 0 else 1) swi 0 false 0 0 wrong ∧
     issues (.cpy2 d a) [a, a + 1, d + 1, d + 2, d + 3] rowb rows swi2 0 false sstr dstr wrong2 ∧
     (s.me.faultOf d = none → d ∉ s.me.spoiled.sregs →
       issues (.cpyR d a b) [a, a + 1, b] n (if n = 0 then 0 else 1) swi from_ true 0 0 wrong ∧
       issues (.cpy2R d a) [a, a + 1, d + 1, d + 2, d + 3] rowb rows swi2 from_ true sstr dstr wrong2)) ∧
  (∀ (k : SId) (ticket : Word) (s : State) (o : Strand) (c : Copy),
     s.strandOf k = some o → o.as.copies.find? (·.ticket = ticket) = some c → s.trc.open_ = false →
     let r := o.creq c.word c.user ticket
     let ends (o : Strand) (prog : Nat) (t : State) : Prop := ∃ x, t.strandOf k = some x ∧ x.as.copies = o.as.copies.filter (·.ticket ≠ ticket) ∧
       x.pc = o.pc ∧ (∀ r, r ≠ c.dst → x.s r = o.s r) ∧
       (c.dst ≠ 0 → x.s c.dst = BitVec.ofNat 64 (ticket.toNat % 2 ^ 16 * 2 ^ 48 + prog % 2 ^ 41))
     (c.swi = 0 → c.stop = none → c.total ≤ c.prog → ∃ t, exec (.copyComplete k ticket) s = .next t ∧
       { t.mem with watch := s.mem.watch, heal := s.mem.heal } = s.mem ∧ ends o c.prog t) ∧
     (c.swi = 0 → c.stop = none → c.gen = s.mem.gen → c.prog = 0 → c.rows = 1 → 0 < c.rowb → c.rowb < 256 → c.src.toNat % 256 + c.rowb ≤ 256 →
       c.to_.toNat % 256 + c.rowb ≤ 256 → c.marked = false → (∀ i, i < c.rowb → c.overlaps (c.to_ + BitVec.ofNat 64 i) = false) →
       ∀ p m q m2 s2 o2, s.find r c.src .read = .spot p m → m.Open p → m.poisoned p.key = false →
         let s1 := ({ s with mem := m } : State).passed r c.src .read p false
         s1.find r c.to_ .write = .spot q m2 → q.key % 256 + c.rowb ≤ 256 → ({ s1 with mem := m2 } : State).logged r c.to_ q c.rowb = .ok s2 →
         s2.mem.Open q → s2.disturbs r c.to_ c.rowb = false → (∀ h ∈ s2.mem.heal, h.own ≠ r.own) → s2.trc.open_ = false → s2.strandOf k = some o2 →
         ∃ t, exec (.copyComplete k ticket) s = .next t ∧ s2.mem.Wrote { t.mem with heal := s2.mem.heal } q (m.bytesUnder p.tag p.key c.rowb) ∧
           ends o2 c.rowb t) ∧
     (∀ key, c.swi ≠ 0 → c.uncounted ≠ 0 → s.syncKey r c.to_ c.swi = some key →
       let count := s.mem.ram.num (key + 8) 4 + c.uncounted
       let target := s.mem.ram.num key 4
       ∃ t x, exec (.syncWordUpdate k ticket) s = .next t ∧ t.strandOf k = some x ∧ x.as.copies.find? (·.ticket = ticket) = some { c with uncounted := 0 } ∧
         t.mem.ram.num key 4 = target ∧
         t.mem.ram.num (key + 8) 4 = (if target = 0 then count % 2 ^ 32 else count % target) ∧
         t.mem.ram.num (key + 12) 4 = (if target = 0 then s.mem.ram.num (key + 12) 4 else (s.mem.ram.num (key + 12) 4 + count / target) % 2 ^ 32) ∧
         ∀ x, x < key + 8 ∨ key + 16 ≤ x → t.mem.ram.get x = s.mem.ram.get x) ∧
     (∃ t, exec (.retarget k ticket) s = .next t ∧ t.mem = s.mem ∧ t.strandOf k = some { o with as := { o.as with
       copies := o.as.copies.map fun x => if x.ticket = ticket then { c with gen := s.mem.gen } else x } }))

/-- R332, R333, R335, R334: STREAM with a valid descriptor opens a stream of its fields, and sets TARGET of its sync word and clears COUNT and
GEN; a misaligned descriptor refuses it with FC = 1. STREAMX ends every stream of the descriptor after the strips already fetched: one for
which none is under way ends at once, with the strips delivered in its register. A strip that lands counts as delivered and adds its bytes
to the sync word. Model's choices or readings on which it rests: log entries 10, 37, 38. -/
def Obligations.Streams : Prop :=
  ∀ (d a : Reg) (s : State), s.me.run = .running → s.trc.open_ = false → s.Clear [a] [d] →
    let ticket := s.me.tlc + 1
    let addr := s.s a
    let i : Instr := .stream d a
    (s.me.as.copies.length + s.me.as.streams.length < 32 → addr.toNat % 8 ≠ 0 → ∃ t, exec i s = .next t ∧ t.me.pc = s.me.pc + 4 ∧ t.me.tlc = ticket ∧
      { t.mem with watch := s.mem.watch } = s.mem ∧ (d ≠ 0 → t.me.s d = BitVec.ofNat 64 (ticket.toNat % 2 ^ 16 * 2 ^ 48 + 2 ^ 41))) ∧
    (s.me.as.copies.length + s.me.as.streams.length < 32 → s.me.as.streams.length < 2 → addr.toNat % 8 = 0 → addr.toNat % 256 + 128 ≤ 256 →
      ∀ p m c, s.ticketed.find { s.ticketed.me.req (wordOf32 i) with scalar := false, evicts := true } addr .read = .spot p m → m.Open p → m.poisoned p.key = false →
      s.crewOf (s.me.req 0) = some c → c.placed = true →
      let desc := m.bytesUnder p.tag p.key 128
      let ctl := numAt desc 8 8
      let total := numAt desc 0 8
      let strip := ctl / 2 ^ 24 % 2 ^ 16
      let buf := ctl / 2 ^ 8 % 2 ^ 9
      let ns := ctl / 2 ^ 4 % 4
      let eb := 2 ^ (ctl % 4)
      let swi := ctl / 2 ^ 48
      let org := scrKey c.core.toNat (c.scrBase * 4096)
      1 ≤ total → total ≤ 2 ^ 40 → swi ≠ 0 → ctl / 2 ^ 40 % 2 ^ 8 = 0 → 1 ≤ strip → strip ≤ 8192 → ctl / 2 ^ 17 % 2 ^ 7 = 0 → ctl / 2 ^ 6 % 4 = 0 →
      ctl / 2 ^ 2 % 4 = 0 → (∀ j, 0x50 ≤ j → j < 128 → desc.getD j 0 = 0) → (∀ j, 0x20 + 0x10 * ns ≤ j → j < 0x50 → desc.getD j 0 = 0) →
      buf * 4096 + 2 * (ns + 1) * ((strip * eb + 255) / 256 * 256) ≤ c.scr * 4096 → swi * 16 + 16 ≤ c.scr * 4096 →
      ∃ (t : State) (x : Stream), exec i s = .next t ∧ t.me.pc = s.me.pc + 4 ∧ t.me.tlc = ticket ∧ t.me.lclk = s.me.lclk + 1 ∧
        t.me.as.streams = s.me.as.streams ++ [x] ∧ x.ticket = ticket ∧ x.dst = d ∧ x.desc = addr ∧ x.total = total ∧ x.strip = strip ∧ x.buf = buf ∧
        x.ns = ns ∧ x.eb = eb ∧ x.swi = swi ∧ x.delivered = 0 ∧ x.released = 0 ∧ x.ending = none ∧
        (∀ j, j ≤ ns → x.bases[j]? = some (BitVec.ofNat 64 (numAt desc (0x10 + 0x10 * j) 8), BitVec.ofNat 64 (numAt desc (0x18 + 0x10 * j) 8))) ∧
        t.mem.ram.num (org + swi * 16) 8 = (ns + 1) * strip * eb ∧ t.mem.ram.num (org + swi * 16 + 8) 8 = 0 ∧
        ∀ x, x < org + swi * 16 ∨ org + swi * 16 + 16 ≤ x → t.mem.ram.get x = m.ram.get x) ∧
    (∀ x, s.me.as.streams = [x] → x.desc = addr → x.ending = none → s.fetchable x ≤ x.delivered →
      ∃ t, exec (.streamx a) s = .next t ∧ t.me.pc = s.me.pc + 4 ∧ t.me.as.streams = [] ∧ { t.mem with watch := s.mem.watch } = s.mem ∧
        (x.dst ≠ 0 → t.me.s x.dst = BitVec.ofNat 64 (x.ticket.toNat % 2 ^ 16 * 2 ^ 48 + x.delivered % 2 ^ 41))) ∧
    (∀ x, s.me.as.streams = [x] → x.desc = addr → x.ending = none → x.delivered < s.fetchable x → x.delivered < x.strips →
      exec (.streamx a) s = .next { s with me := { s.me with as := { s.me.as with streams := [{ x with ending := some (s.fetchable x) }] } } }) ∧
    (∀ (x : Stream) (org size : Nat), s.me.as.streams = [x] → x.ns = 0 → x.delivered < s.fetchable x → x.delivered + 1 < x.strips → x.ending = none →
      x.strip ≤ x.total - x.delivered * x.strip → x.strip * x.eb ≤ 256 → s.linksOpen → s.mem.watch = [] → s.mem.stage = [] → s.noColl →
      s.logs s.me.ctx = false → s.scratchOf s.me = some (org, size) →
      let r := s.me.creq x.word x.user x.ticket
      let key := org + x.swi * 16
      let source (j : Nat) : Word := (x.bases.getD 0 (0, 0)).1 + BitVec.ofNat 64 (x.delivered * x.strip + j) * (x.bases.getD 0 (0, 0)).2
      let slot := x.buf * 4096 + x.delivered % 2 * ((x.strip * x.eb + 255) / 256 * 256)
      let dest := 0xFFFFFFFFFFE00000 + BitVec.ofNat 64 slot
      let count := s.mem.ram.num (key + 8) 4 + x.strip * x.eb
      ∀ (at_ : Nat → Spot) (q : Spot),
        (∀ j, j < x.strip → (source j).toNat % x.eb = 0 ∧ s.ReadsAt r (source j) (at_ j) ∧ s.mem.poisoned (at_ j).key = false) →
        s.LandsAt { r with user := false } dest .write q → q.host = false → q.key = org + slot → q.key % 256 = 0 →
        key + 16 ≤ q.key ∨ q.key + 256 ≤ key →
        ∃ t y, exec (.stripLand s.me.id x.ticket) s = .next t ∧ t.me.as.streams = [y] ∧ y.ticket = x.ticket ∧ y.delivered = x.delivered + 1 ∧
          t.me.regs = s.me.regs ∧ t.me.pc = s.me.pc ∧
          (∀ j b, j < x.strip → b < x.eb → t.mem.byteUnder q.tag (q.key + j * x.eb + b) = s.mem.byteUnder (at_ j).tag ((at_ j).key + b)) ∧
          (s.mem.ram.num key 4 ≠ 0 → t.mem.ram.num (key + 8) 4 = count % s.mem.ram.num key 4 ∧
            t.mem.ram.num (key + 12) 4 = (s.mem.ram.num (key + 12) 4 + count / s.mem.ram.num key 4) % 2 ^ 32))

/-- R326 to R328, R331: TLREAD gives the greatest number below which every operation of a timeline is done, and traps on a selector of none.
TLWAIT waits until that reaches S(B), at most the number of operations issued, then advances past their stamps or reports the oldest fault
among them. SYNCW goes on once GEN of its word lies past S(B), with GEN in its register, and waits otherwise; it traps on a misaligned
address and outside the windows. R175: SIGNAL adds S(B) to the doubleword at S(A), writes the old value to its destination, advances LCLK
and sets the event flag of every strand of the context. Then the wait nodes and the Ethernet rings of that word look at it. A misaligned
address traps. Model's choices or readings on which it rests: log entries 3, 19. -/
def Obligations.TimelinesAndSignals : Prop :=
  (∀ (d a b : Reg) (s : State), s.Clear [a, b] [d] →
     let sel := s.s a
     let opened (n : Nat) : Prop := (∃ c ∈ s.me.as.copies, c.ticket.toNat = n) ∨ ∃ c ∈ s.me.as.streams, c.ticket.toNat = n
     (∀ v, sel = 0 → (∀ n, n ≤ v → ¬ opened n) → v = s.me.tlc.toNat ∧ (∀ n, ¬ opened n) ∨ opened (v + 1) → s.Computes (.tlread d a) d (BitVec.ofNat 64 v)) ∧
     (∀ l, s.timeline sel = some l → s.Computes (.tlread d a) d (BitVec.ofNat 64 l.value)) ∧
     (3 ≤ sel.toNat / 2 ^ 60 ∨ sel.toNat / 2 ^ 16 % 2 ^ 44 ≠ 0 ∨ (sel.toNat / 2 ^ 60 < 2 ∧ sel.toNat % 2 ^ 16 ≠ 0) ∨
       (sel.toNat / 2 ^ 60 = 2 ∧ ∀ g ∈ s.groups, g.ctx = s.me.ctx → g.grp.toNat ≠ sel.toNat % 2 ^ 16) → s.MayEnter 0x05 → s.Traps (.tlread d a) 0x05 (wordOf32 (.tlread d a)) (some sel) ∧
       (s.me.tlWait = none → s.Traps (.tlwait a b) 0x05 (wordOf32 (.tlwait a b)) (some sel))) ∧
     (∀ l, s.me.tlWait = none → s.timeline sel = some l →
       let n := if sel.toNat / 2 ^ 60 = 2 then (s.s b).toNat else min (s.s b).toNat l.issued
       (l.value < n → exec (.tlwait a b) s = .next { s with me := { s.me with tlWait := some ⟨sel, s.s b, none⟩ } }) ∧
       (n ≤ l.value → (sel.toNat / 2 ^ 60 = 0 → ∀ f ∈ s.me.as.fins, f.unreported = true → n < f.ticket.toNat) →
         exec (.tlwait a b) s = .next { s with me := { s.me.wentOn 0 0 (s.me.pc + 4) with lclk := maxW s.me.lclk (l.stamp n) + 1 } })) ∧
     (let i : Instr := .syncw d a b
      let v : Nat := (s.s b).toNat % 2 ^ 32
      (sel.toNat % 16 ≠ 0 → s.MayEnter 0x03 → s.Traps i 0x03 (wordOf32 i) (some sel)) ∧
      (sel.toNat % 16 = 0 → (∀ d n, s.homeOf (s.me.req (wordOf32 i)) sel false ≠ .window d n) → s.MayEnter 0x05 → s.Traps i 0x05 (wordOf32 i) (some sel)) ∧
      (∀ org key p m, sel.toNat % 16 = 0 → s.homeOf (s.me.req (wordOf32 i)) sel false = .window org key →
        s.find (s.me.req (wordOf32 i)) sel .read = .spot p m → m.Open p → m.poisoned p.key = false → (∀ k ∈ s.allStrands, k.as.streams = [] ∧ k.as.stopped = []) →
        let gen : Nat := m.ram.num (key + 12) 4
        let gap : Int := ((gen : Int) - (v : Int)) % (2 ^ 32 : Int)
        (1 ≤ gap ∧ gap ≤ 2 ^ 31 → ∃ t, exec i s = .next t ∧ t.mem = m ∧
          t.me = { s.me.wentOn d (BitVec.ofNat 64 gen) (s.me.pc + 4) with lclk := maxW s.me.lclk (BitVec.ofNat 64 (kvGet m.syncs key)) + 1 }) ∧
        (¬ (1 ≤ gap ∧ gap ≤ 2 ^ 31) → ∃ t, exec i s = .next t ∧ t.mem = m ∧ t.me = s.me)))) ∧
  (∀ (d a b : Reg) (s : State), s.Clear [a, b] [d] →
     let i : Instr := .signal d a b
     let addr := s.s a
     (addr.toNat % 8 ≠ 0 → s.MayEnter 0x03 → s.Traps i 0x03 (wordOf32 i) (some addr)) ∧
     (∀ p m s2, addr.toNat % 8 = 0 → s.find (s.me.req (wordOf32 i)) addr .both = .spot p m → m.Open p → m.poisoned p.key = false → p.key % 256 + 8 ≤ 256 →
       ({ s with mem := m } : State).logged (s.me.req (wordOf32 i)) addr p 8 = .ok s2 →
       s2.disturbs (s.me.req (wordOf32 i)) addr 8 = false → s2.me = s.me → s.me.run = .running →
       let old := leNat (m.bytesUnder p.tag p.key 8)
       ∃ u : State, exec i s = .next ((u.pollWaits s.me.ctx addr).wakeEthernet s.me.ctx addr) ∧
         s2.mem.Wrote u.mem p (leBytes 8 (old + (s.s b).toNat)) ∧ u.cp = s2.cp ∧
         u.me = { s.me.wentOn d (BitVec.ofNat 64 old) (s.me.pc + 4) with lclk := s.me.lclk + 1, event := true } ∧
         u.strands = s2.strands.map fun k => if k.ctx = s.me.ctx ∧ k.run ≠ .idle then { k with event := true } else k))

/-- R43, R44, R45, R172, R325: LAUNCH of a readable descriptor that passes the checks creates a launch of its fields under the strand's launch,
or under the job when the descriptor asks for it, with OUT its crews, and writes its handle; one that fails a check creates none and its
handle carries the code of the lowest check. Either enters the strand's launch timeline. Where the descriptor is at another device, the
strand goes on with s(D) pending. R49 to R51, R172: GRAPH reads the image whole, and creates a graph of its nodes and edges with OUT the
number of its nodes; an image that breaks the rules yields a handle of KIND 0 with code 9. R44, R55, R173, R174: CANCEL and CWAIT of a
handle that names nothing write 1000000000000000H. CANCEL of an object writes its completion word as it stood and marks the object and
everything under it. CWAIT waits until OUT of the object is at most S(B) or its STATE is not 0, writes its completion word, and advances
LCLK past the clock recorded with it. Model's choices or readings on which it rests: log entry 19. -/
def Obligations.PresentingWork : Prop :=
  (∀ (d a : Reg) (s : State) (j : Job) (p : Spot) (m : MemSys), s.Clear [a] [d] → s.me.run = .running → s.me.as.subs = [] →
     let s0 := s.toCp.unstage
     let place := s.me.as.ltl.length
     let s1 : State := { s0 with me := { s0.me with as := { s0.me.as with
       subs := [{ dst := d, graph := false, at_ := s.s a, stamp := s.me.lclk + 1, place := place }]
       ltl := s.me.as.ltl ++ [{ handle := none, stamp := 0, asked := true }] } } }
     let r := pkgReq s.me.ctx (s.me.lclk + 1) [16, s.me.id.lid.toNat, s.me.id.cid.toNat, s.me.id.sid.toNat, place]
     let desc := m.bytesUnder p.tag p.key 64
     let u := ({ s1 with mem := m } : State).passed r (s.s a) .read p false
     let check := u.descCheck j (s.s a) desc
     let up := s.me.id.lid.toNat % 2 ^ 13
     s.jobOf s.me.ctx = some j →
     (s1.find r (s.s a) .read = .spot p m → m.Open p → m.poisoned p.key = false → (s.s a).toNat % 256 + 64 ≤ 256 →
       (check ≠ 0 → ∃ t, exec (.launch d a) s = .next t ∧ t.me.pc = s.me.pc + 4 ∧ t.cp = u.cp ∧ t.mem = m ∧ t.me.as.subs = [] ∧
         (d ≠ 0 → t.me.s d = BitVec.ofNat 64 (check * 2 ^ 52)) ∧ (∀ r, r ≠ d → t.me.s r = s.me.s r) ∧
         ∃ e : LtEntry, t.me.as.ltl = s.me.as.ltl ++ [e] ∧ e.handle = none ∧ e.asked = false) ∧
       (check = 0 → s.cancelledObj (.launch up) = false → up ≠ (allocSlot Config.launchSlots (s.cp.launches.map fun l => (l.slot, l.gen, l.doneSeq))).1 →
         desc.getD 0x14 0 &&& 0x80 = 0 → ∃ (t : State) (l : Launch), exec (.launch d a) s = .next t ∧ t.me.pc = s.me.pc + 4 ∧ t.me.as.subs = [] ∧
         t.cp.launches.head? = some l ∧ l.ctx = s.me.ctx ∧ l.parent = .launch up ∧ l.node = none ∧ l.entry = BitVec.ofNat 64 (numAt desc 0 8) ∧
         l.arg = BitVec.ofNat 64 (numAt desc 8 8) ∧ l.shape = BitVec.ofNat 64 (numAt desc 0x10 8) ∧ l.strands = BitVec.ofNat 64 (numAt desc 0x18 8) ∧
         l.notify = BitVec.ofNat 64 (numAt desc 0x20 8) ∧ l.tag = BitVec.ofNat 64 (numAt desc 0x28 8) ∧ l.state = 0 ∧ l.code = 0 ∧
         l.out = numAt desc 0x16 2 ∧ l.nextCid = 0 ∧ l.eligible = true ∧ l.cancelled = false ∧
         (d ≠ 0 → t.me.s d = BitVec.ofNat 64 (1 * 2 ^ 60 + l.gen % 2 ^ 31 * 2 ^ 13 + l.slot)) ∧ (∀ r, r ≠ d → t.me.s r = s.me.s r) ∧ t.mem = m)) ∧
     (∀ dev, s1.find r (s.s a) .read = .remote dev → (∀ t ∈ s.fab.txs, t.own ≠ r.own) → d ≠ 0 →
       ∃ t, exec (.launch d a) s = .next t ∧ t.me.pc = s.me.pc + 4 ∧ t.me.pending d = true ∧ t.me.regs = s.me.regs)) ∧
  (∀ (d a : Reg) (s : State) (at_ : Nat → Spot) (nodes edges : Nat), s.Clear [a] [d] → s.me.run = .running → s.me.as.subs = [] → (∃ j, s.jobOf s.me.ctx = some j) →
     let s0 := s.toCp.unstage
     let place := s.me.as.ltl.length
     let s1 : State := { s0 with me := { s0.me with as := { s0.me.as with
       subs := [{ dst := d, graph := true, at_ := s.s a, stamp := s.me.lclk + 1, place := place }]
       ltl := s.me.as.ltl ++ [{ handle := none, stamp := 0, asked := true }] } } }
     let r := pkgReq s.me.ctx (s.me.lclk + 1) [16, s.me.id.lid.toNat, s.me.id.cid.toNat, s.me.id.sid.toNat, place]
     let up := s.me.id.lid.toNat % 2 ^ 13
     let off := (s.s a).toNat % 256
     let len := 0x40 + 0x40 * nodes + 4 * edges
     let first (n : Nat) : Nat := if n = 0 then 0 else 256 * n - off
     let byte (k : Nat) : Byte := s1.mem.byteUnder (at_ ((off + k) / 256)).tag ((at_ ((off + k) / 256)).key + (k - first ((off + k) / 256)))
     let img := (List.range len).map byte
     s1.linksOpen → s1.mem.stage = [] → nodes < 2 ^ 32 → edges < 2 ^ 32 → numAt img 0 4 = nodes → numAt img 4 4 = edges →
     (∀ n, 256 * n < off + len → s1.ReadsAt r (s.s a + BitVec.ofNat 64 (first n)) (at_ n) ∧ s1.mem.poisoned (at_ n).key = false) →
     (imageOk (s.s a) img = false → ∃ t, exec (.graph d a) s = .next t ∧ t.me.pc = s.me.pc + 4 ∧ t.cp = s1.cp ∧ t.mem = s1.mem ∧
       (d ≠ 0 → t.me.s d = BitVec.ofNat 64 (9 * 2 ^ 52))) ∧
     (nodes = 0 ∨ 4096 < nodes ∨ 65535 < edges → imageOk (s.s a) img = false) ∧
     (imageOk (s.s a) img = true → liveGraphs s < Config.maxGraphs → s.cancelledObj (.launch up) = false → numAt img 0x10 1 % 2 = 0 →
       (∀ l x, s.launchAt up = some l → l.node = some x → x.1 ≠ (allocSlot Config.graphSlots (s.cp.graphs.map fun g => (g.slot, g.gen, g.doneSeq))).1) →
       ∃ (t : State) (g : Graph), exec (.graph d a) s = .next t ∧ t.me.pc = s.me.pc + 4 ∧ t.cp.graphs.head? = some g ∧ g.ctx = s.me.ctx ∧
         g.parent = .launch up ∧ g.tag = BitVec.ofNat 64 (numAt img 8 8) ∧ g.nodes = (List.range nodes).map (nodeOf img) ∧ g.out = nodes ∧
         g.state = 0 ∧ (∀ e, e < edges → g.edges[e]? = some (numAt img (0x40 + 0x40 * nodes + 4 * e) 4 / 2 ^ 16 % 4, numAt img (0x40 + 0x40 * nodes + 4 * e) 4 % 2 ^ 16)) ∧
         (d ≠ 0 → t.me.s d = BitVec.ofNat 64 (2 * 2 ^ 60 + g.gen % 2 ^ 31 * 2 ^ 13 + g.slot)) ∧ (∀ r, r ≠ d → t.me.s r = s.me.s r))) ∧
  (∀ (d a b : Reg) (s : State), s.Clear [a, b] [d] →
     (s.object s.me.ctx (s.s a) = none →
       exec (.cwait d a b) s = .next { s with me := { s.me.wentOn d 0x1000000000000000 (s.me.pc + 4) with lclk := maxW s.me.lclk 0 + 1 } } ∧
       exec (.cancel d a) s = .next { s with
         me := { s.me.wentOn d 0x1000000000000000 (s.me.pc + 4) with lclk := s.me.lclk + 1 }, clk := { s.clk with cp := maxW s.clk.cp (s.me.lclk + 1) + 1 } }) ∧
     (∀ p, s.object s.me.ctx (s.s a) = some p →
       let w := s.wordOf p
       (w.1.toNat % 2 ^ 48 ≤ (s.s b).toNat ∨ w.1.toNat / 2 ^ 60 ≠ 0 →
         exec (.cwait d a b) s = .next { s with me := { s.me.wentOn d w.1 (s.me.pc + 4) with lclk := maxW s.me.lclk w.2 + 1 } }) ∧
       ((s.s b).toNat < w.1.toNat % 2 ^ 48 → w.1.toNat / 2 ^ 60 = 0 → exec (.cwait d a b) s = .next s) ∧
       exec (.cancel d a) s = .next ((((s.toCp.cancelObj (s.s a) p).2.sweepColls.sweepNodes).quiesce).finish d w.1)) ∧
     (∀ n l, s.object s.me.ctx (s.s a) = some (.launch n) → s.launchAt n = some l → l.state = 0 → l.cancelled = false →
       (∀ x ∈ s.cp.launches, x.slot ≠ n → x.state ≠ 0) → s.cp.graphs = [] → s.cp.phases = [] → s.groups = [] → s.fab.loop = [] → s.me.id.lid ≠ l.handle →
       (∀ c ∈ s.crews, c.lid ≠ l.handle ∨ c.placed = true) → (∀ k ∈ s.strands, k.id.lid = l.handle → k.run = .running) → l.nextCid = l.shape.toNat / 2 ^ 48 →
       ∃ (t : State) (x : Launch), exec (.cancel d a) s = .next t ∧ t.me.pc = s.me.pc + 4 ∧ (d ≠ 0 → t.me.s d = (s.wordOf (.launch n)).1) ∧
         t.launchAt n = some x ∧ x.cancelled = true ∧ x.state = 0 ∧
         ∀ k ∈ s.strands, k.id.lid = l.handle → k.run = .running → k.due.cancel = none → k.due.cancelled = none →
           { k with due := { k.due with cancel := some (s.s a, s.clk.ns) } } ∈ t.strands))

/-- R221 to R223, R213, R198: the integer and bitwise instructions on every active element: the exact result is wrapped, or clamped with SA
under SAT (always by VSADD and VSSUB); VMULH is the high half, VDIV truncates and gives all ones for a zero divisor; a shift by the width or
more clears, or fills with the sign. Each element of the destination group or accumulator has the value, and nothing else changes. Model's
choices or readings on which it rests: log entry 32. -/
def Obligations.VectorIntegers : Prop :=
  ∀ (v : VArgs) (s : State),
    let gives (i : Instr) (need : VCtx → List (Src × Fmt)) (res : VCtx → Src → Nat → Res) : Prop :=
      let c := s.entryCtx i
      let b := srcB (s.atEntry i) c v
      s.VReady i ⟨((destD v).src, c.f) :: (srcA v, c.f) :: need c, [v.p]⟩ → s.VAdmitted i → s.unpoisoned i v c.f (srcA v) →
      (∀ o ∈ need c, s.unpoisoned i v o.2 o.1) →
      s.GivesElems i v (destD v) (res c b)
    let two (i : Instr) (op : VCtx → Nat → Nat → Res) : Prop :=
      gives i (fun c => [(srcB (s.atEntry i) c v, c.f)]) fun c b k =>
        let r := op c (s.elem c c.f (srcA v) k).1 (s.elem c c.f b k).1
        (r.1, Nat.lor r.2 b.flags)
    let one (i : Instr) (op : VCtx → Nat → Res) : Prop := gives i (fun _ => []) fun c _ k => op c (s.elem c c.f (srcA v) k).1
    let bits (f : Fmt) (x : Nat) : Res := (f.pad (x % 2 ^ f.width), 0)
    let ints (f : Fmt) (x : Int) : Res := (f.pad (x % 2 ^ f.width).toNat, 0)
    let within (sat : Bool) (f : Fmt) (x : Int) : Res :=
      if sat = true ∧ x < f.lo then ((ints f f.lo).1, 2 ^ 13) else if sat = true ∧ f.hi < x then ((ints f f.hi).1, 2 ^ 13) else ints f x
    let sg (f : Fmt) (x : Nat) : Int := sgn f.width x
    let un (f : Fmt) (x : Nat) : Nat := x % 2 ^ f.width
    two (.vadd v) (fun c a b => within c.sat c.f (c.f.int a + c.f.int b)) ∧
    two (.vsub v) (fun c a b => within c.sat c.f (c.f.int a - c.f.int b)) ∧
    two (.vmul v) (fun c a b => within c.sat c.f (c.f.int a * c.f.int b)) ∧
    two (.vmulh v) (fun c a b => ints c.f (c.f.int a * c.f.int b / 2 ^ c.f.width)) ∧
    two (.vmin v) (fun c a b => bits c.f (if sg c.f a ≤ sg c.f b then a else b)) ∧
    two (.vmax v) (fun c a b => bits c.f (if sg c.f b ≤ sg c.f a then a else b)) ∧
    two (.vminu v) (fun c a b => bits c.f (min (un c.f a) (un c.f b))) ∧
    two (.vmaxu v) (fun c a b => bits c.f (max (un c.f a) (un c.f b))) ∧
    one (.vabs v) (fun c a => within c.sat c.f (if c.f.int a < 0 then -c.f.int a else c.f.int a)) ∧
    one (.vneg v) (fun c a => within c.sat c.f (-c.f.int a)) ∧
    two (.vsadd v) (fun c a b => within true c.f (c.f.int a + c.f.int b)) ∧
    two (.vssub v) (fun c a b => within true c.f (c.f.int a - c.f.int b)) ∧
    two (.vdiv v) (fun c a b => if un c.f b = 0 then bits c.f (2 ^ c.f.width - 1) else ints c.f (Int.tdiv (c.f.int a) (c.f.int b))) ∧
    two (.vand v) (fun c a b => bits c.f (a &&& b)) ∧ two (.vor v) (fun c a b => bits c.f (a ||| b)) ∧ two (.vxor v) (fun c a b => bits c.f (a ^^^ b)) ∧
    two (.vandn v) (fun c a b => bits c.f (a &&& (2 ^ c.f.width - 1 - un c.f b))) ∧
    one (.vnot v) (fun c a => bits c.f (2 ^ c.f.width - 1 - un c.f a)) ∧
    two (.vshl v) (fun c a b => bits c.f (if un c.f b < c.f.width then un c.f a * 2 ^ un c.f b else 0)) ∧
    two (.vshr v) (fun c a b => bits c.f (un c.f a / 2 ^ un c.f b)) ∧
    two (.vsha v) (fun c a b => ints c.f (sg c.f a / 2 ^ un c.f b)) ∧
    (∀ z : Nat → Nat, let c := s.entryCtx (.vclz v)
      let x (k : Nat) : Nat := (s.elem c c.f (srcA v) k).1
      (∀ k, z k ≤ c.f.width ∧ (∀ j, j < z k → (x k).testBit (c.f.width - 1 - j) = false) ∧
        (z k < c.f.width → (x k).testBit (c.f.width - 1 - z k) = true)) →
      gives (.vclz v) (fun _ => []) fun c _ k => bits c.f (z k)) ∧
    one (.vpopc v) (fun c a => bits c.f ((List.range c.f.width).filter a.testBit).length)

/-- R224 to R227, R232 to R234, R213: the floating instructions on every active element, by the functions of the element format under NM: sums,
differences, products and fused forms are the exact value rounded once, a zero difference of two zeros taking their common sign; minimum and
maximum return an operand, a number before a NaN and −0 below +0; sign changes keep the pattern; the special functions are those of the
format. Each element of the destination has the value, and nothing else changes. R233: the special points of VEXP2, VLOG2, VRCP, VRSQ, VSQRT
and VFDIV in the standard formats: what zeros, infinities, NaNs and negative numbers give, with DZ and NV. Model's choices or readings on
which it rests: log entries 11, 32, 59. -/
def Obligations.VectorFloats : Prop :=
  (∀ (v : VArgs) (s : State),
     let gives (i : Instr) (need : VCtx → List (Src × Fmt)) (res : VCtx → Src → Nat → Res) : Prop :=
       let c := s.entryCtx i
       let b := srcB (s.atEntry i) c v
       s.VReady i ⟨((destD v).src, c.f) :: (srcA v, c.f) :: need c, [v.p]⟩ → s.VAdmitted i → s.unpoisoned i v c.f (srcA v) →
       (∀ o ∈ need c, s.unpoisoned i v o.2 o.1) →
       s.GivesElems i v (destD v) (res c b)
     let two (i : Instr) (op : VCtx → Nat → Nat → Res) : Prop :=
       gives i (fun c => [(srcB (s.atEntry i) c v, c.f)]) fun c b k =>
         let r := op c (s.elem c c.f (srcA v) k).1 (s.elem c c.f b k).1
         (r.1, Nat.lor r.2 b.flags)
     let one (i : Instr) (op : VCtx → Nat → Res) : Prop := gives i (fun _ => []) fun c _ k => op c (s.elem c c.f (srcA v) k).1
     let three (i : Instr) (op : VCtx → Nat → Nat → Nat → Res) : Prop :=
       gives i (fun c => [(srcB (s.atEntry i) c v, c.f), (.reg v.c.toNat, c.f)]) fun c b k =>
         let r := op c (s.elem c c.f (srcA v) k).1 (s.elem c c.f b k).1 (s.elem c c.f (.reg v.c.toNat) k).1
         (r.1, Nat.lor r.2 b.flags)
     let val (c : VCtx) (x : Nat) : Machine.Num := c.f.value c.nm x
     let rounded (c : VCtx) (x : Machine.Num × Nat) : Res := let r := c.f.roundF c.nm x.1
       (r.1, Nat.lor r.2 x.2)
     let fused (negP negC : Bool) (c : VCtx) (x y z : Nat) : Res :=
       let p := (val c x).mul (val c y)
       let q := (if negP then p.1.neg else p.1).add (c.nm.toNat % 4) (if negC then (val c z).neg else val c z)
       rounded c (q.1, Nat.lor p.2 q.2)
     let minus (c : VCtx) (x y : Machine.Num) : Machine.Num × Nat :=
       if x.isZero = true ∧ y.isZero = true then (.fin (if x.negative = y.negative then x.negative else decide (c.nm.toNat % 4 = 3)) 0 0 false, 0)
       else x.add (c.nm.toNat % 4) y.neg
     let top (c : VCtx) : Nat := 2 ^ (c.f.width - 1)
     let back (c : VCtx) (x : Nat) (u : Machine.Num) : Nat := c.f.pad (if u.isZero then (if u.negative then top c else 0) else x)
     let extreme (ahead : Machine.Num → Machine.Num → Bool) (c : VCtx) (x y : Nat) : Res :=
       let a := val c x
       let b := val c y
       (if a.isNan ∧ b.isNan then c.f.pad c.f.nan else if b.isNan ∨ (¬ a.isNan ∧ ahead a b) then back c x a else back c y b,
         if a.sig ∨ b.sig then 2 ^ 8 else 0)
     let below (a b : Machine.Num) : Bool := decide (a.cmp b < 0 ∨ (a.cmp b = 0 ∧ (a.isZero = true → a.negative = b.negative ∨ a.negative = true)))
     let above (a b : Machine.Num) : Bool := decide (0 < a.cmp b ∨ (a.cmp b = 0 ∧ (a.isZero = true → a.negative = b.negative ∨ a.negative = false)))
     two (.vfadd v) (fun c x y => rounded c ((val c x).add (c.nm.toNat % 4) (val c y))) ∧
     two (.vfsub v) (fun c x y => rounded c (minus c (val c x) (val c y))) ∧
     two (.vfmul v) (fun c x y => rounded c ((val c x).mul (val c y))) ∧
     two (.vfmin v) (extreme below) ∧ two (.vfmax v) (extreme above) ∧
     one (.vfabs v) (fun c x => (c.f.pad (x % top c), 0)) ∧
     one (.vfneg v) (fun c x => (c.f.pad (Nat.xor (x % 2 ^ c.f.width) (top c)), 0)) ∧
     two (.vfsgn v) (fun c x y => (c.f.pad (x % top c + if y.testBit (c.f.width - 1) then top c else 0), 0)) ∧
     three (.vfma v) (fused false false) ∧ three (.vfms v) (fused false true) ∧ three (.vfnma v) (fused true false) ∧ three (.vfnms v) (fused true true) ∧
     one (.vexp2 v) (fun c x => c.f.exp2 c.nm x) ∧ one (.vlog2 v) (fun c x => c.f.vlog2 c.nm x) ∧ one (.vrcp v) (fun c x => c.f.rcp c.nm x) ∧
     one (.vrsq v) (fun c x => c.f.rsq c.nm x) ∧ one (.vsqrt v) (fun c x => c.f.sqrt c.nm x) ∧ two (.vfdiv v) (fun c x y => c.f.fdiv c.nm x y)) ∧
  (∀ (f : Fmt) (nm : Word) (x y : Nat), f.valid = true → f.isInt = false → f.mini = false →
     let inf (neg : Bool) : Nat := f.withSign neg f.infPat
     let zero (neg : Bool) : Nat := f.withSign neg 0
     let bad : Res := (f.pad f.nan, 2 ^ 8)
     (∀ s, f.value nm x = .nan s → let r : Res := (f.pad f.nan, if s then 2 ^ 8 else 0)
       f.exp2 nm x = r ∧ f.vlog2 nm x = r ∧ f.rcp nm x = r ∧ f.rsq nm x = r ∧ f.sqrt nm x = r) ∧
     (f.value nm x = .inf true → f.exp2 nm x = (zero false, 0) ∧ f.vlog2 nm x = bad ∧ f.rcp nm x = (zero true, 0) ∧ f.rsq nm x = bad ∧ f.sqrt nm x = bad) ∧
     (f.value nm x = .inf false → f.exp2 nm x = (inf false, 0) ∧ f.vlog2 nm x = (inf false, 0) ∧ f.rcp nm x = (zero false, 0) ∧ f.rsq nm x = (zero false, 0) ∧
       f.sqrt nm x = (inf false, 0)) ∧
     (∀ n e, f.value nm x = .fin n 0 e false → f.exp2 nm x = (f.pad (f.bias * 2 ^ f.frac), 0) ∧ f.vlog2 nm x = (inf true, 2 ^ 9) ∧
       f.rcp nm x = (inf n, 2 ^ 9) ∧ f.rsq nm x = (inf n, 2 ^ 9) ∧ f.sqrt nm x = (zero n, 0)) ∧
     (∀ m e st, f.value nm x = .fin true m e st → m ≠ 0 → f.vlog2 nm x = bad ∧ f.rsq nm x = bad ∧ f.sqrt nm x = bad) ∧
     (∀ n n' m m' e e' st st', f.value nm x = .fin n m e st → f.value nm y = .fin n' m' e' st' → m' = 0 →
       f.fdiv nm x y = (if m = 0 then bad else (inf (n != n'), 2 ^ 9))) ∧
     (∀ n n', f.value nm x = .inf n → f.value nm y = .inf n' → f.fdiv nm x y = bad))

/-- R228, R245, R213: compares and the instructions on predicates give every active bit of the destination below VL its value; of the rest, Z
clears below VL and TA from VL upward. PLT compares the index with the captured scalar or the immediate; PFIRST marks the first active index
at which A is set. Nothing else changes. Model's choices or readings on which it rests: log entries 32, 60, 61. -/
def Obligations.VectorMarks : Prop :=
  ∀ (v : VArgs) (s : State),
    let marks (i : Instr) (op : VCtx → Nat → Nat → Bool × Nat) : Prop :=
      let c := s.entryCtx i
      let b := srcB (s.atEntry i) c v
      s.VReady i ⟨[(srcA v, c.f), (b, c.f)], [v.p]⟩ → s.unpoisoned i v c.f (srcA v) → s.unpoisoned i v c.f b →
      s.GivesBits i v v.d fun k =>
        let r := op c (s.elem c c.f (srcA v) k).1 (s.elem c c.f b k).1
        (r.1, Nat.lor r.2 b.flags)
    let int (i : Instr) (op : Int → Int → Bool) : Prop := marks i fun c a b => (op (sgn c.f.width a) (sgn c.f.width b), 0)
    let nat (i : Instr) (op : Nat → Nat → Bool) : Prop := marks i fun c a b => (op (a % 2 ^ c.f.width) (b % 2 ^ c.f.width), 0)
    let fp (i : Instr) (loud : Bool) (op : Int → Bool) (nan : Bool) : Prop := marks i fun c a b =>
      let x := c.f.value c.nm a
      let y := c.f.value c.nm b
      if x.isNan || y.isNan then (nan, if loud || x.sig || y.sig then 2 ^ 8 else 0) else (op (x.cmp y), 0)
    let logic (i : Instr) (reads : List Reg) (op : QEntry → Nat → Bool) : Prop :=
      s.VReady i ⟨[], v.p :: reads⟩ → s.GivesBits i v v.d fun k => (op (s.atEntry i) k, 0)
    let a (k : Nat) : Bool := s.pred v.a k
    let b (k : Nat) : Bool := s.pred v.b k
    nat (.vcmpeq v) (· == ·) ∧ nat (.vcmpne v) (· != ·) ∧
    int (.vcmplt v) (fun x y => x < y) ∧ int (.vcmple v) (fun x y => x ≤ y) ∧ int (.vcmpgt v) (fun x y => y < x) ∧ int (.vcmpge v) (fun x y => y ≤ x) ∧
    nat (.vcmpltu v) (fun x y => x < y) ∧ nat (.vcmpleu v) (fun x y => x ≤ y) ∧ nat (.vcmpgtu v) (fun x y => y < x) ∧ nat (.vcmpgeu v) (fun x y => y ≤ x) ∧
    fp (.vfcmpeq v) false (· == 0) false ∧ fp (.vfcmpne v) false (· != 0) true ∧ fp (.vfcmplt v) true (fun x => x < 0) false ∧
    fp (.vfcmple v) true (fun x => x ≤ 0) false ∧ fp (.vfcmpgt v) true (fun x => 0 < x) false ∧ fp (.vfcmpge v) true (fun x => 0 ≤ x) false ∧
    fp (.vfcmpun v) false (fun _ => false) true ∧
    logic (.pand v) [v.a, v.b] (fun _ k => a k && b k) ∧ logic (.por v) [v.a, v.b] (fun _ k => a k || b k) ∧ logic (.pxor v) [v.a, v.b] (fun _ k => a k ^^ b k) ∧
    logic (.pandn v) [v.a, v.b] (fun _ k => a k && !b k) ∧ logic (.pnot v) [v.a] (fun _ k => !a k) ∧ logic (.pset v) [] (fun _ _ => true) ∧
    logic (.pclr v) [] (fun _ _ => false) ∧
    logic (.plt v) [] (fun e k => decide (k < (if v.k = .immB then (v.imm.signExtend 64).toNat else (e.s v.b).toNat))) ∧
    (s.VReady (.pfirst v) ⟨[], [v.p, v.a]⟩ → s.GivesMarks (.pfirst v) v v.d 0 fun k =>
      if s.active v k then some (a k && (List.range k).all fun j => !(s.active v j && a j)) else none)

/-- R229 to R231, R235, R236: VMOV and VSEL keep the pattern of the chosen source, VSPLAT gives the captured value to every element, VIOTA the
index, VCVT converts from the format in its immediate, clamping between integer formats; over its own source in another format it reads each
element as the writes before it left it (R213). VSCALE multiplies element i by entry i >> BL of a scale bank. VGETE writes one element to a
scalar register, and VSETE one element from it, whatever VL. Model's choices or readings on which it rests: log entries 21, 24, 29, 32. -/
def Obligations.VectorMoves : Prop :=
  ∀ (v : VArgs) (s : State),
    let e (i : Instr) : QEntry := s.atEntry i
    let gives (i : Instr) (need : List (Src × Fmt)) (preds : List Reg) (used : List (Src × Fmt)) (res : VCtx → Nat → Res) : Prop :=
      s.VReady i ⟨((destD v).src, (s.entryCtx i).f) :: need, preds⟩ → s.VAdmitted i → (∀ o ∈ used, s.unpoisoned i v o.2 o.1) →
      s.GivesElems i v (destD v) (res (s.entryCtx i))
    let A (c : VCtx) (k : Nat) : Nat := (s.elem c c.f (srcA v) k).1
    let scale (i : Instr) (bank : Mem) (spoiled : List Nat) : Prop :=
      let c := s.entryCtx i
      (c.bl ≠ 0 → ∀ k, k < c.vl → s.active v k = true → k / 2 ^ c.bl ∉ spoiled) →
      gives i [(srcA v, c.f)] [v.p] [(srcA v, c.f)] fun c k =>
        c.f.scaleBy c.nm (A c k) (if c.bl = 0 then .fin false 1 0 false else scaleValue c.scf (bank.num (2 * (k / 2 ^ c.bl)) 2))
    gives (.vmov v) [(srcA v, (s.entryCtx (.vmov v)).f)] [v.p] [] (fun c k => (A c k, 0)) ∧
    gives (.vsplat v) [] [v.p] [] (fun c k => ((s.elem c c.f (srcB (e (.vsplat v)) c v) k).1, (srcB (e (.vsplat v)) c v).flags)) ∧
    gives (.viota v) [] [v.p] [] (fun c k => if c.f.isInt then (c.f.pad k, 0) else c.f.roundF c.nm (.ofInt k)) ∧
    (let c := s.entryCtx (.vsel v)
     let b := srcB (e (.vsel v)) c v
     gives (.vsel v) [(srcA v, c.f), (b, c.f)] [v.p, v.c] [] fun c k => (if s.pred v.c k then A c k else (s.elem c c.f b k).1, 0)) ∧
    (let g := Fmt.of v.imm.toNat
     let c := s.entryCtx (.vcvt v)
     let conv (x : Nat) : Res := if g.isInt ∧ c.f.isInt then c.f.wrapInt true (g.int x) else c.f.round c.nm (g.value c.nm x)
     let next (t : State) (j : Nat) : State :=
       if s.active v j then t.putAll c (destD v) [⟨j, (conv (t.elem c g (srcA v) j).1).1, false⟩] else if v.z then t.putAll c (destD v) [⟨j, 0, false⟩] else t
     let before (k : Nat) : State := (List.range k).foldl next s
     (g = c.f ∨ (destD v).src ≠ srcA v → gives (.vcvt v) [(srcA v, g)] [v.p] [(srcA v, g)] fun c k => conv (s.elem c g (srcA v) k).1) ∧
     (g ≠ c.f → (destD v).src = srcA v → s.VReady (.vcvt v) ⟨[((destD v).src, c.f), (srcA v, g)], [v.p]⟩ → s.VAdmitted (.vcvt v) →
       (∀ k, k < c.vl → s.active v k = true → ((before k).elem c g (srcA v) k).2 = false) →
       s.GivesElems (.vcvt v) v (destD v) fun k => conv ((before k).elem c g (srcA v) k).1)) ∧
    scale (.vscaleKa v) s.me.vs.ka s.me.spoiled.ka ∧ scale (.vscaleKb v) s.me.vs.kb s.me.spoiled.kb ∧
    (let i : Instr := .vgete v
     let c := s.entryCtx i
     let k := ((e i).s v.c).toNat
     let limit := if v.k = .accA then 32768 / c.f.eb else vlmax (e i).snap.cfg c.mvl
     s.VReady i ⟨[(srcA v, c.f)], [v.p]⟩ →
       (limit ≤ k ∨ s.pred v.p k = false → s.GivesScalar i v.d 0 0) ∧
       (k < limit → s.pred v.p k = true → (s.elem c c.f (srcA v) k).2 = false →
         s.GivesScalar i v.d (if c.f.signed then (BitVec.ofInt 64 (sgn c.f.width (A c k))) else BitVec.ofNat 64 (A c k % 2 ^ c.f.width)) 0)) ∧
    (let i : Instr := .vsete v
     let c := s.entryCtx i
     let k := ((e i).s v.c).toNat
     let d : Src := .reg v.d.toNat
     let off : Prop := vlmax (e i).snap.cfg c.mvl ≤ k ∨ s.pred v.p k = false
     s.VReady i ⟨[(d, c.f)], [v.p]⟩ → s.VAdmitted i →
       (off → exec i s = .next { s with me := { s.me with q := s.queueDone i 0 } }) ∧
       (¬ off → ∃ t, exec i s = .next t ∧ t.me.q = s.queueDone i 0 ∧ (t.elem c c.f d k).1 = c.f.pad ((e i).s v.b).toNat ∧
         (c.ta = false → ∀ j, j ≠ k → s.marked c (.reg v.d.toNat) j → (t.elem c c.f d j).1 = (s.elem c c.f d j).1) ∧
         (∀ r, r < v.d.toNat ∨ v.d.toNat + c.g ≤ r → vget t.me.vs.regs r {} = vget s.me.vs.regs r {}) ∧
         t = { s with me := { s.me with q := t.me.q, vs := { s.me.vs with regs := t.me.vs.regs } } }))

/-- R237 to R239, R245: a reduction writes one scalar register from the active elements below VL: the sum of integers brought into the format
once, the tree or the chain of floating sums, the extremum, the AND or the OR, and PCNT the number of active indices at which A is set.
Nothing else changes. Model's choices or readings on which it rests: log entry 32. -/
def Obligations.VectorReductions : Prop :=
  ∀ (v : VArgs) (s : State),
    let xs (c : VCtx) : List Nat := (s.activeIdx c v).map fun k => (s.elem c c.f (srcA v) k).1
    let gives (i : Instr) (res : VCtx → Res) : Prop :=
      let c := s.entryCtx i
      s.VReady i ⟨[(srcA v, c.f)], [v.p]⟩ → s.unpoisoned i v c.f (srcA v) →
      s.GivesScalar i v.d (if c.f.signed then BitVec.ofInt 64 (sgn c.f.width (res c).1) else BitVec.ofNat 64 ((res c).1 % 2 ^ c.f.width)) (res c).2
    let slots (c : VCtx) : List (Option Nat) := (List.range c.vl).map fun k => if s.active v k then some (s.elem c c.f (srcA v) k).1 else none
    let sum (i : Instr) (tree : Bool) : Prop :=
      gives i fun c => if c.f.isInt then c.f.wrapInt c.sat ((xs c).map c.f.int).sum
        else if tree then
          let h := if c.vl ≤ 1 then 0 else Nat.log2 (c.vl - 1) + 1
          (treeSum (c.f.comb c.nm) h ((slots c).map (·.map (c.f.enter c.nm true)) ++ List.replicate (2 ^ h - c.vl) none)).getD (0, 0)
        else (((slots c).map (·.map (c.f.enter c.nm true))).foldl (c.f.comb c.nm) none).getD (0, 0)
    sum (.vrsum v) true ∧ sum (.vrsumo v) false ∧
    gives (.vrmax v) (fun c => extremum c true (xs c)) ∧ gives (.vrmin v) (fun c => extremum c false (xs c)) ∧
    gives (.vrand v) (fun c => ((xs c).foldl (· &&& ·) (2 ^ c.f.width - 1), 0)) ∧ gives (.vror v) (fun c => ((xs c).foldl (· ||| ·) 0, 0)) ∧
    (s.VReady (.pcnt v) ⟨[], [v.p, v.a]⟩ →
      s.GivesScalar (.pcnt v) v.d (BitVec.ofNat 64 ((s.activeIdx (s.entryCtx (.pcnt v)) v).filter (s.pred v.a)).length) 0)

/-- R240 to R244: each cross-lane instruction gives an active element the element of A at another index: the one that B names (0 at or above
VL), the one S below or above, the one mirrored; VCMPR packs the active elements and VEXPD spreads elements over the active indices. VCONFL
marks an element whose pattern an earlier active one has, and VSCAN gives the sum of the active elements up to each. Model's choices or
readings on which it rests: log entry 32. -/
def Obligations.VectorCrossLane : Prop :=
  ∀ (v : VArgs) (s : State),
    let a : Src := .reg v.a.toNat
    let d : Dest := .reg v.d.toNat
    let A (c : VCtx) (k : Nat) : Nat := (s.elem c c.f a k).1
    let below (c : VCtx) (k : Nat) : Nat := if k < c.vl then A c k else 0
    let shift (i : Instr) : Nat := if v.k = .immB then (v.imm.signExtend 64).toNat else ((s.atEntry i).s v.b).toNat
    let moves (i : Instr) (more : List (Src × Fmt)) (new : VCtx → Nat → Option Nat) : Prop :=
      let c := s.entryCtx i
      s.VReady i ⟨(d.src, c.f) :: (a, c.f) :: more, [v.p]⟩ → s.VAdmitted i → (∀ o ∈ more, s.unpoisoned i v o.2 o.1) → s.GivesMoves i v d 0 (new c)
    let active (c : VCtx) : List Nat := s.activeIdx c v
    moves (.vperm v) [(.reg v.b.toNat, (s.entryCtx (.vperm v)).f)]
      (fun c k => if s.active v k then some (below c (s.elem c c.f (.reg v.b.toNat) k).1) else none) ∧
    moves (.vslup v) [] (fun c k => if s.active v k ∧ shift (.vslup v) ≤ k then some (A c (k - shift (.vslup v))) else none) ∧
    moves (.vsldn v) [] (fun c k => if s.active v k then some (below c (k + shift (.vsldn v))) else none) ∧
    moves (.vrev v) [] (fun c k => if s.active v k then some (A c (c.vl - 1 - k)) else none) ∧
    moves (.vcmpr v) [] (fun c k => (active c)[k]?.map (A c)) ∧
    moves (.vexpd v) [] (fun c k => if s.active v k then some (A c ((active c).filter (· < k)).length) else none) ∧
    (let i : Instr := .vconfl v
     let c := s.entryCtx i
     s.VReady i ⟨[(a, c.f)], [v.p]⟩ → s.unpoisoned i v c.f a →
       s.GivesMarks i v v.d 0 fun k => if s.active v k then
         some ((List.range k).any fun j => s.active v j && A c j % 2 ^ c.f.width == A c k % 2 ^ c.f.width) else none) ∧
    (let i : Instr := .vscan v
     let c := s.entryCtx i
     let x (k : Nat) : Nat := (s.elem c c.f (srcA v) k).1
     let upTo (k : Nat) : List Nat := ((active c).filter (· ≤ k)).map x
     let res (k : Nat) : Res := if c.f.isInt then c.f.wrapInt c.sat ((upTo k).map c.f.int).sum
       else ((upTo k).foldl (fun acc y => c.f.comb c.nm acc (some (c.f.enter c.nm true y))) none).getD (0, 0)
     s.VReady i ⟨[((destD v).src, c.f), (srcA v, c.f)], [v.p]⟩ → s.VAdmitted i → s.unpoisoned i v c.f (srcA v) →
       s.GivesMoves i v (destD v) (((active c).map fun k => (res k).2).foldl Nat.lor 0) fun k => if s.active v k then some (res k).1 else none)

/-- R302, R305, R310, R313 to R316: where every active element's access lands in memory that its translation leaves as it is, a vector load
gives each the bytes at its address (in a nibble-plane format its nibble of each plane), segment loads field f of record k to register D +
f, resized in an integer format. Masked-off elements below VL are zero under Z and else stay, registers outside the destination stay, and no
byte of memory changes. VLDFF leaves VL at the first faulting element after the first active one. R318: VSCLD writes entry FIRST + j of a
scale bank for every active j below VL from the address S(A) + j·S(B), 2 bytes under SCF and 1 without it; Z zeroes the entries of the
masked-off indices; every other entry and the other bank stay. More than 4096 entries raise VDECL. Model's choices or readings on which it
rests: log entries 9, 32. -/
def Obligations.VectorLoads : Prop :=
  (∀ (v : VArgs) (s : State) (spot : Word → Spot),
     let ready (i : Instr) (need : List (Src × Fmt)) : Prop := s.VReady i ⟨need, [v.p]⟩ ∧ s.VAdmitted i ∧ formatOk i (s.atEntry i).snap.cfg = true ∧
       s.me.picked = none ∧ s.linksOpen
     let lands (i : Instr) (n : Nat) (a : Word) : Prop := a.toNat % n = 0 ∧ s.ReadsAt (s.entryReq (s.atEntry i)) a (spot a)
     let bytes (a : Word) (n : Nat) : Nat := leNat (s.mem.bytesUnder (spot a).tag (spot a).key n)
     let loaded (i : Instr) (t : State) (r vl : Nat) (x : Nat → Nat) : Prop :=
       let c := s.entryCtx i
       (∀ k, k < vl → s.active v k = true → (t.elem c c.f (.reg r) k).1 = c.f.pad (x k)) ∧
       (∀ k, k < vl → s.active v k = false → v.z = true → (t.elem c c.f (.reg r) k).1 = 0) ∧
       (∀ k, k < vl → s.active v k = false → v.z = false → s.marked c (.reg r) k → (t.elem c c.f (.reg r) k).1 = (s.elem c c.f (.reg r) k).1)
     let frame (i : Instr) (t : State) (m : MemSys) (n : Nat) : Prop := s.sameButAccess t ∧ t.mem = m ∧
       (∀ r, r < v.d.toNat ∨ v.d.toNat + n * (s.entryCtx i).g ≤ r → vget t.me.vs.regs r {} = vget s.me.vs.regs r {})
     let after (i : Instr) : MemSys := s.mem.covered (s.entryReq (s.atEntry i)).own
     let byte (e : QEntry) (c : VCtx) (k p : Nat) : Word := e.s v.a + v.imm.signExtend 64 + BitVec.ofNat 64 ((k / 128 * c.f.planes + p) * 64 + k % 128 / 2)
     let fits (i : Instr) (addr : QEntry → VCtx → Nat → Word) (k : Nat) : Prop :=
       let c := s.entryCtx i
       let e := s.atEntry i
       if c.f.plane = true then (e.s v.a + v.imm.signExtend 64).toNat % 64 = 0 ∧ ∀ p, p < c.f.planes → lands i 1 (byte e c k p) else lands i c.f.eb (addr e c k)
     let value (i : Instr) (addr : QEntry → VCtx → Nat → Word) (k : Nat) : Nat :=
       let c := s.entryCtx i
       let e := s.atEntry i
       if c.f.plane = true then ((List.range c.f.planes).map fun p => bytes (byte e c k p) 1 / 16 ^ (k % 2) % 16 * 16 ^ p).sum else bytes (addr e c k) c.f.eb
     let simple (i : Instr) (need : List (Src × Fmt)) (addr : QEntry → VCtx → Nat → Word) : Prop :=
       let c := s.entryCtx i
       ready i need → (∀ k, k < c.vl → s.active v k = true → fits i addr k) →
         ∃ t, exec i s = .next t ∧ frame i t (after i) 1 ∧ loaded i t v.d.toNat c.vl (value i addr) ∧ t.me.q = s.queueDone i 0 ∧
           t.me = { s.me with q := t.me.q, vs := { s.me.vs with regs := t.me.vs.regs } }
     let unit (e : QEntry) (c : VCtx) (k : Nat) : Word := e.s v.a + v.imm.signExtend 64 + BitVec.ofNat 64 (k * c.f.eb)
     let strided (e : QEntry) (_ : VCtx) (k : Nat) : Word := e.s v.a + v.imm.signExtend 64 + BitVec.ofNat 64 k * e.s v.b
     let index (e : QEntry) (c : VCtx) (k : Nat) : Word := e.s v.a + BitVec.ofNat 64 ((s.elem c c.f (.reg v.b.toNat) k).1 * 2 ^ (v.imm.toNat % 4))
     let dst (i : Instr) : Src × Fmt := (.reg v.d.toNat, (s.entryCtx i).f)
     simple (.vld v) [dst (.vld v)] unit ∧
     simple (.vlds v) [dst (.vlds v)] strided ∧
     (s.unpoisoned (.vldx v) v (s.entryCtx (.vldx v)).f (.reg v.b.toNat) →
       simple (.vldx v) [dst (.vldx v), (.reg v.b.toNat, (s.entryCtx (.vldx v)).f)] index) ∧
     (let i : Instr := .vldff v
      let c := s.entryCtx i
      let e := s.atEntry i
      ∀ k, ready i [dst i] → k ≤ c.vl → (∀ j, j < k → s.active v j = true → fits i unit j) →
        (k < c.vl → s.active v k = true ∧ (∃ j, j < k ∧ s.active v j = true) ∧ ((loadOp e c v (s.entryReq e)).check s k).isSome = true) →
        ∃ t, exec i s = .next t ∧ frame i t s.mem 1 ∧ loaded i t v.d.toNat k (value i unit) ∧
          t.me.cfg = { s.me.cfg with vl := BitVec.ofNat 64 k } ∧ t.me.pc = s.me.pc ∧ t.me.regs = s.me.regs) ∧
     (let i : Instr := .vldseg v
      let c := s.entryCtx i
      let e := s.atEntry i
      let n := v.c.toNat
      let w := 2 ^ (v.imm.toNat % 4)
      let at_ (k f : Nat) : Word := e.s v.a + BitVec.ofNat 64 ((k * n + f) * w)
      let field (k f : Nat) : Nat × Nat := if c.f.isInt then resize c.f.signed c.sat (8 * w) c.f.storage (bytes (at_ k f) w) else (bytes (at_ k f) w, 0)
      ready i ((List.range n).map fun f => (.reg (v.d.toNat + f), c.f)) → (∀ k f, k < c.vl → s.active v k = true → f < n → lands i w (at_ k f)) →
        ∃ t fl, exec i s = .next t ∧ frame i t (after i) n ∧ (∀ f, f < n → loaded i t (v.d.toNat + f) c.vl fun k => (field k f).1) ∧ t.me.q = s.queueDone i fl ∧
          (∀ b, fl.testBit b = true ↔ ∃ k f, k < c.vl ∧ s.active v k = true ∧ f < n ∧ (field k f).2.testBit b = true) ∧
          t.me = { s.me with q := t.me.q, vs := { s.me.vs with regs := t.me.vs.regs } })) ∧
  (∀ (v : VArgs) (s : State) (spot : Word → Spot),
     let first := v.imm.toNat % 4096
     let loads (i : Instr) (old : Mem) (bank : State → Mem) (other : State → Mem) : Prop :=
       let c := s.entryCtx i
       let e := s.atEntry i
       let w := if c.scf then 2 else 1
       let at_ (j : Nat) : Word := e.s v.a + BitVec.ofNat 64 j * e.s v.b
       s.VReady i ⟨[], [v.p]⟩ → c.vl ≤ 8192 → s.linksOpen →
         (first + c.vl ≤ 4096 → (∀ j, j < c.vl → s.active v j = true → (at_ j).toNat % w = 0 ∧
             s.ReadsAt (s.entryReq e) (at_ j) (spot (at_ j)) ∧ s.mem.poisoned (spot (at_ j)).key = false) →
           ∃ t, exec i s = .next t ∧ t.mem = s.mem ∧ s.sameButAccess t ∧ t.me.q = s.queueDone i 0 ∧
             (∀ j, j < c.vl → s.active v j = true →
               (bank t).num (2 * (first + j)) 2 = leNat (s.mem.bytesUnder (spot (at_ j)).tag (spot (at_ j)).key w)) ∧
             (∀ j, j < c.vl → s.active v j = false → (bank t).num (2 * (first + j)) 2 = if v.z then 0 else old.num (2 * (first + j)) 2) ∧
             (∀ x, x < 2 * first ∨ 2 * (first + c.vl) ≤ x → (bank t).get x = old.get x) ∧ other t = other s ∧
             t.me.vs.regs = s.me.vs.regs ∧ t.me.vs.accs = s.me.vs.accs ∧ t.me.vs.preds = s.me.vs.preds ∧ t.me.regs = s.me.regs ∧ t.me.pc = s.me.pc) ∧
         (4096 < first + c.vl → ∃ (t : State) (x : QEntry), exec i s = .next t ∧ t.mem = s.mem ∧ t.me.vs = s.me.vs ∧ t.me.q[(s.entryFor i).1]? = some x ∧
           ∃ tlg, x.fault = some ⟨0x08, e.word, some (BitVec.ofNat 64 (first + c.vl)), tlg⟩)
     loads (.vscldKa v) s.me.vs.ka (·.me.vs.ka) (·.me.vs.kb) ∧ loads (.vscldKb v) s.me.vs.kb (·.me.vs.kb) (·.me.vs.ka))

/-- R302, R305, R311, R314, R316, R317: where one element is active and its access lands, a vector store leaves the bytes of the element of D at
its address, after the EXTERNAL mark and the old value in the log that it needs; a segment store its record field by field; VSTXA the sum of
the old value and the element in the format; every other byte stays. An access that is refused records the trap with the address it names,
and stores nothing. R312, R314, R316, R305: where every active element's access lands at a steady place that is not logged, an ordered store
performs its elements, and VSTSEG its records field by field, in ascending order, an unordered one in some order; a nibble-plane store
replaces its nibble of each plane's byte. Memory is what those writes leave, one after the other. Model's choices or readings on which it
rests: log entries 1, 9, 32, 70. -/
def Obligations.VectorStores : Prop :=
  (∀ (v : VArgs) (s : State) (k : Nat),
     let ready (i : Instr) (need : List (Src × Fmt)) : Prop := s.VReady i ⟨need, [v.p]⟩ ∧ s.VAdmitted i ∧ formatOk i (s.atEntry i).snap.cfg = true ∧
       s.me.picked = none ∧ k < (s.entryCtx i).vl ∧ ∀ j, j < (s.entryCtx i).vl → (s.active v j = true ↔ j = k)
     let stores (i : Instr) (need : List (Src × Fmt)) (addr : QEntry → VCtx → Word) (sum : Bool) : Prop :=
       let c := s.entryCtx i
       let e := s.atEntry i
       let start : State := (s.entryFor i).2.2
       let r := s.entryReq e
       let a := addr e c
       let n := c.f.eb
       let x := s.elem c c.f (.reg v.d.toNat) k
       let way : Need := if sum then .both else .write
       ready i need → c.f.plane = false →
         (∀ (p : Spot) (m : MemSys) (s2 : State), a.toNat % n = 0 → x.2 = false → start.find r a way = .spot p m → m.Open p →
           m.poisoned p.key = false → p.key % 256 + n ≤ 256 → (sum = true → p.host = false ∧ ∀ d port, start.homeOf r a false ≠ .host d port) →
           let u : State := { start with mem := m }
           (if p.host = true then (if e.marked then .ok u else u.mark r 1 a) else u.logOld r a p n) = .ok s2 →
           s2.mem.Open p → s2.mem.poisoned p.key = false → s2.disturbs r a n = false →
           let y : Res := if sum then (let o := leNat (m.bytesUnder p.tag p.key n)
             if c.f.isInt then c.f.wrapInt c.sat (c.f.int o + c.f.int x.1) else c.f.fadd c.nm o x.1) else (x.1, 0)
           ∃ t, exec i s = .next t ∧ s2.sameButAccess t ∧ s2.mem.Wrote { t.mem with heal := s2.mem.heal } p (leBytes n y.1) ∧
             t.me = { s2.me with q := start.me.q.set (s.entryFor i).1 { e with
               lanes := some (s.entryLanes i), done := true, rest := none, marked := e.marked || start.external r a, flags := e.flags ||| BitVec.ofNat 64 y.2 } }) ∧
         (∀ code at_, s.accessFault r a n way = some (code, at_) →
           ∃ (t : State) (b : QEntry), exec i s = .next t ∧ t.mem = s.mem ∧ t.me.vs = s.me.vs ∧ t.me.q[(s.entryFor i).1]? = some b ∧ b.done = false ∧
             ∃ tlg, b.fault = some ⟨code, e.word, some at_, tlg⟩)
     let d (i : Instr) : Src × Fmt := (.reg v.d.toNat, (s.entryCtx i).f)
     let unit (e : QEntry) (c : VCtx) : Word := e.s v.a + v.imm.signExtend 64 + BitVec.ofNat 64 (k * c.f.eb)
     let strided (e : QEntry) (_ : VCtx) : Word := e.s v.a + v.imm.signExtend 64 + BitVec.ofNat 64 k * e.s v.b
     let index (e : QEntry) (c : VCtx) : Word := e.s v.a + BitVec.ofNat 64 ((s.elem c c.f (.reg v.b.toNat) k).1 * 2 ^ (v.imm.toNat % 4))
     let clean (i : Instr) : Prop := s.unpoisoned i v (s.entryCtx i).f (.reg v.b.toNat)
     stores (.vst v) [d (.vst v)] unit false ∧ stores (.vstu v) [d (.vstu v)] unit false ∧ stores (.vsts v) [d (.vsts v)] strided false ∧
     (clean (.vstx v) → stores (.vstx v) [d (.vstx v), (.reg v.b.toNat, (s.entryCtx (.vstx v)).f)] index false) ∧
     (clean (.vstxa v) → stores (.vstxa v) [d (.vstxa v), (.reg v.b.toNat, (s.entryCtx (.vstxa v)).f)] index true)) ∧
  (∀ (v : VArgs) (s : State) (spot : Word → Spot),
     let active (i : Instr) : List Nat := s.activeIdx (s.entryCtx i) v
     let ready (i : Instr) (need : List (Src × Fmt)) : Prop := s.VReady i ⟨need, [v.p]⟩ ∧ s.VAdmitted i ∧ formatOk i (s.atEntry i).snap.cfg = true ∧
       s.me.picked = none ∧ s.linksOpen ∧ s.mem.stage = [] ∧ s.noColl ∧ (∀ r, (.reg r, (s.entryCtx i).f) ∈ need → s.unpoisoned i v (s.entryCtx i).f (.reg r))
     let lands (i : Instr) (n : Nat) (a : Word) : Prop := a.toNat % n = 0 ∧ s.Steady (s.entryReq (s.atEntry i)) a .write (spot a) ∧
       (spot a).key % 256 + n ≤ 256 ∧ s.mem.poisoned (spot a).key = false ∧ (spot a).host = false ∧ ((spot a).exempt = true ∨ s.logs s.me.ctx = false) ∧
       (∀ d port, s.homeOf (s.entryReq (s.atEntry i)) a false ≠ .host d port) ∧ (∀ dev, s.homeOf (s.entryReq (s.atEntry i)) a false ≠ .remote dev)
     let put (m : MemSys) (w : Word × List Byte) : MemSys := m.putUnder (spot w.1).tag (spot w.1).key w.2
     let completes (i : Instr) (fl : Nat) (t : State) : Prop := t.me = { s.me with q := s.queueDone i fl } ∧ s.sameButAccess { t with free := s.free }
     let leaves (t : State) (m : MemSys) : Prop := { t.mem with watch := s.mem.watch, heal := s.mem.heal } = m
     let elem (i : Instr) (r k : Nat) : Nat := (s.elem (s.entryCtx i) (s.entryCtx i).f (.reg r) k).1
     let d (i : Instr) : Src × Fmt := (.reg v.d.toNat, (s.entryCtx i).f)
     let unit (i : Instr) (k : Nat) : Word := (s.atEntry i).s v.a + v.imm.signExtend 64 + BitVec.ofNat 64 (k * (s.entryCtx i).f.eb)
     let strided (i : Instr) (k : Nat) : Word := (s.atEntry i).s v.a + v.imm.signExtend 64 + BitVec.ofNat 64 k * (s.atEntry i).s v.b
     let index (i : Instr) (k : Nat) : Word := (s.atEntry i).s v.a + BitVec.ofNat 64 (elem i v.b.toNat k * 2 ^ (v.imm.toNat % 4))
     let writes (i : Instr) (addr : Instr → Nat → Word) (k : Nat) : Word × List Byte := (addr i k, leBytes (s.entryCtx i).f.eb (elem i v.d.toNat k))
     let standard (i : Instr) (need : List (Src × Fmt)) (addr : Instr → Nat → Word) (ordered : Prop) : Prop :=
       ready i need → (s.entryCtx i).f.plane = false → (∀ k ∈ active i, lands i (s.entryCtx i).f.eb (addr i k)) →
         ∃ t l, exec i s = .next t ∧ l.Perm (active i) ∧ (ordered → l = active i) ∧ leaves t ((l.map (writes i addr)).foldl put s.mem) ∧ completes i 0 t
     standard (.vst v) [d (.vst v)] unit True ∧ standard (.vstu v) [d (.vstu v)] unit False ∧ standard (.vsts v) [d (.vsts v)] strided True ∧
     standard (.vstx v) [d (.vstx v), (.reg v.b.toNat, (s.entryCtx (.vstx v)).f)] index False ∧
     (let i : Instr := .vst v
      let c := s.entryCtx i
      let byte (k p : Nat) : Word := (s.atEntry i).s v.a + v.imm.signExtend 64 + BitVec.ofNat 64 ((k / 128 * c.f.planes + p) * 64 + k % 128 / 2)
      let nibble (m : MemSys) (k p : Nat) : MemSys :=
        let old := (m.byteUnder (spot (byte k p)).tag (spot (byte k p)).key).toNat
        let x := elem i v.d.toNat k / 16 ^ p % 16
        put m (byte k p, [BitVec.ofNat 8 (if k % 2 = 0 then old / 16 * 16 + x else old % 16 + x * 16)])
      ready i [d i] → c.f.plane = true → ((s.atEntry i).s v.a + v.imm.signExtend 64).toNat % 64 = 0 →
        (∀ k ∈ active i, ∀ p, p < c.f.planes → lands i 1 (byte k p) ∧ (byte k p).toNat = (byte k 0).toNat + 64 * p) →
        ∃ t, exec i s = .next t ∧ leaves t ((active i).foldl (fun m k => (List.range c.f.planes).foldl (fun m p => nibble m k p) m) s.mem) ∧ completes i 0 t) ∧
     (let i : Instr := .vstseg v
      let c := s.entryCtx i
      let n := v.c.toNat
      let w := 2 ^ (v.imm.toNat % 4)
      let at_ (k f : Nat) : Word := (s.atEntry i).s v.a + BitVec.ofNat 64 ((k * n + f) * w)
      let field (k f : Nat) : Nat × Nat := if c.f.isInt then resize c.f.signed c.sat c.f.storage (8 * w) (elem i (v.d.toNat + f) k) else (elem i (v.d.toNat + f) k, 0)
      ready i ((List.range n).map fun f => (.reg (v.d.toNat + f), c.f)) → (∀ k ∈ active i, ∀ f, f < n → lands i w (at_ k f) ∧ (at_ k f).toNat = (at_ k 0).toNat + f * w) →
        ∃ t fl, exec i s = .next t ∧
          leaves t ((((active i).map fun k => (List.range n).map fun f => (at_ k f, leBytes w (field k f).1)).flatten).foldl put s.mem) ∧ completes i fl t ∧
          (∀ b, fl.testBit b = true ↔ ∃ k ∈ active i, ∃ f, f < n ∧ (field k f).2.testBit b = true)))

/-- R249, R250, R253, R264: MMODE claims the lane groups LG to LG + 2^(G+1) − 1, in protected mode with their mirrors, waits until every
instruction of every strand of the core that has element groups there completes, and then forms the strand's array there; it raises MATRIX
where the strand holds one or a group is taken. MFREE takes the array away and returns its lane groups with their arbiters at zero. MZERO
clears md, or the cells of the array or the weights of its tile. R265 to R267: MCHAIN with SIZE 0 completes alone and ends a chain of the
array; with another SIZE it waits, its word and cycle noted on the array, until the MCHAINs of the whole chain have arrived in agreement
and, between quads, the hub links carry the chain; then every member is chained and every member's MCHAIN is complete. A chained MMAC waits,
its start noted, until every member's is ready; after the chain has dissolved it raises CHAIN with cause 3. 2^20 cycles after its arrival,
or that of the chain's first MMAC, without its partners, CHAIN is due with cause 1. Model's choices or readings on which it rests: log
entries 32, 45. -/
def Obligations.MatrixArraysAndChains : Prop :=
  (∀ (v : VArgs) (s : State),
     let done (i : Instr) (fl : Nat) : List QEntry :=
       (s.entryFor i).2.2.me.q.set (s.entryFor i).1 { s.atEntry i with done := true, rest := none, flags := (s.atEntry i).flags ||| BitVec.ofNat 64 fl }
     let faulted (i : Instr) (cause : Nat) : Prop := let e : QEntry := { s.atEntry i with fault := some ⟨0x0F, (s.atEntry i).word, some (BitVec.ofNat 64 cause), List.replicate 16 0⟩ }
       exec i s = .next { s with me := { s.me with q := (s.entryFor i).2.2.me.q.set (s.entryFor i).1 e } }
     let own (parts : Nat) : Prop := s.foreignIn parts = 0
     (let i : Instr := .mmode v
      let lg := v.imm.toNat / 2 ^ 4 % 2 ^ 4
      let g := 2 * 2 ^ (v.imm.toNat % 4)
      let vpm := (s.entryCtx i).vpm
      let takes (x : Nat) : Prop := lg ≤ x ∧ x < lg + g ∨ vpm = true ∧ lg + 8 ≤ x ∧ x < lg + g + 8
      let uses : Prop := ∃ k ∈ s.allStrands, k.core = s.core.num ∧ k.onCore = true ∧ ∃ e ∈ k.q,
        e.done = false ∧ e.fault = none ∧ e.lanes.isSome ∧ ∃ x ∈ e.groups s.core, x < 16 ∧ takes x
      let a : Arr := { owner := s.me.id, lg := lg, g := g, rs := v.imm.getLsbD 2, vpm := vpm }
      own 0 → (s.core.claims.any (·.1 = s.me.id)) = false →
        ((s.arrayOf s.me.id).isSome → faulted i 2) ∧
        ((s.arrayOf s.me.id) = none → (vpm = true → lg + g ≤ 8) → (∀ x, x < 16 → takes x → s.core.inMatrix x = false) →
          ∃ t, exec i s = .next t ∧
            (¬ uses → t.core.arrays = a :: s.core.arrays ∧ t.core.claims = s.core.claims ∧ t.me.q = done i 0) ∧
            (uses → t.core.arrays = s.core.arrays ∧ ∃ l, t.core.claims = (s.me.id, l) :: s.core.claims ∧ ∀ x, x ∈ l ↔ x < 16 ∧ takes x))) ∧
     (let i : Instr := .mfree v
      own 0 → ∃ t, exec i s = .next t ∧ t.me.q = done i 0 ∧ (∀ x ∈ t.arrays, x.owner ≠ s.me.id) ∧
        (∀ x ∈ s.core.arrays, x.owner ≠ s.me.id → ∃ y ∈ t.core.arrays, y.owner = x.owner ∧ y.lg = x.lg ∧ y.g = x.g ∧ y.tile = x.tile ∧ y.cells = x.cells) ∧
        (∀ a ∈ s.core.arrays, a.owner = s.me.id → ∀ n : Fin 16, a.holds n = true → t.core.arbs[n] = {}) ∧ t.me.vs = s.me.vs ∧ t.mem = s.mem) ∧
     (let i : Instr := .mzeroMd v
      own 2 → (s.arrayOf s.me.id).any (fun a => (s.entryCtx i).vpm != a.vpm) = false → v.d.toNat < s.me.alloc.accn →
        let cleared := vset s.me.vs.accs v.d.toNat {}
        exec i s = .next { s with me := { s.me with q := done i 0, vs := { s.me.vs with accs := cleared } } }) ∧
     (let i : Instr := .mzeroArray v
      ∀ a, own 0 → s.arrayOf s.me.id = some a → a.vpm = (s.entryCtx i).vpm → (a.rs = true ∨ a.tile.isSome) →
        ∃ t b, exec i s = .next t ∧ t.me.q = done i 0 ∧ t.arrayOf s.me.id = some b ∧
          (a.rs = true → b = { a with cells := [], cellBad := [], cf := none }) ∧
          (a.rs = false → b = { a with tile := a.tile.map fun x => { x with weights := [], bad := [] } }))) ∧
  (∀ (v : VArgs) (s : State) (a : Arr),
     let i : Instr := .mchain v
     let w := (s.atEntry i).s v.b
     let size := w.toNat / 2 ^ 20 % 8
     let noted : Arr := { a with arrived := some (w, s.clk.cyc) }
     (s.foreignIn 0 = 0 → s.arrayOf s.me.id = some a → a.rs = false → a.arrived = none → a.vpm = (s.entryCtx i).vpm → chainWordOk w = true → s.me.run = .running →
       (s.atEntry i).done = false →
       (size = 0 → (a.chain.isSome → s.me.id ∈ a.peers) → ∃ (t : State) (b : Arr) (e : QEntry), exec i s = .next t ∧ t.arrayOf s.me.id = some b ∧ b.chain = none ∧ b.tile = a.tile ∧
         (a.chain = none → b = a) ∧ t.me.q[(s.entryFor i).1]? = some e ∧ e.done = true) ∧
       (size ≠ 0 → a.chain = none → s.arrays.filter (·.owner = s.me.id) = [a] → (∀ x ∈ s.arrays, x.owner ≠ s.me.id → x.arrived = none) →
         ∃ (t : State) (e : QEntry), exec i s = .next t ∧ t.arrayOf s.me.id = some noted ∧ t.me.q[(s.entryFor i).1]? = some e ∧ e.done = false ∧ e.fault = none) ∧
       (∀ b k e wb, size = 1 → a.chain = none → s.arrays = [a, b] → b.owner = k.id → k.id ≠ s.me.id → k ∈ s.strands → (∀ x ∈ s.strands, x.id = k.id → x = k) → k.run = .running →
         k.ctx = s.me.ctx → b.arrived = some wb → k.oldest = some e → chainAgrees (noted, w, s.me.core) (b, wb.1, k.core) = true → wb.1.toNat / 2 ^ 24 % 2 ^ 8 = w.toNat / 2 ^ 24 % 2 ^ 8 →
         chainAgrees (b, wb.1, k.core) (noted, w, s.me.core) = true → chainWordOk wb.1 = true →
         (s.me.core.toNat / 4 = k.core.toNat / 4 ∨ ∀ l, l = s.me.core.toNat / 16 ∨ l = k.core.toNat / 16 → (s.link l).st = .awake) →
         ∃ (t : State) (a2 b2 : Arr), exec i s = .next t ∧ t.arrayOf s.me.id = some a2 ∧ a2.chain = some w ∧ a2.arrived = none ∧ t.arrayOf k.id = some b2 ∧
           a2.peers = (if w.toNat / 2 ^ 16 % 8 = 0 then [s.me.id, k.id] else [k.id, s.me.id]) ∧ b2.peers = a2.peers ∧
           b2.chain = some wb.1 ∧ b2.arrived = none ∧ (∃ k2 ∈ t.strands, k2.id = k.id ∧ (k2.q.filter (·.done)).length = (k.q.filter (·.done)).length + 1))) ∧
     (let j : Instr := .mmac v
      ∀ acf, s.foreignIn 11 = 0 → s.arrayOf s.me.id = some a → s.mmacCheck (s.entryCtx j) v = .ok (a, acf) → (s.atEntry j).done = false →
        (a.broken = true → ∃ (t : State) (e : QEntry) (b : Arr), exec j s = .next t ∧ t.me.q[(s.entryFor j).1]? = some e ∧ t.arrayOf s.me.id = some b ∧ b.broken = false ∧
          e.fault = some ⟨0x12, e.word, some 3, List.replicate 16 0⟩ ∧ e.done = false ∧ t.me.tr.mrp = 0 ∧ t.me.vs = s.me.vs) ∧
        (a.broken = false → a.chain.isSome → a.ready = none →
          ∃ (t : State) (e : QEntry) (b : Arr), exec j s = .next t ∧ t.me.q[(s.entryFor j).1]? = some e ∧ e.done = false ∧ t.arrayOf s.me.id = some b ∧
            b.ready = some (s.clk.cyc, v.imm.toNat % 256 + 1, acf, mrpProg s.me.tr.mrp 1) ∧ { b with ready := none } = a ∧ t.me.tr.mrp = 0 ∧ t.me.vs = s.me.vs) ∧
        (a.broken = false → a.chain.isSome → a.ready.isSome → (∃ x ∈ s.chainOf a, x.ready = none) →
          ∃ (t : State) (e : QEntry), exec j s = .next t ∧ t.me.q[(s.entryFor j).1]? = some e ∧ e.done = false ∧ t.arrayOf s.me.id = some a ∧ t.me.vs = s.me.vs)) ∧
     (∀ k x n, s.strandOf a.owner = some k → s.arrayOf a.owner = some a → k.q.findIdx? (fun e => !e.done) = some n → k.q[n]? = some x →
       let due (j : Instr) : Prop := ∃ (t : State) (o : Strand) (e : QEntry) (b : Arr), exec j s = .next t ∧ t.strandOf a.owner = some o ∧ o.q[n]? = some e ∧
         e.fault = some ⟨0x12, x.word, some 1, List.replicate 16 0⟩ ∧ t.arrayOf a.owner = some b ∧ b.arrived = none ∧ b.ready = none
       (∀ w0 c0, a.arrived = some (w0, c0) → (c0 + 2 ^ 20 ≤ s.clk.cyc → due (.chainTimeout a.owner)) ∧ (s.clk.cyc < c0 + 2 ^ 20 → exec (.chainTimeout a.owner) s = .next s)) ∧
       (∀ c0, a.ready.isSome → a.chain.isSome → a.owner ∈ a.peers → (∃ y ∈ s.chainOf a, y.ready = none) →
         (∃ y ∈ s.chainOf a, ∃ r, y.ready = some r ∧ r.1 = c0) → (∀ y ∈ s.chainOf a, ∀ r, y.ready = some r → c0 ≤ r.1) →
         (c0 + 2 ^ 20 ≤ s.clk.cyc → due (.chainStartTimeout a.owner)) ∧ (s.clk.cyc < c0 + 2 ^ 20 → exec (.chainStartTimeout a.owner) s = .next s))))

/-- R255 to R264: MWLD gives weight (r, c) of the array's tile the element of column c at depth r; MMAC adds to row i, column c of md the
products of A's row i and the tile's column c, array row after array row; MRSMAC adds to cell (i, j) the products of A's row i and B's row
j, step after step; MDRAIN writes the rows of cells to md. Nothing else of the accumulators changes. R255, R258: with integer operands and
no saturation, what MMAC adds to one element of md is the exact sum of the products of A's row and the tile's column, brought into 32 bits.
Model's choices or readings on which it rests: log entries 32, 35. -/
def Obligations.MatrixProducts : Prop :=
  (∀ (v : VArgs) (s : State) (a : Arr),
     let done (i : Instr) (fl : Nat) : List QEntry :=
       (s.entryFor i).2.2.me.q.set (s.entryFor i).1 { s.atEntry i with done := true, rest := none, flags := (s.atEntry i).flags ||| BitVec.ofNat 64 fl }
     let ready (i : Instr) (parts : Nat) : Prop := s.foreignIn parts = 0 ∧ s.arrayOf s.me.id = some a ∧ s.me.run = .running ∧ s.me.due.sdc = none ∧
       bt s.me.tr.mrp 63 = false ∧ s.me.picked = none ∧ (s.atEntry i).instr = i ∧ (s.atEntry i).done = false
     let kp (c : VCtx) (depth : Nat) : Nat := if c.bl = 0 then depth else (depth + 2 ^ c.bl - 1) / 2 ^ c.bl * 2 ^ c.bl
     (let i : Instr := .mwld v
      let c := s.entryCtx i
      let fa := if v.imm.toNat % 4096 = 0 then c.f else Fmt.of v.imm.toNat
      let l := cellL fa c.f
      let depth := a.rows * l
      ready i 9 → s.me.matrixOk c v.a.toNat (32 * kp c depth) = true → a.rs = false → (acfOf fa c.f c.bl).isSome = true →
        (c.bl = 0 ∨ l ≤ 2 ^ c.bl ∧ 32 * (kp c depth / 2 ^ c.bl) ≤ 4096 ∧ ∀ n, n < 32 * (kp c depth / 2 ^ c.bl) → n ∉ s.me.spoiled.kb) → c.vpm = a.vpm →
        ∃ t b x, exec i s = .next t ∧ t.me.q = done i 0 ∧ t.arrayOf s.me.id = some b ∧ b.tile = some x ∧ x.l = l ∧ x.bl = c.bl ∧ x.scf = c.scf ∧
          (∀ r col, r < depth → col < 32 → x.weights.num (8 * (32 * r + col)) 8 = (s.me.matrixElem c v.a.toNat (col * kp c depth + r)).1 % 2 ^ 64) ∧
          (∀ n, c.bl ≠ 0 → n < 2 * (32 * (kp c depth / 2 ^ c.bl)) → x.kb.get n = s.me.vs.kb.get n) ∧ { b with tile := a.tile } = a ∧ t.me.vs = s.me.vs) ∧
     (let i : Instr := .mmac v
      let c := s.entryCtx i
      let rows := v.imm.toNat % 256 + 1
      ∀ acf t0, ready i 11 → s.mmacCheck c v = .ok (a, acf) → a.tile = some t0 → a.broken = false → a.chain = none → v.d.toNat < 16 →
        (c.bl = 0 ∨ ∀ x ∈ s.me.spoiled.ka, rows * (kp c (a.rows * t0.l) / 2 ^ c.bl) ≤ x) →
        let m : Member := ⟨{ s.me with q := (s.entryFor i).2.2.me.q }, s.atEntry i, a, t0⟩
        let old := vget s.me.vs.accs v.d.toNat {}
        let eb := acf.fmt.eb
        ∃ t e, exec i s = .next t ∧ t.me.q[(s.entryFor i).1]? = some e ∧ e.done = true ∧ t.me.tr.mrp = 0 ∧
          (∀ row col, row < rows → col < 32 → (vget t.me.vs.accs v.d.toNat {}).data.num ((row * 32 + col) * eb) eb =
            (m.column acf row col ((m.arow row).map (·.1)) (t0.column m.depth col) (old.data.num ((row * 32 + col) * eb) eb)).1 % 2 ^ (8 * eb)) ∧
          (∀ x, rows * 32 * eb ≤ x → (vget t.me.vs.accs v.d.toNat {}).data.get x = old.data.get x) ∧
          (∀ n, n ≠ v.d.toNat → vget t.me.vs.accs n {} = vget s.me.vs.accs n {}) ∧ t.me.vs.regs = s.me.vs.regs ∧ t.me.pc = s.me.pc ∧ t.mem = s.mem) ∧
     (let i : Instr := .mrsmac v
      let c := s.entryCtx i
      let depth := v.imm.toNat
      let l := cellL c.f c.f
      let nb := kp c depth / 2 ^ c.bl
      let A (r k : Nat) : Nat := (s.me.matrixElem c v.a.toNat (r * kp c depth + k)).1
      let B (r k : Nat) : Nat := (s.me.matrixElem c v.b.toNat (r * kp c depth + k)).1
      ∀ acf, ready i 9 → s.mrsmacCheck c v = .ok (a, acf) →
        (c.bl = 0 ∨ (∀ x ∈ s.me.spoiled.ka, a.rows * nb ≤ x) ∧ ∀ x ∈ s.me.spoiled.kb, 32 * nb ≤ x) →
        let q : Cell := { fa := c.f, fb := c.f, acf := acf, nm := c.nm, sat := c.sat, scf := c.scf }
        let step (r col : Nat) (x b : Nat) : Nat :=
          let n := min l (depth - b * l)
          let scales := if c.bl = 0 then none else some (bankScale s.me.vs.ka c.scf (r * nb + b * l / 2 ^ c.bl), bankScale s.me.vs.kb c.scf (col * nb + b * l / 2 ^ c.bl))
          (q.step ((List.range n).map fun j => (A r (b * l + j), B col (b * l + j))) (l - n) scales x).1
        ∃ t b e, exec i s = .next t ∧ t.me.q[(s.entryFor i).1]? = some e ∧ e.done = true ∧ t.arrayOf s.me.id = some b ∧ b.cf = some acf ∧
          (∀ r col, r < a.rows → col < 32 → b.cells.num (8 * (32 * r + col)) 8 =
            (List.range ((depth + l - 1) / l)).foldl (step r col) (a.cells.num (8 * (32 * r + col)) 8) % 2 ^ 64) ∧
          { b with cells := a.cells, cellBad := a.cellBad, cf := a.cf } = a ∧ t.me.vs = s.me.vs ∧ t.mem = s.mem) ∧
     (let i : Instr := .mdrain v
      let c := s.entryCtx i
      let row := v.imm.toNat % 256
      let acf := a.cf.getD ((acfOf c.f c.f c.bl).getD .fp32)
      let eb := acf.fmt.eb
      let old := vget s.me.vs.accs v.d.toNat {}
      ready i 2 → v.d.toNat < s.me.alloc.accn → v.d.toNat < 16 → a.rs = true → row + a.rows ≤ acf.rows → c.vpm = a.vpm →
        ∃ t, exec i s = .next t ∧ t.me.q = done i 0 ∧
          (∀ r col, r < a.rows → col < 32 → (vget t.me.vs.accs v.d.toNat {}).data.num (((row + r) * 32 + col) * eb) eb =
            if a.cf = none then 0 else a.cells.num (8 * (32 * r + col)) 8 % 2 ^ (8 * eb)) ∧
          (∀ x, x < row * 32 * eb ∨ (row + a.rows) * 32 * eb ≤ x → (vget t.me.vs.accs v.d.toNat {}).data.get x = old.data.get x) ∧
          (∀ n, n ≠ v.d.toNat → vget t.me.vs.accs n {} = vget s.me.vs.accs n {}) ∧ t.me.vs.regs = s.me.vs.regs ∧ t.arrays = s.arrays)) ∧
  (∀ (m : Member) (row c x : Nat) (arow col : List Nat), m.ctx.bl = 0 → m.ctx.sat = false → arow.length = m.a.rows * m.t.l → col.length = m.a.rows * m.t.l →
     (m.column .int32 row c arow col x).1 =
       if m.a.rows = 0 then x else
       (((sgn 32 x + ((arow.zip col).map fun p => m.ctx.f.int p.1 * (Fmt.of m.t.fmt.toNat).int p.2).sum) % (2 ^ 32 : Int)).toNat))

/-- R116, R132, R135, R141, R407: VNOP completes without effect, once a lane group outside matrix mode is there, and VSTOP performs nothing.
VECTOR_RETIRE takes the oldest completed entry from the queue and joins its flags to NM. VECTOR_TRAP squashes the queue into the held
window, once no request of it is under way at another device, and enters the handler at the boundary with the code and the restart indices
of the oldest entry's fault. LANE_GROUP_ISSUE starts the oldest ready instruction of the chosen strand there. Model's choices or readings on
which it rests: log entries 3, 34, 55. -/
def Obligations.VectorQueueEvents : Prop :=
  ∀ s : State, s.me.run = .running →
    exec .vstop s = .next s ∧
    (s.VReady .vnop ⟨[], []⟩ → exec .vnop s = .next { s with me := { s.me with q := s.queueDone .vnop 0 } }) ∧
    (s.foreignIn 0 = 0 → s.entryLanes .vnop = [] → s.core.arrays = [] → exec .vnop s = .next s) ∧
    (∀ e rest, s.me.q = e :: rest →
      (e.done = true → e.probe = false → exec (.vectorRetire s.me.id) s =
        .next { s with me := { s.me with q := rest, cfg := { s.me.cfg with nm := s.me.cfg.nm ||| (e.flags &&& 0x3F00) } } }) ∧
      (e.done = false → exec (.vectorRetire s.me.id) s = .next s)) ∧
    (∀ e rest f, s.me.q = e :: rest → e.done = false → s.vectorRemote s.me = false → e.fault = some f → f.code ≠ 0x11 → s.me.due.vec = none → s.MayEnter f.code →
      ∃ t, exec (.vectorTrap s.me.id) s = .next t ∧ t.me.q = [] ∧ t.me.pc = s.me.tr.tvec ∧ t.me.sys = true ∧ t.me.lclk = s.me.lclk + 1 ∧
        t.me.tr.tcause = 0x20000 ||| 0x8000 ||| (if s.me.sys then 0x4000 else 0) ||| 0x10000 ||| f.code.setWidth 64 ∧
        t.me.tr.tpc = s.me.pc ∧ t.me.tr.tinfo = f.info ∧ t.me.tr.taddr = f.addr.getD s.me.tr.taddr ∧
        (∀ n : Fin 16, t.me.tr.tlg[n] = BitVec.ofNat 64 (f.tlg.getD n 0)) ∧ t.me.win.length = s.me.win.length + s.me.q.length ∧
        t.me.regs = s.me.regs ∧ t.me.cfg = s.me.cfg ∧ t.me.vs = s.me.vs ∧ t.mem = s.mem) ∧
    (∀ (core : BitVec 7) (lg : BitVec 4) (n : Nat),
      let c := s.getCore core
      let arb := vget c.arbs lg.toNat {}
      s.me.core = core → arb.cur = s.me.slot → vget arb.dc s.me.slot.toNat 0 ≠ 0 → c.inMatrix lg.toNat = false → s.inFlight core lg.toNat < 8 →
      s.readyAt s.me c lg.toNat = some n →
      ∃ (t : State) (x e : QEntry), exec (.laneGroupIssue core lg) s = .next t ∧ s.me.q[n]? = some x ∧ t.me.q[n]? = some e ∧
        e = { x with lanes := some (x.lanes.getD (c.lanes x.snap.cfg.vpm)), started := lg.toNat :: x.started } ∧
        t.me.q.length = s.me.q.length ∧ vget (vget (t.getCore core).arbs lg.toNat {}).dc s.me.slot.toNat 0 = vget arb.dc s.me.slot.toNat 0 - 1 ∧
        t.me.vs = s.me.vs ∧ t.me.pc = s.me.pc ∧ t.mem = s.mem)

/-- R70 to R72, R80: what the command processor does with a packet of a live job whose reserved fields and unused words are zero. NOP does
nothing. QUERY reports the completion word of what B0 names, or 1000000000000000H when it names nothing; CANCEL reports it as it stood, and
marks the object and all under it. RESERVE gives the job a new reservation when the sum stays within 128. PHASE closes the open phase, which
completes when nothing of it is unfinished, and opens the next. LAUNCH and GRAPH report the handle of what they create in the open phase, or
the code with which it is refused. A PHASE past 256 phases waits, and the other queues have their turns. A packet with a reserved field set,
or without a job, is rejected. R71, R73: GRAPH and LAUNCH in a job. An image or a descriptor that cannot be read is refused with code 1, an
image that fails a check of R51 with code 9, a descriptor that fails a check of R43 with that code. LAUNCH makes a graph of one launch node
in the open phase, and the launch of the descriptor's fields; its RESULT is the launch's handle. Model's choices or readings on which it
rests: log entries 39, 54, 62, 63. -/
def Obligations.PacketsOfAJob : Prop :=
  (∀ (p : Packet) (s : State), s.Takes p →
     let packets : List (Instr × Nat) := [(.nopPacket p, 0), (.phase p, 0), (.jobend p, 0), (.graphPacket p, 1), (.launchPacket p, 1), (.cancelPacket p, 1), (.reserve p, 1), (.query p, 1)]
     let clean (n : Nat) : Prop := p.rsvZero = true ∧ ∀ w ∈ [p.b0, p.b1, p.b2, p.b3, p.b4, p.b5].drop n, w = 0
     (∀ x ∈ packets, ¬ clean x.2 ∨ x.1 = .reserve p ∧ 256 ≤ p.b0.toNat → s.Carries x.1 p s (BitVec.ofNat 64 (0x0B * 2 ^ 52))) ∧
     (∀ x ∈ packets, clean x.2 → (x.1 = .reserve p → p.b0.toNat < 256) → s.jobOf p.ctx = none → s.Carries x.1 p s (BitVec.ofNat 64 (0x0C * 2 ^ 52))) ∧
     ∀ j, s.jobOf p.ctx = some j →
       (clean 0 → s.Carries (.nopPacket p) p s 0) ∧
       (clean 1 →
         (s.object p.ctx p.b0 = none → s.Carries (.query p) p s 0x1000000000000000) ∧
         (∀ o, s.object p.ctx p.b0 = some o → s.Carries (.query p) p s (s.wordOf o).1) ∧
         (s.object p.ctx p.b0 = none → s.Carries (.cancelPacket p) p { s with clk := { s.clk with cp := s.clk.cp + 1 } } 0x1000000000000000) ∧
         (∀ n l, s.object p.ctx p.b0 = some (.launch n) → s.launchAt n = some l → l.state = 0 → l.cancelled = false → (∀ x ∈ s.cp.launches, x.slot ≠ n → x.state ≠ 0) →
           s.cp.graphs = [] → s.cp.phases = [] → s.groups = [] → s.fab.loop = [] → (∀ c ∈ s.crews, c.lid ≠ l.handle ∨ c.placed = true) → s.crew.lid ≠ l.handle →
           l.nextCid = l.shape.toNat / 2 ^ 48 →
           ∃ u x, s.Carries (.cancelPacket p) p u (s.wordOf (.launch n)).1 ∧ u.launchAt n = some x ∧ x.cancelled = true ∧ x.state = 0 ∧ u.mem = s.mem ∧
             ∀ k ∈ s.strands, k.id.lid = l.handle → k.run = .running → k.due.cancel = none → k.due.cancelled = none →
               { k with due := { k.due with cancel := some (p.b0, s.clk.ns) } } ∈ u.strands)) ∧
       (clean 1 → let n := p.b0.toNat
         (256 ≤ n ∨ 128 < s.reservedElse p.ctx + n % 256 → s.Carries (.reserve p) p s (BitVec.ofNat 64 ((if 256 ≤ n then 0x0B else 0x0E) * 2 ^ 52))) ∧
         (n < 256 → s.reservedElse p.ctx + n ≤ 128 → ∃ u, s.Carries (.reserve p) p u 0 ∧ u = { s with cp := u.cp } ∧ u.jobOf p.ctx = some { j with rsv := n } ∧
           (∀ x, x.2 ≠ p.ctx → (x ∈ u.cp.reserved ↔ x ∈ s.cp.reserved)) ∧
           (∀ x ∈ u.cp.reserved, x.2 = p.ctx → x ∈ s.cp.reserved ∨ ∀ y ∈ s.cp.reserved, y.2 ≠ p.ctx → y.1 ≠ x.1) ∧
           ((s.cp.reserved.filter (·.2 = p.ctx)).length ≤ n → ∀ x ∈ s.cp.reserved, x ∈ u.cp.reserved))) ∧
       (clean 0 → ∀ old, s.phaseAt j.phase = some old → (s.cp.phases.filter (·.state == 0)).length < 256 → s.cp.phases.length < Config.phaseSlots →
         (∀ x ∈ s.cp.phases, x.slot < s.cp.phases.length) →
         ∃ u x y, s.Carries (.phase p) p u (BitVec.ofNat 64 (3 * 2 ^ 60 + x.gen % 2 ^ 31 * 2 ^ 13 + x.slot)) ∧ u.mem = s.mem ∧
           u.phaseAt x.slot = some x ∧ x.slot ≠ j.phase ∧ x.ctx = p.ctx ∧ x.state = 0 ∧ x.closed = false ∧ x.out = 0 ∧ u.jobOf p.ctx = some { j with phase := x.slot } ∧
           u.phaseAt j.phase = some y ∧ y.closed = true ∧ y.out = old.out ∧
           y.state = (if old.out = 0 ∧ old.state = 0 then (if old.failed then 3 else if old.cancelled then 2 else 1) else old.state)) ∧
       (clean 0 → (s.cp.phases.filter (·.state == 0)).length = 256 → (∀ old, s.phaseAt j.phase = some old → old.out ≠ 0) →
         ∃ t, exec (.phase p) s = .next t ∧ (t.queue p.q.toNat).held = some p ∧ (t.queue p.q.toNat).head = (s.queue p.q.toNat).head ∧
           t.cp.turn = (if (s.queue p.q.toNat).held = some p then s.cp.turn else (p.q.toNat + 1) % 8) ∧
           t = { s with cp := { s.cp with queues := t.cp.queues, turn := t.cp.turn } })) ∧
  (∀ (pk : Packet) (s : State) (j : Job), s.Takes pk → pk.rsvZero = true → (∀ w ∈ [pk.b1, pk.b2, pk.b3, pk.b4, pk.b5], w = 0) → s.jobOf pk.ctx = some j →
     let r := pkgReq pk.ctx s.clk.cp [2, pk.q.toNat]
     let s1 : State := { s with clk := { s.clk with cp := s.clk.cp + 1 } }
     (∀ c, s.find r pk.b0 .read = .fault c → s.Carries (.launchPacket pk) pk s (BitVec.ofNat 64 (2 ^ 52))) ∧
     (∀ c, s1.find r pk.b0 .read = .fault c → s.Carries (.graphPacket pk) pk s1 (BitVec.ofNat 64 (2 ^ 52))) ∧
     ∀ p m, s.find r pk.b0 .read = .spot p m → m.Open p → m.poisoned p.key = false → pk.b0.toNat % 256 + 64 ≤ 256 →
       s1.find r pk.b0 .read = .spot p m →
       let desc := m.bytesUnder p.tag p.key 64
       let s2 := ({ s with mem := m } : State).passed r pk.b0 .read p false
       let s3 := ({ s1 with mem := m } : State).passed r pk.b0 .read p false
       let check := s2.descCheck j pk.b0 desc
       (check ≠ 0 → s.Carries (.launchPacket pk) pk s2 (BitVec.ofNat 64 (check * 2 ^ 52))) ∧
       (check = 0 → 1024 ≤ (s.cp.graphs.filter (·.state == 0)).length → s.Carries (.launchPacket pk) pk s2 (BitVec.ofNat 64 (0x0A * 2 ^ 52))) ∧
       (check = 0 → (s.cp.graphs.filter (·.state == 0)).length < 1024 → s.cancelledObj (.phase j.phase) = false → (∃ ph, s.phaseAt j.phase = some ph) →
         ∃ u l g x, s.Carries (.launchPacket pk) pk u (BitVec.ofNat 64 (2 ^ 60 + l.gen % 2 ^ 31 * 2 ^ 13 + l.slot)) ∧ u.mem = m ∧
           u.cp.launches.head? = some l ∧ l.ctx = pk.ctx ∧ l.parent = .graph g.slot ∧ l.node = some (g.slot, 0) ∧ l.entry = BitVec.ofNat 64 (numAt desc 0 8) ∧
           l.arg = BitVec.ofNat 64 (numAt desc 8 8) ∧ l.shape = BitVec.ofNat 64 (numAt desc 0x10 8) ∧ l.strands = BitVec.ofNat 64 (numAt desc 0x18 8) ∧
           l.notify = BitVec.ofNat 64 (numAt desc 0x20 8) ∧ l.tag = BitVec.ofNat 64 (numAt desc 0x28 8) ∧ l.state = 0 ∧ l.out = numAt desc 0x16 2 ∧ l.nextCid = 0 ∧
           u.graphAt g.slot = some g ∧ g.ctx = pk.ctx ∧ g.parent = .phase j.phase ∧ g.state = 0 ∧ g.nodes = [x] ∧ x.kind = 1 ∧ x.st = .running) ∧
       (let nodes := numAt desc 0 4
        let edges := numAt desc 4 4
        let len := 0x40 + 0x40 * nodes + 4 * edges
        (∀ c s4, s3.cpRead s3 r (len / 256 + 2) pk.b0 len = .trap c s4 → s4.cp = s.cp → s4.Takes pk → s.Carries (.graphPacket pk) pk s4 (BitVec.ofNat 64 (2 ^ 52))) ∧
        (∀ img s4, s3.cpRead s3 r (len / 256 + 2) pk.b0 len = .ok img s4 → s4.cp = s.cp → s4.Takes pk →
          nodes = 0 ∨ 4096 < nodes ∨ 65535 < edges ∨ imageOk pk.b0 img = false → s.Carries (.graphPacket pk) pk s4 (BitVec.ofNat 64 (9 * 2 ^ 52))) ∧
        (∀ img s4, s3.cpRead s3 r (len / 256 + 2) pk.b0 len = .ok img s4 → s4.cp = s.cp → s4.Takes pk → imageOk pk.b0 img = true → (s.cp.graphs.filter (·.state == 0)).length < 1024 → s.cancelledObj (.phase j.phase) = false → (∃ ph, s.phaseAt j.phase = some ph) →
          ∃ u g, s.Carries (.graphPacket pk) pk u (BitVec.ofNat 64 (2 * 2 ^ 60 + g.gen % 2 ^ 31 * 2 ^ 13 + g.slot)) ∧ u.mem = s4.mem ∧
            u.cp.graphs.head? = some g ∧ g.ctx = pk.ctx ∧ g.parent = .phase j.phase ∧ g.tag = BitVec.ofNat 64 (numAt img 8 8) ∧ g.nodes = (List.range nodes).map (nodeOf img) ∧
            g.out = nodes ∧ g.state = 0)))

/-- R71, R72, R460: JOBNEW of a free context, with aligned tables and no policy block, makes a live job of its tables and keys, with its first
phase open and its reservation; a context in use rejects it. JOBEND of a job under which nothing is unfinished destroys it: its context is
free again, its cores are not reserved, its open phase has completed, and RESULT is its final completion word. R65 to R69: PACKET_FETCH
reads the slot of the queue whose turn it is: a packet with the awaited number is carried out, as exec carries out the instruction of its
opcode; with another number the queue reads again. PACKET_REFETCH does so 100 ns later, 256 times, and then the queue faults. A ring that
cannot be read faults it at once. Model's choices or readings on which it rests: log entries 54, 62, 67. -/
def Obligations.JobsAndFetches : Prop :=
  (∀ (p : Packet) (s : State), s.Takes p →
     (let rsv := p.b4.toNat
      let formed : Prop := p.rsvZero = true ∧ rsv < 256 ∧ p.b5 = 0 ∧ p.b3 = 0 ∧ p.b0.toNat % 8192 = 0 ∧ p.b1.toNat % 64 = 0 ∧ p.b2.toNat % 64 = 0 ∧
       dpaOk p.b0.toNat = true ∧ dpaOk p.b1.toNat = true ∧ dpaOk p.b2.toNat = true
      (¬ p.rsvZero = true ∨ 256 ≤ rsv ∨ p.b5 ≠ 0 ∨ p.b0.toNat % 8192 ≠ 0 → s.Carries (.jobnew p) p s (BitVec.ofNat 64 (0x0B * 2 ^ 52))) ∧
      (formed → ∀ j, s.jobOf p.ctx = some j → s.Carries (.jobnew p) p s (BitVec.ofNat 64 (0x0C * 2 ^ 52))) ∧
      (formed → s.jobOf p.ctx = none →
        (256 ≤ (s.cp.jobs.filter (·.live)).length → s.Carries (.jobnew p) p s (BitVec.ofNat 64 (0x0D * 2 ^ 52))) ∧
        ((s.cp.jobs.filter (·.live)).length < 256 → 128 < s.reservedElse p.ctx + rsv → s.Carries (.jobnew p) p s (BitVec.ofNat 64 (0x0E * 2 ^ 52))) ∧
        ((s.cp.jobs.filter (·.live)).length < 256 → s.reservedElse p.ctx + rsv ≤ 128 → (s.cp.phases.filter (·.state == 0)).length < 256 →
          ∃ u j x, s.Carries (.jobnew p) p u (BitVec.ofNat 64 (4 * 2 ^ 60 + j.gen % 2 ^ 31 * 2 ^ 13 + j.slot)) ∧ u.mem = s.mem ∧ u.jobOf p.ctx = some j ∧ j.live = true ∧
            j.root = p.b0.toNat ∧ j.buft = p.b1.toNat ∧ j.keys = s.mem.bytesUnder 0 p.b2.toNat 1024 ∧ j.rsv = rsv ∧ j.policy.en = false ∧ j.code = 0 ∧ j.out = 0 ∧
            j.cancelled = false ∧ u.phaseAt j.phase = some x ∧ x.ctx = p.ctx ∧ x.state = 0 ∧ x.closed = false ∧ x.out = 0))) ∧
     (∀ j ph, p.rsvZero = true → (∀ w ∈ [p.b0, p.b1, p.b2, p.b3, p.b4, p.b5], w = 0) → s.jobOf p.ctx = some j → s.object p.ctx j.handle = some (.job j.slot) →
       s.sessionOf p.ctx = false → s.phaseAt j.phase = some ph → ph.ctx = p.ctx → ph.out = 0 → j.out = 0 → s.cp.launches = [] → s.cp.graphs = [] → s.groups = [] → s.fab.loop = [] →
       s.mem.stage = [] → (s.queue p.q.toNat).ending = none → (∀ x ∈ s.cp.phases, x.slot ≠ j.phase → x.state ≠ 0) → (∀ x ∈ s.cp.jobs, x.slot = j.slot → x = j) → ph.state = 0 → ph.cancelled = false →
       ∃ u, s.Carries (.jobend p) p u (BitVec.ofNat 64 (if j.code = 0 then 2 ^ 60 else 3 * 2 ^ 60 + j.code.toNat * 2 ^ 52)) ∧ u.mem.ram = s.mem.ram ∧
         (∀ x ∈ u.cp.jobs, x.live = true → x ∈ s.cp.jobs ∧ x.slot ≠ j.slot) ∧ (∀ x ∈ s.cp.jobs, x.slot ≠ j.slot → x ∈ u.cp.jobs) ∧
         (∀ x ∈ u.cp.reserved, x.2 ≠ p.ctx) ∧ ∃ y, u.phaseAt j.phase = some y ∧ y.state ≠ 0)) ∧
  (∀ (q : BitVec 3) (s : State), let n := q.toNat
     let x := s.queue n
     let key := ringKey x.sqbase (64 * (x.head.toNat % 2 ^ ((x.sqcfg.toNat % 16) + 6)))
     let m : MemSys := if x.sqbase.getLsbD 0 = true then s.mem else s.mem.flushHost
     let s1 : State := { s with mem := m }
     let slot := m.bytesUnder 0 key 64
     let word (i : Nat) : Word := BitVec.ofNat 64 (numAt slot (8 * i) 8)
     let p : Packet := { q := q, opc := BitVec.ofNat 8 (numAt slot 0 1), rsvZero := decide (numAt slot 1 1 = 0 ∧ numAt slot 4 4 = 0), ctx := BitVec.ofNat 16 (numAt slot 2 2), b0 := word 1, b1 := word 2, b2 := word 3, b3 := word 4, b4 := word 5, b5 := word 6, stamp := word 7 }
     let broken : Prop := s.ringDead x.sqbase (64 * (x.head.toNat % 2 ^ ((x.sqcfg.toNat % 16) + 6))) = true ∨ s.mem.poisoned key = true
     let carried (i : Instr) : Prop := ¬ broken → word 7 = BitVec.ofNat 64 (x.head.toNat + 1) →
       (∀ y ∈ [(1, Instr.nopPacket p), (2, .jobnew p), (3, .jobend p), (4, .phase p), (5, .graphPacket p), (6, .launchPacket p), (7, .cancelPacket p), (8, .reserve p), (9, .query p)],
         numAt slot 0 1 = y.1 → exec i s = exec y.2 s1) ∧
       (numAt slot 0 1 = 0 ∨ 10 ≤ numAt slot 0 1 → s1.Takes p → s.Carries i p s1 (BitVec.ofNat 64 (0x0B * 2 ^ 52)))
     let faults (i : Instr) (code : Byte) (mem : MemSys) : Prop := s.trc.open_ = false → ∃ t, exec i s = .next t ∧ t.mem = mem ∧ (t.queue n).st = 2 ∧ (t.queue n).fcode = code ∧
       (t.queue n).fseq = BitVec.ofNat 32 (x.head.toNat + 1) ∧ (t.queue n).head = x.head ∧ (t.queue n).tail = x.tail ∧ (t.queue n).sqbase = x.sqbase
     let mismatch : Prop := ¬ broken ∧ word 7 ≠ BitVec.ofNat 64 (x.head.toNat + 1)
     (s.trc.checks = [] → x.owed = none → x.ending = none → x.held = none →
       (s.nextQueue ≠ some n → exec (.packetFetch q) s = .next s) ∧
       (s.nextQueue = some n → carried (.packetFetch q) ∧ (broken → faults (.packetFetch q) 0x03 s.mem) ∧
         (mismatch → exec (.packetFetch q) s = .next (s1.mapQueue n fun x => { x with refetch := 0, lastRead := some s.clk.ns })))) ∧
     (∀ t, x.lastRead = some t → s.queueOpen n = true → s.ringAsleep x.sqbase = false →
       (s.clk.ns < t + 100 → exec (.packetRefetch q) s = .next s) ∧
       (t + 100 ≤ s.clk.ns → carried (.packetRefetch q) ∧ (broken → faults (.packetRefetch q) 0x03 s.mem) ∧ (mismatch → 255 ≤ x.refetch → faults (.packetRefetch q) 0x01 m) ∧
         (mismatch → x.refetch < 255 → exec (.packetRefetch q) s = .next (s1.mapQueue n fun x => { x with refetch := x.refetch + 1, lastRead := some s.clk.ns })))))

/-- R60 to R62: a write of OWNER takes effect when it names the epoch in force, no reserved field and a master: as a claim of a master that
names itself while there is no holder or it has lapsed, and as a handover of the holder to another; it then opens a new term. Any other
leaves the machine as it is. The holder's heartbeat keeps ownership alive; one second without one lapses it. A write of any other register
by a master that is not the holder is dropped and counted, and no write arrives through a port in D3hot (R470). R64, R65, R68: SQTAIL takes
a higher number of a running queue that leaves no more than a ring of packets; a lower or a higher one faults the queue, an equal one does
nothing, and a queue that does not run ignores it. Enabling keeps SQHEAD, makes SQTAIL equal to it and clears the fault. Disabling stops the
queue and keeps its numbers; a packet that is being accepted is finished first. A write of SQCFG with a reserved value does nothing. Model's
choices or readings on which it rests: log entries 48, 69. -/
def Obligations.OwnershipAndQueues : Prop :=
  (∀ (m : Master) (v : Word) (s : State) (q : BitVec 3) (die : BitVec 2) (hi : Bool) (off : BitVec 14),
     let o := s.owner
     let writes : List Instr := [.heartbeat m v, .sqtailWrite m q v, .sqEnable m q v, .sqDisable m q v, .rtCommit m v, .shootDown m v, .bufvAdvance m v,
       .poolcfgWrite m die hi v, .podcfgWrite m v, .vsscfgWrite m v, .dbgOpen m v, .dbgHold m v, .dbgResume m v, .dbgClose m v, .dbgdataWrite m v,
       .rstep m v, .rwind m v, .rdrop m v, .traceOpen m v, .traceClose m v, .attestGo m v]
     (s.unreached m = true → ∀ i ∈ Instr.ownerWrite m v :: writes, exec i s = .next s) ∧
     (s.unreached m = false →
       let fine : Prop := v.toNat / 2 ^ 32 = o.epoch.toNat ∧ v.toNat / 2 ^ 9 % 2 ^ 23 = 0 ∧ v.toNat / 16 % 16 = 0 ∧ v.toNat % 16 < 4
       let named : Option Master := if v.toNat % 16 = 1 then some .host0 else if v.toNat % 16 = 2 then some .host1 else if v.toNat % 16 = 3 then some .mc else none
       let claim : Prop := named = some m ∧ (o.holder = none ∨ o.lapsed = true)
       let handover : Prop := o.holder = some m ∧ named ≠ some m
       (fine ∧ (claim ∨ handover) → exec (.ownerWrite m v) s = .next { s with owner := { o with epoch := o.epoch + 1, lapsed := false, holder := named, beat := s.clk.ns } }) ∧
       (¬ (fine ∧ (claim ∨ handover)) → exec (.ownerWrite m v) s = .next s) ∧
       (o.holder = some m → exec (.heartbeat m v) s = .next { s with owner := { o with lapsed := false, beat := s.clk.ns } }) ∧
       (o.holder ≠ some m → (∀ i ∈ writes, exec i s = .next { s with owner := { o with drops := min (2 ^ 32 - 1) (o.drops + 1) } }) ∧
         ((s.readReg off.toNat).isSome = true → off ≠ 0 → off.toNat < 0x140 ∨ 0x1A0 ≤ off.toNat →
           exec (.registerWrite m off v) s = .next { s with owner := { o with drops := min (2 ^ 32 - 1) (o.drops + 1) } }))) ∧
     (o.holder ≠ none → o.beat + 1000000000 ≤ s.clk.ns → exec .heartbeatLapse s = .next { s with owner := { o with lapsed := true } }) ∧
     (o.holder = none ∨ s.clk.ns < o.beat + 1000000000 → exec .heartbeatLapse s = .next s)) ∧
  (∀ (m : Master) (q : BitVec 3) (v : Word) (s : State), s.unreached m = false → s.owner.holder = some m → s.trc.open_ = false →
     let x := s.queue q.toNat
     let size := 2 ^ (x.sqcfg.toNat % 16 + 6)
     let good : Prop := v.toNat / 2 ^ 9 = 0 ∧ v.toNat / 16 % 16 = 0 ∧ v.toNat % 16 ≤ 10
     let sets (i : Instr) (y : SubQ) : Prop := exec i s = .next { s with cp := { s.cp with queues := s.cp.queues.set q.toNat y q.isLt } }
     (x.st ≠ 1 ∨ v = x.tail → exec (.sqtailWrite m q v) s = .next s) ∧
     (x.st = 1 → x.tail.toNat < v.toNat → v.toNat ≤ x.head.toNat + size → sets (.sqtailWrite m q v) { x with tail := v }) ∧
     (x.st = 1 → v.toNat < x.tail.toNat ∨ (x.head.toNat + size < v.toNat ∧ v ≠ x.tail) →
       sets (.sqtailWrite m q v) { x with st := 2, fcode := 0x02, fseq := BitVec.ofNat 32 (x.head.toNat + 1), refetch := 0, lastRead := none }) ∧
     (good → v.getLsbD 8 = true → x.sqcfg.getLsbD 8 = false → s.house.bootReady = true →
       sets (.sqEnable m q v) { x with sqcfg := v, tail := x.head, st := 1, fcode := 0, fseq := 0, refetch := 0, lastRead := none }) ∧
     (good → v.getLsbD 8 = true → x.sqcfg.getLsbD 8 = true → exec (.sqEnable m q v) s = .next s) ∧
     (good → v.getLsbD 8 = false → x.sqcfg.getLsbD 8 = true → 
       sets (.sqDisable m q v) { x with sqcfg := v, st := if x.st = 1 ∧ (x.ending.isSome ∨ x.owed.isSome ∨ x.held.isSome) then 1 else 0, refetch := 0, lastRead := none }) ∧
     (good → v.getLsbD 8 = false → x.sqcfg.getLsbD 8 = false → sets (.sqDisable m q v) { x with sqcfg := v }) ∧
     (¬ good → exec (.sqEnable m q v) s = .next s ∧ exec (.sqDisable m q v) s = .next s))

/-- R9, R17, R28, R58, R63, R363, R443, R462: a register without a behaviour of its own, written by the holder, reads as written but for its
reserved fields, and nothing else changes; a ring base with a reserved field set is not written. LINKIDLE takes an interval up to 1000 from
the management controller, whether or not it holds ownership, and drops a host's. The management interface writes a register as the
controller does, and reads one eight bytes at a time. R283 to R285, R293, R294, R297, R363, R416: a commit puts the staged region table in
force when no entry of it is refused, and advances GEN; else it names the lowest refused entry; it waits while a snoop does, and no second
one begins. A shoot-down and a buffer-version advance drop what is held of the context's sectors and translations, once every write has left
its core's stage, report a command that names no job or breaks a field, and the second raises VERSION of its buffer by one. POOLCFG turns
pool regions to scratch or to cache. PODCFG keeps DEV while EN is set, and VSSCFG keeps its value while a frame is in use. Model's choices
or readings on which it rests: log entries 7, 48, 69, 72. -/
def Obligations.RegisterBlock : Prop :=
  (∀ (m : Master) (v : Word) (s : State), s.unreached m = false →
     let at_ (n : Nat) : BitVec 14 := BitVec.ofNat 14 n
     let reads (n : Nat) (mask : Word) : Prop := ∃ t, exec (.registerWrite m (at_ n) v) s = .next t ∧ t.readReg n = some (v &&& mask) ∧ t.me = s.me ∧ t.mem.ram = s.mem.ram ∧
       t.owner = s.owner ∧ t.clk = s.clk ∧ ∀ k, k / 8 ≠ n / 8 → (k = 0 ∨ k / 8 = 1 ∨ (0x1000 ≤ k ∧ k < 0x1200) ∨ (0x2000 ≤ k ∧ k < 0x3000)) → t.readReg k = s.readReg k
     (s.owner.holder = some m →
       (s.mem.committing = false → ∀ k : BitVec 8, reads (0x2000 + 16 * k.toNat) 0xF0FFFFFFC3FFFFFF ∧ reads (0x2008 + 16 * k.toNat) 0xFFFFFF93) ∧
       (∀ q : BitVec 3, (s.queue q.toNat).sqcfg.getLsbD 8 = false → v.toNat / 4 % 2 ^ 10 = 0 →
         reads (0x1000 + 0x40 * q.toNat) (BitVec.allOnes 64) ∧ reads (0x1028 + 0x40 * q.toNat) (BitVec.allOnes 64)) ∧
       (∀ q : BitVec 3, v.toNat / 4 % 2 ^ 10 ≠ 0 → exec (.registerWrite m (at_ (0x1000 + 0x40 * q.toNat)) v) s = .next s ∧ exec (.registerWrite m (at_ (0x1028 + 0x40 * q.toNat)) v) s = .next s) ∧
       reads 0x110 (BitVec.allOnes 64) ∧ reads 0x308 0xFFFFFFFFFFFFF000 ∧ reads 0x620 0xFFFFE ∧ reads 0x800 0xFFFFFF ∧ reads 0x810 0xFFFFFFFF ∧ reads 0x848 0xFFFFFFFFFFFFF000 ∧
       (∀ i < 4, reads (0x828 + 8 * i) (BitVec.allOnes 64)) ∧ (∀ e < 3, reads (0x400 + 0x20 * e) 0xFFFFFFFFFFFF) ∧ (s.trc.open_ = false → reads 0x700 0xFFFFFFFFFFFFF000)) ∧
     (∀ n, n < 0x4000 → n ≠ 0 → s.readReg n = none → exec (.registerWrite m (at_ n) v) s = .next s) ∧
     (∀ l : BitVec 4, l.toNat < 12 →
       (m = .mc → v.toNat ≤ 1000 → ∃ t, exec (.linkidleWrite m l v) s = .next t ∧ t.readReg (0x140 + 8 * l.toNat) = some v ∧ t = { s with links := t.links } ∧
         ∀ n, n ≠ l.toNat → t.link n = s.link n) ∧
       (m = .mc → 1000 < v.toNat → exec (.linkidleWrite m l v) s = .next s) ∧
       (m ≠ .mc → exec (.linkidleWrite m l v) s = .next { s with owner := { s.owner with drops := min (2 ^ 32 - 1) (s.owner.drops + 1) } })) ∧
     (∀ off : Nat, off % 8 = 0 → off < 0x4000 →
       exec (.i3cRegisterWrite (leBytes 2 off ++ [1] ++ leBytes 8 v.toNat)) s = exec (.registerWrite .mc (at_ off) v) s ∧
       exec (.i3cRegisterRead (leBytes 2 off ++ [0])) s = .next { s with i3c := { s.i3c with sel := some (at_ off), out := leBytes 8 ((s.readReg off).getD 0).toNat } }) ∧
     (∀ bs : List Byte, bs.length ≠ 3 → exec (.i3cRegisterRead bs) s = .next { s with i3c := { s.i3c with sel := none, out := List.replicate 8 0xFF } }) ∧
     ∀ a : BitVec 7, exec (.i3cDynamicAddress a) s = .next { s with i3c := { s.i3c with addr := a, dynamic := true } }) ∧
  (∀ (m : Master) (v : Word) (s : State), s.unreached m = false → s.owner.holder = some m →
     let ctx : BitVec 16 := BitVec.ofNat 16 (v.toNat / 2 ^ 32 % 2 ^ 16)
     let refused (e : Rte) : Bool := e.w0.getLsbD 63 && (e.w0.toNat / 2 ^ 56 % 16 != 0 || e.w0.toNat / 2 ^ 26 % 16 != 0 || e.w1.toNat / 2 ^ 32 != 0 || e.w1.toNat / 2 ^ 5 % 4 != 0 ||
       e.w1.toNat / 4 % 4 != 0 || decide (2 ^ 26 < e.w0.toNat / 2 ^ 30 % 2 ^ 26 + e.w0.toNat % 2 ^ 26 + 1) || (e.w0.toNat / 2 ^ 61 % 4 == 2 && e.w1.toNat / 2 ^ 7 % 2 ^ 9 == s.dev.toNat))
     let m0 := s.mem.drainAll
     (v.getLsbD 0 = true → s.mem.committing = false →
       ((∀ n : Fin 256, refused s.mem.staged[n] = false) → (∀ l ∈ s.links.toList, l.snoop = none) →
         ∃ t, exec (.rtCommit m v) s = .next t ∧ t = { s with mem := t.mem } ∧ t.mem.live = s.mem.staged ∧
         t.mem.gen = s.mem.gen + 1 ∧ t.mem.rtErr = false ∧ t.mem.rtErrIdx = 0 ∧ t.mem.ram = m0.ram) ∧
       ((∀ n : Fin 256, refused s.mem.staged[n] = false) → (∃ l ∈ s.links.toList, l.snoop.isSome) →
         exec (.rtCommit m v) s = .next { s with mem := { s.mem with committing := true } }) ∧
       (∀ n : Fin 256, refused s.mem.staged[n] = true → (∀ k : Fin 256, k < n → refused s.mem.staged[k] = false) →
         exec (.rtCommit m v) s = .next { s with mem := { s.mem with rtErr := true, rtErrIdx := BitVec.ofNat 8 n.val } })) ∧
     (v.getLsbD 0 = false ∨ s.mem.committing = true → exec (.rtCommit m v) s = .next s) ∧
     (let pages := v.toNat % 2 ^ 24
      let all := v.getLsbD 31
      let lo := s.mem.xinva.toNat % 2 ^ 56 / 256
      let bad : Prop := v.toNat / 2 ^ 48 ≠ 0 ∨ v.toNat / 2 ^ 24 % 2 ^ 7 ≠ 0 ∨ s.jobOf ctx = none ∨ (all = false ∧ (pages = 0 ∨ canonical s.mem.xinva = false ∨ s.mem.xinva.toNat % 2 ^ 16 ≠ 0))
      let hit (x : Nat) : Prop := all = true ∨ (lo ≤ x ∧ x < lo + pages * 256)
      ∃ t, exec (.shootDown m v) s = .next t ∧
        (bad → t = { s with mem := { s.mem with xinvc := v &&& 0x0000FFFF80FFFFFF, mstatErr := true } }) ∧
        (¬ bad → t.mem.ram = m0.ram ∧ t.mem.mstatErr = false ∧
          (∀ x, x ∈ t.mem.tlbs ↔ x ∈ s.mem.tlbs ∧ ¬ (x.ctx = ctx ∧ (all = true ∨ x.page * 2 ^ x.lo < (lo + pages * 256) * 256 ∧ lo * 256 < (x.page + 1) * 2 ^ x.lo))) ∧
          (∀ l, l ∈ t.mem.lines ↔ l ∈ s.mem.lines ∧ ¬ (l.ctx = ctx ∧ hit l.sector)) ∧
          (∀ x, x ∈ t.core.l1 ↔ x ∈ s.core.l1 ∧ ¬ (x.ctx = ctx ∧ hit x.sector)) ∧ (s.me.ctx = ctx → t.me = { s.me with replay := [] }) ∧ (s.me.ctx ≠ ctx → t.me = s.me) ∧
          (s.crew.ctx = ctx → s.crew.placed = true → s.crew.core = s.core.num → t.core.icache = []))) ∧
     (let buf := v.toNat % 2 ^ 12
      (s.jobOf ctx = none ∨ v.toNat / 2 ^ 48 ≠ 0 ∨ v.toNat / 2 ^ 12 % 2 ^ 20 ≠ 0 → exec (.bufvAdvance m v) s = .next { s with mem := { s.mem with bufv := v &&& 0x0000FFFF00000FFF, mstatErr := true } }) ∧
      (∀ j, s.jobOf ctx = some j → v.toNat / 2 ^ 48 = 0 → v.toNat / 2 ^ 12 % 2 ^ 20 = 0 → j.buft % 64 = 0 →
        let at_ := j.buft + 8 * buf
        ∃ t, exec (.bufvAdvance m v) s = .next t ∧ t.mem.mstatErr = false ∧ t.mem.bad = m0.bad ∧
          leNat (t.mem.bytesUnder 0 (at_ + 4) 4) = (leNat (m0.bytesUnder 0 (at_ + 4) 4) + 1) % 2 ^ 32 ∧ t.mem.bytesUnder 0 at_ 4 = m0.bytesUnder 0 at_ 4 ∧
          (∀ x, x / 256 ≠ (at_ + 4) / 256 → t.mem.ram.get x = m0.ram.get x) ∧ (∀ x ∈ t.mem.tlbs, x ∈ s.mem.tlbs ∧ ¬ (x.ctx = j.ctx ∧ x.leaf.toNat / 2 ^ 52 = buf)) ∧ ∀ l ∈ t.mem.lines, l ∈ s.mem.lines ∧ ¬ (l.ctx = j.ctx ∧ l.leaf.toNat / 2 ^ 52 = buf))) ∧
     (∀ (die : BitVec 2) (hi : Bool), ∃ t, exec (.poolcfgWrite m die hi v) s = .next t ∧
       (∀ d : Fin 4, t.mem.poolcfg[d] = if d.val = die.toNat then
         (if hi then BitVec.ofNat 96 (v.toNat % 2 ^ 32 * 2 ^ 64 + s.mem.poolcfg[d].toNat % 2 ^ 64) else BitVec.ofNat 96 (s.mem.poolcfg[d].toNat / 2 ^ 64 * 2 ^ 64 + v.toNat)) else s.mem.poolcfg[d]) ∧
       t.mem.ram = m0.ram ∧ t.me = s.me) ∧
     (let old := s.fab.podcfg
      (old.getLsbD 63 = true → v.toNat % 2 ^ 9 ≠ old.toNat % 2 ^ 9 → exec (.podcfgWrite m v) s = .next s) ∧
      (¬ (old.getLsbD 63 = true ∧ v.toNat % 2 ^ 9 ≠ old.toNat % 2 ^ 9) → s.house.bootReady = true → ∃ t, exec (.podcfgWrite m v) s = .next t ∧ t = { s with fab := { s.fab with podcfg := t.fab.podcfg } } ∧
        t.dev = BitVec.ofNat 9 (v.toNat % 2 ^ 9) ∧ t.fab.podcfg.getLsbD 63 = v.getLsbD 63 ∧
        t.fab.podcfg.getLsbD 9 = (if v.toNat % 2 ^ 9 = old.toNat % 2 ^ 9 then old.getLsbD 9 else false))) ∧
     (s.mem.frames ≠ [] ∨ 1024 < v.toNat % 2 ^ 11 → exec (.vsscfgWrite m v) s = .next s) ∧
     (s.mem.frames = [] → v.toNat % 2 ^ 11 ≤ 1024 → s.house.bootReady = true → exec (.vsscfgWrite m v) s = .next { s with mem := { s.mem with vsscfg := v &&& 0x800007FF } }))

/-- R441, R442: a write of DBGCTL by the holder opens a session, holds its job, releases the hold or closes the session; a write that changes
CTX of an open session does nothing. Releasing lets a held strand run on where it stands, and ends an RSTEP. The hold is complete, and HELD
reads 1, exactly when no strand of the job that is on a core runs or has vector work or a stream, no copy of the job is unfinished and no
copy node runs. R443 to R447: with the hold complete, DBGDATA reads and writes the register of the target that DBGSEL selects; at other
times a write does nothing. RWIND needs a held target and a window that is held and has a start point of it; it refuses a range with an
EXTERNAL mark or with entries of another region table unless FORCE is set. It takes the target to its checkpoint, the log to the window, and
writes every old value back. RSTEP rewinds to the current start window and lets the target run alone. (Where each of the log's entries is
written back without waiting for another device.) RDROP releases the windows up to w. Model's choices or readings on which it rests: log
entries 27, 44, 57. -/
def Obligations.DebugAndRewind : Prop :=
  (∀ (m : Master) (v : Word) (s : State), s.unreached m = false → s.owner.holder = some m →
     let ctl := s.dbg.ctl
     let ctx : BitVec 16 := BitVec.ofNat 16 (ctl.toNat % 2 ^ 16)
     let same : Prop := v.toNat % 2 ^ 16 = ctl.toNat % 2 ^ 16
     let fields := v &&& 0xC0000000037FFFFF
     (∀ i ∈ [Instr.dbgOpen m v, .dbgHold m v, .dbgResume m v, .dbgClose m v], ctl.getLsbD 63 = true → ¬ same → exec i s = .next s) ∧
     (ctl.getLsbD 63 = false → ctl.getLsbD 62 = false → v.getLsbD 63 = true → exec (.dbgOpen m v) s = .next { s with dbg := { s.dbg with ctl := fields } }) ∧
     (ctl.getLsbD 63 = true → ctl.getLsbD 62 = false → same → v.getLsbD 63 = true → exec (.dbgHold m v) s = .next { s with dbg := { s.dbg with ctl := fields } }) ∧
     (ctl.getLsbD 63 = true → ctl.getLsbD 62 = true → same → v.getLsbD 62 = false →
       let dbg : Debug := { s.dbg with ctl := v &&& (if v.getLsbD 63 then 0x80000000037FFFFF else 0x37FFFFF), rstep := none, again := none, busy := false }
       ∀ i, (v.getLsbD 63 = true ∧ i = .dbgResume m v) ∨ (v.getLsbD 63 = false ∧ i = .dbgClose m v) →
       (s.heldStrands ctx = [] → exec i s = .next { s with dbg := dbg }) ∧
       (s.heldStrands ctx = [s.me.id] → s.me.run = .held → s.me.due.stop = none →
         (s.me.due.resume = false → exec i s = .next { s with dbg := dbg, me := { s.me with run := .running } }) ∧
         (s.me.due.resume = true → ∃ t, exec i s = .next t ∧ t.me.run = .running ∧ t.me.pc = s.me.pc ∧ t.me.win = [] ∧
           t.me.q.map (·.instr) = (s.me.win ++ s.me.q).map (·.instr) ∧ t.me.regs = s.me.regs ∧ t.mem = s.mem)) ∧
       (s.heldStrands ctx = [s.me.id] → s.me.run = .held → s.me.due.stop ≠ none → s.me.due.resume = false → s.me.tr.tcause.getLsbD 63 = false → s.me.tr.tcause.getLsbD 17 = false →
         ∃ t, exec i s = .next t ∧ t.me.run = .running ∧ t.me.pc = s.me.tr.tpc ∧ t.me.sys = s.me.tr.tcause.getLsbD 14 ∧ t.me.tr.tcause = s.me.tr.tcause &&& ~~~0x8000#64 ∧
           t.me.regs = s.me.regs ∧ t.me.icnt = s.me.icnt ∧ t.mem = s.mem)) ∧
     (ctl.getLsbD 62 = false → ctl.getLsbD 63 = true → same → v.getLsbD 63 = false →
       exec (.dbgClose m v) s = .next { s with dbg := { s.dbg with ctl := v &&& 0x37FFFFF } }) ∧
     (let settled : Prop := (∀ k ∈ s.me :: s.strands, k.ctx = ctx → k.run ≠ .idle → k.as.copies = [] ∧ (k.run = .starting ∨ k.run = .running ∨ k.run = .held →
         k.run = .held ∧ k.q = [] ∧ k.as.streams = [])) ∧ ∀ g ∈ s.cp.graphs, g.ctx = ctx → ∀ n ∈ g.nodes, ¬ (n.kind = 2 ∧ n.st = .running)
      (ctl.getLsbD 62 = true ∧ settled → exec .holdComplete s = .next { s with dbg := { s.dbg with ctl := ctl ||| 0x2000000000000000 } }) ∧
      (¬ (ctl.getLsbD 62 = true ∧ settled) → exec .holdComplete s = .next s))) ∧
  (∀ (m : Master) (v : Word) (s : State), s.unreached m = false → s.owner.holder = some m →
     let ctl := s.dbg.ctl
     let ctx : BitVec 16 := BitVec.ofNat 16 (ctl.toNat % 2 ^ 16)
     let held : Prop := ctl.getLsbD 63 = true ∧ ctl.getLsbD 61 = true
     let sel := s.dbg.sel.toNat % 2 ^ 12
     let w := v.toNat % 2 ^ 32
     let force := v.getLsbD 59
     let op := v.toNat / 2 ^ 60
     let m0 := s.mem.drainAll
     let res (n : Byte) (d : Debug) : Prop := d = { s.dbg with cmd := v &&& 0xF8000000FFFFFFFF, res := n, busy := false, rstep := none, again := none }
     (¬ held → exec (.dbgdataWrite m v) s = .next s) ∧
     (held → s.dbgTarget = none → exec (.dbgdataWrite m v) s = .next s) ∧
     (held → s.dbgTarget = some s.me → (∀ k ∈ s.strands, k.id ≠ s.me.id) →
       (s.dbg.sel.getLsbD 63 = true → sel < 64 → exec (.dbgdataWrite m v) s = .next { s with me := s.me.w (BitVec.ofNat 6 sel) v } ∧ s.readReg 0x630 = some (s.me.s (BitVec.ofNat 6 sel))) ∧
       (s.dbg.sel.getLsbD 63 = false → exec (.dbgdataWrite m v) s = .next { s with me := s.me.sysPut (BitVec.ofNat 12 sel) v })) ∧
     (s.dbg.busy = true → ∀ i ∈ [Instr.rstep m v, .rwind m v, .rdrop m v], exec i s = .next s) ∧
     (s.dbg.busy = false →
       (op = 2 → ¬ held ∨ s.dbgTarget = none ∨ s.jobOf ctx = none → ∃ t, exec (.rwind m v) s = .next t ∧ res 4 t.dbg ∧ t = { s with dbg := t.dbg, mem := m0 }) ∧
       (∀ k j, held → s.dbgTarget = some k → s.jobOf ctx = some j →
         let range (w : Nat) := j.retr.log.filter fun e => decide (w ≤ e.hdr.toNat % 2 ^ 32)
         let kind (e : LogRec) : Nat := e.hdr.toNat / 2 ^ 60
         let ready (w : Nat) : Prop := j.retr.wlow ≤ w ∧ w ≤ j.retr.whigh
         let runs (w : Nat) : Prop := (∀ e ∈ range w, kind e ≠ 5) ∧ ∀ e ∈ range w, e.hdr.toNat / 2 ^ 32 % 256 = s.mem.gen.toNat % 256
         let undone (w : Nat) : Prop := ∀ d : Debug, let s1 : State := { s with mem := m0, dbg := d }
           ∃ u, s1.undoAll s1 ctx (([0, 1, 2, 3].map fun n => (range w).filter (·.seg = n)).flatten) = .ok () u
         let back (w : Nat) (c : Ckpt) (t : State) : Prop := (∃ x, t.strandOf k.id = some x ∧ x.pc = c.pc ∧ x.regs = c.regs ∧ x.cfg = c.cfg ∧ x.lclk = c.lclk ∧ x.tlc = c.tlc ∧ x.vs = c.vs ∧
             x.icnt = 0 ∧ x.q = [] ∧ x.win = [] ∧ x.startWin = w) ∧ ∃ y, t.jobAt j.slot = some y ∧ y.retr.whigh = w
         (op = 2 → ¬ ready w ∨ ((∀ c ∈ k.ckpts, c.1 ≠ w) ∧ s.launchOf k = none) → ∃ t, exec (.rwind m v) s = .next t ∧ res 1 t.dbg ∧ t = { s with dbg := t.dbg, mem := m0 }) ∧
         (∀ c, k.ckpts.find? (·.1 = w) = some (w, c) → op = 2 → ready w →
           ((∃ e ∈ range w, kind e = 5) → force = false → ∃ t, exec (.rwind m v) s = .next t ∧ t.dbg.res = 2 ∧ t.dbg.xm = true ∧ t = { s with dbg := t.dbg, mem := m0 }) ∧
           ((∀ e ∈ range w, kind e ≠ 5) → (∃ e ∈ range w, e.hdr.toNat / 2 ^ 32 % 256 ≠ s.mem.gen.toNat % 256) → force = false →
             ∃ t, exec (.rwind m v) s = .next t ∧ t.dbg.res = 3 ∧ t = { s with dbg := t.dbg, mem := m0 }) ∧
           (runs w → undone w → c.arr = none → (s.jobAt j.slot = some j) → (∀ x ∈ s.strands, x.id ≠ s.me.id) → k.id = s.me.id →
             ∃ t, exec (.rwind m v) s = .next t ∧ t.dbg.res = 0 ∧ t.dbg.busy = false ∧ t.dbg.xm = false ∧ back w c t)) ∧
         (∀ c, k.ckpts.find? (·.1 = k.startWin) = some (k.startWin, c) → op = 1 → ready k.startWin → runs k.startWin → undone k.startWin → c.arr = none → (s.jobAt j.slot = some j) →
           (∀ x ∈ s.strands, x.id ≠ s.me.id) → k.id = s.me.id → k.run = .held → ∃ t, exec (.rstep m v) s = .next t ∧ back k.startWin c t ∧
             (w ≤ 1 → t.dbg.res = 0 ∧ t.dbg.busy = false ∧ t.me.run = .held) ∧
             (2 ≤ w → t.dbg.busy = true ∧ t.dbg.rstep = some (k.id, w, force, 0, s.clk.ns) ∧ t.me.run = .running))) ∧
       (∀ r e p mem, e.hdr.toNat / 2 ^ 60 = 1 ∨ e.hdr.toNat / 2 ^ 60 = 2 → r = s.undoReq ctx (e.hdr.toNat / 2 ^ 40 % 2 ^ 16) → s.find r e.w1 .write = .spot p mem →
         mem.Open p → p.key % 256 + e.old.length ≤ 256 → e.old.length < 256 → e.hdr.getLsbD 56 = false → ∃ t, s.undoAll s ctx [e] = .ok () t ∧ mem.Wrote t.mem p e.old) ∧
       (op = 1 → s.dbgTarget = none → ∃ t, exec (.rstep m v) s = .next t ∧ res 4 t.dbg ∧ t = { s with dbg := t.dbg }) ∧
       (op = 3 → ctl.getLsbD 63 = false ∨ s.jobOf ctx = none → ∃ t, exec (.rdrop m v) s = .next t ∧ res 4 t.dbg ∧ t = { s with dbg := t.dbg }) ∧
       (∀ j, op = 3 → ctl.getLsbD 63 = true → s.jobOf ctx = some j → s.jobAt j.slot = some j →
         (j.retr.whigh ≤ w → ∃ t, exec (.rdrop m v) s = .next t ∧ res 4 t.dbg ∧ t = { s with dbg := t.dbg }) ∧
         (w < j.retr.whigh → j.retr.wlow ≤ w → ∃ t y, exec (.rdrop m v) s = .next t ∧ res 0 t.dbg ∧ t.mem = s.mem ∧ t.me = s.me ∧ t.jobAt j.slot = some y ∧
           y.retr.wlow = w + 1 ∧ y.retr.whigh = j.retr.whigh ∧ y.retr.log = j.retr.log.filter fun e => decide (w + 1 ≤ e.hdr.toNat % 2 ^ 32)))) ∧
     (∀ n f since, s.dbg.rstep = some (s.me.id, n, f, s.me.icnt, since) → s.me.run = .running → s.me.icnt + 1 < n → s.me.q = [] → s.me.as.streams = [] → s.me.win = [] →
       (s.clk.ns < since + 1000000 → exec .rstepBlockTimeout s = .next s) ∧
       (since + 1000000 ≤ s.clk.ns → ∃ t, exec .rstepBlockTimeout s = .next t ∧ t.dbg = { s.dbg with res := 6, busy := false, rstep := none, again := none } ∧ t.me.run = .held ∧
         t.me.pc = s.me.pc ∧ t.me.regs = s.me.regs ∧ t.mem = s.mem.drainCore s.me.core)))

/-- R450, R454, R456, R469: a write of TRCCFG by the holder opens a session with the records and counts of a new one, and with CAP set starts
the copies of the listed buffers; it closes one; while one is open only a write that clears EN counts, and a reserved SZ does nothing. Ten
microseconds after a queue reset the session ends with a TRUNCATED record. GO of ATTCTL writes the quote and the certificate at ATTBUF and
sets DONE, or ERR when the memory cannot take them. Model's choices or readings on which it rests: log entries 13, 49, 57. -/
def Obligations.TraceAndAttest : Prop :=
  ∀ (m : Master) (v : Word) (s : State), s.unreached m = false → s.owner.holder = some m →
    let fields := v &&& 0xE07FFFFF000F01FE
    let sized : Prop := v.toNat / 2 ^ 48 % 16 ≤ 10
    let fresh : State := { s with trc := { s.trc with cfg := fields, open_ := true, tail := 4096, trunc := false, lost := 0, recs := [], reset := none, checks := [], snaps := [] } }
    let snapping : State := { fresh with trc := { fresh.trc with snaps := fresh.snapCopies } }
    let entry (i : Nat) (o : Nat) : Word := s.mem.dpa64 (s.trc.base.toNat + 32 * i + o)
    (s.trc.open_ = false → v.getLsbD 63 = true →
      (sized → v.getLsbD 62 = false ∨ s.mem.dpa64 (s.trc.base.toNat + 8) = 0 → exec (.traceOpen m v) s = .next fresh) ∧
      (sized → v.getLsbD 62 = true → exec (.traceOpen m v) s = .next snapping.driveSnaps ∧
        ∀ i, i < 16 → (∀ j, j ≤ i → entry j 8 ≠ 0) → ∃ c, snapping.trc.snaps[i]? = some c ∧ c.src = entry i 0 ∧ c.to_ = entry i 16 ∧ c.rowb = (entry i 8).toNat ∧ c.rows = 1 ∧ c.prog = 0) ∧
      (¬ sized → exec (.traceOpen m v) s = .next s)) ∧
    (s.trc.open_ = true → v.getLsbD 63 = true → exec (.traceOpen m v) s = .next s) ∧
    (s.trc.open_ = true → v.getLsbD 63 = false → s.trc.checks = [] → sized →
      exec (.traceClose m v) s = .next { s with trc := { s.trc with cfg := fields, open_ := false, reset := none, checks := [], snaps := [] } }) ∧
    (s.trc.open_ = false → v.getLsbD 63 = false → sized → exec (.traceClose m v) s = .next { s with trc := { s.trc with cfg := fields } }) ∧
    (s.trc.reset = none → exec .queueResetTruncate s = .next s) ∧
    (∀ rs t n, s.trc.reset = some (rs, t, n) →
      (s.clk.ns < t + 10000 → exec .queueResetTruncate s = .next s) ∧
      (t + 10000 ≤ s.clk.ns → ∃ u, exec .queueResetTruncate s = .next u ∧ u.trc.open_ = false ∧ u.trc.trunc = true ∧ u.trc.reset = none ∧ u.me = s.me ∧ u.cp = s.cp ∧
        let r : TrcRec := ⟨0x0A, 0x8000, 0, rs, rs, BitVec.ofNat 64 n, []⟩
        let room := 2 ^ (s.trc.cfg.toNat / 2 ^ 48 % 16 + 20)
        (s.trc.tail + r.bytes.length ≤ room → u.trc.recs = r :: s.trc.recs ∧ u.mem = s.mem.putRaw (s.trc.base.toNat + s.trc.tail) r.bytes) ∧
        (room < s.trc.tail + r.bytes.length → u.trc.recs = s.trc.recs ∧ u.mem = s.mem ∧ u.trc.lost = min (2 ^ 32 - 1) (s.trc.lost + 1)))) ∧
    (v.getLsbD 0 = false → exec (.attestGo m v) s = .next s) ∧
    (v.getLsbD 0 = true → let a := s.house.attbuf.toNat
      let quote := s.house.quote
      let last := a + 0x1000 + Config.identityCert.length - 1
      (dpaOk a = true → dpaOk last = true → 8 + dpaDie a ∉ s.mem.failed → ∃ t, exec (.attestGo m v) s = .next t ∧ t.house = { s.house with attctl := 2 } ∧ t.me = s.me ∧
        (∀ j, j < quote.length → t.mem.byteUnder 0 (a + j) = quote.getD j 0) ∧
        (∀ j, j < Config.identityCert.length → t.mem.byteUnder 0 (a + 0x1000 + j) = Config.identityCert.getD j 0)) ∧
      (dpaOk a = false ∨ dpaOk last = false ∨ 8 + dpaDie a ∈ s.mem.failed → exec (.attestGo m v) s = .next { s with house := { s.house with attctl := 4 } }) ∧
      quote.take 64 = (s.house.measure ++ List.replicate 64 0).take 64 ∧ (quote.drop 64).take 32 = leBytes 32 s.house.nonce.toNat)

/-- R31, R463 to R466: the controller sets the core clock up to 1400 MHz and never to 0. Once a second the sample of each domain's hottest
sensor counts in its bin of 4 °C from 40 to 96; a droop counts in its domain, and a powered hour in its record. Counts saturate. R465, R466:
a domain that may undervolt steps 10 mV lower, to 60 at most, after 24 hours in which RATE stayed at or below a quarter of PFTHR. A crossing
of PFTHR or an SDC while it undervolts takes it back to nominal and starts a re-measurement; a crossing at nominal sets PF. After ten
minutes the re-measurement gives 6 times its errors as RATE, and sets PF above PFTHR, or a hold of seven days, which does not end after a
second crossing. Model's choices or readings on which it rests: log entries 46, 50, 56. -/
def Obligations.RecordsAndVoltage : Prop :=
  (∀ s : State,
     let count (c : List (Nat × Nat)) (key : Nat) : Nat := kvGet c key
     let more (n : Nat) : Nat := min (2 ^ 64 - 1) (n + 1)
     let bin (t : Int) : Nat := if t < 40 then 0 else if 96 ≤ t then 15 else ((t - 36) / 4).toNat
     (∀ mhz : BitVec 16, (0 < mhz.toNat ∧ mhz.toNat ≤ 1400 → exec (.clockThrottle mhz) s = .next { s with house := { s.house with mhz := mhz } }) ∧
       (mhz.toNat = 0 ∨ 1400 < mhz.toNat → exec (.clockThrottle mhz) s = .next s)) ∧
     (∀ temps : List Int,
       (s.clk.ns < s.house.sampledAt + 1000000000 → exec (.temperatureSample temps) s = .next s) ∧
       (s.house.sampledAt + 1000000000 ≤ s.clk.ns → ∃ t, exec (.temperatureSample temps) s = .next t ∧
         t = { s with house := { s.house with sampledAt := s.clk.ns, counts := t.house.counts } } ∧
         (∀ d x, d < 37 → temps[d]? = some x → count t.house.counts (5 * 2 ^ 16 + d * 16 + bin x) = more (count s.house.counts (5 * 2 ^ 16 + d * 16 + bin x))) ∧
         ∀ key, (∀ d x, d < 37 → temps[d]? = some x → key ≠ 5 * 2 ^ 16 + d * 16 + bin x) → count t.house.counts key = count s.house.counts key)) ∧
     (let counted (i : Instr) (key : Nat) (at_ : Nat) : Prop := ∃ t, exec i s = .next t ∧ t = { s with house := { s.house with counts := t.house.counts, hourAt := at_ } } ∧
        count t.house.counts key = more (count s.house.counts key) ∧ ∀ k, k ≠ key → count t.house.counts k = count s.house.counts k
      (∀ d : BitVec 6, (d.toNat < 37 → counted (.voltageDroop d) (3 * 2 ^ 16 + d.toNat) s.house.hourAt) ∧ (37 ≤ d.toNat → exec (.voltageDroop d) s = .next s)) ∧
      (s.house.powered = true → s.house.hourAt + 3600000000000 ≤ s.clk.ns → counted .poweredHour (8 * 2 ^ 16) s.clk.ns) ∧
      (s.house.powered = false ∨ s.clk.ns < s.house.hourAt + 3600000000000 → exec .poweredHour s = .next s)) ∧
     exec .lifetimeFlush s = .next { s with house := { s.house with stored := s.house.counts } }) ∧
  (∀ (d : BitVec 6) (s : State), d.toNat < 37 →
     let x := s.domain d.toNat
     let thr := s.house.pfthr.toNat
     let becomes (i : Instr) (y : Domain) : Prop := exec i s = .next { s with house := { s.house with domains := vset s.house.domains d.toNat y } }
     let may : Prop := x.uven = true ∧ x.hold = false ∧ x.pf = false ∧ x.meas = false ∧ x.offs < 60 ∧ x.quietSince + 86400000000000 ≤ s.clk.ns ∧ 4 * x.rate ≤ thr
     (may → becomes (.undervoltStep d) { x with offs := x.offs + 10, quietSince := s.clk.ns }) ∧
     (¬ may → exec (.undervoltStep d) s = .next s) ∧
     (0 < x.offs → thr < x.rate ∨ x.sdc = true →
       becomes (.errorRateCrossing d) { x with offs := 0, meas := true, measSince := s.clk.ns, measErrs := 0, crossings := x.crossings + 1, sdc := false }) ∧
     (x.offs = 0 → x.meas = false → thr < x.rate → becomes (.errorRateCrossing d) { x with pf := true, sdc := false }) ∧
     (x.meas = true → x.measSince + 600000000000 ≤ s.clk.ns → becomes (.remeasureEnd d) { x with meas := false, rate := 6 * x.measErrs, errs := [], quietSince := s.clk.ns, pf := x.pf || decide (thr < 6 * x.measErrs), hold := x.hold || decide (6 * x.measErrs ≤ thr), holdUntil := s.clk.ns + 604800000000000, holdForever := x.holdForever || decide (2 ≤ x.crossings) }) ∧
     (x.meas = false ∨ s.clk.ns < x.measSince + 600000000000 → exec (.remeasureEnd d) s = .next s) ∧
     (x.hold = true → x.holdForever = false → x.holdUntil ≤ s.clk.ns → becomes (.holdExpiry d) { x with hold := false, quietSince := s.clk.ns }) ∧
     (x.hold = false ∨ x.holdForever = true ∨ s.clk.ns < x.holdUntil → exec (.holdExpiry d) s = .next s))

/-- R464, R465, R467, R468, R470: a reset leaves every register at its reset value, device memory without contents, and keeps the records, HOLD
and PF of the domains, the minimum versions and host memory, where the writes on their way have arrived; then the boot stages run, and READY
is set exactly when an image of each is accepted. Power-down writes the records to storage first; a loss of power leaves those that storage
holds. A host port in D3hot carries no access of its master. Model's choices or readings on which it rests: log entries 1, 2, 47, 50. -/
def Obligations.ResetAndPower : Prop :=
  ∀ s : State,
    let cleared (i : Instr) (t : State) : Prop := exec i s = .next t ∧
      t = { State.reset with house := t.house, mem := { ram := t.mem.ram, bad := t.mem.bad, hostHold := s.mem.hostHold, hostDead := s.mem.hostDead }, clk := { ns := s.clk.ns, cyc := s.clk.cyc }, agenda := s.agenda, free := s.free } ∧
      (∀ a, t.mem.ram.get a = if a < 2 ^ 64 then 0 else s.mem.flushHost.ram.get a) ∧ (∀ x, x ∈ t.mem.bad ↔ x ∈ s.mem.flushHost.bad ∧ 2 ^ 56 ≤ x) ∧ t.house.ltsel = 0 ∧ t.house.pfthr = 100 ∧ t.house.attctl = 0 ∧ t.house.nonce = 0 ∧ t.house.attbuf = 0 ∧
      t.house.mhz = 1400 ∧ t.house.stored = (if i = .orderlyPowerDown then s.house.counts else s.house.stored) ∧
      t.house.counts = (if i = .powerLoss then s.house.stored else s.house.counts) ∧ t.house.powered = decide (i = .deviceReset) ∧
      ∀ d, d < 37 → let x := t.domain d
        x.hold = (s.domain d).hold ∧ x.pf = (s.domain d).pf ∧ x.offs = 0 ∧ x.rate = 0 ∧ x.meas = false ∧ x.uven = true
    let image (n : Nat) : List Byte := s.house.images.getD n []
    let accepts (n : Nat) : Prop := imageErr n (vget s.house.minSvn (n - 1) 0).toNat (image (2 * (n - 1))) = 0 ∨ imageErr n (vget s.house.minSvn (n - 1) 0).toNat (image (2 * (n - 1) + 1)) = 0
    (∃ t, cleared .deviceReset t ∧ (t.house.bootReady = true ↔ accepts 1 ∧ accepts 2 ∧ accepts 3) ∧
      (accepts 1 ∧ accepts 2 ∧ accepts 3 → t.house.bootStage = 3) ∧ (¬ accepts 1 → t.house.bootStage = 0) ∧
      (s.house.images = [] → t.house.bootErr = 6 ∧ t.house.bootStage = 0)) ∧
    (∃ t, cleared .orderlyPowerDown t) ∧ (∃ t, cleared .powerLoss t) ∧
    ∀ m : Master, ∃ t u, exec (.d3hotEntry m) s = .next t ∧ exec (.d0Entry m) s = .next u ∧ t = { s with house := { s.house with d3hot := t.house.d3hot } } ∧
      u = { s with house := { s.house with d3hot := u.house.d3hot } } ∧ (m = .mc → t = s ∧ u = s) ∧ (m ≠ .mc → t.unreached m = true ∧ (s.house.powered = true → u.unreached m = false)) ∧
      ∀ n : Master, n ≠ m → t.unreached n = s.unreached n ∧ u.unreached n = s.unreached n

/-- R37, R75, R78: a pass of the placer puts the next crew of the one waiting launch on the core that R77 chooses: it stands there with the
resources of its seat and a zero-filled scratch, and its strands begin with the launch's entry and argument, at system level and with their
clock past the command processor's. EP_AGING runs a pass once a launch has waited 2 ms. A strand of a placed crew starts; under a hold it
starts held. R74, R75, R79: the first launch in the placer's order that has EP 6, a priority below 7 and 20 ms without a placement takes the
claim when none holds it. The effective priority of a launch below 7 rises by one every 2 ms up to 6. R82, R411: a victim of a pre-emption
stops at its boundary: its scalar state stays as it stands, its unretired vector instructions join its held window, its replay buffer is
empty, its stores have left the stage of its core, and it no longer is a victim to come. While another device has still to answer it, it
waits: with vector requests under way it starts no further ones. A strand that is no victim goes on. (An MMAC or MRSMAC that heads its queue
may stop part-way, R270.) Model's choices or readings on which it rests: log entries 40, 52, 65. -/
def Obligations.Placement : Prop :=
  (∀ (l : Launch) (n : BitVec 7) (seat : Seat) (s : State),
     (s.waitingLaunches = [l] → s.launchAt l.slot = some l → l.returned = [] → l.crews = l.nextCid + 1 → l.qh = 0 → s.cp.claim = none ∨ s.cp.claim = some l.slot →
       s.jobHeld l.ctx = false → s.cp.victims = [] → (∀ k ∈ s.me :: s.strands, k.run ≠ .preempted) → (∀ j, s.jobOf l.ctx = some j → j.policy.en = false) →
       s.trc.open_ = false → s.awayCrew l l.nextCid = none → s.chooseNew l [l.nextCid] = some [n] → s.fits l n = some seat →
       ∃ (t : State) (c : Crew) (x : Launch), exec .placerPass s = .next t ∧ t.crews = c :: s.crews ∧ t.me = s.me ∧ t.crew = s.crew ∧
         c.lid = l.handle ∧ c.cid.toNat = l.nextCid % 2 ^ 16 ∧ c.ctx = l.ctx ∧ c.placed = true ∧ c.core = n ∧ c.live = l.spc ∧ c.scr = l.scr ∧ c.scrBase = seat.scr ∧ c.prio = l.prio ∧
         (∀ q : Fin 8, c.queues[q] = []) ∧
         t.launchAt l.slot = some x ∧ x.nextCid = l.crews ∧ x.opened = true ∧ x.lastPlaced = s.clk.ns ∧ x.out = l.out ∧ t.cp.claim = none ∧
         t.strands.length = l.spc + s.strands.length ∧ t.strands.drop l.spc = s.strands ∧
         (∀ i, i < l.spc → ∃ k, t.strands[i]? = some k ∧ k.id.lid = l.handle ∧ k.id.cid = c.cid ∧ k.id.sid.toNat = i % 4 ∧ k.ctx = l.ctx ∧ k.run = .starting ∧ k.core = n ∧
           k.slot = seat.slots.getD i 0 ∧ k.pc = l.entry ∧ k.sys = true ∧ (∀ r : Reg, k.s r = if r = 1 then l.arg else 0) ∧ k.lclk = s.clk.cp + 2 ∧ k.q = [] ∧ k.win = [] ∧
           k.cfg.vl = 0 ∧ k.vs = {} ∧ k.tr = {}) ∧
         (∀ a, t.mem.ram.get a = if scrAt n seat.scr ≤ a ∧ a < scrAt n seat.scr + l.scr * 4096 then 0 else s.mem.ram.get a)) ∧
     (∀ slot : BitVec 13,
       (∀ x, s.launchAt slot.toNat = some x → x.waiting = true → x.prio < 7 → x.elig + 2000000 ≤ s.clk.ns → exec (.epAging slot) s = exec .placerPass s) ∧
       (∀ x, s.launchAt slot.toNat = some x → ¬ (x.waiting = true ∧ x.prio < 7 ∧ x.elig + 2000000 ≤ s.clk.ns) → exec (.epAging slot) s = .next s)) ∧
     (s.me.run = .starting → (∀ k ∈ s.strands, k.id ≠ s.me.id) →
       exec (.strandStart s.me.id) s = .next { s with me := { s.me with run := if s.jobHeld s.me.ctx then .held else .running } })) ∧
  (∀ (slot : BitVec 13) (l : Launch) (s : State),
     (∀ now, l.ep now = if l.prio = 7 then 7 else min 6 (l.prio + (now - l.elig) / 2000000)) ∧
     (∀ before after, s.cp.claim = none → s.waitingLaunches = before ++ l :: after → (∀ x ∈ before, ¬ (x.prio < 7 ∧ x.ep s.clk.ns = 6 ∧ x.lastPlaced + 20000000 ≤ s.clk.ns)) →
       l.prio < 7 → l.ep s.clk.ns = 6 → l.lastPlaced + 20000000 ≤ s.clk.ns →
       (l.slot = slot.toNat → exec (.placementClaim slot) s = .next { s with cp := { s.cp with claim := some l.slot } }) ∧
       (l.slot ≠ slot.toNat → exec (.placementClaim slot) s = .next s)) ∧
     (s.cp.claim ≠ none → exec (.placementClaim slot) s = .next s)) ∧
  (∀ s : State, s.me.run = .running →
     (s.me.id ∉ s.cp.victims → exec (.preemptStop s.me.id) s = .next s) ∧
     (s.me.id ∈ s.cp.victims → s.awaitsRemote = true ∨ s.me.due.forced.isSome → exec (.preemptStop s.me.id) s = .next s) ∧
     (s.me.id ∈ s.cp.victims → s.awaitsRemote = false → s.me.due.forced = none → s.vectorRemote s.me = true →
       exec (.preemptStop s.me.id) s = .next { s with me := { s.me with due := { s.me.due with halting := true } } }) ∧
     (s.me.id ∈ s.cp.victims → s.awaitsRemote = false → s.me.due.forced = none → s.vectorRemote s.me = false →
       (∀ e, s.me.oldest = some e → ∀ v, e.instr ≠ .mmac v ∧ e.instr ≠ .mrsmac v) → s.me.as.streams = [] →
       ∃ t, exec (.preemptStop s.me.id) s = .next t ∧ t.me.run = .preempted ∧ t.me.pc = s.me.pc ∧ t.me.regs = s.me.regs ∧ t.me.cfg = s.me.cfg ∧ t.me.lclk = s.me.lclk ∧
         t.me.tr = s.me.tr ∧ t.me.vs = s.me.vs ∧ t.me.sys = s.me.sys ∧ t.me.as = s.me.as ∧ t.me.q = [] ∧ t.me.win.map (·.instr) = (s.me.win ++ s.me.q).map (·.instr) ∧ t.me.replay = [] ∧
         t.cp = { s.cp with victims := s.cp.victims.filter (· ≠ s.me.id) } ∧ t.mem = s.mem.drainCore s.me.core ∧ t.strands = s.strands))

/-- R424, R425: a strand that owes a cancel takes the CANCEL trap at its boundary, with the handle in TINFO, its vector work discarded, once and
with no trap active. One that has not ended 1 ms after that was due ends there, its stores performed. R508: NOTIFY_WRITE stores the
completion word of the launch that owes it (first one whose slot another has taken) at its NOTIFY address, as the command processor's
access, with an EXTERNAL mark before it at host memory; where that faults the word is dropped. Either way it is done once. Model's choices
or readings on which it rests: log entries 52, 67. -/
def Obligations.CancelAndNotify : Prop :=
  (∀ (h : Word) (at_ : Nat) (s : State), s.me.run = .running → s.me.as.copies = [] → s.me.as.streams = [] →
     (∀ e, s.me.oldest = some e → ∀ v, e.instr ≠ .mmac v ∧ e.instr ≠ .mrsmac v) →
     (s.me.due.cancel = none → exec (.cancelDelivery s.me.id) s = .next s) ∧
     (s.me.due.cancel = some (h, at_) →
       (s.me.tr.tcause.getLsbD 15 = true → exec (.cancelDelivery s.me.id) s = .next s) ∧
       (s.awaitsRemote = false → s.vectorRemote s.me = false → s.MayEnter 0x10 →
         let me : Strand := { s.me with q := [], win := [], tr := { s.me.tr with tcause := s.me.tr.tcause &&& ~~~0x20000#64 }, due := { s.me.due with cancel := none, cancelled := some at_, vec := none, halting := false } }
         ∃ t, exec (.cancelDelivery s.me.id) s = .next t ∧ t.me = me.inHandler 0x10 h none ∧ t.mem = s.mem ∧ t.cp = s.cp)) ∧
     (∀ due, s.me.due.cancelled = some due ∨ (s.me.due.cancelled = none ∧ ∃ x, s.me.due.cancel = some (x, due)) →
       (s.clk.ns < due + 1000000 → exec (.cancelTimeout s.me.id) s = .next s) ∧
       (due + 1000000 ≤ s.clk.ns → 2 ≤ s.crew.live → s.core.arrays = [] → (∀ c ∈ s.cores, c.arrays = []) → s.groups = [] → s.me.as.subs = [] →
         (∀ x ∈ s.fab.txs, x.own.take 4 ≠ [5, s.me.id.lid.toNat, s.me.id.cid.toNat, s.me.id.sid.toNat]) →
         ∃ t, exec (.cancelTimeout s.me.id) s = .next t ∧ t.me.run = .ended ∧ t.me.regs = s.me.regs ∧ t.me.q = [] ∧ t.me.lclk = s.me.lclk + 1 ∧
           t.crew = { s.crew with live := s.crew.live - 1 } ∧ t.strands = s.strands ∧ t.mem.ram = (s.mem.drainCore s.me.core).ram ∧ t.cp = s.cp))) ∧
  (∀ (slot : BitVec 13) (l : Launch) (s : State),
     let r := pkgReq l.ctx s.clk.cp [8, l.slot, l.gen]
     let word := l.state.toNat * 2 ^ 60 + l.code.toNat * 2 ^ 52 + l.out % 2 ^ 48
     let done (t : State) : Prop := (∀ x ∈ t.cp.owed, ¬ (x.slot = l.slot ∧ x.gen = l.gen)) ∧ ∀ x ∈ t.cp.launches, x.slot = l.slot → x.gen = l.gen → x.notifyDue = false
     ((∀ x ∈ s.cp.owed, x.slot ≠ slot.toNat) → s.launchAt slot.toNat = some l →
       (l.notifyDue = false → exec (.notifyWrite slot) s = .next s) ∧ (l.notifyDue = true → s.owesNotify slot.toNat = some l)) ∧
     (∀ before after, s.cp.owed = before ++ l :: after → l.slot = slot.toNat → (∀ x ∈ before, x.slot ≠ slot.toNat) → s.owesNotify slot.toNat = some l) ∧
     (s.owesNotify slot.toNat = some l →
       (∀ c, s.find r l.notify .write = .fault c → ∃ t, exec (.notifyWrite slot) s = .next t ∧ t.mem = s.mem ∧ done t) ∧
       ((∀ d n, s.homeOf r l.notify false ≠ .host d n) → ∀ p m s2, s.find r l.notify .write = .spot p m → m.Open p → p.host = false → p.key % 256 + 8 ≤ 256 →
         ({ s with mem := m } : State).logOld r l.notify p 8 = .ok s2 → ∃ t, exec (.notifyWrite slot) s = .next t ∧ s2.mem.Wrote t.mem p (leBytes 8 word) ∧ done t) ∧
       (∀ d n, s.homeOf r l.notify false = .host d n → ∀ p m s2, s.find r l.notify .write = .spot p m → s.mark r 5 l.notify = .ok s2 → s2.find r l.notify .write = .spot p s2.mem →
         s2.mem.Open p → p.host = true → p.key % 256 + 8 ≤ 256 → ∃ t, exec (.notifyWrite slot) s = .next t ∧ s2.mem.Wrote t.mem p (leBytes 8 word) ∧ done t)))

/-- R52, R53: a pending node is decided once every predecessor is done. It runs when all its edges are taken (one of them under ANY), else it is
skipped; a skipped node and one that ends count down OUT of the graph. A body that breaks the rules fails the node with code FE. A signal
node stores its value, or adds it; a conditional node reads its word once; a wait node ends when its condition holds; a copy node's copy
begins. R52: a running wait node reads its word again and ends when its condition holds, or fails with code FF once its time has passed. A
copy node ends when all its bytes are written: its hub copy moves the bytes of FROM to TO. Model's choices or readings on which it rests:
log entries 16, 18, 53, 64. -/
def Obligations.GraphNodes : Prop :=
  (∀ (g : BitVec 13) (n : BitVec 12) (s : State) (gr : Graph) (nd : Node), s.graphAt g.toNat = some gr → gr.slot = g.toNat → gr.nodes[n.toNat]? = some nd → gr.state = 0 → 2 ≤ gr.out →
     let i : Instr := .nodeDecide g n
     let edges := (gr.edges.drop nd.efirst).take nd.npred
     let done (e : Nat × Nat) : Prop := ∃ p, gr.nodes[e.2]? = some p ∧ (p.st = .completed ∨ p.st = .failed ∨ p.st = .skipped)
     let taken (e : Nat × Nat) : Prop := ∃ p, gr.nodes[e.2]? = some p ∧ p.st = .completed ∧ p.result = 1 ∧ (e.1 = 0 ∨ (e.1 = 1 ∧ p.taken = true) ∨ (e.1 = 2 ∧ p.taken = false))
     let runs : Prop := nd.npred = 0 ∨ (nd.any = true ∧ ∃ e ∈ edges, taken e) ∨ (nd.any = false ∧ edges.length = nd.npred ∧ ∀ e ∈ edges, taken e)
     let opened : Prop := ∀ p, gr.parent = .phase p → ∃ ph, s.phaseAt p = some ph ∧ ph.opened = true
     let settles (t : State) (x : Node) (out : Nat) : Prop := ∃ y : Graph, t.graphAt g.toNat = some y ∧ y.nodes = gr.nodes.set n.toNat x ∧ y.out = out ∧ y.state = 0 ∧ y.edges = gr.edges
     let begun : Node := { nd with st := .running, since := s.clk.ns }
     let s1 := ({ s with clk := { s.clk with cp := s.clk.cp + 1 } } : State).setNode gr.slot n.toNat fun x => { x with st := .running, since := s.clk.ns }
     let r : Req := { pkgReq gr.ctx (s.clk.cp + 1) [3, gr.slot, gr.gen, n.toNat] with covers := true }
     let a := nd.word 8
     let v := nd.word 0x10
     let ctl := nd.word 0x18
     (nd.st = .pending → ((∃ e ∈ edges, ¬ done e) ∨ ¬ opened) → exec i s = .next s) ∧
     (nd.st = .pending → opened → (∀ e ∈ edges, done e) →
       (¬ runs → ∃ t, exec i s = .next t ∧ settles t { nd with st := .skipped } (gr.out - 1) ∧ t.mem = s.mem) ∧
       (runs → nd.bodyOk = false → ∃ t, exec i s = .next t ∧ settles t { begun with st := .failed, code := 0xFE, result := 3 } (gr.out - 1) ∧ t.mem = s.mem) ∧
       (runs → nd.bodyOk = true →
         (nd.kind = 2 → nd.copy = none → ∃ t c, exec i s = .next t ∧ settles t { begun with copy := some c } gr.out ∧ t.mem = s.mem ∧ c.src = a ∧ c.to_ = v ∧ c.rowb = ctl.toNat ∧ c.rows = 1 ∧ c.prog = 0 ∧ c.gen = s.mem.gen ∧ c.stop = none) ∧
         (nd.kind = 4 → ∀ p m s2, s1.find r a (if ctl.getLsbD 0 then .both else .write) = .spot p m → m.Open p → (ctl.getLsbD 0 = true → m.poisoned p.key = false) → p.key % 256 + 8 ≤ 256 →
           ({ s1 with mem := m } : State).logged r a p 8 = .ok s2 → (∀ h ∈ s2.mem.heal, h.own ≠ r.own) → s2.cp.graphs = s1.cp.graphs →
           ∃ t, exec i s = .next t ∧ settles t { begun with st := .completed, code := 0, result := 1 } (gr.out - 1) ∧
             s2.mem.Wrote { t.mem with heal := s2.mem.heal } p (leBytes 8 (if ctl.getLsbD 0 then leNat (m.bytesUnder p.tag p.key 8) + v.toNat else v.toNat))) ∧
         (∀ p m, s1.find r a .read = .spot p m → m.Open p →
           let x : Word := BitVec.ofNat 64 (leNat (m.bytesUnder p.tag p.key 8))
           let holds : Prop := if ctl.toNat % 4 = 0 then v.toNat ≤ x.toNat else if ctl.toNat % 4 = 1 then x = v else x ≠ v
           (m.poisoned p.key = true → nd.kind = 5 ∨ nd.kind = 6 → ∃ t, exec i s = .next t ∧ settles t { begun with st := .failed, code := 0x06, result := 3 } (gr.out - 1)) ∧
           (m.poisoned p.key = false → nd.kind = 6 → ∃ t, exec i s = .next t ∧ settles t { begun with st := .completed, code := 0, result := 1, taken := decide (x ≠ 0) } (gr.out - 1) ∧ t.mem = m) ∧
           (m.poisoned p.key = false → nd.kind = 5 → holds → ∃ t, exec i s = .next t ∧ settles t { begun with st := .completed, code := 0, result := 1 } (gr.out - 1) ∧ t.mem = m) ∧
           (m.poisoned p.key = false → nd.kind = 5 → ¬ holds → ∃ t, exec i s = .next t ∧ settles t begun gr.out ∧ t.mem = m)) ∧
         (∀ c, s1.find r a (if nd.kind = 4 then (if ctl.getLsbD 0 then .both else .write) else .read) = .fault c → nd.kind = 4 ∨ nd.kind = 5 ∨ nd.kind = 6 →
           ∃ t, exec i s = .next t ∧ settles t { begun with st := .failed, code := c, result := 3 } (gr.out - 1) ∧ t.mem = s.mem)))) ∧
  (∀ (g : BitVec 13) (n : BitVec 12) (s : State) (gr : Graph) (nd : Node), s.graphAt g.toNat = some gr → gr.slot = g.toNat → gr.nodes[n.toNat]? = some nd → gr.state = 0 → 2 ≤ gr.out →
     nd.st = .running →
     let settles (t : State) (x : Node) (out : Nat) : Prop := ∃ y : Graph, t.graphAt g.toNat = some y ∧ y.nodes = gr.nodes.set n.toNat x ∧ y.out = out ∧ y.state = 0 ∧ y.edges = gr.edges
     let r : Req := { pkgReq gr.ctx s.clk.cp [3, gr.slot, gr.gen, n.toNat] with covers := true }
     let v := nd.word 0x10
     let ctl := nd.word 0x18
     let tmo := ctl.toNat / 2 ^ 32
     (nd.kind = 5 →
       (∀ p m, s.find r (nd.word 8) .read = .spot p m → m.Open p → m.poisoned p.key = false →
         let x : Word := BitVec.ofNat 64 (leNat (m.bytesUnder p.tag p.key 8))
         let holds : Prop := if ctl.toNat % 4 = 0 then v.toNat ≤ x.toNat else if ctl.toNat % 4 = 1 then x = v else x ≠ v
         (holds → ∃ t, exec (.waitNodePoll g n) s = .next t ∧ settles t { nd with st := .completed, code := 0, result := 1 } (gr.out - 1) ∧ t.mem = m) ∧
         (¬ holds → ∃ t, exec (.waitNodePoll g n) s = .next t ∧ t.cp = s.cp ∧ t.mem = m ∧ t.me = s.me)) ∧
       (tmo ≠ 0 → nd.since + tmo * 1000 ≤ s.clk.ns → ∃ t, exec (.waitNodeTimeout g n) s = .next t ∧ settles t { nd with st := .failed, code := 0xFF, result := 3 } (gr.out - 1) ∧ t.mem = s.mem) ∧
       (tmo = 0 ∨ s.clk.ns < nd.since + tmo * 1000 → exec (.waitNodeTimeout g n) s = .next s)) ∧
     (∀ c, nd.copy = some c → c.rows = 1 → c.prog = 0 → 0 < c.rowb → c.rowb < 256 → c.src.toNat % 256 + c.rowb ≤ 256 → c.to_.toNat % 256 + c.rowb ≤ 256 → c.marked = false → c.swi = 0 → c.gen = s.mem.gen → c.stop = none →
       (∀ i, i < c.rowb → c.overlaps (c.to_ + BitVec.ofNat 64 i) = false) →
       ∀ p m q m2 s2, s.find r c.src .read = .spot p m → m.Open p → m.poisoned p.key = false → (({ s with mem := m } : State).passed r c.src .read p false).find r c.to_ .write = .spot q m2 → m2.Open q →
         q.key % 256 + c.rowb ≤ 256 → ({ ({ s with mem := m } : State).passed r c.src .read p false with mem := m2 } : State).logged r c.to_ q c.rowb = .ok s2 → (∀ h ∈ s2.mem.heal, h.own ≠ r.own) → s2.cp.graphs = s.cp.graphs →
         ∃ t x, exec (.copyNodeComplete g n) s = .next t ∧ s2.mem.Wrote { t.mem with heal := s2.mem.heal } q (m.bytesUnder p.tag p.key c.rowb) ∧
           settles t { nd with st := .completed, code := 0, result := 1, copy := some x } (gr.out - 1) ∧ x.prog = c.rowb))

/-- R16, R17, R298, R299: an awake link sleeps after its idle interval, and never with interval 0; a request wakes a sleeping link and waits in
it, in the order of arrival, until the wake or a retrain completes; an access that a link holds wakes it so. A snoop is sent again at 2, 4,
6 and 8 µs, and is delivered when the link is awake. A wake that has not completed after 8 µs, and a retrain that fails or takes over 5 ms,
count in the link's record and the link retrains. Three failures and 20 ms after the first began, the die has failed: it is counted, and a
compute die's crews end. R420, R421, R463, R466: an uncorrectable error marks the store that it strikes, so that a later use finds it, and
counts in the record of its unit and kind: a register, a predicate, a scale, a queue entry, bytes of a vector register or an accumulator, a
memory sector, or the sector behind a dirty L1 line; a clean line, an instruction and a replayed block are dropped. A corrected error
changes no store: it counts in the records, and in the RATE of its domain. A scrub does so for every sector that it names. Model's choices
or readings on which it rests: log entries 43, 45, 46. -/
def Obligations.LinksAndErrors : Prop :=
  (∀ (l : BitVec 4) (s : State), l.toNat < 12 →
     let x := s.link l.toNat
     let now := s.clk.ns
     let n := x.held.length + x.delivered.length
     let becomes (i : Instr) (y : DieLink) : Prop := exec i s = .next { s with links := vset s.links l.toNat y }
     let awake : DieLink := { x with st := .awake, delivered := x.delivered ++ x.held, held := [], idleSince := now, idleNow := x.idle, fails := 0 }
     let snoop := if l.toNat < 8 ∧ x.snoop = none then some (now, 0) else x.snoop
     let failed (i : Instr) (since : Nat) : Prop := ∃ t, exec i s = .next t ∧ t = { s with links := t.links, house := { s.house with counts := t.house.counts } } ∧
       t.link l.toNat = { x with st := .retraining now, fails := x.fails + 1, firstFail := if x.fails = 0 then since else x.firstFail } ∧
       kvGet t.house.counts (4 * 2 ^ 16 + l.toNat) = min (2 ^ 64 - 1) (kvGet s.house.counts (4 * 2 ^ 16 + l.toNat) + 1)
     (x.st = .awake →
       (x.idleNow ≠ 0 → x.idleSince + x.idleNow.toNat * 1000 ≤ now → becomes (.linkSleep l) { x with st := .asleep }) ∧
       (x.idleNow = 0 ∨ now < x.idleSince + x.idleNow.toNat * 1000 → exec (.linkSleep l) s = .next s) ∧
       becomes (.linkWake l) { x with delivered := x.delivered ++ [n], idleSince := now, idleNow := x.idle }) ∧
     (x.st ≠ .awake → exec (.linkSleep l) s = .next s) ∧
     (x.st = .asleep → becomes (.linkWake l) { x with st := .waking now, held := x.held ++ [n], snoop := snoop }) ∧
     (∀ t, x.st = .waking t → becomes (.linkWake l) { x with held := x.held ++ [n], snoop := snoop } ∧ becomes (.linkWakeComplete l) awake ∧
       (t + 8000 ≤ now → failed (.wakeFail l) t) ∧ (now < t + 8000 → exec (.wakeFail l) s = .next s)) ∧
     (∀ t, x.st = .retraining t → (now ≤ t + 5000000 → becomes (.linkRetrainEnd l true) awake) ∧ (t + 5000000 < now → failed (.linkRetrainEnd l true) t) ∧ failed (.linkRetrainEnd l false) t ∧ becomes (.linkWake l) { x with held := x.held ++ [n], snoop := snoop }) ∧
     (∀ t k, x.snoop = some (t, k) →
       (k < 4 → now < t + 2000 * (k + 1) → exec (.snoopResend l) s = .next s) ∧
       (4 ≤ k → x.st ≠ .awake → exec (.snoopResend l) s = .next s) ∧
       (4 ≤ k ∨ t + 2000 * (k + 1) ≤ now → x.st = .awake → becomes (.snoopResend l) { x with snoop := none }) ∧
       (t + 2000 * (k + 1) ≤ now → x.st ≠ .awake → k < 4 → becomes (.snoopResend l) { x with snoop := some (t, k + 1) })) ∧
     (∀ r a need, l.toNat ∈ s.heldOn r a need → let y := (s.holdAt r a need).link l.toNat
       (r.own, s.mem.gen) ∈ y.waits ∧ y.st = if x.st = .asleep then .waking now else x.st) ∧
     (∀ r a need ls n, s.find r a need = .held ls → s.memRead r a n need = .wait (s.holdAt r a need)) ∧
     (let d := l.toNat
      let counted (t : State) : Prop := kvGet t.house.counts (7 * 2 ^ 16 + d) = min (2 ^ 64 - 1) (kvGet s.house.counts (7 * 2 ^ 16 + d) + 1) ∧ ∀ k, k ∈ t.mem.failed ↔ k = d ∨ k ∈ s.mem.failed
      (d ∈ s.mem.failed ∨ x.fails < 3 ∨ now < x.firstFail + 20000000 → exec (.dieFailed l) s = .next s) ∧
      (d ∉ s.mem.failed → 3 ≤ x.fails → x.firstFail + 20000000 ≤ now →
        (8 ≤ d → ∃ t, exec (.dieFailed l) s = .next t ∧ counted t ∧ t = { s with mem := { s.mem with failed := t.mem.failed }, house := { s.house with counts := t.house.counts } }) ∧
        (d < 8 → (∀ k ∈ s.me :: s.strands, k.onCore = true → k.core.toNat / 16 ≠ d) → ∃ t, exec (.dieFailed l) s = .next t ∧ counted t ∧ t.me = s.me ∧ t.strands = s.strands ∧
          t.mem.ram = s.mem.ram ∧ (t.link d).snoop = none ∧ (∀ c ∈ t.core :: t.cores, c.num.toNat / 16 = d → c.l1 = [] ∧ c.icache = []) ∧
          ∀ c ∈ s.core :: s.cores, c.num.toNat / 16 = d → ∀ y ∈ c.l1, y.dirty = true → t.mem.poisoned y.key = true)))) ∧
  (∀ (s : State),
     let count (c : List (Nat × Nat)) (key : Nat) : Nat := kvGet c key
     let struck (e : ErrSite) (key : Nat) (t : State) : Prop := exec (.uncorrectableError e) s = .next t ∧ count t.house.counts (2 * 2 ^ 16 + key) = min (2 ^ 64 - 1) (count s.house.counts (2 * 2 ^ 16 + key) + 1)
     let core := s.me.core.toNat
     (∀ e, s.errAt e = none → exec (.uncorrectableError e) s = .next s ∧ exec (.correctedError e) s = .next s) ∧
     (s.me.run = .running → (∀ k ∈ s.strands, k.id ≠ s.me.id) →
       (∀ r : Reg, r ≠ 0 → ∃ t, struck (.sreg s.me.id r) (core * 16 + 2) t ∧ r ∈ t.me.spoiled.sregs ∧ t.me.regs = s.me.regs ∧ ∀ x ∈ t.me.spoiled.sregs, x = r ∨ x ∈ s.me.spoiled.sregs) ∧
       (∀ p : Reg, p ≠ 0 → ∃ t, struck (.pred s.me.id p) (core * 16 + 3) t ∧ p ∈ t.me.spoiled.preds ∧ t.me.vs = s.me.vs) ∧
       (∀ (v : Reg) (b : Nat), ∃ t, struck (.vreg s.me.id v b) (core * 16) t ∧ b ∈ (vget t.me.vs.regs v.toNat {}).bad ∧ ∀ x, x ≠ v.toNat → vget t.me.vs.regs x {} = vget s.me.vs.regs x {}) ∧
       (∀ (m : BitVec 4) (b : Nat), ∃ t, struck (.acc s.me.id m b) (core * 16 + 1) t ∧ b ∈ (vget t.me.vs.accs m.toNat {}).bad ∧ t.me.vs.regs = s.me.vs.regs) ∧
       (∀ q : BitVec 3, ∀ i c, s.me.id.lid = s.crew.lid → s.me.id.cid = s.crew.cid → (s.crew.queues[q.toNat]'q.isLt)[i]? = some c →
         ∃ t, struck (.queue s.me.id q i) (core * 16 + 5) t ∧ (t.crew.queues[q.toNat]'q.isLt)[i]? = some { c with bad := true })) ∧
     (∀ key, key < 2 ^ 52 → let place := (128 + dpaDie key) * 16 + (if key / 2 ^ 49 % 2 = 0 then 11 else 12)
       ∃ t u, struck (.mem key) place t ∧ t.mem.poisoned key = true ∧ t.mem.ram = s.mem.ram ∧ (∀ x, x / 256 ≠ key / 256 → t.mem.poisoned x = s.mem.poisoned x) ∧ t.me = s.me ∧
         exec (.correctedError (.mem key)) s = .next u ∧ u = { s with house := { s.house with counts := u.house.counts, domains := u.house.domains } } ∧
         count u.house.counts (2 ^ 16 + place) = min (2 ^ 64 - 1) (count s.house.counts (2 ^ 16 + place) + 1) ∧
         let d := 32 + dpaDie key
         let errs := (s.clk.ns :: (s.domain d).errs).filter fun at_ => decide (s.clk.ns < at_ + 3600000000000)
         (u.domain d).errs = errs ∧ (u.domain d).rate = errs.length ∧ ∀ x, x ≠ d → u.domain x = s.domain x) ∧
     (∀ (die : BitVec 2) (keys : List Nat), (∀ k ∈ keys, k < 2 ^ 52 ∧ dpaDie k = die.toNat) → ∃ t, exec (.scrubPass die [] keys) s = .next t ∧ (∀ k ∈ keys, t.mem.poisoned k = true) ∧
       t.mem.ram = s.mem.ram ∧ t.me = s.me ∧ ∃ u, exec (.scrubPass die keys []) s = .next u ∧ u.mem = s.mem ∧ (keys ≠ [] → keys.length ≤ (u.domain (32 + die.toNat)).rate ∧
         0 < (u.domain (32 + die.toNat)).rate)) ∧
     (∀ (core : BitVec 7) (ctx : BitVec 16) (sector : Nat), s.core.num = core →
       (∃ t, struck (.l1d core ctx sector) (core.toNat * 16 + 6) t ∧ (∀ x, x ∈ t.core.l1 ↔ x ∈ s.core.l1 ∧ ¬ (x.ctx = ctx ∧ x.sector = sector)) ∧
         ∀ x ∈ s.core.l1, x.ctx = ctx → x.sector = sector → x.dirty = true → t.mem.poisoned x.key = true) ∧
       ∃ t, struck (.l1i core ctx sector) (core.toNat * 16 + 7) t ∧ ∀ x, x ∈ t.core.icache ↔ x ∈ s.core.icache ∧ ¬ (x.ctx = ctx ∧ x.sector = sector)))

/-- R365, R366, R368: the flit that a port sends holds its SEQ, the last SEQ accepted as ACK, NAK where a flit was discarded, PAUSE where the
receive buffer of 1 MiB has less room than the window, its type, the payload and the check. R364 to R368, R371: a port that carries no
traffic takes no flit. A damaged flit, one of an unknown type and one out of sequence are discarded, and an idle flit asks the peer for them
again; the next in sequence is accepted into the receive buffer and its ACK goes to the peer. Unless the hub is busy its payload joins the
message that is arriving, which is taken once whole. An ACK ends the wait for what it counts; a NAK makes the port send again everything
since, and the 16th in a row takes the link to training. So do 20 µs without an advance of ACK, and a second down; an attempt that trains
lanes within 8 µs makes the link's entry, and after the third that fails or takes 5 ms the link is down. R363, R375, R377: every 10 ms the
device sends its own link entries to all ports that carry traffic, under the next number. A newer notice of another device replaces its row,
an older one does not, and one under this device's own number that this device did not send sets DUP. A row without a notice for 50 ms
counts as all down: a group of this device that uses one of its links pauses, and asks rank 0 for an agreement. Model's choices or readings
on which it rests: log entry 42. -/
def Obligations.FabricPortsAndNotices : Prop :=
  (∀ (p : Port) (seq : BitVec 12) (type : Byte) (payload : List Byte), payload.length = 240 → type.toNat < 16 →
     let f := flitOf p seq type payload
     let h := numAt f 0 8
     f.length = 256 ∧ (f.drop 8).take 240 = payload ∧ BitVec.ofNat 64 (numAt f 248 8) = crc64 (f.take 248) ∧
     h / 2 ^ 52 = seq.toNat ∧ h / 2 ^ 40 % 2 ^ 12 = p.rxSeq.toNat ∧ (h / 2 ^ 39 % 2 = 1 ↔ p.nak = true) ∧ (h / 2 ^ 38 % 2 = 1 ↔ 2 ^ 20 < 256 * p.buf.length + (p.rtt * 112 + 2 ^ 14)) ∧
     h / 2 ^ 34 % 16 = type.toNat ∧ h % 2 ^ 34 = 0) ∧
  (∀ (port : BitVec 6) (s : State),
     let still : Prop := s.groups = [] ∧ s.fab.loop = [] ∧ s.fab.stranded = []
     let n := port.toNat
     let p := s.port n
     let carries : Prop := 2 ≤ p.stat.toNat / 2 ^ 32 % 4
     let only (t : State) (q : Port) : Prop := t = { s with fab := { s.fab with ports := vset s.fab.ports n q } }
     let idle (q : Port) : Nat × List Byte := (n, flitOf q 0 0 (List.replicate 240 0))
     let sends (t : State) (q f : Port) : Prop := t = { s with fab := { s.fab with ports := vset s.fab.ports n q, wire := idle f :: s.fab.wire } }
     let drops (i : Instr) : Prop := ∃ t, exec i s = .next t ∧ sends t { p with nak := false } { p with nak := true }
     let goesToTraining (u t : State) : Prop := (t.port n).stat.toNat / 2 ^ 32 % 4 = 1 ∧ (t.port n).attempts = 0 ∧ (t.port n).since = s.clk.ns ∧ (t.port n).unacked = (u.port n).unacked ∧
       (t.port n).unsent = (u.port n).unsent ∧ kvGet t.house.counts (4 * 2 ^ 16 + 12 + n) = min (2 ^ 64 - 1) (kvGet s.house.counts (4 * 2 ^ 16 + 12 + n) + 1) ∧ t.me = s.me ∧ t.mem = s.mem
     let training (i : Instr) : Prop := ∃ t, exec i s = .next t ∧ goesToTraining s t
     let fails (i : Instr) : Prop :=
       (p.attempts < 2 → ∃ t, exec i s = .next t ∧ only t { p with attempts := p.attempts + 1, since := s.clk.ns }) ∧
       (2 ≤ p.attempts → p.unacked = [] → p.queue = [] → still → ∃ t, exec i s = .next t ∧ (t.port n).stat.toNat / 2 ^ 32 % 4 = 0 ∧ (t.port n).since = s.clk.ns ∧ (t.port n).rx = [] ∧ t.me = s.me)
     (∀ bytes : List Byte,
       let h := numAt bytes 0 8
       let type := h / 2 ^ 34 % 16
       let sound : Prop := bytes.length = 256 ∧ crc64 (bytes.take 248) = BitVec.ofNat 64 (numAt bytes 248 8) ∧ type < 3
       let payload := (bytes.drop 8).take 240
       let seq : BitVec 12 := BitVec.ofNat 12 (h / 2 ^ 52)
       let ack : BitVec 12 := BitVec.ofNat 12 (h / 2 ^ 40)
       let base : BitVec 12 := p.txSeq - BitVec.ofNat 12 p.pending
       let naks := h / 2 ^ 39 % 2 = 1
       let paused := decide (h / 2 ^ 38 % 2 = 1)
       (¬ carries → exec (.flitAccept port bytes) s = .next s) ∧
       (carries → ¬ sound → drops (.flitAccept port bytes)) ∧
       (carries → sound → type ≠ 0 → seq ≠ p.rxSeq + 1 → drops (.flitAccept port bytes)) ∧
       (carries → sound → p.queue = [] → p.unsent = 0 → p.nak = false →
         (type = 0 → ¬ naks → ack = base → ∃ t, exec (.flitAccept port bytes) s = .next t ∧ only t { p with paused := paused }) ∧
         (type = 0 → ¬ naks → ∀ k, 0 < k → k ≤ p.pending → p.pending < 2 ^ 12 → ack = base + BitVec.ofNat 12 k →
           ∃ t, exec (.flitAccept port bytes) s = .next t ∧ only t { p with unacked := dropFlits k p.unacked, ackAt := s.clk.ns, paused := paused, naks := 0 }) ∧
         (type = 0 → naks → ack = base →
           let row := if p.nakSeq = ack then p.naks + 1 else 1
           (row < 16 → ∃ t, exec (.flitAccept port bytes) s = .next t ∧
             t = { s with fab := { s.fab with ports := vset s.fab.ports n { p with paused := paused, naks := row, nakSeq := ack }, wire := t.fab.wire } } ∧
             t.fab.wire.length = p.pending + s.fab.wire.length ∧ t.fab.wire.drop p.pending = s.fab.wire ∧
             ∀ i, i < p.pending → t.fab.wire[p.pending - 1 - i]? = some (n, flitOf p (base + 1 + BitVec.ofNat 12 i) (flitAt p.unacked i).1 (flitAt p.unacked i).2)) ∧
           (16 ≤ row → still → training (.flitAccept port bytes))) ∧
         (type ≠ 0 → seq = p.rxSeq + 1 → ¬ naks → ack = base →
           let joined := if p.rx = [] ∨ p.rxType = BitVec.ofNat 8 type then p.rx ++ payload else payload
           let part : Prop := joined.length < 240 * ((32 + numAt joined 8 4 + 239) / 240)
           let kept : Port := { p with rxSeq := seq, paused := paused }
           let taken : Port := { kept with rx := [], rxType := 0 }
           (p.busy = true → ∃ t, exec (.flitAccept port bytes) s = .next t ∧
             let q : Port := { kept with buf := p.buf ++ [(BitVec.ofNat 8 type, payload)] }
             sends t q q) ∧
           (p.busy = false → p.buf = [] → part → ∃ t, exec (.flitAccept port bytes) s = .next t ∧
             let q : Port := { kept with rx := joined, rxType := BitVec.ofNat 8 type }
             sends t q q) ∧
           (p.busy = false → p.buf = [] → ¬ part →
             (parseMsg joined = none → ∃ t, exec (.flitAccept port bytes) s = .next t ∧ sends t taken taken) ∧
             (∀ mt msg, parseMsg joined = some (mt, msg) →
               (BitVec.ofNat 8 type ≠ (if mt.toNat ≤ 5 ∨ mt = 0x28 then 1 else 2) → ∃ t, exec (.flitAccept port bytes) s = .next t ∧ sends t taken taken) ∧
               (BitVec.ofNat 8 type = (if mt.toNat ≤ 5 ∨ mt = 0x28 then 1 else 2) →
                 let rows : List (Byte × Instr) := [(0x01, .readMsg msg), (0x02, .writeMsg msg), (0x03, .atomicMsg msg), (0x04, .addMsg msg), (0x05, .responseMsg msg), (0x10, .admitMsg msg),
                   (0x11, .admitansMsg msg), (0x20, .matchMsg msg), (0x21, .stopMsg msg), (0x22, .agreqMsg msg), (0x23, .proposeMsg msg), (0x24, .answerMsg msg), (0x25, .commitMsg msg),
                   (0x26, .cackMsg msg), (0x27, .resumeMsg msg), (0x28, .chunkMsg msg), (0x29, .writtenMsg msg), (0x2A, .doneMsg msg)]
                 ∀ x ∈ rows, x.1 = mt → ∀ t, exec x.2 { s with fab := { s.fab with ports := vset s.fab.ports n taken } } = .next t →
                   let flits (u : State) : Nat := (u.fab.wire.filter (·.1 = n)).length
                   exec (.flitAccept port bytes) s = .next (if 2 ≤ (t.port n).stat.toNat / 2 ^ 32 % 4 ∧ flits t = flits s then t.sendIdle n else t))))))) ∧
     (carries → p.pending ≠ 0 → p.ackAt + 20000 ≤ s.clk.ns → still → training (.ackTimeout port)) ∧
     (¬ (carries ∧ p.pending ≠ 0 ∧ p.ackAt + 20000 ≤ s.clk.ns) → exec (.ackTimeout port) s = .next s) ∧
     (p.stat.toNat / 2 ^ 32 % 4 = 0 → p.since + 1000000000 ≤ s.clk.ns → still → training (.linkDownRetry port)) ∧
     (p.stat.toNat / 2 ^ 32 % 4 ≠ 0 ∨ s.clk.ns < p.since + 1000000000 → exec (.linkDownRetry port) s = .next s) ∧
     (∀ t : Trained,
       let good : Prop := t.rttNs ≤ 8000 ∧ (t.lanes = 1 ∨ t.lanes = 2)
       (p.stat.toNat / 2 ^ 32 % 4 ≠ 1 → exec (.linkTrained port t) s = .next s) ∧
       (p.stat.toNat / 2 ^ 32 % 4 = 1 → ¬ good → fails (.linkTrained port t)) ∧
       (p.stat.toNat / 2 ^ 32 % 4 = 1 → good → still → ∃ u, exec (.linkTrained port t) s = .next u ∧ u.me = s.me ∧ u.mem = s.mem ∧
         (u.port n).stat = BitVec.ofNat 64 (t.rttNs / 2 * 2 ^ 48 + (t.lanes + 1) * 2 ^ 32 + 2 ^ 31 + t.pport.toNat * 2 ^ 16 + t.pdev.toNat) ∧ (u.port n).attempts = 0 ∧ (u.port n).rtt = t.rttNs ∧
         (p.nak = false → ∀ i, i < p.pending →
           (n, flitOf { p with rtt := t.rttNs } (p.txSeq - BitVec.ofNat 12 p.pending + 1 + BitVec.ofNat 12 i) (flitAt p.unacked i).1 (flitAt p.unacked i).2) ∈ u.fab.wire))) ∧
     (p.stat.toNat / 2 ^ 32 % 4 = 1 → p.since + 5000000 ≤ s.clk.ns → fails (.trainingAttemptTimeout port)) ∧
     (p.stat.toNat / 2 ^ 32 % 4 ≠ 1 ∨ s.clk.ns < p.since + 5000000 → exec (.trainingAttemptTimeout port) s = .next s) ∧
     (∀ (e : BitVec 2) (prio : BitVec 3) (on : Bool), e.toNat < 3 → ∃ t, exec (.pfcPauseFrame e prio on) s = .next t ∧ t = { s with rdma := { s.rdma with paused := t.rdma.paused } } ∧
       ∀ (x : Fin 3) (k : BitVec 3), t.rdma.paused[x].getLsbD k.toNat = if x.val = e.toNat ∧ k = prio then on else s.rdma.paused[x].getLsbD k.toNat)) ∧
  (∀ (s : State), s.fab.loop = [] → s.fab.stranded = [] →
     (s.inPod = true → s.fab.noticeAt + 10000000 ≤ s.clk.ns →
       (∀ n : Fin 64, linkCarries s.fab.ports[n].stat = true → s.fab.ports[n].queue = [] ∧ s.fab.ports[n].unacked = [] ∧ s.fab.ports[n].unsent = 0 ∧ s.fab.ports[n].paused = false) →
       let body := leBytes 4 (s.fab.noticeSeq + 1).toNat ++ leBytes 4 0 ++ (s.fab.ports.toList.map fun p => leBytes 8 p.stat.toNat).flatten
       let msg : Msg := ⟨s.dev, 0, 0, 0, s.clk.hub + 1, body⟩
       ∃ t, exec .noticeOriginate s = .next t ∧ t.fab.noticeSeq = s.fab.noticeSeq + 1 ∧ t.fab.noticeAt = s.clk.ns ∧ t.clk = { s.clk with hub := s.clk.hub + 1 } ∧
         t.fab.out = (s.livePorts.map fun n => (⟨0x12, msg, n⟩ : Sent)).reverse ++ s.fab.out ∧ t = { s with fab := t.fab, clk := t.clk }) ∧
     (s.clk.ns < s.fab.noticeAt + 10000000 ∨ s.inPod = false → exec .noticeOriginate s = .next s) ∧
     (∀ msg : Msg, s.fab.podcfg.getLsbD 63 = true → msgOk 0x12 msg = true → s.groups = [] →
       let seq := numAt msg.body 0 4
       let heard : Clocks := { s.clk with hub := (if s.clk.hub < msg.stamp then msg.stamp else s.clk.hub) + 1 }
       let row : Row := { dev := msg.sdev, seq := BitVec.ofNat 32 seq, entries := (numsOf 8 64 (msg.body.drop 8)).map (BitVec.ofNat 64 ·), at_ := s.clk.ns }
       let ours : Prop := ∃ x ∈ s.fab.out, x.mt = 0x12 ∧ x.msg = msg
       (msg.sdev ≠ s.dev → (∀ r ∈ s.fab.replica, r.dev = msg.sdev → r.seq.toNat < seq) →
         ∃ t, exec (.noticeMsg msg) s = .next t ∧ t.fab.replica = row :: s.fab.replica.filter (·.dev ≠ msg.sdev) ∧ t.clk = heard ∧ t.me = s.me ∧ t.mem = s.mem) ∧
       (msg.sdev ≠ s.dev → (∀ r ∈ s.fab.replica, r.dev = msg.sdev → seq ≤ r.seq.toNat) → (∃ r ∈ s.fab.replica, r.dev = msg.sdev) →
         ∃ t, exec (.noticeMsg msg) s = .next t ∧ t = { s with clk := heard, free := t.free }) ∧
       (msg.sdev = s.dev → ¬ ours → ∃ t, exec (.noticeMsg msg) s = .next t ∧ t = { s with clk := heard, free := t.free, fab := { s.fab with podcfg := s.fab.podcfg ||| 0x200 } }) ∧
       (msg.sdev = s.dev → ours → ∃ t, exec (.noticeMsg msg) s = .next t ∧ t = { s with clk := heard, free := t.free })) ∧
     (∀ (dev : BitVec 9) (r : Row), s.fab.replica.find? (·.dev = dev) = some r →
       (s.clk.ns < r.at_ + 50000000 → exec (.rowStale dev) s = .next s) ∧
       (r.at_ + 50000000 ≤ s.clk.ns →
         (dev ≠ s.dev → ∀ k, linkCarries ((s.linksOf dev).getD k 0) = false) ∧
         (s.groups = [] → exec (.rowStale dev) s = .next s) ∧
         (∀ g l rest, s.groups = [g] → g.rank ≠ 0 → g.gen ≠ 0 → g.agreeing = false ∨ g.committed = true → g.members.getD 0 0 ≠ s.dev → (deriveTrees g.members g.table).2 = l :: rest →
           g.members.getD l.v 0 = dev → dev ≠ s.dev →
           let y : Group := { g with agreeing := true, asked := g.gen }
           (g.asked = g.gen → exec (.rowStale dev) s = .next { s with groups := [y] }) ∧
           (g.asked ≠ g.gen → ∃ e : Word, linkCarries e = false ∧
             exec (.rowStale dev) s = .next (({ s with groups := [y] } : State).sayFresh 0x22 (g.members.getD 0 0) g.ctx (prefixOf g.grp g.gen ++ leBytes 8 e.toNat)))))))

/-- R363, R369 to R372: a device outside the pod takes no message, nor does it take one whose body breaks the limits of its type; it forwards a
message for another. READ, WRITE, ATOMIC and ADD of a range whose home is a die are performed once there, and answered with the status, the
poison and the data; a SIGNAL wakes there what it wakes at its own device; a fault answers with its code and a home elsewhere with 1. A
repeat gets the answer first given, and nothing is performed. R369, R370, R373: an admission request is accepted when the pool has room for
it and no earlier one waits, and else is told to wait; its source sends the data on acceptance, asks again when the wait has passed, and
sends again what has had no answer for 100 µs. A response ends the wait of its transaction. Model's choices or readings on which it rests:
log entry 18. -/
def Obligations.RemoteTransactions : Prop :=
  (∀ (msg : Msg) (s : State),
     let messages : List (Instr × Byte) := [(.readMsg msg, 0x01), (.writeMsg msg, 0x02), (.atomicMsg msg, 0x03), (.addMsg msg, 0x04), (.responseMsg msg, 0x05), (.admitMsg msg, 0x10),
       (.admitansMsg msg, 0x11), (.matchMsg msg, 0x20), (.stopMsg msg, 0x21), (.agreqMsg msg, 0x22), (.proposeMsg msg, 0x23), (.answerMsg msg, 0x24), (.commitMsg msg, 0x25),
       (.cackMsg msg, 0x26), (.resumeMsg msg, 0x27), (.chunkMsg msg, 0x28), (.writtenMsg msg, 0x29), (.doneMsg msg, 0x2A)]
     (∀ x ∈ messages, (s.inPod = false ∨ msgOk x.2 msg = false → exec x.1 s = .next s) ∧ (s.inPod = true → msgOk x.2 msg = true → msg.ddev ≠ s.dev → exec x.1 s = .next (s.send x.2 msg))) ∧
     (s.inPod = true → msg.ddev = s.dev → s.fab.admits = [] →
       let u : State := { s with clk := { s.clk with hub := (if s.clk.hub < msg.stamp then msg.stamp else s.clk.hub) + 1 } }
       let va : Word := BitVec.ofNat 64 (numAt msg.body 0 8)
       let n := numAt msg.body 8 2
       let r := reqOf msg
       let requests : List (Instr × Byte) := messages.take 4
       let served := s.fab.served.find? fun x => x.1 == msg.sdev && x.2.1 == msg.tid
       let answered (t : State) (body : List Byte) : Prop := ∃ a : Msg, t.fab.served = (msg.sdev, msg.tid, a) :: s.fab.served ∧ a.ddev = msg.sdev ∧ a.sdev = s.dev ∧ a.tid = msg.tid ∧ a.ctx = msg.ctx ∧ a.body = body
       let head (status : Byte) (poison : Bool) : List Byte := [status, if poison then 1 else 0, 0, 0, 0, 0, 0, 0]
       (∀ x ∈ requests, msgOk x.2 msg = true → ∀ y, served = some y → ∃ t, exec x.1 s = .next t ∧ t.mem = s.mem ∧ t.fab.served = s.fab.served ∧ t.me = s.me ∧ t.cp = s.cp ∧
         (y.2.2.body.length ≤ 8 → t = u.send 0x05 y.2.2)) ∧
       (served = none →
         (∀ x ∈ requests, msgOk x.2 msg = true → (∀ d i, u.homeOf r va false ≠ .die d i) → ∃ t, exec x.1 s = .next t ∧ answered t (head 1 false) ∧ t.mem = s.mem) ∧
         (∀ d i, u.homeOf r va false = .die d i → 0 < n → va.toNat % 256 + n ≤ 256 →
           (∀ c, msgOk 0x01 msg = true → u.find r va .read = .fault c → c = 0x04 ∨ c = 0x05 ∨ c = 0x06 → ∃ t, exec (.readMsg msg) s = .next t ∧ answered t (head c false) ∧ t.mem = s.mem) ∧
           (∀ p m, msgOk 0x01 msg = true → u.find r va .read = .spot p m → m.Open p → ∃ t, exec (.readMsg msg) s = .next t ∧ answered t (head 0 (m.poisoned p.key) ++ m.bytesUnder p.tag p.key n) ∧ t.mem = m ∧ t.me = s.me) ∧
           (∀ p m s2, msgOk 0x02 msg = true → u.find r va (if numAt msg.body 0x0B 1 / 2 = 0 then .write else .both) = .spot p m → p.key % 256 + n ≤ 256 → n < 256 → msg.body.length = 32 + n → numAt msg.body 0x0B 1 % 2 = 0 → p.host = false →
             ({ u with mem := m } : State).logOld r va p n = .ok s2 → s2.fab = s.fab → s2.me = s.me →
             ∃ t, exec (.writeMsg msg) s = .next t ∧ answered t (head 0 false) ∧ s2.mem.Wrote t.mem p (msg.body.drop 32) ∧ t.me = s.me) ∧
           (let cas := numAt msg.body 0x0A 1 = 0x36
            ∀ p m, msgOk 0x03 msg = true → u.find r va (if cas then .probe else .both) = .spot p m → p.key % 256 + n ≤ 256 → p.host = false → m.poisoned p.key = false →
             let new := atomicNew (numAt msg.body 0x0A 1) n (leNat (m.bytesUnder p.tag p.key n)) (numAt msg.body 0x10 8) (numAt msg.body 0x18 8)
             let old := head 0 false ++ leBytes 8 (leNat (m.bytesUnder p.tag p.key n))
             (new = none → ∃ t, exec (.atomicMsg msg) s = .next t ∧ answered t old ∧ t.mem = m ∧ t.me = s.me) ∧
             (∀ x m' s2, new = some x → (if cas then ({ u with mem := m } : State).find r va .both = .spot p m' else m' = m) →
               ({ u with mem := m' } : State).logOld r va p n = .ok s2 → s2.fab = s.fab → s2.me = s.me →
               numAt msg.body 0x0A 1 ≠ 0x3A → ∃ t, exec (.atomicMsg msg) s = .next t ∧ answered t old ∧ s2.mem.Wrote t.mem p (leBytes n x) ∧ t.me = s.me)) ∧
           (∀ old v, msgOk 0x03 msg = true → numAt msg.body 0x0A 1 = 0x3A → u.memAtomic r va 0x3A n (BitVec.ofNat 64 (numAt msg.body 0x10 8)) (BitVec.ofNat 64 (numAt msg.body 0x18 8)) 0 = .ok old v →
             exec (.atomicMsg msg) s = .next ((((v.wake msg.ctx).pollWaits msg.ctx va).wakeEthernet msg.ctx va).respond msg 0 false 0 (leBytes 8 old))) ∧
           (let w := numAt msg.body 0x0C 4
            let nm : Word := BitVec.ofNat 64 (w / 2 ^ 12 % 4 + w / 2 ^ 14 % 2 * 4 + w / 2 ^ 15 % 2 * 8 + 16)
            ∀ flags s2, msgOk 0x04 msg = true → msg.body.length = 32 + n → numAt msg.body 0x0B 1 % 2 = 0 →
             u.memAdd r va (Fmt.of (w % 2 ^ 12)) nm (w / 2 ^ 16 % 2 == 1) (leNat (msg.body.drop 32)) false true = .ok flags s2 → s2.fab = s.fab →
             ∃ t, exec (.addMsg msg) s = .next t ∧ answered t [0, 0, BitVec.ofNat 8 (flags / 256), 0, 0, 0, 0, 0] ∧ t.mem = s2.mem))))) ∧
  (∀ (msg : Msg) (s : State), s.inPod = true → msg.ddev = s.dev →
     let heard : Clocks := { s.clk with hub := (if s.clk.hub < msg.stamp then msg.stamp else s.clk.hub) + 1 }
     (msgOk 0x10 msg = true → s.fab.admits = [] →
       let bytes := numAt msg.body 0 8
       (s.fab.pool + bytes ≤ 2 ^ 26 → ∃ t, exec (.admitMsg msg) s = .next t ∧ t.fab.pool = s.fab.pool + bytes ∧ t.fab.admits = [(msg.sdev, msg.tid, bytes, s.clk.ns, true)] ∧ t.mem = s.mem ∧
         t = { (({ s with clk := heard, fab := { s.fab with admits := t.fab.admits, pool := t.fab.pool } } : State).say 0x11 msg.sdev 0 msg.tid (List.replicate 8 0)) with me := s.me }) ∧
       (2 ^ 26 < s.fab.pool + bytes → ∃ t, exec (.admitMsg msg) s = .next t ∧ t.fab.pool = s.fab.pool ∧ t.fab.admits = [(msg.sdev, msg.tid, bytes, s.clk.ns, false)] ∧ t.mem = s.mem)) ∧
     (∀ (tx : Tx) (others : List Tx), s.fab.txs = tx :: others → (∀ x ∈ others, x.tid ≠ tx.tid) →
       (msgOk 0x11 msg = true → msg.tid = tx.tid → tx.msg.ddev = msg.sdev → tx.admitted = false →
         (numAt msg.body 0 1 = 0 → tx.mt ≠ 0x05 → exec (.admitansMsg msg) s = .next (({ s with clk := heard, fab := { s.fab with txs := { tx with admitted := true, at_ := s.clk.ns } :: others } } : State).send tx.mt tx.msg)) ∧
         (numAt msg.body 0 1 = 0 → tx.mt = 0x05 → exec (.admitansMsg msg) s = .next (({ s with clk := heard, fab := { s.fab with txs := others } } : State).send tx.mt tx.msg)) ∧
         (numAt msg.body 0 1 ≠ 0 → exec (.admitansMsg msg) s = .next { s with clk := heard, fab := { s.fab with txs := { tx with wait := numAt msg.body 1 1, at_ := s.clk.ns } :: others } })) ∧
       (msgOk 0x05 msg = true → msg.tid = tx.tid → tx.msg.ddev = msg.sdev → tx.mt ≠ 0x05 → tx.resp = none → s.fab.admits = [] →
         exec (.responseMsg msg) s = .next { s with clk := heard, fab := { s.fab with txs := if tx.mt = 0x28 ∨ tx.own = [15] then others else { tx with resp := some msg } :: others } }) ∧
       (let again (t : State) : Prop := t.fab.txs = { tx with tries := tx.tries + 1, wait := 0, at_ := s.clk.ns } :: others ∧ t.me = s.me ∧ t.mem = s.mem ∧ t.clk = { s.clk with hub := s.clk.hub + 1 }
        (tx.admitted = false → tx.wait ≠ 0 → tx.at_ + tx.wait * 1000 ≤ s.clk.ns → ∃ t, exec (.admitRetry tx.tid) s = .next t ∧ again t) ∧
        (tx.admitted = true ∨ tx.wait = 0 ∨ s.clk.ns < tx.at_ + tx.wait * 1000 → exec (.admitRetry tx.tid) s = .next s) ∧
        (tx.resp = none → tx.at_ + 100000 ≤ s.clk.ns → tx.wait = 0 →
          (tx.admitted = false → ∃ t, exec (.transactionReissue tx.tid) s = .next t ∧ again t) ∧
          (tx.admitted = true → exec (.transactionReissue tx.tid) s = .next (({ s with fab := { s.fab with txs := { tx with at_ := s.clk.ns } :: others } } : State).send tx.mt tx.msg))) ∧
        (tx.resp ≠ none ∨ s.clk.ns < tx.at_ + 100000 ∨ tx.wait ≠ 0 → exec (.transactionReissue tx.tid) s = .next s))))

/-- R370, R374, R377, R391, R393: an agreement of a group. AGREQ makes rank 0 propose the next generation to every member; a member answers a
PROPOSE newer than what it answered, under its current generation, with its links and done chunks, and pauses; rank 0 keeps each ANSWER to
its proposal and each CACK until it has all; COMMIT gives a member the generation, the link table and the trees; RESUME ends the pause; a
member that has not answered 20 ms after a PROPOSE is lost. A message that comes again acts no more: what answered it is sent again. R374,
R387 to R389, R393: the calls and chunks of collectives. Rank 0 keeps a MATCH until every member's has come, keeps a JOIN's for a JOIN of
its own to come, and answers one of a group it does not have, or one that comes after a member was lost or left or stopped the collective,
with STOP 0x22. RESUME begins the next collective. At a member STOP ends the collective with its FC in the issuing strand's register. A
CHUNK is kept and answered, also one that comes before RESUME; the root of a chunk keeps each WRITTEN; DONE sets the chunk's mark to 3, in
memory too. Model's choices or readings on which it rests: log entries 36, 71. -/
def Obligations.CollectiveGroups : Prop :=
  (∀ (msg : Msg) (g : Group) (s : State), s.inPod = true → msg.ddev = s.dev → s.fab.loop = [] → s.groups = [g] → g.ctx = msg.ctx →
     g.grp.toNat = numAt msg.body 0 2 → g.members.Nodup →
     let clk : Clocks := { s.clk with hub := (if s.clk.hub < msg.stamp then msg.stamp else s.clk.hub) + 1 }
     let rows : List (Byte × Instr) := [(0x22, .agreqMsg msg), (0x23, .proposeMsg msg), (0x24, .answerMsg msg), (0x25, .commitMsg msg), (0x26, .cackMsg msg), (0x27, .resumeMsg msg)]
     let known (mt : Byte) := s.fab.heard.find? fun x => x.1 == mt && x.2.1 == msg.sdev && x.2.2.1 == msg.tid
     let gen : BitVec 32 := BitVec.ofNat 32 (numAt msg.body 4 4)
     let r := g.members.findIdx (· = msg.sdev)
     let own : List Nat := [14, g.ctx.toNat, g.grp.toNat]
     -- what a message leaves that is heard for the first time, and whose answer waits for nothing more
     let noted (mt : Byte) (ans : Option (Byte × Msg)) : Fabric := { s.fab with heard := (mt, msg.sdev, msg.tid, ans) :: s.fab.heard }
     let u (mt : Byte) : State := { s with clk := clk, fab := noted mt none }
     let unsent (mt : Byte) : List Tx := s.fab.txs.filter fun x => !(x.own == own && (x.mt == mt && x.msg.ddev == msg.sdev))
     let carried (l : TLink) : Prop := linkCarries ((s.linksOf (g.members.getD l.u 0)).getD l.p 0) = true ∧ linkCarries ((s.linksOf (g.members.getD l.v 0)).getD l.q 0) = true
     (∀ x ∈ rows, msgOk x.1 msg = true → ∀ y, known x.1 = some y →
       exec x.2 s = .next (match y.2.2.2 with | some ans => ({ s with clk := clk } : State).send ans.1 ans.2 | none => { s with clk := clk })) ∧
     (msgOk 0x22 msg = true → known 0x22 = none →
       (g.rank = 0 → gen = g.gen → g.agreeing = false ∨ g.committed = true → 2 ≤ g.members.length → g.members.getD 0 0 = s.dev →
         ∃ t y, exec (.agreqMsg msg) s = .next t ∧ t = { s with groups := [y], clk := t.clk, fab := t.fab } ∧ t.fab.loop = [] ∧ y.proposed = g.proposed + 1 ∧ y.agreeing = true ∧ y.committed = false ∧ y.acks = [] ∧
           y.proposedAt = s.clk.ns ∧ y.gen = g.gen ∧ y.table = g.table ∧ y.trees = g.trees ∧ y.colls = g.colls ∧ y.members = g.members ∧ y.calls = g.calls ∧
           ∀ d ∈ g.members, d ≠ s.dev → ∃ x ∈ t.fab.txs, x.own = own ∧ x.mt = 0x23 ∧ x.msg.ddev = d ∧ x.msg.body = prefixOf g.grp (g.proposed + 1)) ∧
       (g.rank ≠ 0 ∨ gen ≠ g.gen ∨ (g.agreeing = true ∧ g.committed = false) → exec (.agreqMsg msg) s = .next (u 0x22))) ∧
     (msgOk 0x23 msg = true → known 0x23 = none →
       (g.answered < gen → g.gen < gen → msg.sdev ≠ s.dev →
         let paused : Group := { g with answered := gen, agreeing := true, committed := false }
         let running := g.running.filter fun c => c.op ≠ 0 ∧ c.op ≠ 6
         let body := prefixOf g.grp g.gen ++ ((s.fab.ports.toList.map fun p => leBytes 8 p.stat.toNat).flatten) ++ leBytes 4 running.length ++ leBytes 4 0 ++ (running.map (doneRecord g.members.length)).flatten
         let ans : Msg := ⟨s.dev, msg.sdev, msg.ctx, s.fab.nextTid, clk.hub + 1, body⟩
         exec (.proposeMsg msg) s = .next (({ s with groups := [paused], clk := { clk with hub := clk.hub + 1 }, fab := { noted 0x23 (some (0x24, ans)) with nextTid := s.fab.nextTid + 1 } } : State).send 0x24 ans)) ∧
       (gen ≤ g.answered ∨ gen ≤ g.gen → exec (.proposeMsg msg) s = .next (u 0x23))) ∧
     (msgOk 0x24 msg = true → known 0x24 = none →
       (g.rank = 0 → gen = g.gen → g.agreeing = true → g.committed = false → g.proposedStamp ≤ msg.stamp → (g.answers.filter (·.1 ≠ r)).length + 1 < g.members.length → g.answers.length < g.members.length →
         let heard : Group := { g with answers := (r, msg) :: g.answers.filter (·.1 ≠ r) }
         exec (.answerMsg msg) s = .next { s with groups := [heard], clk := clk, fab := { noted 0x24 none with txs := unsent 0x23 } }) ∧
       (g.rank ≠ 0 ∨ gen ≠ g.gen ∨ g.agreeing = false ∨ g.committed = true ∨ msg.stamp < g.proposedStamp → exec (.answerMsg msg) s = .next (u 0x24))) ∧
     (msgOk 0x25 msg = true → known 0x25 = none →
       (g.gen < gen → g.colls = [] → msg.sdev ≠ s.dev →
         let n := numAt msg.body 8 2
         let table := (List.range n).map fun k => (numsOf 8 64 (msg.body.drop (16 + 512 * k))).map (BitVec.ofNat 64)
         let settled : Group := { g with gen := gen, agreeing := true, committed := true, downs := 0, table := table, trees := (deriveTrees g.members table).1 }
         let ans : Msg := ⟨s.dev, msg.sdev, msg.ctx, msg.tid, clk.hub + 1, prefixOf g.grp gen⟩
         (∀ l ∈ (deriveTrees g.members table).2, carried l) →
         exec (.commitMsg msg) s = .next (({ s with groups := [settled], clk := { clk with hub := clk.hub + 1 }, fab := noted 0x25 (some (0x26, ans)) } : State).send 0x26 ans)) ∧
       (gen ≤ g.gen → exec (.commitMsg msg) s = .next (u 0x25))) ∧
     (msgOk 0x26 msg = true → known 0x26 = none →
       (g.rank = 0 → gen = g.gen → g.gen = g.proposed → g.committed = true → r ∉ g.acks → g.acks.length + 1 < g.members.length →
         ∃ t y, exec (.cackMsg msg) s = .next t ∧ t = { s with groups := [y], clk := clk, fab := { noted 0x26 none with txs := unsent 0x25 } } ∧ y = { g with acks := y.acks } ∧
           y.acks.length = g.acks.length + 1 ∧ ∀ x, x ∈ y.acks ↔ x = r ∨ x ∈ g.acks) ∧
       (g.rank ≠ 0 ∨ gen ≠ g.gen ∨ g.gen ≠ g.proposed ∨ g.committed = false → exec (.cackMsg msg) s = .next (u 0x26))) ∧
     (msgOk 0x27 msg = true → known 0x27 = none →
       (gen = g.gen → g.agreeing = true → g.committed = true → g.trees ≠ [] → g.joined = true → g.colls = [] → g.later = [] → g.rank ≠ 0 →
         (∀ l ∈ (deriveTrees g.members g.table).2, carried l) →
         let resumed : Group := { g with agreeing := false, committed := false }
         exec (.resumeMsg msg) s = .next { u 0x27 with groups := [resumed] }) ∧
       (gen ≠ g.gen → exec (.resumeMsg msg) s = .next (u 0x27))) ∧
     (∀ k : BitVec 9,
       let waited : Prop := (∃ x ∈ g.answers, x.1 = k.toNat) ∧ (g.committed = false ∨ k.toNat ∈ g.acks)
       (g.rank = 0 → g.agreeing = true → k.toNat < g.members.length → g.proposedAt + 20000000 ≤ s.clk.ns → ¬ waited → g.running = [] →
         let lost : Group := { g with lost := true, agreeing := false, committed := false }
         exec (.memberLost msg.ctx g.grp k) s = .next { s with groups := [lost], fab := { s.fab with txs := s.fab.txs.filter fun x => !(x.own == own) } }) ∧
       (g.rank ≠ 0 ∨ g.agreeing = false ∨ g.members.length ≤ k.toNat ∨ s.clk.ns < g.proposedAt + 20000000 ∨ waited → exec (.memberLost msg.ctx g.grp k) s = .next s))) ∧
  (∀ (msg : Msg) (s : State), s.inPod = true → msg.ddev = s.dev → s.fab.loop = [] → (∀ x ∈ s.fab.heard, ¬(x.2.1 = msg.sdev ∧ x.2.2.1 = msg.tid)) →
     let clk : Clocks := { s.clk with hub := (if s.clk.hub < msg.stamp then msg.stamp else s.clk.hub) + 1 }
     let u (mt : Byte) : State := { s with clk := clk, fab := { s.fab with heard := (mt, msg.sdev, msg.tid, none) :: s.fab.heard } }
     let grp : BitVec 16 := BitVec.ofNat 16 (numAt msg.body 0 2)
     let gen : BitVec 32 := BitVec.ofNat 32 (numAt msg.body 4 4)
     let num := numAt msg.body 8 4
     let op := numAt msg.body 0x10 1 % 16
     (msgOk 0x20 msg = true → s.groups = [] →
       (op ≠ 0 → msg.sdev ≠ s.dev → exec (.matchMsg msg) s = .next ((u 0x20).sayFresh 0x21 msg.sdev msg.ctx (stopBody grp gen num 0x22))) ∧
       (op = 0 → (msg.ctx, grp) ∉ s.fab.differ → exec (.matchMsg msg) s = .next { u 0x20 with fab := { (u 0x20).fab with joins := s.fab.joins ++ [msg] } })) ∧
     (∀ g : Group, s.groups = [g] → g.ctx = msg.ctx → g.grp = grp → gen = g.gen →
       let r := g.members.findIdx (· = msg.sdev)
       (msgOk 0x20 msg = true → op ≠ 0 → op ≠ 6 →
         (g.lost = false → g.stopped = [] → (∀ x ∈ g.left, num < x.2) → g.matched < num →
           let calls := (r, num, msg) :: g.calls.filter fun x => !(x.1 == r && x.2.1 == num)
           (calls.filter (·.2.1 == g.matched + 1)).length < g.members.length →
           let called : Group := { g with calls := calls }
           exec (.matchMsg msg) s = .next { u 0x20 with groups := [called] }) ∧
         (msg.sdev ≠ s.dev → g.lost = true ∨ num ∈ g.stopped ∨ (∃ x ∈ g.left, x.2 ≤ num) →
           exec (.matchMsg msg) s = .next ((u 0x20).sayFresh 0x21 msg.sdev msg.ctx (stopBody grp gen num 0x22)))) ∧
       (∀ c : Coll, g.colls = [c] → c.fc = none → c.grp = grp → c.op ≠ 0 → c.op ≠ 6 →
         (msgOk 0x27 msg = true → g.agreeing = false ∨ g.committed = false → c.begun = false → c.skip = false → g.trees ≠ [] →
           let y : Group := { g with colls := [{ c with begun := true }] }
           exec (.resumeMsg msg) s = .next (({ u 0x27 with groups := [y] } : State).beginColl msg.ctx grp c.num).quiesce) ∧
         (∀ d : Reg, c.num = num → msgOk 0x21 msg = true → g.rank ≠ 0 → c.strand = some (s.me.id, d) → c.node = none → d ≠ 0 → s.me.run ≠ .idle → s.trc.open_ = false →
           ∃ t y, exec (.stopMsg msg) s = .next t ∧ t.groups = [y] ∧ y.running = [] ∧
             t.me.s d = statusWord (BitVec.ofNat 64 num) (BitVec.ofNat 8 (numAt msg.body 0x0C 1)) (c.marks.filter (· = 3)).length ∧ (∀ q, q ≠ d → t.me.s q = s.me.s q) ∧ t.me.pc = s.me.pc ∧
             (∀ x ∈ t.me.as.colls, ¬(x.2.1 = msg.ctx ∧ x.2.2.1 = grp ∧ x.2.2.2 = num)) ∧
             t = { u 0x21 with me := t.me, strands := t.strands, groups := t.groups, mem := s.mem.covered (c.req msg.ctx).own,
                               clk := { clk with sheepdog := (if s.clk.sheepdog.toNat < c.stamp.toNat then c.stamp else s.clk.sheepdog) + 1 } }) ∧
         (c.num = num → let k := numAt msg.body 0x0C 4
          (let off := numAt msg.body 0x10 4
           let data := (msg.body.drop 0x40).take (numAt msg.body 0x14 4)
           msgOk 0x28 msg = true → s.fab.admits = [] → (∀ x ∈ s.fab.served, ¬(x.1 = msg.sdev ∧ x.2.1 = msg.tid)) → k < c.chunks g.members.length → numAt msg.body 0x19 1 ≠ 1 →
           (c.begun = false ∨ (g.agreeing = true ∧ k ∉ c.risen ∧ k ∉ c.told ∧ ∀ p ∈ c.parts, p.chunk ≠ k)) →
           let piece : CPiece := ⟨k, r, false, off, data, (List.range data.length).filter fun i => (numAt msg.body 0x20 32).testBit (i / 256), false⟩
           let held : Coll := { c with parts := c.parts ++ [piece] }
           let y : Group := { g with colls := [held] }
           ∃ t, exec (.chunkMsg msg) s = .next t ∧ t = { s with groups := [y], clk := t.clk, fab := t.fab } ∧
             ∃ a : Msg, t.fab.served = (msg.sdev, msg.tid, a) :: s.fab.served ∧ a.ddev = msg.sdev ∧ a.tid = msg.tid ∧ a.body = List.replicate 8 0) ∧
          (msgOk 0x29 msg = true → (∃ x ∈ c.recipients g.members.length k, x ≠ r ∧ (k, x) ∉ c.written) →
           let held : Coll := { c with written := (k, r) :: c.written.filter (· ≠ (k, r)) }
           let y : Group := { g with colls := [held] }
           exec (.writtenMsg msg) s = .next { u 0x29 with groups := [y] }) ∧
          (msgOk 0x2A msg = true → g.childrenOf k g.rank = [] → g.trees ≠ [] → c.begun = true → c.rewrite = false → k < c.marks.length → c.marks.getD k 3 = 2 → k ∈ c.risen → k ∈ c.wrote →
           (∀ p ∈ c.parts, p.chunk ≠ k) → c.loose = [] → (∃ x, x < c.marks.length ∧ x ≠ k ∧ c.marks.getD x 0 ≠ 3) → bf c.sync 63 48 = 0 →
           let told : Group := { g with colls := [{ c with told := k :: c.told }] }
           let held : Coll := { c with told := k :: c.told, marks := c.marks.set k 3 }
           let y : Group := { g with colls := [held] }
           let v : State := { u 0x2A with groups := [told] }
           ∀ p m, v.find (c.req msg.ctx) (c.prog + BitVec.ofNat 64 k) .write = .spot p m → p.host = false → m.poisoned p.key = false →
             ∃ t, exec (.doneMsg msg) s = .next t ∧ ({ u 0x2A with groups := [y] } : State).sameButAccess t ∧ t.me = s.me ∧ m.Wrote t.mem p [3])))))

/-- R380, R385, R394: COLL of a descriptor that is misaligned, or that R385 refuses, completes with FC 0x01 in its register, and nothing is
issued. An accepted one, in a joined group led by another device, takes the next number of its group, is in flight at its strand, and its
MATCH goes to rank 0. Model's choices or readings on which it rests: log entries 36, 71. -/
def Obligations.CollectiveIssue : Prop :=
  ∀ (d a : Reg) (s : State), s.Clear [a] [d] →
    let s1 : State := { s with me := { s.me with lclk := s.me.lclk + 1 } }
    let r : Req := { s1.me.req (wordOf32 (.coll d a)) with scalar := false, evicts := true }
    ((s.me.s a).toNat % 64 ≠ 0 → exec (.coll d a) s = .next { s1 with me := s1.me.wentOn d (2 ^ 41) (s.me.pc + 4) }) ∧
    (∀ desc s2, (s.me.s a).toNat % 64 = 0 → s1.readSpan s1 r .read 2 (s.me.s a) 64 = .ok (desc, false) s2 →
      let c := collOfDesc desc r (some (s.me.id, d)) none s.me.cfg.nm s1.me.lclk
      c.op ≠ 0 →
      (s2.collRefused r c (BitVec.ofNat 64 (numAt desc 0x38 8)) = true → exec (.coll d a) s = .next { s2 with me := s2.me.wentOn d (2 ^ 41) (s2.me.pc + 4) }) ∧
      (∀ g : Group, s2.collRefused r c (BitVec.ofNat 64 (numAt desc 0x38 8)) = false → s2.groups = [g] → g.ctx = s.me.ctx → g.grp = c.grp → s2.me.ctx = s.me.ctx →
        g.running.length < 16 → g.lost = false → g.agreeing = false → c.op ≠ 6 → g.members.getD 0 0 ≠ s2.dev → s2.fab.loop = [] → (∀ j ∈ s2.cp.jobs, j.ctx = s.me.ctx → j.policy.en = false) →
        (∀ x ∈ g.colls, x.num ≠ g.issued + 1) →
        let areas := s2.collAreas r c g.members.length g.rank
        let mine : Coll := { c with num := g.issued + 1, areas := areas, loose := looseOf c.inplace areas }
        let y : Group := { g with issued := g.issued + 1, colls := g.colls ++ [mine] }
        let k : Strand := { s2.me with as := { s2.me.as with colls := s2.me.as.colls ++ [(d, s.me.ctx, c.grp, g.issued + 1)] } }
        exec (.coll d a) s = .next { (({ s2 with groups := [y] } : State).sayFresh 0x20 (g.members.getD 0 0) s.me.ctx
            (prefixOf c.grp g.gen ++ leBytes 4 (g.issued + 1) ++ leBytes 2 g.members.length ++ leBytes 2 0 ++ leBytes 8 c.ctl.toNat ++ leBytes 8 c.count)) with
          me := k.wentOn 0 0 (s2.me.pc + 4) }))

/-- R395 to R398: what a queue pair sends. A poll takes the doorbell's count. The next entry of the send ring goes out under the next PSN with
its data, and is in flight until it is answered; an entry of the wrong form completes with STATUS 4 and fails the context. After 100 µs
without an answer, and after the wait of an RNR NAK, everything from the PSN on is sent again, up to 7 times and RRC times. A CNP halves the
rate, which grows by 1 % of the port rate every 50 µs. Model's choices or readings on which it rests: log entries 41, 68. -/
def Obligations.RdmaSending : Prop :=
  ∀ (qp : BitVec 12) (s : State),
    let x := s.qpSide qp
    let now := s.clk.ns
    let also (s : State) (op : Byte) (p : RdmaPkt) : State :=
      { s with rdma := { s.rdma with out := (qp, op, p) :: s.rdma.out, frames := ((s.framesOf qp op p).map fun f => (bf (s.qpWord qp 0) 3 2, f)).reverse ++ s.rdma.frames } }
    (exec (.cnpReceived qp) s = .next (s.setQp { x with rate := x.rate / 2, rateAt := now })) ∧
    (x.rateAt + 50000 ≤ now → exec (.rateIncrease qp) s = .next (s.setQp { x with rate := min 1000000 (x.rate + 10000), rateAt := now })) ∧
    (now < x.rateAt + 50000 → exec (.rateIncrease qp) s = .next s) ∧
    (s.qpSt qp ≠ 1 → s.qpSt qp ≠ 2 → exec (.doorbellPoll qp) s = .next s ∧ exec (.sendRingEntry qp) s = .next s) ∧
    (s.qpSt qp = 1 ∨ s.qpSt qp = 2 → ∀ bs s', s.memRead (s.qpReq qp [0]) (s.qpWord qp 0x28) 8 .read 0x46 = .ok (bs, false) s' →
      exec (.doorbellPoll qp) s = .next (s'.setQp { s'.qpSide qp with posted := leNat bs })) ∧
    (s.qpSt qp = 1 → x.rnr.isSome = true ∨ s.qpPaused qp = true → exec (.sendRingEntry qp) s = .next s) ∧
    (s.qpSt qp = 1 → x.rnr = none → s.qpPaused qp = false →
      (∀ s', s.nextEntry qp false = .ok none s' → exec (.sendRingEntry qp) s = .next s') ∧
      (∀ e s1, s.nextEntry qp false = .ok (some e) s1 →
        (e.wrong = true ∨ 5 < e.op → let v : State := s1.setQp { s1.qpSide qp with sent := (s1.qpSide qp).sent + 1 }
          exec (.sendRingEntry qp) s = .next ((v.cqEntry qp e.report e.wrid 0 4 e.op).qpFails qp)) ∧
        (∀ c s2, e.wrong = false → e.op < 5 → s1.readSpan s1 (s1.qpReq qp [x.sent + 1, 1]) .read (spanFuel e.len) e.laddr e.len = .trap c s2 →
          let v : State := s2.setQp { s2.qpSide qp with sent := (s2.qpSide qp).sent + 1 }
          exec (.sendRingEntry qp) s = .next ((v.cqEntry qp e.report e.wrid 0 1 e.op).qpFails qp)) ∧
        (∀ bs s2, e.wrong = false → e.op ≤ 5 →
          (if e.op = 5 then bs = [] ∧ s2 = s1 else s1.readSpan s1 (s1.qpReq qp [x.sent + 1, 1]) .read (spanFuel e.len) e.laddr e.len = .ok (bs, false) s2) →
          (∀ j ∈ s2.cp.jobs, j.policy.en = false) →
          let w := s2.qpWord qp 8
          let psn := bf w 23 0
          let pkts := s2.qpPkts qp e.len
          let p : RdmaPkt := { qp := qp, psn := BitVec.ofNat 24 psn, raddr := e.raddr, rkey := e.rkey, imm := e.imm, hasImm := decide (e.op = 2 ∨ e.op = 4), ecn := false, data := bs, len := BitVec.ofNat 64 e.len }
          let f : Flight := { num := x.sent + 1, op := e.op, psn := psn, pkts := pkts, wrid := e.wrid, report := e.report, laddr := e.laddr, len := e.len, pkt := p }
          exec (.sendRingEntry qp) s = .next (also ((s2.setQpWord qp 8 (BitVec.ofNat 64 (bf w 63 24 * 2 ^ 24 + (psn + pkts) % 2 ^ 24))).setQp
            { x with sent := x.sent + 1, flight := x.flight ++ [f], sentAt := if x.flight.isEmpty then now else x.sentAt }) e.op p)))) ∧
    (∀ f, x.flight = [f] → s.qpSt qp = 1 →
      (x.rnr = none → x.sentAt + 100000 ≤ now → s.qpPaused qp = false → 0 < f.pkts → f.pkts < 2 ^ 22 → f.psn < 2 ^ 24 →
        (x.retries < 7 → exec (.rdmaRetransmitTimeout qp) s = .next (also (s.setQp { x with retries := x.retries + 1, sentAt := now }) f.op f.pkt)) ∧
        (7 ≤ x.retries → exec (.rdmaRetransmitTimeout qp) s =
          .next (((s.setQp { x with flight := [], retries := 0, rnrTries := 0 }).qpFails qp).cqEntry qp f.report f.wrid 0 3 f.op))) ∧
      (x.rnr.isSome = true ∨ now < x.sentAt + 100000 ∨ s.qpPaused qp = true → exec (.rdmaRetransmitTimeout qp) s = .next s)) ∧
    (x.rnr = none → exec (.rnrTimerExpiry qp) s = .next s) ∧
    (∀ f at_ psn, x.flight = [f] → x.rnr = some (at_, psn) →
      (now < at_ → exec (.rnrTimerExpiry qp) s = .next s) ∧
      (at_ ≤ now →
        let rrc := bf (s.qpWord qp 0) 63 61
        (rrc = 7 ∨ x.rnrTries < rrc → f.psn = psn → 0 < f.pkts → f.pkts < 2 ^ 22 → psn < 2 ^ 24 →
          exec (.rnrTimerExpiry qp) s = .next (also (s.setQp { x with rnr := none, rnrTries := x.rnrTries + 1, sentAt := now }) f.op f.pkt)) ∧
        (rrc ≠ 7 → rrc ≤ x.rnrTries → exec (.rnrTimerExpiry qp) s =
          .next (((s.setQp { x with flight := [], rnr := none, retries := 0, rnrTries := 0 }).qpFails qp).cqEntry qp f.report f.wrid 0 6 f.op))))

/-- R395, R397, R398: what a peer answers. An acknowledgement completes the requests up to its PSN with STATUS 0, a NAK of invalid request its
entry with STATUS 8 and the context fails, a NAK of sequence makes it send again, an RNR NAK makes it wait; the data of a READ is written
and the entry completes. R395, R397, R398: what a peer asks. A context that is not ready takes nothing. A request of the expected PSN acts:
SEND fills the next receive entry, or finds none and is answered RNR; RDMA WRITE and READ need the key, the permission and a range inside
the region, else they are answered with a remote access error. A later PSN is answered with a NAK of sequence that names the PSN expected,
an earlier one is acknowledged again, and an atomic is answered with a NAK of invalid request. Model's choices or readings on which it
rests: log entries 41, 68. -/
def Obligations.RdmaAnswersAndRequests : Prop :=
  (∀ (p : RdmaPkt) (s : State),
     let x := s.qpSide p.qp
     let now := s.clk.ns
     (s.qpSt p.qp ≠ 1 → ∀ i ∈ ([.rdmaAckReceived p, .rdmaReadResponse p, .rnrNakReceived p, .invalidRequestNak p, .sequenceNak p] : List Instr), exec i s = .next s) ∧
     (s.qpSt p.qp = 1 → ∀ f, x.flight = [f] → 0 < f.pkts → f.pkts < 2 ^ 22 → f.psn < 2 ^ 24 →
       (p.hasImm = false → p.ecn = false → f.op ≠ 5 → (p.psn.toNat = (f.psn + f.pkts - 1) % 2 ^ 24) → exec (.rdmaAckReceived p) s =
         .next ((s.setQp { x with flight := [], retries := 0, rnrTries := 0, sentAt := now }).cqEntry p.qp f.report f.wrid f.len 0 f.op)) ∧
       (p.psn.toNat = f.psn →
         (exec (.rnrNakReceived p) s = .next (s.setQp { x with sentAt := now, rnr := some (now + 10000 * rnrUnits p.imm.toNat, f.psn) })) ∧
         (exec (.invalidRequestNak p) s = .next (((s.setQp { x with flight := [], rnr := none, retries := 0, rnrTries := 0, sentAt := now }).qpFails p.qp).cqEntry p.qp f.report f.wrid 0 8 f.op)) ∧
         (x.retries < 7 → exec (.sequenceNak p) s =
           .next (let v : State := s.setQp { x with retries := x.retries + 1, sentAt := now }
             { v with rdma := { v.rdma with out := (p.qp, f.op, f.pkt) :: s.rdma.out, frames := ((v.framesOf p.qp f.op f.pkt).map fun y => (bf (v.qpWord p.qp 0) 3 2, y)).reverse ++ s.rdma.frames } })) ∧
         (7 ≤ x.retries → exec (.sequenceNak p) s =
           .next (((s.setQp { x with flight := [], rnr := none, retries := 0, rnrTries := 0, sentAt := now }).qpFails p.qp).cqEntry p.qp f.report f.wrid 0 3 f.op)) ∧
         (f.op = 5 → p.ecn = false →
           let v : State := s.setQp { x with sentAt := now }
           (∀ s', v.spanWrite v (v.peerReq p.qp [f.num, 2]) (spanFuel f.len) f.laddr (p.data.take f.len) = .ok () s' →
             exec (.rdmaReadResponse p) s = .next ((s'.setQp { s'.qpSide p.qp with flight := [], retries := 0, rnrTries := 0, sentAt := now }).cqEntry p.qp f.report f.wrid f.len 0 f.op)) ∧
           (∀ c s', v.spanWrite v (v.peerReq p.qp [f.num, 2]) (spanFuel f.len) f.laddr (p.data.take f.len) = .trap c s' → exec (.rdmaReadResponse p) s = .next (s'.failFlight p.qp 1)))))) ∧
  (∀ (p : RdmaPkt) (s : State),
     let saying (s : State) (psn : BitVec 24) (op : Byte) (imm : BitVec 32) (data : List Byte) : State :=
       let q : RdmaPkt := { qp := p.qp, psn := psn, raddr := 0, rkey := 0, imm := imm, hasImm := false, ecn := false, data := data, len := BitVec.ofNat 64 data.length }
       { s with rdma := { s.rdma with out := (p.qp, op, q) :: s.rdma.out, frames := ((s.framesOf p.qp op q).map fun y => (bf (s.qpWord p.qp 0) 3 2, y)).reverse ++ s.rdma.frames } }
     let answered (s : State) (op : Byte) (imm : BitVec 32) (data : List Byte) : State := saying s p.psn op imm data
     let acked (s : State) (pkts : Nat) : State := saying s (p.psn + BitVec.ofNat 24 (pkts - 1)) 0x80 0 []
     let moved (s : State) (n : Nat) : State :=
       s.setQpWord p.qp 8 (BitVec.ofNat 64 ((bf (s.qpWord p.qp 8) 55 32 + s.qpPkts p.qp n) % 2 ^ 24 * 2 ^ 32 + bf (s.qpWord p.qp 8) 31 0))
     let region (n bit : Nat) : Prop := bf (s.qpWord p.qp 0x30) 31 0 = p.rkey.toNat ∧ (s.qpWord p.qp 0x30).getLsbD bit = true ∧
       (s.qpWord p.qp 0x38).toNat ≤ p.raddr.toNat ∧ p.raddr.toNat + n ≤ (s.qpWord p.qp 0x38).toNat + (s.qpWord p.qp 0x40).toNat
     let want := bf (s.qpWord p.qp 8) 55 32
     (s.qpSt p.qp ≠ 1 → ∀ i ∈ ([.incomingSend p, .incomingRdmaWrite p, .incomingRdmaRead p, .incomingAtomicRequest p] : List Instr), exec i s = .next s) ∧
     (s.qpSt p.qp = 1 → p.ecn = false →
       (exec (.incomingAtomicRequest p) s = .next (answered s 0x82 0 [])) ∧
       (∀ k, 0 < k → k < 2 ^ 23 → p.psn.toNat = (want + k) % 2 ^ 24 → want < 2 ^ 24 →
         ∀ i ∈ ([.incomingSend p, .incomingRdmaWrite p, .incomingRdmaRead p] : List Instr), exec i s = .next (saying s (BitVec.ofNat 24 want) 0x81 0 [])) ∧
       (∀ k, 0 < k → k < 2 ^ 23 → (p.psn.toNat + k) % 2 ^ 24 = want →
         ∀ i ∈ ([.incomingSend p, .incomingRdmaWrite p] : List Instr), exec i s = .next (saying s (BitVec.ofNat 24 want - 1) 0x80 0 [])) ∧
       (p.psn.toNat = want →
         (∀ s', s.nextEntry p.qp true = .ok none s' → exec (.incomingSend p) s = .next (answered s' 0x84 (BitVec.ofNat 32 (bf (s'.qpWord p.qp 0) 60 56)) [])) ∧
         (∀ e s1, s.nextEntry p.qp true = .ok (some e) s1 →
           let used (s : State) : State := s.setQp { s.qpSide p.qp with received := (s.qpSide p.qp).received + 1 }
           (e.wrong = true → exec (.incomingSend p) s = .next (answered (((used s1).cqEntry p.qp e.report e.wrid 0 4 e.op).qpFails p.qp) 0x82 0 [])) ∧
           (e.wrong = false → e.len < p.data.length → exec (.incomingSend p) s = .next (answered (((used s1).cqEntry p.qp e.report e.wrid 0 7 e.op).qpFails p.qp) 0x82 0 [])) ∧
           (∀ s2, e.wrong = false → p.data.length ≤ e.len → s1.spanWrite s1 (s1.peerReq p.qp [p.psn.toNat, 3]) (spanFuel p.data.length) e.laddr p.data = .ok () s2 →
             bf (s2.qpWord p.qp 8) 55 32 = want →
             exec (.incomingSend p) s = .next (acked ((used (moved s2 p.data.length)).cqEntry p.qp e.report e.wrid p.data.length 0 e.op) (s2.qpPkts p.qp p.data.length)))) ∧
         (¬ region p.data.length 32 → exec (.incomingRdmaWrite p) s = .next (answered s 0x83 0 [])) ∧
         (¬ region p.len.toNat 33 → exec (.incomingRdmaRead p) s = .next (answered s 0x83 0 [])) ∧
         (∀ s2, region p.data.length 32 → s.spanWrite s (s.peerReq p.qp [p.psn.toNat, 4]) (spanFuel p.data.length) p.raddr p.data = .ok () s2 → bf (s2.qpWord p.qp 8) 55 32 = want →
           exec (.incomingRdmaWrite p) s = .next (acked (moved s2 p.data.length) (s2.qpPkts p.qp p.data.length))) ∧
         (∀ bs s2, region p.len.toNat 33 → s.readSpan s (s.peerReq p.qp [p.psn.toNat, 5]) .read (spanFuel p.len.toNat) p.raddr p.len.toNat = .ok (bs, false) s2 →
           bf (s2.qpWord p.qp 8) 55 32 = want →
           exec (.incomingRdmaRead p) s = .next (answered (moved s2 p.len.toNat) 0x85 0 bs)))))

/-- After reset no strand, launch, graph, phase or job is live, no packet was submitted or taken, memory lists nothing, no trap is due, and the
registers hold their reset values: NM and VT those of R195 and R201, counts and configurations zero. Model's choices or readings on which it
rests: log entries 1, 2, 3. -/
def Obligations.ResetState : Prop :=
  let s := State.reset
  s.me.run = .idle ∧ s.strands = [] ∧ s.cp.launches = [] ∧ s.cp.graphs = [] ∧ s.cp.phases = [] ∧ s.cp.jobs = [] ∧
  (∀ q, q < 8 → (s.queue q).head = 0 ∧ (s.queue q).tail = 0 ∧ (s.queue q).st = 0) ∧ s.mem.ram = [] ∧ s.ramOk ∧
  s.me.cfg.nm = 0x10 ∧ s.me.cfg.vt = 0x00100054 ∧ (∀ r : Reg, s.me.s r = 0) ∧ s.me.tr.tcause = 0 ∧ s.me.tr.tvec = 0 ∧
  s.mem.lines = [] ∧ s.fab.txs = [] ∧ s.groups = [] ∧ s.agenda = []

/-- R140, R152, R279, R405: when the agenda names a strand that runs, with nothing due at its boundary and no debugger at it, and its core holds
the sector of its PC, fetched at a level that admits it, the step executes the instruction that the bytes at the PC decode to. A word that
decodes to none executes as ILLEGAL. A vector turn executes the oldest entry of the queue that has not completed, once it has started at
every lane group where it has elements; an event of the agenda acts; a strand that is not there does nothing. Model's choices or readings on
which it rests: log entries 3, 4. -/
def Obligations.StepExecutesDecoded : Prop :=
  ∀ (s : State) (k : SId) (later : List Turn),
    let t : State := { s with agenda := later }
    (∀ line : ILine, s.agenda = .scalar k :: later → s.me.id = k → s.me.run = .running → t.dueFirst = none → s.dbg.rstep = none →
      s.me.pc.toNat % 4 = 0 → s.core.icache.find? (fun l => l.ctx == s.me.ctx && l.sector == s.me.pc.toNat / 256 && (s.me.sys || l.user)) = some line → line.data.length = 256 →
      (∀ i rest, decodeScalarBytes (line.data.drop (s.me.pc.toNat % 256)) = some (i, rest) → step s = exec i t) ∧
      (decodeScalarBytes (line.data.drop (s.me.pc.toNat % 256)) = none →
        step s = exec (.illegalWord (BitVec.ofNat 32 (numAt line.data (s.me.pc.toNat % 256) 4))) t)) ∧
    (∀ e : QEntry, s.agenda = .vector k :: later → s.me.id = k → s.me.run = .running → s.dbg.rstep = none → s.me.due.vec = none →
      s.me.due.halting = false → s.me.picked = none → s.me.q.find? (fun x => !x.done) = some e → e.fault = none → e.startedAll s.core = true → step s = exec e.instr t) ∧
    (∀ i, s.agenda = .event i :: later → step s = exec i t) ∧
    (s.me.id ≠ k → (∀ x ∈ s.strands, x.id ≠ k) → s.agenda = .scalar k :: later ∨ s.agenda = .vector k :: later → step s = .next t)

/-- R84 to R115: words that the spec writes out decode to the instructions that they stand for. -/
def Obligations.DecodedWords : Prop :=
  decodeTableWord 32 0x04310500 = some (.add 3 4 5) ∧ decodeTableWord 32 0x05341402 = some (.and 19 16 20) ∧ decodeTableWord 32 0x1820E011 = some (.shai 2 3 17) ∧
  decodeTableWord 32 0x98308010 = some (.ldd 3 2 16) ∧ decodeTableWord 32 0xB851874E = some (.aadd 5 6 7 4 3 true) ∧ decodeTableWord 32 0xDC000046 = some (.fence 4 6) ∧
  decodeTableWord 32 0xF0700000 = some (.sysr 7 0) ∧ decodeTableWord 32 0x680FC000 = some (.jalr 0 63 0) ∧ decodeTableWord 32 0xE8418004 = some (.cwait 4 6 0) ∧
  decodeTableWord 32 0xF4014001 = some (.trap 5) ∧ decodeTableWord 32 0xE0310501 = some (.vdecl 3 4 5) ∧
  (let plain : VArgs := ⟨false, 0, 0, 0, 0, 0, false, .vec, 0⟩
   decodeTableWord 64 0x0818124000400000 = some (.vadd { plain with d := 6, a := 1, b := 9, k := .scalarB }) ∧
   decodeTableWord 64 0x8B10108316000000 = some (.vfma { plain with cr := true, d := 4, a := 1, b := 2, c := 3, p := 5, z := true }) ∧
   decodeTableWord 64 0x200C80000140C0FF = some (.mmac { plain with d := 3, a := 8, k := .accD, imm := 0xFF }))

/-- R84 to R115: decoding the word of a well-formed instruction gives the instruction back, with every operand at every value the encoding
admits, and what follows it in memory untouched; every instruction of the scalar stream and of vector blocks has a word, of its own width. -/
def Obligations.DecodeOfEncode : Prop :=
  ∀ i : Instr, i.wf = true →
    (∀ w, encode32 i = some w → decodeScalar w = some i ∧ encode i = bytes32 w ∧ ∀ rest, decodeScalarBytes (encode i ++ rest) = some (i, rest)) ∧
    (∀ w, encode64 i = some w → decodeVector w = some i ∧ encode32 i = none ∧ ∀ rest, decodeVectorBytes (encode i ++ rest) = some (i, rest))

/-- R84 to R115: a word that decodes to an instruction is the word of that instruction, so that no two words mean one instruction and no bit of
a word is ignored. -/
def Obligations.EncodeOfDecode : Prop :=
  (∀ (w : BitVec 32) (i : Instr), decodeScalar w = some i → encode32 i = some w ∧ i.wf = true) ∧
  (∀ (w : BitVec 64) (i : Instr), decodeVector w = some i → encode64 i = some w ∧ i.wf = true)

/-- The model's canonical form of memory (log entry 1): the scalar loads, stores, atomics and fences keep it whatever they meet, be it an
access, a trap, a wait or a full log. Model's choices or readings on which it rests: log entry 1. -/
def Obligations.MemoryStaysCanonical : Prop :=
  ∀ (i : Instr) (s t : State), s.ramOk → (∀ code, s.MayEnter code) →
    (∃ (d a b : Reg) (imm off : BitVec 14) (sc mask : BitVec 4) (ord : BitVec 2) (dw : Bool),
      i ∈ ([.ldb d a imm, .ldbu d a imm, .ldh d a imm, .ldhu d a imm, .ldw d a imm, .ldwu d a imm, .ldd d a imm, .stb a b off, .sth a b off, .stw a b off, .std a b off,
        .lda d a sc ord dw, .str a b sc ord dw, .swap d a b sc ord dw, .aadd d a b sc ord dw, .aand d a b sc ord dw, .aor d a b sc ord dw, .axor d a b sc ord dw,
        .amin d a b sc ord dw, .amax d a b sc ord dw, .aminu d a b sc ord dw, .amaxu d a b sc ord dw, .cas d a b sc ord dw, .fence sc mask] : List Instr)) →
    exec i s = .next t → t.ramOk

end
end

