-- ==== Sys2Proof/Laws/Bytes.lean ====
section
/-! SUPPORT. Little-endian numbers and byte maps: what a write leaves at every address, and that every operation keeps the canonical
form (R2, R306). -/

namespace Sys2Proof.Machine

set_option Elab.async false

/-! ### Places of a vector -/

/-- A place of a vector after one is replaced. -/
theorem vget_vset {α : Type} {n : Nat} (v : Vector α n) (i j : Nat) (x d : α) : vget (vset v i x) j d = if i = j ∧ j < n then x else vget v j d := by
  unfold vget vset
  rw [Vector.getElem?_setIfInBounds]
  by_cases h : i = j
  · subst h
    by_cases g : i < n
    · rw [if_pos rfl, if_pos g, if_pos ⟨rfl, g⟩]; rfl
    · rw [if_pos rfl, if_neg g, if_neg (fun k => g k.2), Vector.getElem?_eq_none (by omega)]
  · rw [if_neg h, if_neg (fun k => h k.1)]

/-! ### Little-endian numbers -/

@[simp] theorem leBytes_length (n x : Nat) : (leBytes n x).length = n := by
  induction n generalizing x with
  | zero => rfl
  | succ n ih => simp [leBytes, ih]

/-- The number that n bytes of x hold. -/
theorem leNat_leBytes (n x : Nat) : leNat (leBytes n x) = x % 256 ^ n := by
  induction n generalizing x with
  | zero => simp [leBytes, leNat, Nat.mod_one]
  | succ n ih => rw [leBytes, leNat, ih, Nat.pow_succ', Nat.mod_mul, BitVec.toNat_ofNat]

theorem leNat_lt (bs : List Byte) : leNat bs < 256 ^ bs.length := by
  induction bs with
  | nil => simp [leNat]
  | cons b t ih =>
    have := b.isLt
    simp only [leNat, List.length_cons, Nat.pow_succ']
    omega

/-- Bytes are those of the number that they hold. -/
theorem leBytes_leNat (bs : List Byte) : leBytes bs.length (leNat bs) = bs := by
  induction bs with
  | nil => rfl
  | cons b t ih =>
    have h := b.isLt
    simp only [List.length_cons, leBytes, leNat]
    rw [show (b.toNat + 256 * leNat t) / 256 = leNat t by omega, ih]
    congr 1
    apply BitVec.eq_of_toNat_eq
    rw [BitVec.toNat_ofNat]
    omega

/-! ### One byte -/

@[simp] theorem Mem.get_nil (a : Nat) : Mem.get [] a = 0 := rfl
theorem Mem.get_cons (c : Host.Cell) (t : Mem) (a : Nat) : Mem.get (c :: t) a = if c.1 = a then c.2 else Mem.get t a := rfl

theorem Mem.get_filter (m : Mem) (a x : Nat) : Mem.get (m.filter fun c => decide (c.1 ≠ a)) x = if x = a then 0 else m.get x := by
  induction m with
  | nil => simp [Mem.get]
  | cons c t ih =>
    by_cases h : c.1 = a
    · rw [List.filter_cons_of_neg (by simp [h]), ih, Mem.get]
      by_cases e : x = a
      · rw [if_pos e, if_pos e]
      · rw [if_neg e, if_neg e, if_neg (fun k => e (k.symm.trans h))]
    · rw [List.filter_cons_of_pos (by simp [h]), Mem.get, Mem.get, ih]
      by_cases e : c.1 = x
      · rw [if_pos e, if_pos e, if_neg (fun k => h (e.trans k))]
      · rw [if_neg e, if_neg e]

theorem Mem.get_put (m : Mem) (a x : Nat) (b : Byte) : Mem.get (m.put a b) x = if x = a then b else m.get x := by
  induction m with
  | nil => simp [Mem.put, Mem.get, eq_comm]
  | cons c t ih =>
    unfold Mem.put
    split
    · simp only [Mem.get, eq_comm]
    · split
      · next h => subst h; simp only [Mem.get, eq_comm]; split <;> rfl
      · next h =>
        simp only [Mem.get, ih]
        split
        · next e => rw [if_neg (fun k => h (k.symm.trans e.symm))]
        · rfl

/-- Any byte after a write of one. -/
theorem Mem.get_set (m : Mem) (a x : Nat) (b : Byte) : (m.set a b).get x = if x = a then b else m.get x := by
  unfold Mem.set
  split
  · next h => rw [Mem.get_filter, h]
  · exact Mem.get_put m a x b

/-! ### Several bytes -/

/-- Any byte after a write of several. -/
theorem Mem.get_write (m : Mem) (a x : Nat) (bs : List Byte) :
    (m.write a bs).get x = if a ≤ x ∧ x < a + bs.length then bs.getD (x - a) 0 else m.get x := by
  induction bs generalizing m a with
  | nil => rw [if_neg (by rintro ⟨h, h'⟩; simp at h'; omega)]; rfl
  | cons b t ih =>
    rw [Mem.write, ih, Mem.get_set]
    by_cases h : x = a
    · subst h
      rw [if_neg (by omega), if_pos rfl, if_pos ⟨by omega, by simp⟩, Nat.sub_self]; rfl
    · by_cases g : a + 1 ≤ x ∧ x < a + 1 + t.length
      · rw [if_pos g, if_pos ⟨by omega, by simp; omega⟩, show x - a = (x - (a + 1)) + 1 by omega]; rfl
      · rw [if_neg g, if_neg h, if_neg (by simp; omega)]

theorem Mem.get_write_outside (m : Mem) (a x : Nat) (bs : List Byte) (h : x < a ∨ a + bs.length ≤ x) : (m.write a bs).get x = m.get x := by
  rw [Mem.get_write, if_neg (by omega)]

@[simp] theorem Mem.read_length (m : Mem) (a n : Nat) : (m.read a n).length = n := by
  induction n generalizing a with
  | zero => rfl
  | succ n ih => simp [Mem.read, ih]

theorem Mem.read_congr (m m' : Mem) (a n : Nat) (h : ∀ x, a ≤ x → x < a + n → m.get x = m'.get x) : m.read a n = m'.read a n := by
  induction n generalizing a with
  | zero => rfl
  | succ n ih => rw [Mem.read, Mem.read, h a (by omega) (by omega), ih (a + 1) fun x _ _ => h x (by omega) (by omega)]

/-- Bytes just written read back. -/
theorem Mem.read_write (m : Mem) (a : Nat) (bs : List Byte) : (m.write a bs).read a bs.length = bs := by
  induction bs generalizing m a with
  | nil => rfl
  | cons b t ih =>
    rw [List.length_cons, Mem.read, Mem.write, ih, Mem.get_write, if_neg (by omega), Mem.get_set, if_pos rfl]

/-- Bytes apart from those written read as before. -/
theorem Mem.read_write_apart (m : Mem) (a x n : Nat) (bs : List Byte) (h : x + n ≤ a ∨ a + bs.length ≤ x) : (m.write a bs).read x n = m.read x n :=
  Mem.read_congr _ _ _ _ fun _ _ _ => Mem.get_write_outside _ _ _ _ (by omega)

/-- A number just written reads back. -/
theorem Mem.num_write (m : Mem) (a n x : Nat) : (m.write a (leBytes n x)).num a n = x % 256 ^ n := by
  have := Mem.read_write m a (leBytes n x)
  rw [leBytes_length] at this
  rw [Mem.num, this, leNat_leBytes]

theorem Mem.num_write_apart (m : Mem) (a x n k y : Nat) (h : x + k ≤ a ∨ a + n ≤ x) : (m.write a (leBytes n y)).num x k = m.num x k := by
  rw [Mem.num, Mem.num, Mem.read_write_apart _ _ _ _ _ (by simpa using h)]

/-! ### The canonical form -/

theorem Mem.wf_cons (c : Host.Cell) (m : Mem) : Mem.wf (c :: m) = true ↔ c.2 ≠ 0 ∧ Mem.wf m = true ∧ ∀ d ∈ m, c.1 < d.1 := by
  induction m generalizing c with
  | nil => simp [Mem.wf]
  | cons d t ih =>
    have hd := ih d
    rw [show Mem.wf (c :: d :: t) = (c.2 != 0 && decide (c.1 < d.1) && Mem.wf (d :: t)) from rfl]
    simp only [Bool.and_eq_true, bne_iff_ne, decide_eq_true_eq, List.mem_cons]
    constructor
    · rintro ⟨⟨h1, h2⟩, h3⟩
      refine ⟨h1, h3, fun x hx => ?_⟩
      rcases hx with rfl | hx
      · exact h2
      · exact Nat.lt_trans h2 ((hd.1 h3).2.2 x hx)
    · rintro ⟨h1, h2, h3⟩
      exact ⟨⟨h1, h3 d (.inl rfl)⟩, h2⟩

theorem Mem.wf_filter (m : Mem) (p : Host.Cell → Bool) (h : m.wf = true) : Mem.wf (m.filter p) = true := by
  induction m with
  | nil => rfl
  | cons c t ih =>
    rw [Mem.wf_cons] at h
    by_cases hp : p c = true
    · rw [List.filter_cons_of_pos hp, Mem.wf_cons]
      exact ⟨h.1, ih h.2.1, fun d hd => h.2.2 d (List.mem_filter.1 hd).1⟩
    · rw [List.filter_cons_of_neg hp]
      exact ih h.2.1

theorem Mem.mem_put (m : Mem) (a : Nat) (b : Byte) (d : Host.Cell) (h : d ∈ m.put a b) : d = (a, b) ∨ d ∈ m := by
  induction m with
  | nil => simpa [Mem.put] using h
  | cons c t ih =>
    unfold Mem.put at h
    split at h
    · simpa using h
    · split at h
      · simp only [List.mem_cons] at h ⊢
        rcases h with h | h
        · exact .inl h
        · exact .inr (.inr h)
      · simp only [List.mem_cons] at h ⊢
        rcases h with h | h
        · exact .inr (.inl h)
        · rcases ih h with h | h
          · exact .inl h
          · exact .inr (.inr h)

theorem Mem.wf_put (m : Mem) (a : Nat) (b : Byte) (hb : b ≠ 0) (h : m.wf = true) : (m.put a b).wf = true := by
  induction m with
  | nil => simpa [Mem.put, Mem.wf] using hb
  | cons c t ih =>
    have hc := (Mem.wf_cons c t).1 h
    unfold Mem.put
    split
    · next ha =>
      rw [Mem.wf_cons]
      refine ⟨hb, h, fun d hd => ?_⟩
      rcases List.mem_cons.1 hd with rfl | hd
      · exact ha
      · exact Nat.lt_trans ha (hc.2.2 d hd)
    · split
      · next ha =>
        rw [Mem.wf_cons]
        exact ⟨hb, hc.2.1, fun d hd => ha ▸ hc.2.2 d hd⟩
      · next h1 h2 =>
        rw [Mem.wf_cons]
        refine ⟨hc.1, ih hc.2.1, fun d hd => ?_⟩
        rcases Mem.mem_put t a b d hd with rfl | hd
        · show c.1 < a
          omega
        · exact hc.2.2 d hd

/-- Writing a byte keeps the canonical form. -/
theorem Mem.wf_set (m : Mem) (a : Nat) (b : Byte) (h : m.wf = true) : (m.set a b).wf = true := by
  unfold Mem.set
  split
  · exact Mem.wf_filter m _ h
  · next hb => exact Mem.wf_put m a b hb h

/-- Writing bytes keeps the canonical form. -/
theorem Mem.wf_write (m : Mem) (a : Nat) (bs : List Byte) (h : m.wf = true) : (m.write a bs).wf = true := by
  induction bs generalizing m a with
  | nil => exact h
  | cons b t ih => exact ih _ _ (Mem.wf_set m a b h)

/-- Clearing a range keeps the canonical form. -/
theorem Mem.wf_clear (m : Mem) (a n : Nat) (h : m.wf = true) : (m.clear a n).wf = true := Mem.wf_filter m _ h

theorem Mem.ofBytes_ge (a : Nat) (bs : List Byte) (d : Host.Cell) (h : d ∈ Mem.ofBytes a bs) : a ≤ d.1 := by
  induction bs generalizing a with
  | nil => simp [Mem.ofBytes] at h
  | cons b t ih =>
    unfold Mem.ofBytes at h
    split at h
    · exact Nat.le_of_succ_le (ih _ h)
    · rcases List.mem_cons.1 h with rfl | h
      · exact Nat.le_refl a
      · exact Nat.le_of_succ_le (ih _ h)

/-- The byte map of a list of bytes is canonical. -/
theorem Mem.wf_ofBytes (a : Nat) (bs : List Byte) : (Mem.ofBytes a bs).wf = true := by
  induction bs generalizing a with
  | nil => rfl
  | cons b t ih =>
    unfold Mem.ofBytes
    split
    · exact ih _
    · next hb =>
      rw [Mem.wf_cons]
      exact ⟨hb, ih _, fun d hd => Mem.ofBytes_ge _ _ d hd⟩

theorem Mem.wf_shift (m : Mem) (a b : Nat) (h : m.wf = true) (ge : ∀ c ∈ m, a ≤ c.1) : Mem.wf (m.map fun c => (c.1 - a + b, c.2)) = true := by
  induction m with
  | nil => rfl
  | cons c t ih =>
    rw [Mem.wf_cons] at h
    rw [List.map_cons, Mem.wf_cons]
    refine ⟨h.1, ih h.2.1 fun d hd => ge d (List.mem_cons_of_mem _ hd), fun d hd => ?_⟩
    obtain ⟨e, he, rfl⟩ := List.mem_map.1 hd
    have := h.2.2 e he
    have := ge c List.mem_cons_self
    show c.1 - a + b < e.1 - a + b
    omega

/-- A slice of a canonical map, moved, is canonical. -/
theorem Mem.wf_slice (m : Mem) (a n b : Nat) (h : m.wf = true) : (m.slice a n b).wf = true :=
  Mem.wf_shift _ _ _ (Mem.wf_filter m _ h) fun c hc => by
    have := (List.mem_filter.1 hc).2
    simp only [decide_eq_true_eq] at this
    exact this.1

theorem Mem.get_above (m : Mem) (a : Nat) (h : ∀ c ∈ m, a < c.1) : m.get a = 0 := by
  induction m with
  | nil => rfl
  | cons c t ih =>
    have := h c List.mem_cons_self
    rw [Mem.get_cons, if_neg (by omega), ih fun d hd => h d (List.mem_cons_of_mem _ hd)]

/-- Canonical maps that read alike are the same data. -/
theorem Mem.ext (m m' : Mem) (h : m.wf = true) (h' : m'.wf = true) (e : ∀ a, m.get a = m'.get a) : m = m' := by
  induction m generalizing m' with
  | nil =>
    cases m' with
    | nil => rfl
    | cons d t =>
      have hd := (Mem.wf_cons d t).1 h'
      have := e d.1
      rw [Mem.get_nil, Mem.get_cons, if_pos rfl] at this
      exact absurd this.symm hd.1
  | cons c t ih =>
    have hc := (Mem.wf_cons c t).1 h
    cases m' with
    | nil =>
      have := e c.1
      rw [Mem.get_nil, Mem.get_cons, if_pos rfl] at this
      exact absurd this hc.1
    | cons d u =>
      have hd := (Mem.wf_cons d u).1 h'
      have first : c.1 = d.1 := by
        rcases Nat.lt_trichotomy c.1 d.1 with l | l | l
        · have := e c.1
          rw [Mem.get_cons, if_pos rfl, Mem.get_cons, if_neg (by omega), Mem.get_above u c.1 fun x hx => Nat.lt_trans l (hd.2.2 x hx)] at this
          exact absurd this hc.1
        · exact l
        · have := e d.1
          rw [Mem.get_cons, if_neg (by omega), Mem.get_above t d.1 fun x hx => Nat.lt_trans l (hc.2.2 x hx), Mem.get_cons, if_pos rfl] at this
          exact absurd this.symm hd.1
      have val : c.2 = d.2 := by
        have := e c.1
        rwa [Mem.get_cons, if_pos rfl, Mem.get_cons, if_pos first.symm] at this
      have rest : t = u := ih u hc.2.1 hd.2.1 fun a => by
        have := e a
        rw [Mem.get_cons, Mem.get_cons] at this
        by_cases k : c.1 = a
        · rw [Mem.get_above t a fun x hx => k ▸ hc.2.2 x hx, Mem.get_above u a fun x hx => k ▸ first ▸ hd.2.2 x hx]
        · rwa [if_neg k, if_neg (fun q => k (first.trans q))] at this
      rw [rest, Prod.ext first val]

/-- Reset's memory is canonical. -/
theorem Mem.reset_wf : State.reset.mem.ram.wf = true := rfl

end Sys2Proof.Machine
end

