-- ==== Sys2Proof/Laws/State.lean ====
section
/-! SUPPORT. What every update of the state and of the strand leaves of each field, and a strand's registers after a write (R86). -/

namespace Sys2Proof.Machine

set_option Elab.async false

/-! ### `State.setMe`: only the strand changes -/

@[simp] theorem State.setMe_me (s : State) (f : Strand → Strand) : (s.setMe f).me = f s.me := rfl
@[simp] theorem State.setMe_crew (s : State) (f : Strand → Strand) : (s.setMe f).crew = s.crew := rfl
@[simp] theorem State.setMe_core (s : State) (f : Strand → Strand) : (s.setMe f).core = s.core := rfl
@[simp] theorem State.setMe_strands (s : State) (f : Strand → Strand) : (s.setMe f).strands = s.strands := rfl
@[simp] theorem State.setMe_crews (s : State) (f : Strand → Strand) : (s.setMe f).crews = s.crews := rfl
@[simp] theorem State.setMe_cores (s : State) (f : Strand → Strand) : (s.setMe f).cores = s.cores := rfl
@[simp] theorem State.setMe_mem (s : State) (f : Strand → Strand) : (s.setMe f).mem = s.mem := rfl
@[simp] theorem State.setMe_cp (s : State) (f : Strand → Strand) : (s.setMe f).cp = s.cp := rfl
@[simp] theorem State.setMe_owner (s : State) (f : Strand → Strand) : (s.setMe f).owner = s.owner := rfl
@[simp] theorem State.setMe_links (s : State) (f : Strand → Strand) : (s.setMe f).links = s.links := rfl
@[simp] theorem State.setMe_i3c (s : State) (f : Strand → Strand) : (s.setMe f).i3c = s.i3c := rfl
@[simp] theorem State.setMe_fab (s : State) (f : Strand → Strand) : (s.setMe f).fab = s.fab := rfl
@[simp] theorem State.setMe_groups (s : State) (f : Strand → Strand) : (s.setMe f).groups = s.groups := rfl
@[simp] theorem State.setMe_rdma (s : State) (f : Strand → Strand) : (s.setMe f).rdma = s.rdma := rfl
@[simp] theorem State.setMe_dbg (s : State) (f : Strand → Strand) : (s.setMe f).dbg = s.dbg := rfl
@[simp] theorem State.setMe_trc (s : State) (f : Strand → Strand) : (s.setMe f).trc = s.trc := rfl
@[simp] theorem State.setMe_house (s : State) (f : Strand → Strand) : (s.setMe f).house = s.house := rfl
@[simp] theorem State.setMe_clk (s : State) (f : Strand → Strand) : (s.setMe f).clk = s.clk := rfl
@[simp] theorem State.setMe_agenda (s : State) (f : Strand → Strand) : (s.setMe f).agenda = s.agenda := rfl
@[simp] theorem State.setMe_free (s : State) (f : Strand → Strand) : (s.setMe f).free = s.free := rfl
@[simp] theorem State.setMe_s (s : State) (f : Strand → Strand) (r : Reg) : (s.setMe f).s r = (f s.me).s r := rfl
@[simp] theorem State.setMe_setMe (s : State) (f g : Strand → Strand) : (s.setMe f).setMe g = s.setMe fun k => g (f k) := rfl

/-! ### Named updates of the strand as `State.setMe` -/

@[simp] theorem State.w_eq (s : State) (r : Reg) (x : Word) : s.w r x = s.setMe (·.w r x) := rfl
@[simp] theorem State.setPc_eq (s : State) (pc : Word) : s.setPc pc = s.setMe fun k => { k with pc := pc } := rfl
@[simp] theorem State.tick_eq (s : State) : s.tick = s.setMe fun k => { k with lclk := k.lclk + 1 } := rfl
@[simp] theorem State.hear_eq (s : State) (t : Word) : s.hear t = s.setMe fun k => { k with lclk := maxW k.lclk t + 1 } := rfl
@[simp] theorem State.goto_eq (s : State) (pc : Word) :
    s.goto pc = s.setMe fun k => { k.unwait with pc := pc, icnt := min (2 ^ 32 - 1) (k.icnt + 1) } := rfl
@[simp] theorem State.advance_eq (s : State) :
    s.advance = s.setMe fun k => { k.unwait with pc := s.me.pc + 4, icnt := min (2 ^ 32 - 1) (k.icnt + 1) } := rfl
@[simp] theorem State.finish_eq (s : State) (d : Reg) (x : Word) : s.finish d x = (s.w d x).advance := rfl
@[simp] theorem State.setEntry_eq (s : State) (n : Nat) (e : QEntry) : s.setEntry n e = s.setMe fun k => { k with q := k.q.set n e } := rfl

/-! ### `Strand.unwait`: only the waits change -/

@[simp] theorem Strand.unwait_id (k : Strand) : k.unwait.id = k.id := rfl
@[simp] theorem Strand.unwait_ctx (k : Strand) : k.unwait.ctx = k.ctx := rfl
@[simp] theorem Strand.unwait_run (k : Strand) : k.unwait.run = k.run := rfl
@[simp] theorem Strand.unwait_core (k : Strand) : k.unwait.core = k.core := rfl
@[simp] theorem Strand.unwait_slot (k : Strand) : k.unwait.slot = k.slot := rfl
@[simp] theorem Strand.unwait_pc (k : Strand) : k.unwait.pc = k.pc := rfl
@[simp] theorem Strand.unwait_regs (k : Strand) : k.unwait.regs = k.regs := rfl
@[simp] theorem Strand.unwait_sys (k : Strand) : k.unwait.sys = k.sys := rfl
@[simp] theorem Strand.unwait_tr (k : Strand) : k.unwait.tr = k.tr := rfl
@[simp] theorem Strand.unwait_cfg (k : Strand) : k.unwait.cfg = k.cfg := rfl
@[simp] theorem Strand.unwait_vs (k : Strand) : k.unwait.vs = k.vs := rfl
@[simp] theorem Strand.unwait_lclk (k : Strand) : k.unwait.lclk = k.lclk := rfl
@[simp] theorem Strand.unwait_tlc (k : Strand) : k.unwait.tlc = k.tlc := rfl
@[simp] theorem Strand.unwait_event (k : Strand) : k.unwait.event = k.event := rfl
@[simp] theorem Strand.unwait_icnt (k : Strand) : k.unwait.icnt = k.icnt := rfl
@[simp] theorem Strand.unwait_q (k : Strand) : k.unwait.q = k.q := rfl
@[simp] theorem Strand.unwait_win (k : Strand) : k.unwait.win = k.win := rfl
@[simp] theorem Strand.unwait_picked (k : Strand) : k.unwait.picked = k.picked := rfl
@[simp] theorem Strand.unwait_fetches (k : Strand) : k.unwait.fetches = k.fetches := rfl
@[simp] theorem Strand.unwait_traced (k : Strand) : k.unwait.traced = k.traced := rfl
@[simp] theorem Strand.unwait_replay (k : Strand) : k.unwait.replay = k.replay := rfl
@[simp] theorem Strand.unwait_as (k : Strand) : k.unwait.as = k.as := rfl
@[simp] theorem Strand.unwait_due (k : Strand) : k.unwait.due = k.due := rfl
@[simp] theorem Strand.unwait_alloc (k : Strand) : k.unwait.alloc = k.alloc := rfl
@[simp] theorem Strand.unwait_kept (k : Strand) : k.unwait.kept = k.kept := rfl
@[simp] theorem Strand.unwait_spoiled (k : Strand) : k.unwait.spoiled = k.spoiled := rfl
@[simp] theorem Strand.unwait_startWin (k : Strand) : k.unwait.startWin = k.startWin := rfl
@[simp] theorem Strand.unwait_ckpt (k : Strand) : k.unwait.ckpt = k.ckpt := rfl
@[simp] theorem Strand.unwait_ckpts (k : Strand) : k.unwait.ckpts = k.ckpts := rfl
@[simp] theorem Strand.unwait_wfeSince (k : Strand) : k.unwait.wfeSince = none := rfl
@[simp] theorem Strand.unwait_qwait (k : Strand) : k.unwait.qwait = none := rfl
@[simp] theorem Strand.unwait_tlWait (k : Strand) : k.unwait.tlWait = none := rfl
@[simp] theorem Strand.unwait_hostOrd (k : Strand) : k.unwait.hostOrd = k.hostOrd := rfl
@[simp] theorem Strand.unwait_yieldUntil (k : Strand) : k.unwait.yieldUntil = k.yieldUntil := rfl

/-! ### `Strand.w`: only the registers and what hangs on one change -/

@[simp] theorem Strand.w_id (k : Strand) (r : Reg) (x : Word) : (k.w r x).id = k.id := by unfold Strand.w; split <;> rfl
@[simp] theorem Strand.w_ctx (k : Strand) (r : Reg) (x : Word) : (k.w r x).ctx = k.ctx := by unfold Strand.w; split <;> rfl
@[simp] theorem Strand.w_run (k : Strand) (r : Reg) (x : Word) : (k.w r x).run = k.run := by unfold Strand.w; split <;> rfl
@[simp] theorem Strand.w_core (k : Strand) (r : Reg) (x : Word) : (k.w r x).core = k.core := by unfold Strand.w; split <;> rfl
@[simp] theorem Strand.w_slot (k : Strand) (r : Reg) (x : Word) : (k.w r x).slot = k.slot := by unfold Strand.w; split <;> rfl
@[simp] theorem Strand.w_pc (k : Strand) (r : Reg) (x : Word) : (k.w r x).pc = k.pc := by unfold Strand.w; split <;> rfl
@[simp] theorem Strand.w_sys (k : Strand) (r : Reg) (x : Word) : (k.w r x).sys = k.sys := by unfold Strand.w; split <;> rfl
@[simp] theorem Strand.w_tr (k : Strand) (r : Reg) (x : Word) : (k.w r x).tr = k.tr := by unfold Strand.w; split <;> rfl
@[simp] theorem Strand.w_cfg (k : Strand) (r : Reg) (x : Word) : (k.w r x).cfg = k.cfg := by unfold Strand.w; split <;> rfl
@[simp] theorem Strand.w_vs (k : Strand) (r : Reg) (x : Word) : (k.w r x).vs = k.vs := by unfold Strand.w; split <;> rfl
@[simp] theorem Strand.w_lclk (k : Strand) (r : Reg) (x : Word) : (k.w r x).lclk = k.lclk := by unfold Strand.w; split <;> rfl
@[simp] theorem Strand.w_tlc (k : Strand) (r : Reg) (x : Word) : (k.w r x).tlc = k.tlc := by unfold Strand.w; split <;> rfl
@[simp] theorem Strand.w_event (k : Strand) (r : Reg) (x : Word) : (k.w r x).event = k.event := by unfold Strand.w; split <;> rfl
@[simp] theorem Strand.w_icnt (k : Strand) (r : Reg) (x : Word) : (k.w r x).icnt = k.icnt := by unfold Strand.w; split <;> rfl
@[simp] theorem Strand.w_q (k : Strand) (r : Reg) (x : Word) : (k.w r x).q = k.q := by unfold Strand.w; split <;> rfl
@[simp] theorem Strand.w_win (k : Strand) (r : Reg) (x : Word) : (k.w r x).win = k.win := by unfold Strand.w; split <;> rfl
@[simp] theorem Strand.w_picked (k : Strand) (r : Reg) (x : Word) : (k.w r x).picked = k.picked := by unfold Strand.w; split <;> rfl
@[simp] theorem Strand.w_fetches (k : Strand) (r : Reg) (x : Word) : (k.w r x).fetches = k.fetches := by unfold Strand.w; split <;> rfl
@[simp] theorem Strand.w_traced (k : Strand) (r : Reg) (x : Word) : (k.w r x).traced = k.traced := by unfold Strand.w; split <;> rfl
@[simp] theorem Strand.w_replay (k : Strand) (r : Reg) (x : Word) : (k.w r x).replay = k.replay := by unfold Strand.w; split <;> rfl
@[simp] theorem Strand.w_due (k : Strand) (r : Reg) (x : Word) : (k.w r x).due = k.due := by unfold Strand.w; split <;> rfl
@[simp] theorem Strand.w_alloc (k : Strand) (r : Reg) (x : Word) : (k.w r x).alloc = k.alloc := by unfold Strand.w; split <;> rfl
@[simp] theorem Strand.w_kept (k : Strand) (r : Reg) (x : Word) : (k.w r x).kept = k.kept := by unfold Strand.w; split <;> rfl
@[simp] theorem Strand.w_startWin (k : Strand) (r : Reg) (x : Word) : (k.w r x).startWin = k.startWin := by unfold Strand.w; split <;> rfl
@[simp] theorem Strand.w_ckpt (k : Strand) (r : Reg) (x : Word) : (k.w r x).ckpt = k.ckpt := by unfold Strand.w; split <;> rfl
@[simp] theorem Strand.w_ckpts (k : Strand) (r : Reg) (x : Word) : (k.w r x).ckpts = k.ckpts := by unfold Strand.w; split <;> rfl
@[simp] theorem Strand.w_wfeSince (k : Strand) (r : Reg) (x : Word) : (k.w r x).wfeSince = k.wfeSince := by unfold Strand.w; split <;> rfl
@[simp] theorem Strand.w_qwait (k : Strand) (r : Reg) (x : Word) : (k.w r x).qwait = k.qwait := by unfold Strand.w; split <;> rfl
@[simp] theorem Strand.w_tlWait (k : Strand) (r : Reg) (x : Word) : (k.w r x).tlWait = k.tlWait := by unfold Strand.w; split <;> rfl
@[simp] theorem Strand.w_hostOrd (k : Strand) (r : Reg) (x : Word) : (k.w r x).hostOrd = k.hostOrd := by unfold Strand.w; split <;> rfl
@[simp] theorem Strand.w_yieldUntil (k : Strand) (r : Reg) (x : Word) : (k.w r x).yieldUntil = k.yieldUntil := by unfold Strand.w; split <;> rfl

/-- A write to s0 does nothing (R86). -/
@[simp] theorem Strand.w_zero (k : Strand) (x : Word) : k.w 0 x = k := rfl

/-- s0 reads 0 (R86). -/
@[simp] theorem Strand.s_zero (k : Strand) : k.s 0 = 0 := rfl

/-- A register after a write: the written one holds the value unless it is s0, every other one what it held (R86). -/
theorem Strand.s_w (k : Strand) (d r : Reg) (x : Word) : (k.w d x).s r = if r = d ∧ d ≠ 0 then x else k.s r := by
  unfold Strand.w Strand.s
  by_cases hd : d = 0
  · rw [if_pos hd, if_neg (c := r = d ∧ d ≠ 0) (fun h => h.2 hd)]
  · rw [if_neg hd]
    by_cases hr : r = 0
    · rw [if_pos hr, if_pos hr, if_neg (c := r = d ∧ d ≠ 0) (fun h => hd (h.1.symm.trans hr))]
    · rw [if_neg hr, if_neg hr]
      by_cases h : r = d
      · subst h
        rw [if_pos (c := r = r ∧ r ≠ 0) ⟨rfl, hd⟩]
        exact Vector.getElem_set_self _
      · rw [if_neg (c := r = d ∧ d ≠ 0) (fun e => h e.1)]
        exact Vector.getElem_set_ne d.isLt r.isLt fun e => h (BitVec.eq_of_toNat_eq e.symm)

@[simp] theorem Strand.s_w_self (k : Strand) (d : Reg) (x : Word) (h : d ≠ 0) : (k.w d x).s d = x :=
  (Strand.s_w k d d x).trans (if_pos ⟨rfl, h⟩)

theorem Strand.s_w_other (k : Strand) (d r : Reg) (x : Word) (h : r ≠ d) : (k.w d x).s r = k.s r :=
  (Strand.s_w k d r x).trans (if_neg fun e => h e.1)

@[simp] theorem Strand.s_unwait (k : Strand) (r : Reg) : k.unwait.s r = k.s r := rfl

end Sys2Proof.Machine
end

