-- ==== Sys2Proof/Laws/Scalar.lean ====
section
/-! SUPPORT. What the operations shared by scalar instructions do when nothing delays or stops them, and what a trap does. -/

namespace Sys2Proof.Machine

set_option Elab.async false

/-- Nothing delays or stops the instruction: it takes effect (R127, R152, R322, R420). -/
theorem State.scalarOp_clear {s : State} {info : Word} {reads writes : List Reg} {e : Out} (h : s.Clear reads writes) :
    s.scalarOp info reads writes e = e := by
  have hp : (reads ++ writes).any s.me.pending = false := by
    rw [List.any_eq_false]; intro r hr; rw [h.settled r hr]; exact Bool.false_ne_true
  have hf : reads.findSome? s.me.faultOf = none := by rw [List.findSome?_eq_none_iff]; exact h.faultless
  have hs : reads.find? s.me.spoiled.sregs.contains = none := by
    rw [List.find?_eq_none]; intro r hr; simpa using h.stored r hr
  simp only [State.scalarOp, hp, hf, hs]; rfl

theorem Strand.wentOn_eq (k : Strand) (d : Reg) (x pc : Word) :
    k.wentOn d x pc = { (k.w d x).unwait with pc := pc, icnt := min (2 ^ 32 - 1) ((k.w d x).icnt + 1) } := by
  rw [Strand.w_icnt]; rfl

/-- A transfer of control with a result. -/
theorem State.w_goto_wentOn (s : State) (d : Reg) (x pc : Word) : (s.w d x).goto pc = { s with me := s.me.wentOn d x pc } := by
  rw [Strand.wentOn_eq]; rfl

/-- A result is written and the strand goes on. -/
theorem State.finish_wentOn (s : State) (d : Reg) (x : Word) : s.finish d x = { s with me := s.me.wentOn d x (s.me.pc + 4) } := by
  rw [← State.w_goto_wentOn, State.finish, State.advance, State.w_eq, State.setMe_me, Strand.w_pc]

/-- A transfer of control without a result. -/
theorem State.goto_wentOn (s : State) (pc : Word) : s.goto pc = { s with me := s.me.wentOn 0 0 pc } := rfl

/-- The next instruction without a result. -/
theorem State.advance_wentOn (s : State) : s.advance = { s with me := s.me.wentOn 0 0 (s.me.pc + 4) } := rfl

/-- An instruction that only computes (R155 to R160). -/
theorem State.alu_clear {s : State} {i : Instr} {reads : List Reg} {d : Reg} {x : Word} (h : s.Clear reads [d]) :
    s.alu i reads d x = .next { s with me := s.me.wentOn d x (s.me.pc + 4) } := by
  rw [State.alu, State.scalarOp_clear h, State.finish_wentOn]

/-- A conditional branch (R161). -/
theorem State.branch_clear {s : State} {i : Instr} {a b : Reg} {off : BitVec 14} {taken : Bool} (h : s.Clear [a, b] []) :
    s.branch i a b off taken
      = .next { s with me := s.me.wentOn 0 0 (if taken then s.me.pc + 4 * off.signExtend 64 else s.me.pc + 4) } := by
  rw [State.branch, State.scalarOp_clear h]
  cases taken <;> rfl

/-- The register written holds the result unless it is s0; every other one keeps its value (R86, R152). -/
theorem Strand.s_wentOn (k : Strand) (d r : Reg) (x pc : Word) :
    (k.wentOn d x pc).s r = if r = d ∧ d ≠ 0 then x else k.s r := by
  rw [← Strand.s_w]
  unfold Strand.wentOn Strand.w Strand.s
  by_cases h : d = 0 <;> simp [h]

/-- No record of a type that no session traces (R450, R451). -/
theorem State.trace_silent {s : State} {ctx : BitVec 16} {type src : Nat} {stamp a b : Word} {aux : Nat} {more : List Byte}
    (h : (s.trc.open_ && bf s.trc.cfg 47 32 == ctx.toNat && s.trc.cfg.getLsbD type) = false) : s.trace ctx type src stamp a b aux more = s := by
  unfold State.trace
  exact if_neg fun e => Bool.false_ne_true (h.symm.trans e)

theorem Strand.enter_none (k : Strand) (pc : Word) (code : Byte) (info : Word) (addr : Option Word) :
    k.enter pc code info addr none = { k with tr := { k.tr with
      tcause := (k.tr.tcause &&& 0x20000) ||| 0x8000 ||| (if k.sys then 0x4000 else 0) ||| code.setWidth 64
      tpc := pc, tinfo := info, taddr := addr.getD k.tr.taddr } } := by
  unfold Strand.enter
  simp only [Option.isSome_none, Bool.false_eq_true, if_false, BitVec.ofNat_eq_ofNat, BitVec.or_zero]

/-- The trap of the instruction at the PC enters the handler (R402). -/
theorem State.trap_enters {s : State} {code : Byte} {info : Word} {addr : Option Word} (h : s.MayEnter code) :
    s.trap code info addr = { s with me := s.me.inHandler code info addr } := by
  have hd : (s.setMe Strand.unwait).debugStops code = false := h.nodebug
  have hb : bt s.me.tr.tcause 15 = false := h.idle
  have hc : ¬ ((s.setMe Strand.unwait).me.tr.tvec = 0 ∨ bt (s.setMe Strand.unwait).me.tr.tcause 15 = true ∧ true = true) := fun e =>
    e.elim h.handler fun e => Bool.false_ne_true (hb.symm.trans e.1)
  unfold State.trap State.takeTrap
  simp only [hd, Bool.false_eq_true, if_false]
  rw [if_neg (by simpa using hc)]
  rw [State.trace_silent (by exact h.untraced)]
  simp only [Strand.enter_none]
  rfl

/-- A privileged instruction at system level takes effect. -/
theorem State.privileged_sys {s : State} {info : Word} {e : Out} (h : s.me.sys = true) : s.privileged info e = e := by
  unfold State.privileged; rw [if_pos h]

/-- A privileged instruction at user level raises PRIV (R85, R400). -/
theorem State.privileged_user {s : State} {info : Word} {e : Out} (h : s.me.sys = false) :
    s.privileged info e = .next (s.trap cPRIV info none) := by
  unfold State.privileged; rw [h, if_neg Bool.false_ne_true]

end Sys2Proof.Machine
end

