-- ==== Sys2Proof/Laws/Access.lean ====
section
/-! SUPPORT. What an access to memory does to memory and to the directory of the L1 caches (R164 to R169, R277 to R281, R296, R306). -/

namespace Sys2Proof.Machine

set_option Elab.async false

/-! ### The directory -/

/-- A core without what the directory tracks for it. -/
def Core.bare (c : Core) : Core := { c with l1 := [] }

theorem l1After_num (r : Req) (a b : Nat) (w : Bool) (c : Core) : (l1After r a b w c).num = c.num := by
  unfold l1After; extract_lets; split
  · rfl
  · split <;> rfl

theorem l1After_bare (r : Req) (a b : Nat) (w : Bool) (c : Core) : (l1After r a b w c).bare = c.bare := by
  unfold l1After; extract_lets; split
  · rfl
  · split <;> rfl

theorem find_core_map (f : Core → Core) (hn : ∀ c, (f c).num = c.num) (n : BitVec 7) (l : List Core) :
    (l.map f).find? (·.num = n) = (l.find? (·.num = n)).map f := by
  induction l with
  | nil => rfl
  | cons c t ih =>
    rw [List.map_cons, List.find?_cons, List.find?_cons, hn]
    by_cases h : c.num = n <;> simp [h, ih]

/-- The directory notes an access: nothing but what it tracks changes. -/
theorem State.noteL1_same (s : State) (r : Req) (a : Word) (p : Spot) (wr : Bool) :
    s.sameButAccess (s.noteL1 r a p wr) ∧ (s.noteL1 r a p wr).me = s.me ∧ (s.noteL1 r a p wr).mem = s.mem := by
  unfold State.noteL1
  split
  · exact ⟨⟨rfl, fun _ => rfl, fun _ => rfl⟩, rfl, rfl⟩
  · refine ⟨⟨rfl, fun n => ?_, fun _ => rfl⟩, rfl, rfl⟩
    generalize hf : l1After r (bf a 55 0 / 256) (p.key / 256 * 256) wr = f
    have hn : ∀ c, (f c).num = c.num := fun c => by rw [← hf]; exact l1After_num ..
    have hr : ∀ c, (f c).bare = c.bare := fun c => by rw [← hf]; exact l1After_bare ..
    have hm : ∀ (o : Option Core) (d : Core), ((o.map f).getD d).bare = (o.getD d).bare := fun o d => by
      cases o with
      | none => rfl
      | some c => exact hr c
    show (State.getCore _ n).bare = (s.getCore n).bare
    unfold State.getCore
    by_cases h : s.core.num = n
    · rw [if_pos (c := (f s.core).num = n) ((hn _).trans h), if_pos h]; exact hr _
    · rw [if_neg (c := (f s.core).num = n) (fun e => h ((hn _).symm.trans e)), if_neg h]
      simp only [find_core_map f hn]
      rw [hm]
      split
      · rename_i hc
        rw [List.find?_cons]
        by_cases h2 : r.core = n
        · have hc' : s.cores.find? (fun x => decide (x.num = n)) = none := by
            rw [List.find?_eq_none]; simp at hc; intro x hx; have := hc.2 x hx; rw [h2] at this; simpa using this
          rw [hc', decide_eq_true h2, h2]; rfl
        · rw [decide_eq_false h2]
      · rfl

theorem State.sameButAccess_setMe {s t : State} (f : Strand → Strand) (h : s.sameButAccess t) : s.sameButAccess (t.setMe f) := by
  refine ⟨?_, h.2⟩
  have := h.1
  unfold State.setMe
  rw [this]

theorem State.sameButAccess_mem {s t : State} (m : MemSys) (h : ({ s with mem := m } : State).sameButAccess t) : s.sameButAccess t :=
  ⟨h.1, h.2⟩

theorem State.sameButAccess_links {s t : State} (k : Vector DieLink 12) (hk : ∀ l, (({ s with links := k } : State).link l).st = (s.link l).st)
    (h : ({ s with links := k } : State).sameButAccess t) : s.sameButAccess t :=
  ⟨h.1, h.2.1, fun l => (h.2.2 l).trans (hk l)⟩

theorem State.sameButAccess_refl (s : State) : s.sameButAccess s := ⟨rfl, fun _ => rfl, fun _ => rfl⟩

/-! ### The way -/

/-- What links carry changes no state of one. -/
theorem State.crossed_links (own : List Nat) (ls : List Nat) (s : State) :
    ∃ k, s.crossed own ls = { s with links := k } ∧ ∀ l, (({ s with links := k } : State).link l).st = (s.link l).st := by
  have key : ∀ (now : Nat) (ls : List Nat) (s : State),
      ∃ k, ls.foldl (fun u l => u.mapLink l fun x => x.carry own now) s = { s with links := k } ∧
        ∀ l, (({ s with links := k } : State).link l).st = (s.link l).st := by
    intro now ls
    induction ls with
    | nil => intro s; exact ⟨s.links, rfl, fun _ => rfl⟩
    | cons l t ih =>
      intro s
      obtain ⟨k, hk, hs⟩ := ih (s.mapLink l fun x => x.carry own now)
      refine ⟨k, by rw [List.foldl_cons, hk]; rfl, fun n => (hs n).trans ?_⟩
      unfold State.mapLink State.link
      simp only
      rw [vget_vset]
      split
      · rename_i e; rw [← e.1]; rfl
      · rfl
  exact key s.clk.ns ls s

/-- An access that has landed: nothing but the directory and the links' idle times note it. -/
theorem State.passed_same (s : State) (r : Req) (a : Word) (n : Need) (p : Spot) (wr : Bool) :
    s.sameButAccess (s.passed r a n p wr) ∧ (s.passed r a n p wr).me = s.me ∧ (s.passed r a n p wr).mem = s.mem := by
  unfold State.passed
  obtain ⟨k, hk, hs⟩ := State.crossed_links r.own (s.wayOf r a n ++ s.snoopWay r a n) s
  rw [hk]
  have h := State.noteL1_same ({ s with links := k } : State) r a p wr
  exact ⟨State.sameButAccess_links k hs h.1, h.2⟩

/-! ### Bytes of a sector -/

@[simp] theorem MemSys.bytesUnder_length (m : MemSys) (t k n : Nat) : (m.bytesUnder t k n).length = n := by
  induction n generalizing k with
  | zero => rfl
  | succ n ih => simp [MemSys.bytesUnder, ih]

theorem MemSys.bytesUnder_getD (m : MemSys) (t k n j : Nat) (h : j < n) : (m.bytesUnder t k n).getD j 0 = m.byteUnder t (k + j) := by
  induction n generalizing k j with
  | zero => exact absurd h (Nat.not_lt_zero j)
  | succ n ih =>
    cases j with
    | zero => rfl
    | succ j =>
      show ((m.bytesUnder t (k + 1) n).getD j 0) = _
      rw [ih (k + 1) j (by omega)]; congr 1; omega

theorem kvGet_set (l : List (Nat × Nat)) (k v x : Nat) : kvGet (kvSet l k v) x = if x = k then v else kvGet l x := by
  unfold kvGet kvSet
  rw [List.find?_cons]
  by_cases h : k = x
  · subst h; simp
  · simp only [h, decide_false, if_false, Ne.symm h]
    rw [List.find?_filter]
    congr 3
    funext e
    by_cases he : e.1 = x
    · simp [he, Ne.symm h]
    · simp [he]

theorem kvGet_filter (l : List (Nat × Nat)) (k x : Nat) : kvGet (l.filter (·.1 ≠ k)) x = if x = k then 0 else kvGet l x := by
  have h := kvGet_set l k 0 x
  unfold kvGet kvSet at h
  rw [List.find?_cons] at h
  unfold kvGet
  by_cases hx : k = x
  · subst hx
    rw [if_pos rfl]
    have : (l.filter (·.1 ≠ k)).find? (·.1 = k) = none := by
      rw [List.find?_eq_none]; intro e he; rw [List.mem_filter] at he; simpa using he.2
    rw [this]; rfl
  · simp only [hx, decide_false] at h
    exact h

theorem tagAgrees_self (t : Nat) : tagAgrees t t = true := by simp [tagAgrees]

/-- The tag that a sector holds after it was brought under t. -/
theorem MemSys.retag_enc (m : MemSys) (t k sec : Nat) :
    kvGet (m.retag t k).enc sec = if sec = k / 256 then t else kvGet m.enc sec := by
  unfold MemSys.retag
  split
  · rename_i h
    by_cases hs : sec = k / 256
    · rw [if_pos hs, hs, h]
    · rw [if_neg hs]
  · extract_lets base
    show kvGet (if t = 0 then _ else _) sec = _
    by_cases ht : t = 0
    · rw [if_pos ht, kvGet_filter, ht]
    · rw [if_neg ht, kvGet_set]

theorem MemSys.byteUnder_own (m : MemSys) (t x : Nat) (h : kvGet m.enc (x / 256) = t) : m.byteUnder t x = m.ram.get x := by
  unfold MemSys.byteUnder
  simp only [h, tagAgrees_self, if_true]

theorem MemSys.retag_ram (m : MemSys) (t k : Nat) (h : kvGet m.enc (k / 256) ≠ t) :
    ∃ bs, bs = m.bytesUnder t (k / 256 * 256) 256 ∧ (m.retag t k).ram = m.ram.write (k / 256 * 256) bs := by
  refine ⟨_, rfl, ?_⟩
  unfold MemSys.retag
  rw [if_neg h]

theorem MemSys.retag_ram_other (m : MemSys) (t k x : Nat) (h : x / 256 ≠ k / 256) : (m.retag t k).ram.get x = m.ram.get x := by
  by_cases he : kvGet m.enc (k / 256) = t
  · unfold MemSys.retag; rw [if_pos he]
  · obtain ⟨bs, hb, hr⟩ := m.retag_ram t k he
    have hl : bs.length = 256 := by rw [hb, MemSys.bytesUnder_length]
    have := Nat.div_add_mod x 256
    have := Nat.mod_lt x (y := 256) (by decide)
    rw [hr, Mem.get_write_outside _ _ _ _ (by omega)]

theorem MemSys.retag_byteUnder (m : MemSys) (t k x : Nat) (h : x / 256 = k / 256) : (m.retag t k).byteUnder t x = m.byteUnder t x := by
  by_cases he : kvGet m.enc (k / 256) = t
  · unfold MemSys.retag; rw [if_pos he]
  · rw [MemSys.byteUnder_own _ _ _ (by rw [MemSys.retag_enc, if_pos h])]
    obtain ⟨bs, hb, hr⟩ := m.retag_ram t k he
    have hl : bs.length = 256 := by rw [hb, MemSys.bytesUnder_length]
    have h1 := Nat.div_add_mod x 256
    have h2 := Nat.mod_lt x (y := 256) (by decide)
    rw [hr, Mem.get_write, if_pos (by omega), hb, MemSys.bytesUnder_getD m t _ 256 _ (by omega)]
    congr 1; omega

theorem MemSys.putUnder_shape (m : MemSys) (t k : Nat) (bs : List Byte) :
    m.putUnder t k bs = { m with ram := (m.putUnder t k bs).ram, enc := (m.putUnder t k bs).enc } := by
  unfold MemSys.putUnder MemSys.retag
  split <;> rfl

/-- A write of bytes within one sector. -/
theorem MemSys.putUnder_wrote (m : MemSys) (p : Spot) (bs : List Byte) (h : p.key % 256 + bs.length ≤ 256) :
    m.Wrote (m.putUnder p.tag p.key bs) p bs := by
  have hram : (m.putUnder p.tag p.key bs).ram = (m.retag p.tag p.key).ram.write p.key bs := rfl
  have henc : (m.putUnder p.tag p.key bs).enc = (m.retag p.tag p.key).enc := rfl
  have hd := Nat.div_add_mod p.key 256
  have htag : ∀ x, x / 256 = p.key / 256 → (m.putUnder p.tag p.key bs).byteUnder p.tag x = (m.putUnder p.tag p.key bs).ram.get x := fun x hx => by
    exact MemSys.byteUnder_own _ _ _ (by rw [henc, MemSys.retag_enc, if_pos hx])
  have htag' : ∀ x, x / 256 = p.key / 256 → (m.retag p.tag p.key).byteUnder p.tag x = (m.retag p.tag p.key).ram.get x := fun x hx => by
    exact MemSys.byteUnder_own _ _ _ (by rw [MemSys.retag_enc, if_pos hx])
  refine ⟨fun j hj => ?_, fun k hk ho => ?_, fun k hk => ?_, fun sec hs => ?_, by rw [MemSys.putUnder_shape]⟩
  · rw [htag _ (by omega), hram, Mem.get_write, if_pos (by omega), Nat.add_sub_cancel_left]
  · rw [htag _ hk, hram, Mem.get_write_outside _ _ _ _ ho, ← htag' _ hk, MemSys.retag_byteUnder _ _ _ _ hk]
  · rw [hram, Mem.get_write_outside _ _ _ _ (by have := Nat.div_add_mod k 256; have := Nat.mod_lt k (y := 256) (by decide); omega),
      MemSys.retag_ram_other _ _ _ _ hk]
  · rw [henc, MemSys.retag_enc, if_neg hs]

theorem nibMask_eq (off n : Nat) : nibMask off n 3 = 4 ^ (off + n) - 4 ^ off := by
  unfold nibMask
  induction n with
  | zero => simp
  | succ n ih =>
    rw [List.range_succ, List.map_append, List.sum_append_nat, ih, ← Nat.add_assoc, Nat.pow_succ]
    have : 4 ^ off ≤ 4 ^ (off + n) := Nat.pow_le_pow_right (by decide) (by omega)
    simp; omega

set_option exponentiation.threshold 600 in
/-- Less than a sector covers no sector. -/
theorem nibMask_part (off n : Nat) (h : off + n ≤ 256) (hn : n ≠ 256) : nibMask off n 3 ≠ 2 ^ 512 - 1 := by
  rw [nibMask_eq, show 512 = 2 * 256 from rfl, Nat.pow_mul]
  by_cases h0 : off = 0
  · subst h0
    rw [Nat.zero_add] at h ⊢
    have h1 : (4 : Nat) ^ n < 4 ^ 256 := Nat.pow_lt_pow_right (by decide) (by omega)
    have h2 : 0 < (4 : Nat) ^ n := Nat.pow_pos (by decide)
    rw [Nat.pow_zero]
    generalize (4 : Nat) ^ n = x at h1 h2
    generalize (4 : Nat) ^ 256 = y at h1
    omega
  · obtain ⟨k, rfl⟩ : ∃ k, off = k + 1 := ⟨off - 1, by omega⟩
    have e1 : (4 : Nat) ^ (k + 1 + n) = 4 * 4 ^ (k + n) := by rw [show k + 1 + n = (k + n) + 1 by omega, Nat.pow_succ, Nat.mul_comm]
    have e2 : (4 : Nat) ^ 256 = 4 * 4 ^ 255 := by rw [show (256 : Nat) = 255 + 1 from rfl, Nat.pow_succ, Nat.mul_comm]
    rw [e1, e2, Nat.pow_succ]
    have h2 : 0 < (4 : Nat) ^ 255 := Nat.pow_pos (by decide)
    generalize (4 : Nat) ^ (k + n) = x
    generalize (4 : Nat) ^ k = z
    generalize (4 : Nat) ^ 255 = y at h2
    omega

/-- A write of less than a sector of good data, on its own, leaves the marks of poison (R165, R306). -/
theorem MemSys.healed_part (m : MemSys) (key n : Nat) (h : key % 256 + n ≤ 256) (hn : n ≠ 256) : m.healed key n 3 [] = m := by
  unfold MemSys.healed
  split
  · rfl
  · extract_lets x mask clear
    have hm : mask = nibMask (key % 256) n 3 := by
      show Nat.lor 0 _ = _
      exact Nat.zero_or _
    rw [if_neg (fun e => nibMask_part _ _ h hn (hm ▸ e.1))]; rfl

/-- A write of less than a sector of good data (R165, R306). -/
theorem MemSys.landed_wrote (m : MemSys) (p : Spot) (bs : List Byte) (h : p.key % 256 + bs.length ≤ 256) (hb : bs.length ≠ 256) :
    m.Wrote (m.landed p bs false) p bs := by
  have w := MemSys.putUnder_wrote m p bs h
  unfold MemSys.landed
  extract_lets m' m2
  have h2 : m2 = m' := by
    show (if false = true then _ else m'.healed p.key bs.length 3 []) = m'
    rw [if_neg Bool.false_ne_true, MemSys.healed_part _ _ _ h hb]
  rw [h2]
  split
  · exact w
  · refine ⟨w.1, w.2.1, w.2.2.1, w.2.2.2.1, ?_⟩
    have := w.2.2.2.2
    rw [show m.putUnder p.tag p.key bs = m' from rfl] at this
    rw [this]

/-- Bytes written by physical address within one sector (R289, R297). -/
theorem MemSys.putRaw_frame (m : MemSys) : ∀ (bs : List Byte) (a : Nat), a % 256 + bs.length ≤ 256 →
    (∀ j, j < bs.length → (m.putRaw a bs).byteUnder 0 (a + j) = bs.getD j 0) ∧
    (∀ k, k / 256 = a / 256 → k < a ∨ a + bs.length ≤ k → (m.putRaw a bs).byteUnder 0 k = m.byteUnder 0 k) ∧
    (∀ k, k / 256 ≠ a / 256 → (m.putRaw a bs).ram.get k = m.ram.get k) ∧ (m.putRaw a bs).bad = m.bad := by
  intro bs
  induction bs generalizing m with
  | nil => intro a h; exact ⟨fun j hj => absurd hj (by simp), fun _ _ _ => rfl, fun _ _ => rfl, rfl⟩
  | cons b t ih =>
    intro a h
    simp only [List.length_cons] at h ⊢
    have w := MemSys.putUnder_wrote m ⟨a, 0, false, false⟩ [b] (by simp; omega)
    simp only at w
    have e : m.putRaw a (b :: t) = (m.putUnder 0 a [b]).putRaw (a + 1) t := rfl
    rw [e]
    by_cases ht : t = []
    · subst ht
      refine ⟨fun j hj => ?_, fun k h1 h2 => ?_, fun k h1 => ?_, ?_⟩
      · exact w.1 j (by simpa using hj)
      · exact w.2.1 k h1 (by simpa using h2)
      · exact w.2.2.1 k h1
      · show (m.putUnder 0 a [b]).bad = _; rw [w.2.2.2.2]
    · have hl : 0 < t.length := by cases t; exact absurd rfl ht; simp
      have i := ih (m.putUnder 0 a [b]) (a + 1) (by omega)
      refine ⟨fun j hj => ?_, fun k h1 h2 => ?_, fun k h1 => ?_, ?_⟩
      · cases j with
        | zero => have q := i.2.1 a (by omega) (by omega); exact q.trans (w.1 0 (by simp))
        | succ j => rw [show a + (j + 1) = a + 1 + j by omega, i.1 j (by omega)]; rfl
      · rw [i.2.1 k (by omega) (by omega)]; exact w.2.1 k h1 (by simp; omega)
      · rw [i.2.2.1 k (by omega)]; exact w.2.2.1 k h1
      · rw [i.2.2.2, w.2.2.2.2]

theorem MemSys.bytesUnder_of (m : MemSys) (t k n : Nat) (bs : List Byte) (hl : bs.length = n) (h : ∀ j, j < n → m.byteUnder t (k + j) = bs.getD j 0) : m.bytesUnder t k n = bs := by
  induction n generalizing k bs with
  | zero => cases bs; rfl; simp at hl
  | succ n ih =>
    cases bs with
    | nil => simp at hl
    | cons b t' =>
      simp at hl
      show _ :: _ = _
      rw [ih (k + 1) t' hl (fun j hj => by have := h (j + 1) (by omega); rw [show k + 1 + j = k + (j + 1) by omega, this]; rfl)]
      have := h 0 (by omega)
      rw [show m.byteUnder t k = b from this]

/-- A leaf marked accessed, and dirty for a write (R291). -/
theorem MemSys.touchLeaf_frame (m : MemSys) (at_ : Nat) (wr : Bool) (h : at_ % 8 = 0) :
   (m.touchLeaf at_ wr).dpa64 at_ = m.dpa64 at_ ||| (if wr then 0x60 else 0x20) ∧
          (∀ k, k / 256 = at_ / 256 → k < at_ ∨ at_ + 8 ≤ k → (m.touchLeaf at_ wr).byteUnder 0 k = m.byteUnder 0 k) ∧
          (∀ k, k / 256 ≠ at_ / 256 → (m.touchLeaf at_ wr).ram.get k = m.ram.get k) ∧ (m.touchLeaf at_ wr).bad = m.bad := by
  unfold MemSys.touchLeaf
  extract_lets e e'
  by_cases he : e' = e
  · rw [if_pos he]; exact ⟨he.symm, fun _ _ _ => rfl, fun _ _ => rfl, rfl⟩
  · rw [if_neg he]
    have f := MemSys.putRaw_frame m (leBytes 8 e'.toNat) at_ (by rw [leBytes_length]; omega)
    rw [leBytes_length] at f
    refine ⟨?_, f.2.1, f.2.2.1, f.2.2.2⟩
    unfold MemSys.dpa64
    rw [MemSys.bytesUnder_of _ _ _ _ (leBytes 8 e'.toNat) (leBytes_length ..) f.1, leNat_leBytes]
    apply BitVec.eq_of_toNat_eq
    have := e'.isLt
    rw [w64, BitVec.toNat_ofNat]
    rw [Nat.mod_eq_of_lt (by omega)]
    exact Nat.mod_eq_of_lt this

/-! ### Reads and writes that land in memory -/

theorem MemSys.Open.seen {m : MemSys} {p : Spot} (h : m.Open p) (v : View) (t k n : Nat) : m.seen v t k n = m.bytesUnder t k n := by
  unfold MemSys.seen; rw [h.unstaged]; rfl

theorem MemSys.Open.flushHost {m : MemSys} {p : Spot} (h : m.Open p) (hp : p.host = true) : m.flushHost = m := by
  unfold MemSys.flushHost; rw [(h.hosts hp).1]; rfl

theorem MemSys.Open.drainFor {m : MemSys} {p : Spot} (h : m.Open p) (r : Req) (k n : Nat) : m.drainFor r k n = m := by
  unfold MemSys.drainFor; rw [h.unstaged]; simp

theorem MemSys.Open.drainCore {m : MemSys} {p : Spot} (h : m.Open p) (c : BitVec 7) : m.drainCore c = m := by
  unfold MemSys.drainCore; rw [h.unstaged]; rfl

theorem State.released_open {s : State} {p : Spot} (h : s.mem.Open p) (r : Req) (ord : Byte) : s.released r ord = s := by
  unfold State.released; split
  · rw [h.drainCore]
  · rfl

theorem State.memRead_spot {s : State} {r : Req} {a : Word} {n : Nat} {need : Need} {p : Spot} {m : MemSys} (ord : Byte)
    (h : s.find r a need = .spot p m) (ho : m.Open p) :
    s.memRead r a n need ord = .ok (m.bytesUnder p.tag p.key n, m.poisoned p.key) (({ s with mem := m } : State).passed r a need p false) := by
  unfold State.memRead; rw [h]
  simp only [ho.seen]
  split
  · rename_i hp
    rw [ho.flushHost hp, (ho.hosts hp).2.2]; rfl
  · rfl

/-- What goes before a write. -/
theorem State.logged_eq {s : State} {r : Req} {a : Word} {p : Spot} {n : Nat} {o : Appended} (h : s.logged r a p n = o) :
    (if (!(true : Bool)) = true then Appended.ok s else if p.host then (if false = true then .ok s else s.mark r 1 a) else s.logOld r a p n) = o := by
  rw [← h]; rfl

theorem State.writeOut_through {s : State} {r : Req} {a : Word} {bs : List Byte} {p : Spot} (h : s.Through r a bs.length p) (hc : r.covers = false)
    (b strong : Bool) : s.writeOut r p bs false (s.stages r p b) strong 3 = s.mem.landed p bs false := by
  have hs : s.stages r p b = false := by unfold State.stages; rw [h.unstaged, Bool.and_false]
  unfold State.writeOut
  rw [hs, if_neg Bool.false_ne_true, hc]
  split
  · rename_i hp
    have := h.way.hosts hp
    rw [if_neg (by rw [this.2.2]; decide), if_neg (by rw [this.2.1]; decide), h.way.flushHost hp]; rfl
  · rw [h.way.drainFor]; rfl

theorem State.memWrite_spot {s s2 : State} {r : Req} {a : Word} {bs : List Byte} {need : Need} {p : Spot} {m : MemSys} (ord : Byte)
    (h : s.find r a need = .spot p m) (ho : m.Open p) (hl : ({ s with mem := m } : State).logged r a p bs.length = .ok s2)
    (ht : s2.Through r a bs.length p) (hc : r.covers = false) :
    s.memWrite r a bs false need {} ord = .ok () (({ s2 with mem := s2.mem.landed p bs false } : State).passed r a need p true) := by
  unfold State.memWrite; rw [h]
  simp only [State.released_open (s := { s with mem := m }) ho]
  rw [State.logged_eq hl]
  have hd : s2.disturbed r a bs = (bs, s2) := by unfold State.disturbed; rw [ht.apart]; rfl
  simp only [hd, State.writeOut_through ht hc]

theorem State.memWrite_full {s : State} {r : Req} {a : Word} {bs : List Byte} {need : Need} {p : Spot} {m : MemSys} (ord : Byte)
    (h : s.find r a need = .spot p m) (ho : m.Open p) (hl : ({ s with mem := m } : State).logged r a p bs.length = .full) :
    s.memWrite r a bs false need {} ord = .trap cLOGFULL s := by
  unfold State.memWrite; rw [h]
  simp only [State.released_open (s := { s with mem := m }) ho]
  rw [State.logged_eq hl]

theorem State.memWrite_stall {s : State} {r : Req} {a : Word} {bs : List Byte} {need : Need} {p : Spot} {m : MemSys} (ord : Byte)
    (h : s.find r a need = .spot p m) (ho : m.Open p) (hl : ({ s with mem := m } : State).logged r a p bs.length = .stall) :
    s.memWrite r a bs false need {} ord = .wait s := by
  unfold State.memWrite; rw [h]
  simp only [State.released_open (s := { s with mem := m }) ho]
  rw [State.logged_eq hl]

theorem sgn_eq (n x : Nat) (hn : 0 < n) : sgn n x = (BitVec.ofNat n x).toInt := by
  unfold sgn
  rw [BitVec.toInt_eq_toNat_cond, BitVec.toNat_ofNat]
  obtain ⟨k, rfl⟩ : ∃ k, n = k + 1 := ⟨n - 1, by omega⟩
  have h2 : 2 ^ (k + 1) = 2 * 2 ^ k := by rw [Nat.pow_succ, Nat.mul_comm]
  have h3 : ((2 : Int) ^ (k + 1)) = ((2 ^ (k + 1) : Nat) : Int) := by norm_cast
  rw [h3, Nat.add_sub_cancel]
  generalize x % 2 ^ (k + 1) = y
  rw [h2]
  by_cases h : y < 2 ^ k
  · rw [if_pos h, if_pos (by omega)]
  · rw [if_neg h, if_neg (by omega)]

/-- sext(x, n) of R2. -/
theorem wInt_sgn (n x : Nat) (hn : 0 < n) : wInt (sgn n x) = (BitVec.ofNat n x).signExtend 64 := by
  rw [sgn_eq n x hn]; rfl

/-- A load where the access lands in unpoisoned memory (R164, R168). -/
theorem State.loadFrom_spot {s : State} {info : Word} {d : Reg} {a : Word} {n : Nat} {sg : Bool} {p : Spot} {m : MemSys} (ord : Byte)
    (hf : s.find (s.me.req info) a .read = .spot p m) (ho : m.Open p) (hp : m.poisoned p.key = false) :
    ∃ t, s.loadFrom info d a n sg ord = .next t ∧ s.sameButAccess t ∧ t.mem = m ∧
      t.me = s.me.wentOn d (loadValue n sg (m.bytesUnder p.tag p.key n)) (s.me.pc + 4) := by
  unfold State.loadFrom
  rw [State.memRead_spot ord hf ho, hp]
  have hn := State.passed_same ({ s with mem := m } : State) (s.me.req info) a .read p false
  refine ⟨_, rfl, ?_⟩
  rw [if_neg (by decide), State.finish_wentOn]
  exact ⟨State.sameButAccess_setMe (fun _ => _) (State.sameButAccess_mem m hn.1), hn.2.2, by simp only [hn.2.1]⟩

/-- A store where the access lands in memory and the log takes what it asks for (R164, R165). -/
theorem State.storeTo_spot {s s2 : State} {info : Word} {a : Word} {n : Nat} {x : Word} {need : Need} {p : Spot} {m : MemSys} (ord : Byte)
    (hf : s.find (s.me.req info) a need = .spot p m) (ho : m.Open p)
    (hl : ({ s with mem := m } : State).logged (s.me.req info) a p n = .ok s2) (ht : s2.Through (s.me.req info) a n p)
    (hk : p.key % 256 + n ≤ 256) (hn : n ≠ 256) :
    ∃ t, s.storeTo info a n x need ord = .next t ∧ s2.sameButAccess t ∧ s2.mem.Wrote t.mem p (leBytes n x.toNat) ∧
      t.me = s2.me.wentOn 0 0 (s2.me.pc + 4) := by
  unfold State.storeTo
  rw [State.memWrite_spot ord hf ho (by rw [leBytes_length]; exact hl) (by rw [leBytes_length]; exact ht) rfl]
  have h := State.passed_same ({ s2 with mem := s2.mem.landed p (leBytes n x.toNat) false } : State) (s.me.req info) a need p true
  refine ⟨_, rfl, ?_⟩
  rw [State.advance_wentOn]
  refine ⟨State.sameButAccess_setMe (fun _ => _) (State.sameButAccess_mem _ h.1), ?_, by simp only [h.2.1]⟩
  show s2.mem.Wrote (State.mem (State.passed _ _ _ _ _ _)) p _
  rw [h.2.2]
  exact MemSys.landed_wrote _ _ _ (by rw [leBytes_length]; exact hk) (by rw [leBytes_length]; exact hn)

end Sys2Proof.Machine
end

