-- ==== Sys2Proof/Laws/Elems.lean ====
section
/-! SUPPORT. Elements in storage: what storing one element leaves of every other, in the standard and in the nibble-plane layout, in a
vector register and in an accumulator (R184, R188, R204, R212). -/

namespace Sys2Proof.Machine

set_option Elab.async false

/-! ### Bits -/

theorem testBit_addBit (x n k : Nat) : (addBit x n).testBit k = (x.testBit k || decide (n = k)) := by
  rw [addBit, show Nat.lor x (2 ^ n) = x ||| 2 ^ n from rfl, Nat.testBit_or, Nat.testBit_two_pow]

theorem testBit_dropBit (x n k : Nat) : (dropBit x n).testBit k = (x.testBit k && decide (n ≠ k)) := by
  unfold dropBit
  split
  · next h =>
    rw [show Nat.xor x (2 ^ n) = x ^^^ 2 ^ n from rfl, Nat.testBit_xor, Nat.testBit_two_pow]
    by_cases e : n = k
    · subst e; simp [h]
    · simp [e]
  · next h =>
    by_cases e : n = k
    · subst e; simp [h]
    · simp [e]

/-! ### Padding (R189) -/

theorem Fmt.width_le (f : Fmt) : f.width ≤ f.storage := by
  unfold Fmt.width Fmt.storage Fmt.planes
  split <;> omega

/-- Padding depends on the value's bits alone. -/
theorem Fmt.pad_congr (f : Fmt) (x y : Nat) (h : x % 2 ^ f.width = y % 2 ^ f.width) : f.pad x = f.pad y := by simp only [Fmt.pad, h]

/-- The value's bits stay, and the pattern fits its storage. -/
theorem Fmt.pad_spec (f : Fmt) (x : Nat) : f.pad x % 2 ^ f.width = x % 2 ^ f.width ∧ f.pad x < 2 ^ f.storage := by
  have hp : (2 : Nat) ^ f.width ∣ 2 ^ f.storage := Nat.pow_dvd_pow 2 f.width_le
  have hl : (2 : Nat) ^ f.width ≤ 2 ^ f.storage := Nat.le_of_dvd (Nat.pow_pos (by decide)) hp
  have hx : x % 2 ^ f.width < 2 ^ f.width := Nat.mod_lt _ (Nat.pow_pos (by decide))
  simp only [Fmt.pad]
  split
  · constructor
    · obtain ⟨k, hk⟩ := hp
      rw [hk, show 2 ^ f.width * k - 2 ^ f.width = 2 ^ f.width * (k - 1) by rw [Nat.mul_sub, Nat.mul_one], Nat.add_mul_mod_self_left,
        Nat.mod_mod]
    · omega
  · exact ⟨Nat.mod_mod _ _, by omega⟩

/-- A padded pattern is padded already. -/
@[simp] theorem Fmt.pad_pad (f : Fmt) (x : Nat) : f.pad (f.pad x) = f.pad x := f.pad_congr _ _ (f.pad_spec x).1

@[simp] theorem Fmt.pad_zero (f : Fmt) : f.pad 0 = 0 := by simp [Fmt.pad]

theorem Fmt.pad_mod (f : Fmt) (x : Nat) : f.pad x % 2 ^ f.storage = f.pad x := Nat.mod_eq_of_lt (f.pad_spec x).2

/-- A standard format has no padding. -/
theorem Fmt.pad_std (f : Fmt) (x : Nat) (hp : f.plane = false) : f.pad x = x % 2 ^ f.storage := by
  have hw : f.width = f.storage := by simp [Fmt.width, Fmt.storage, hp]
  simp [Fmt.pad, hw]

/-! ### The standard layout -/

theorem Fmt.storage_std (f : Fmt) (hv : f.valid = true) (hp : f.plane = false) : f.storage = 8 * f.eb := by
  have hs : f.storage = 2 ^ f.w := by simp [Fmt.storage, hp]
  have hw : 3 ≤ f.w := by
    unfold Fmt.valid at hv
    unfold Fmt.plane at hp
    split at hv <;> simp_all
  rw [Fmt.eb, hs, show f.w = 3 + (f.w - 3) by omega, Nat.pow_add]
  omega

theorem Fmt.std_same (f : Fmt) (m : Mem) (j x : Nat) (hv : f.valid = true) (hp : f.plane = false) :
    f.load (f.store m j x) j = x % 2 ^ f.storage := by
  rw [Fmt.storage_std f hv hp, Nat.pow_mul]
  simp [Fmt.load, Fmt.store, hp, Mem.num_write]

theorem Fmt.std_other (f : Fmt) (m : Mem) (i j x : Nat) (hp : f.plane = false) (h : i ≠ j) : f.load (f.store m i x) j = f.load m j := by
  simp only [Fmt.load, Fmt.store, hp]
  apply Mem.num_write_apart
  rcases Nat.lt_or_gt_of_ne h with l | l
  · right; calc i * f.eb + f.eb = (i + 1) * f.eb := by rw [Nat.add_mul, Nat.one_mul]
      _ ≤ j * f.eb := Nat.mul_le_mul_right _ l
  · left; calc j * f.eb + f.eb = (j + 1) * f.eb := by rw [Nat.add_mul, Nat.one_mul]
      _ ≤ i * f.eb := Nat.mul_le_mul_right _ l

/-! ### The nibble-plane layout -/

/-- Two nibbles lie in one byte only when their elements share a plane group, their planes agree and their places are neighbours. -/
theorem Fmt.planeByte_inj (f : Fmt) (i j p q : Nat) (hp : p < f.planes) (hq : q < f.planes) (h : f.planeByte i p = f.planeByte j q) :
    p = q ∧ i / 2 = j / 2 := by
  unfold Fmt.planeByte at h
  have h1 : i / 128 * f.planes + p = j / 128 * f.planes + q := by omega
  have h2 : i % 128 / 2 = j % 128 / 2 := by omega
  have h3 : i / 128 = j / 128 := by
    have a : (i / 128 * f.planes + p) / f.planes = (j / 128 * f.planes + q) / f.planes := by rw [h1]
    rwa [Nat.mul_comm, Nat.mul_add_div (by omega), Nat.div_eq_of_lt hp, Nat.mul_comm (j / 128), Nat.mul_add_div (by omega),
      Nat.div_eq_of_lt hq, Nat.add_zero, Nat.add_zero] at a
  rw [h3] at h1
  exact ⟨by omega, by omega⟩

theorem Fmt.nibble_set (f : Fmt) (m : Mem) (i j p q x : Nat) (hp : p < f.planes) (hq : q < f.planes) :
    f.nibble (f.setNibble m i p x) j q = if i = j ∧ p = q then x % 16 else f.nibble m j q := by
  have hb := (m.get (f.planeByte i p)).isLt
  simp only [Fmt.nibble, Fmt.setNibble, Mem.get_set]
  by_cases e : f.planeByte j q = f.planeByte i p
  · obtain ⟨rfl, h2⟩ := f.planeByte_inj i j p q hp hq e.symm
    rw [if_pos e, BitVec.toNat_ofNat, e]
    generalize (m.get (f.planeByte i p)).toNat = b at hb
    by_cases hij : i = j
    · subst hij
      rw [if_pos (c := i = i ∧ p = p) ⟨rfl, rfl⟩]
      by_cases hi : i % 2 = 0
      · simp only [hi, if_true]; omega
      · simp only [hi, if_false]; omega
    · rw [if_neg (c := i = j ∧ p = p) (fun h => hij h.1)]
      by_cases hi : i % 2 = 0
      · have hj : ¬ j % 2 = 0 := by omega
        simp only [hi, hj, if_true, if_false]; omega
      · have hj : j % 2 = 0 := by omega
        simp only [hi, hj, if_true, if_false]; omega
  · rw [if_neg e, if_neg (c := i = j ∧ p = q)]
    rintro ⟨rfl, rfl⟩
    exact e rfl

/-- A nibble after several planes of one element were stored. -/
theorem Fmt.nibble_fold (f : Fmt) (i j q x : Nat) (hq : q < f.planes) (l : List Nat) (hl : ∀ p ∈ l, p < f.planes) (m : Mem) :
    f.nibble (l.foldl (fun m p => f.setNibble m i p (x / 16 ^ p)) m) j q = if i = j ∧ q ∈ l then x / 16 ^ q % 16 else f.nibble m j q := by
  induction l generalizing m with
  | nil => simp
  | cons p t ih =>
    rw [List.foldl_cons, ih (fun r hr => hl r (List.mem_cons_of_mem _ hr)), f.nibble_set m i j p q _ (hl p List.mem_cons_self) hq]
    by_cases a : i = j
    · by_cases b : q ∈ t
      · rw [if_pos ⟨a, b⟩, if_pos ⟨a, List.mem_cons_of_mem _ b⟩]
      · by_cases c : p = q
        · subst c; rw [if_neg (fun h => b h.2), if_pos ⟨a, rfl⟩, if_pos ⟨a, List.mem_cons_self⟩]
        · rw [if_neg (fun h => b h.2), if_neg (fun h => c h.2), if_neg]
          rintro ⟨-, h⟩
          rcases List.mem_cons.1 h with h | h
          · exact c h.symm
          · exact b h
    · rw [if_neg (fun h => a h.1), if_neg (fun h => a h.1), if_neg (fun h => a h.1)]

theorem nibbles_sum (n x : Nat) : ((List.range n).map fun p => x / 16 ^ p % 16 * 16 ^ p).sum = x % 16 ^ n := by
  induction n with
  | zero => simp [Nat.mod_one]
  | succ n ih =>
    rw [List.range_succ, List.map_append, List.sum_append_nat, ih, Nat.pow_succ, Nat.mod_mul]
    simp [Nat.mul_comm]

theorem Fmt.plane_same (f : Fmt) (m : Mem) (j x : Nat) (hp : f.plane = true) : f.load (f.store m j x) j = f.pad x := by
  have hs : f.storage = 4 * f.planes := by simp [Fmt.storage, hp]
  have hsum : ((List.range f.planes).map fun p => f.nibble (f.store m j x) j p * 16 ^ p) = (List.range f.planes).map fun p => f.pad x / 16 ^ p % 16 * 16 ^ p := by
    apply List.map_congr_left
    intro q hq
    simp only [Fmt.store, hp, if_true]
    rw [f.nibble_fold j j q _ (List.mem_range.1 hq) _ (fun p h => List.mem_range.1 h), if_pos ⟨rfl, hq⟩]
  rw [Fmt.load, if_pos hp, hsum, nibbles_sum, show (16 : Nat) = 2 ^ 4 from rfl, ← Nat.pow_mul, ← hs, f.pad_mod, f.pad_pad]

theorem Fmt.plane_other (f : Fmt) (m : Mem) (i j x : Nat) (hp : f.plane = true) (h : i ≠ j) : f.load (f.store m i x) j = f.load m j := by
  have hsum : ((List.range f.planes).map fun p => f.nibble (f.store m i x) j p * 16 ^ p) = (List.range f.planes).map fun p => f.nibble m j p * 16 ^ p := by
    apply List.map_congr_left
    intro q hq
    simp only [Fmt.store, hp, if_true]
    rw [f.nibble_fold i j q _ (List.mem_range.1 hq) _ (fun p h => List.mem_range.1 h), if_neg (fun e => h e.1)]
  rw [Fmt.load, if_pos hp, hsum, Fmt.load, if_pos hp]

/-! ### Either layout -/

/-- An element just stored reads back with its padding bits. -/
theorem Fmt.load_store (f : Fmt) (m : Mem) (j x : Nat) (hv : f.valid = true) : f.load (f.store m j x) j = f.pad x := by
  by_cases hp : f.plane = true
  · exact f.plane_same m j x hp
  · rw [f.pad_std x (by simpa using hp)]; exact f.std_same m j x hv (by simpa using hp)

/-- Storing one element leaves every other. -/
theorem Fmt.load_store_other (f : Fmt) (m : Mem) (i j x : Nat) (h : i ≠ j) : f.load (f.store m i x) j = f.load m j := by
  by_cases hp : f.plane = true
  · exact f.plane_other m i j x hp h
  · exact f.std_other m i j x (by simpa using hp) h

theorem Fmt.wf_store (f : Fmt) (m : Mem) (j x : Nat) (h : m.wf = true) : (f.store m j x).wf = true := by
  unfold Fmt.store
  split
  · generalize List.range f.planes = l
    induction l generalizing m with
    | nil => exact h
    | cons p t ih => exact ih _ (Mem.wf_set _ _ _ h)
  · exact Mem.wf_write _ _ _ h

/-! ### After several writes -/

/-- The pattern of element j after writes in order, from its old one. -/
def afterPuts (f : Fmt) (j : Nat) (ws : List Put) (old : Nat) : Nat := ws.foldl (fun x w => if w.i = j then f.pad w.x else x) old

theorem afterPuts_none (f : Fmt) (j : Nat) (ws : List Put) (old : Nat) (h : ∀ w ∈ ws, w.i ≠ j) : afterPuts f j ws old = old := by
  induction ws generalizing old with
  | nil => rfl
  | cons w t ih =>
    rw [afterPuts, List.foldl_cons, if_neg (h w List.mem_cons_self)]
    exact ih _ fun x hx => h x (List.mem_cons_of_mem _ hx)

/-- When every write of element j writes x, the element holds x. -/
theorem afterPuts_all (f : Fmt) (j x : Nat) (ws : List Put) (old : Nat) (hx : ∀ w ∈ ws, w.i = j → w.x = x) (h : ∃ w ∈ ws, w.i = j) :
    afterPuts f j ws old = f.pad x := by
  induction ws generalizing old with
  | nil => obtain ⟨w, hw, -⟩ := h; cases hw
  | cons w t ih =>
    rw [afterPuts, List.foldl_cons]
    by_cases e : ∃ u ∈ t, u.i = j
    · exact ih _ (fun u hu => hx u (List.mem_cons_of_mem _ hu)) e
    · have hw : w.i = j := by
        obtain ⟨u, hu, hj⟩ := h
        rcases List.mem_cons.1 hu with rfl | hu
        · exact hj
        · exact absurd ⟨u, hu, hj⟩ e
      rw [if_pos hw, hx w List.mem_cons_self hw]
      exact afterPuts_none f j t _ fun u hu hj => e ⟨u, hu, hj⟩

/-- One element written. -/
def VReg.putOne (f : Fmt) (r : VReg) (w : Put) : VReg :=
  { r with data := f.store r.data w.i w.x, live := addBit r.live w.i, undef := dropBit r.undef w.i, mark := max r.mark (w.i + 1) }

/-- The pattern that an element reads. -/
def VReg.pat (r : VReg) (f : Fmt) (j : Nat) : Nat := (r.elem f j).1

theorem VReg.pat_putOne (f : Fmt) (r : VReg) (w : Put) (j : Nat) (hv : f.valid = true) :
    (r.putOne f w).pat f j = if w.i = j then f.pad w.x else r.pat f j := by
  simp only [VReg.pat, VReg.elem, VReg.putOne, testBit_addBit, testBit_dropBit]
  by_cases h : w.i = j
  · subst h; simp [f.load_store _ _ _ hv]
  · simp [h, f.load_store_other _ _ _ _ h]

/-- The pattern of an element after writes to a register (R204). -/
theorem VReg.pat_put (r : VReg) (f : Fmt) (ws : List Put) (j : Nat) (hv : f.valid = true) :
    (r.put f ws).pat f j = afterPuts f j ws (r.pat f j) := by
  have key : ∀ (ws : List Put) (r : VReg), (ws.foldl (VReg.putOne f) r).pat f j = afterPuts f j ws (r.pat f j) := by
    intro ws
    induction ws with
    | nil => intro r; rfl
    | cons w t ih => intro r; rw [List.foldl_cons, ih, VReg.pat_putOne f r w j hv]; rfl
  exact key ws r

/-- The mark rises above every element written (R204). -/
theorem VReg.mark_put (r : VReg) (f : Fmt) (ws : List Put) (n : Nat) : n < (r.put f ws).mark ↔ n < r.mark ∨ ∃ w ∈ ws, n ≤ w.i := by
  have key : ∀ (ws : List Put) (r : VReg), n < (ws.foldl (VReg.putOne f) r).mark ↔ n < r.mark ∨ ∃ w ∈ ws, n ≤ w.i := by
    intro ws
    induction ws with
    | nil => intro r; simp
    | cons w t ih =>
      intro r
      rw [List.foldl_cons, ih]
      simp only [VReg.putOne, List.mem_cons, exists_eq_or_imp]
      constructor
      · rintro (h | h)
        · by_cases g : n ≤ w.i
          · exact .inr (.inl g)
          · exact .inl (by omega)
        · exact .inr (.inr h)
      · rintro (h | h | h)
        · exact .inl (by omega)
        · exact .inl (by omega)
        · exact .inr h
  exact key ws r

/-- Elements below the new mark keep their patterns. -/
theorem VReg.pat_setMark (r : VReg) (f : Fmt) (m j : Nat) (h : j < m) : (r.setMark m).pat f j = r.pat f j := by
  simp [VReg.pat, VReg.elem, VReg.setMark, Nat.testBit_mod_two_pow, h]

/-- The pattern of an element of an accumulator after writes (R212). -/
theorem Acc.load_put (a : Acc) (f : Fmt) (ws : List Put) (j : Nat) (hv : f.valid = true) :
    f.load (a.put f ws).data j = afterPuts f j ws (f.load a.data j) := by
  have key : ∀ (ws : List Put) (m : Mem), f.load (ws.foldl (fun m w => f.store m w.i w.x) m) j = afterPuts f j ws (f.load m j) := by
    intro ws
    induction ws with
    | nil => intro m; rfl
    | cons w t ih =>
      intro m
      rw [List.foldl_cons, ih, afterPuts, afterPuts, List.foldl_cons]
      congr 1
      by_cases h : w.i = j
      · subst h; rw [if_pos rfl, f.load_store _ _ _ hv]
      · rw [if_neg h, f.load_store_other _ _ _ _ h]
  exact key ws a.data

end Sys2Proof.Machine
end

