-- ==== Sys2Proof/Laws/PerInstr.lean ====
section
/-! SUPPORT. Decoding an instruction's word gives the instruction back: one lemma per constructor, over the fields of each word
format (R85, R88, R101). -/

namespace Sys2Proof.Laws.Enc

set_option Elab.async false

/-- The decoder reads the instruction from the word that the encoder gives it, in the stream where that word stands. -/
def Statement (i : Instr) : Prop :=
  (∀ w, encode32 i = some w → i.wf = true → decodeScalar w = some i) ∧
  (∀ w, encode64 i = some w → i.wf = true → decodeVector w = some i)

/-! ### Fields of appended words -/

theorem app_num {n m : Nat} (x : BitVec n) (y : BitVec m) : (x ++ y).toNat = x.toNat * 2 ^ m + y.toNat := by
  rw [BitVec.toNat_append, ← Nat.shiftLeft_add_eq_or_of_lt y.isLt, Nat.shiftLeft_eq]

theorem app_low {n m : Nat} (x : BitVec n) (y : BitVec m) : (x ++ y).extractLsb' 0 m = y := by
  apply BitVec.eq_of_toNat_eq
  rw [BitVec.extractLsb'_toNat, app_num, Nat.shiftRight_zero, Nat.add_comm, Nat.add_mul_mod_self_right, Nat.mod_eq_of_lt y.isLt]

theorem app_high {n m : Nat} (x : BitVec n) (y : BitVec m) (k l : Nat) : (x ++ y).extractLsb' (m + k) l = x.extractLsb' k l := by
  apply BitVec.eq_of_toNat_eq
  rw [BitVec.extractLsb'_toNat, BitVec.extractLsb'_toNat, app_num, Nat.shiftRight_add, Nat.shiftRight_eq_div_pow (n := m),
    Nat.add_comm, Nat.add_mul_div_right _ _ (Nat.two_pow_pos m), Nat.div_eq_of_lt y.isLt, Nat.zero_add]

theorem app_part {n m : Nat} (x : BitVec n) (y : BitVec m) (k l : Nat) (h : k + l ≤ m) : (x ++ y).extractLsb' k l = y.extractLsb' k l := by
  apply BitVec.eq_of_toNat_eq
  have e : 2 ^ m = 2 ^ k * (2 ^ l * 2 ^ (m - k - l)) := by rw [← Nat.pow_add, ← Nat.pow_add]; congr 1; omega
  rw [BitVec.extractLsb'_toNat, BitVec.extractLsb'_toNat, app_num, Nat.shiftRight_eq_div_pow, Nat.shiftRight_eq_div_pow, e,
    Nat.mul_left_comm, Nat.add_comm, Nat.add_mul_div_left _ _ (Nat.two_pow_pos k), Nat.mul_left_comm, Nat.add_mul_mod_self_left]

theorem whole {n : Nat} (x : BitVec n) : x.extractLsb' 0 n = x := by
  apply BitVec.eq_of_toNat_eq
  rw [BitVec.extractLsb'_toNat, Nat.shiftRight_zero, Nat.mod_eq_of_lt x.isLt]

theorem bit_of {n : Nat} (w : BitVec n) (k : Nat) : w.getLsbD k = (w.extractLsb' k 1).getLsbD 0 := by
  simp

section formats
variable (op : BitVec 6) (d a b : Reg) (f : BitVec 8) (imm : BitVec 14) (i20 : BitVec 20) (sc fk : BitVec 4) (ord : BitVec 2) (dw : Bool)
  (k : BitVec 2) (y : BitVec 12)

theorem encR_op : (encR op d a b f).extractLsb' 26 6 = op :=
  (app_high _ f 18 6).trans ((app_high _ b 12 6).trans ((app_high _ a 6 6).trans ((app_high _ d 0 6).trans (whole op))))
theorem encR_d : (encR op d a b f).extractLsb' 20 6 = d :=
  (app_high _ f 12 6).trans ((app_high _ b 6 6).trans ((app_high _ a 0 6).trans (app_low op d)))
theorem encR_a : (encR op d a b f).extractLsb' 14 6 = a := (app_high _ f 6 6).trans ((app_high _ b 0 6).trans (app_low _ a))
theorem encR_b : (encR op d a b f).extractLsb' 8 6 = b := (app_high _ f 0 6).trans (app_low _ b)
theorem encR_f : (encR op d a b f).extractLsb' 0 8 = f := app_low _ f

theorem encR_sc : (encR op d a b (sc ++ fk)).extractLsb' 4 4 = sc :=
  (app_part _ (sc ++ fk) 4 4 (by decide)).trans ((app_high sc fk 0 4).trans (whole sc))
theorem encR_fk : (encR op d a b (sc ++ fk)).extractLsb' 0 4 = fk := (app_part _ (sc ++ fk) 0 4 (by decide)).trans (app_low sc fk)

theorem encI_op : (encI op d a imm).extractLsb' 26 6 = op :=
  (app_high _ imm 12 6).trans ((app_high _ a 6 6).trans ((app_high _ d 0 6).trans (whole op)))
theorem encI_d : (encI op d a imm).extractLsb' 20 6 = d := (app_high _ imm 6 6).trans ((app_high _ a 0 6).trans (app_low op d))
theorem encI_a : (encI op d a imm).extractLsb' 14 6 = a := (app_high _ imm 0 6).trans (app_low _ a)
theorem encI_imm : (encI op d a imm).extractLsb' 0 14 = imm := app_low _ imm

theorem shift_n (t : BitVec 2) (n : BitVec 6) : (t ++ 0#6 ++ n).extractLsb' 0 6 = n := app_low _ n
theorem shift_mid (t : BitVec 2) (n : BitVec 6) : (t ++ 0#6 ++ n).extractLsb' 6 6 = 0#6 := (app_high _ n 0 6).trans (app_low t 0#6)
theorem shift_top (t : BitVec 2) (n : BitVec 6) : (t ++ 0#6 ++ n).extractLsb' 12 2 = t :=
  (app_high _ n 6 2).trans ((app_high t 0#6 0 2).trans (whole t))

theorem encU_op : (encU op d i20).extractLsb' 26 6 = op := (app_high _ i20 6 6).trans ((app_high _ d 0 6).trans (whole op))
theorem encU_d : (encU op d i20).extractLsb' 20 6 = d := (app_high _ i20 0 6).trans (app_low op d)
theorem encU_imm : (encU op d i20).extractLsb' 0 20 = i20 := app_low _ i20

theorem encX_op : (encX op d a b sc ord dw).extractLsb' 26 6 = op :=
  (app_high _ 0#1 25 6).trans ((app_high _ (BitVec.ofBool dw) 24 6).trans ((app_high _ ord 22 6).trans ((app_high _ sc 18 6).trans
    ((app_high _ b 12 6).trans ((app_high _ a 6 6).trans ((app_high _ d 0 6).trans (whole op)))))))
theorem encX_d : (encX op d a b sc ord dw).extractLsb' 20 6 = d :=
  (app_high _ 0#1 19 6).trans ((app_high _ (BitVec.ofBool dw) 18 6).trans ((app_high _ ord 16 6).trans ((app_high _ sc 12 6).trans
    ((app_high _ b 6 6).trans ((app_high _ a 0 6).trans (app_low op d))))))
theorem encX_a : (encX op d a b sc ord dw).extractLsb' 14 6 = a :=
  (app_high _ 0#1 13 6).trans ((app_high _ (BitVec.ofBool dw) 12 6).trans ((app_high _ ord 10 6).trans ((app_high _ sc 6 6).trans
    ((app_high _ b 0 6).trans (app_low _ a)))))
theorem encX_b : (encX op d a b sc ord dw).extractLsb' 8 6 = b :=
  (app_high _ 0#1 7 6).trans ((app_high _ (BitVec.ofBool dw) 6 6).trans ((app_high _ ord 4 6).trans ((app_high _ sc 0 6).trans (app_low _ b))))
theorem encX_sc : (encX op d a b sc ord dw).extractLsb' 4 4 = sc :=
  (app_high _ 0#1 3 4).trans ((app_high _ (BitVec.ofBool dw) 2 4).trans ((app_high _ ord 0 4).trans (app_low _ sc)))
theorem encX_ord : (encX op d a b sc ord dw).extractLsb' 2 2 = ord :=
  (app_high _ 0#1 1 2).trans ((app_high _ (BitVec.ofBool dw) 0 2).trans (app_low _ ord))
theorem encX_dw : (encX op d a b sc ord dw).getLsbD 1 = dw := by
  rw [bit_of, show (encX op d a b sc ord dw).extractLsb' 1 1 = BitVec.ofBool dw from (app_high _ 0#1 0 1).trans (app_low _ (BitVec.ofBool dw))]
  cases dw <;> rfl
theorem encX_zero : (encX op d a b sc ord dw).getLsbD 0 = false := by
  rw [bit_of, show (encX op d a b sc ord dw).extractLsb' 0 1 = 0#1 from app_low _ 0#1]
  rfl

theorem encS_op : (encS d a k y).extractLsb' 26 6 = 0x3C#6 :=
  (app_high _ y 14 6).trans ((app_high _ k 12 6).trans ((app_high _ a 6 6).trans ((app_high _ d 0 6).trans (whole 0x3C#6))))
theorem encS_d : (encS d a k y).extractLsb' 20 6 = d :=
  (app_high _ y 8 6).trans ((app_high _ k 6 6).trans ((app_high _ a 0 6).trans (app_low _ d)))
theorem encS_a : (encS d a k y).extractLsb' 14 6 = a := (app_high _ y 2 6).trans ((app_high _ k 0 6).trans (app_low _ a))
theorem encS_k : (encS d a k y).extractLsb' 12 2 = k := (app_high _ y 0 2).trans (app_low _ k)
theorem encS_y : (encS d a k y).extractLsb' 0 12 = y := app_low _ y

theorem jump_op (off : BitVec 26) : (op ++ off).extractLsb' 26 6 = op := (app_high op off 0 6).trans (whole op)
theorem jump_off (off : BitVec 26) : (op ++ off).extractLsb' 0 26 = off := app_low op off

end formats

/-! ### A vector word -/

section vector
variable (vop : BitVec 7) (f : BitVec 8) (v : VArgs)

theorem encV_imm : (encV vop f v).extractLsb' 0 14 = v.imm := app_low _ v.imm
theorem encV_f : (encV vop f v).extractLsb' 14 8 = f := (app_high _ v.imm 0 8).trans (app_low _ f)
theorem encV_k : (encV vop f v).extractLsb' 22 3 = v.k.bits := (app_high _ v.imm 8 3).trans ((app_high _ f 0 3).trans (app_low _ v.k.bits))
theorem encV_z : (encV vop f v).getLsbD 25 = v.z := by
  rw [bit_of, show (encV vop f v).extractLsb' 25 1 = BitVec.ofBool v.z from (app_high _ v.imm 11 1).trans ((app_high _ f 3 1).trans
    ((app_high _ v.k.bits 0 1).trans (app_low _ (BitVec.ofBool v.z))))]
  cases v.z <;> rfl
theorem encV_p : (encV vop f v).extractLsb' 26 6 = v.p :=
  (app_high _ v.imm 12 6).trans ((app_high _ f 4 6).trans ((app_high _ v.k.bits 1 6).trans ((app_high _ (BitVec.ofBool v.z) 0 6).trans (app_low _ v.p))))
theorem encV_c : (encV vop f v).extractLsb' 32 6 = v.c :=
  (app_high _ v.imm 18 6).trans ((app_high _ f 10 6).trans ((app_high _ v.k.bits 7 6).trans ((app_high _ (BitVec.ofBool v.z) 6 6).trans
    ((app_high _ v.p 0 6).trans (app_low _ v.c)))))
theorem encV_b : (encV vop f v).extractLsb' 38 6 = v.b :=
  (app_high _ v.imm 24 6).trans ((app_high _ f 16 6).trans ((app_high _ v.k.bits 13 6).trans ((app_high _ (BitVec.ofBool v.z) 12 6).trans
    ((app_high _ v.p 6 6).trans ((app_high _ v.c 0 6).trans (app_low _ v.b))))))
theorem encV_a : (encV vop f v).extractLsb' 44 6 = v.a :=
  (app_high _ v.imm 30 6).trans ((app_high _ f 22 6).trans ((app_high _ v.k.bits 19 6).trans ((app_high _ (BitVec.ofBool v.z) 18 6).trans
    ((app_high _ v.p 12 6).trans ((app_high _ v.c 6 6).trans ((app_high _ v.b 0 6).trans (app_low _ v.a)))))))
theorem encV_d : (encV vop f v).extractLsb' 50 6 = v.d :=
  (app_high _ v.imm 36 6).trans ((app_high _ f 28 6).trans ((app_high _ v.k.bits 25 6).trans ((app_high _ (BitVec.ofBool v.z) 24 6).trans
    ((app_high _ v.p 18 6).trans ((app_high _ v.c 12 6).trans ((app_high _ v.b 6 6).trans ((app_high _ v.a 0 6).trans (app_low _ v.d))))))))
theorem encV_vop : (encV vop f v).extractLsb' 56 7 = vop :=
  (app_high _ v.imm 42 7).trans ((app_high _ f 34 7).trans ((app_high _ v.k.bits 31 7).trans ((app_high _ (BitVec.ofBool v.z) 30 7).trans
    ((app_high _ v.p 24 7).trans ((app_high _ v.c 18 7).trans ((app_high _ v.b 12 7).trans ((app_high _ v.a 6 7).trans
      ((app_high _ v.d 0 7).trans (app_low _ vop)))))))))
theorem encV_cr : (encV vop f v).getLsbD 63 = v.cr := by
  rw [bit_of, show (encV vop f v).extractLsb' 63 1 = BitVec.ofBool v.cr from
    (app_high _ v.imm 49 1).trans ((app_high _ f 41 1).trans ((app_high _ v.k.bits 38 1).trans ((app_high _ (BitVec.ofBool v.z) 37 1).trans
      ((app_high _ v.p 31 1).trans ((app_high _ v.c 25 1).trans ((app_high _ v.b 19 1).trans ((app_high _ v.a 13 1).trans
        ((app_high _ v.d 7 1).trans ((app_high _ vop 0 1).trans (whole (BitVec.ofBool v.cr)))))))))))]
  cases v.cr <;> rfl

theorem kind_back (k : VKind) : VKind.ofBits k.bits = some k := by cases k <;> rfl

end vector

/-! ### From a code to the statement -/

theorem keeps {i : Instr} (h : i.wf = true) : (some i).filter (·.wf) = some i := by simp [Option.filter, h]

theorem scalar_of {i : Instr} {w : BitVec 32} (raw : decScalarRaw w = some i) (enc : encode32 i = some w) (no64 : i.vparts = none) : Statement i := by
  refine ⟨fun w' h wf => ?_, fun w' h => ?_⟩
  · rw [enc, Option.some.injEq] at h
    rw [← h, decodeScalar, raw, keeps wf]
  · rw [encode64, no64] at h
    cases h

theorem vector_of {i : Instr} {p : VParts} (no32 : encode32 i = none) (parts : i.vparts = some p)
    (code : i.wf = true → decVop p.vop p.f p.args = some i) : Statement i := by
  refine ⟨fun w' h => ?_, fun w' h wf => ?_⟩
  · rw [no32] at h
    cases h
  · rw [encode64, parts, Option.map_some, Option.some.injEq] at h
    subst h
    simp only [decodeVector, encV_k, kind_back, encV_vop, encV_f, encV_cr, encV_d, encV_a, encV_b, encV_c, encV_p, encV_z, encV_imm]
    rw [show (⟨p.args.cr, p.args.d, p.args.a, p.args.b, p.args.c, p.args.p, p.args.z, p.args.k, p.args.imm⟩ : VArgs) = p.args from rfl,
      code wf, keeps wf]

theorem no_word {i : Instr} (no32 : encode32 i = none) (no64 : i.vparts = none) : Statement i :=
  ⟨fun w h => by simp [no32] at h, fun w h => by simp [encode64, no64] at h⟩

/-- A queue register number fits its field (R96). -/
theorem queue_small (q : BitVec 3) : ¬ (8 ≤ (q.setWidth 6 : Reg).toNat) := by revert q; decide
theorem queue_back (q : BitVec 3) : (q.setWidth 6 : Reg).setWidth 3 = q := by revert q; decide

theorem fieldsOk_of {i : Instr} {p : VParts} (parts : i.vparts = some p) (wf : i.wf = true) : p.form.fieldsOk p.args = true := by
  simp only [Instr.wf, parts, vargsOk, Bool.and_eq_true] at wf
  exact wf.1.1.1.1.1.2

/-- Bit 0 of the immediate tells the two forms of MZERO apart (R115). -/
theorem mzeroMd_code (v : VArgs) (wf : (Instr.mzeroMd v).wf = true) : decVop 0x20#7 0x06#8 v = some (.mzeroMd v) := by
  have h : v.imm = 0#14 := by
    have wf := fieldsOk_of rfl wf
    simp only [VForm.fieldsOk, Bool.and_eq_true, beq_iff_eq] at wf
    exact wf.2
  show some (if v.imm.getLsbD 0 then Instr.mzeroArray v else Instr.mzeroMd v) = _
  rw [h]
  rfl
theorem mzeroArray_code (v : VArgs) (wf : (Instr.mzeroArray v).wf = true) : decVop 0x20#7 0x06#8 v = some (.mzeroArray v) := by
  have h : v.imm = 1#14 := by
    have wf := fieldsOk_of rfl wf
    simp only [VForm.fieldsOk, Bool.and_eq_true, beq_iff_eq] at wf
    exact wf.2
  show some (if v.imm.getLsbD 0 then Instr.mzeroArray v else Instr.mzeroMd v) = _
  rw [h]
  rfl

/-! ### Every instruction -/

theorem add (d a b : Reg) : Statement (.add d a b) := scalar_of (by unfold decScalarRaw; rw [encR_op, encR_d, encR_a, encR_b, encR_f]; rfl) rfl rfl
theorem sub (d a b : Reg) : Statement (.sub d a b) := scalar_of (by unfold decScalarRaw; rw [encR_op, encR_d, encR_a, encR_b, encR_f]; rfl) rfl rfl
theorem and (d a b : Reg) : Statement (.and d a b) := scalar_of (by unfold decScalarRaw; rw [encR_op, encR_d, encR_a, encR_b, encR_f]; rfl) rfl rfl
theorem or (d a b : Reg) : Statement (.or d a b) := scalar_of (by unfold decScalarRaw; rw [encR_op, encR_d, encR_a, encR_b, encR_f]; rfl) rfl rfl
theorem xor (d a b : Reg) : Statement (.xor d a b) := scalar_of (by unfold decScalarRaw; rw [encR_op, encR_d, encR_a, encR_b, encR_f]; rfl) rfl rfl
theorem andn (d a b : Reg) : Statement (.andn d a b) := scalar_of (by unfold decScalarRaw; rw [encR_op, encR_d, encR_a, encR_b, encR_f]; rfl) rfl rfl
theorem orn (d a b : Reg) : Statement (.orn d a b) := scalar_of (by unfold decScalarRaw; rw [encR_op, encR_d, encR_a, encR_b, encR_f]; rfl) rfl rfl
theorem xnor (d a b : Reg) : Statement (.xnor d a b) := scalar_of (by unfold decScalarRaw; rw [encR_op, encR_d, encR_a, encR_b, encR_f]; rfl) rfl rfl
theorem shl (d a b : Reg) : Statement (.shl d a b) := scalar_of (by unfold decScalarRaw; rw [encR_op, encR_d, encR_a, encR_b, encR_f]; rfl) rfl rfl
theorem shr (d a b : Reg) : Statement (.shr d a b) := scalar_of (by unfold decScalarRaw; rw [encR_op, encR_d, encR_a, encR_b, encR_f]; rfl) rfl rfl
theorem sha (d a b : Reg) : Statement (.sha d a b) := scalar_of (by unfold decScalarRaw; rw [encR_op, encR_d, encR_a, encR_b, encR_f]; rfl) rfl rfl
theorem ror (d a b : Reg) : Statement (.ror d a b) := scalar_of (by unfold decScalarRaw; rw [encR_op, encR_d, encR_a, encR_b, encR_f]; rfl) rfl rfl
theorem mul (d a b : Reg) : Statement (.mul d a b) := scalar_of (by unfold decScalarRaw; rw [encR_op, encR_d, encR_a, encR_b, encR_f]; rfl) rfl rfl
theorem mulh (d a b : Reg) : Statement (.mulh d a b) := scalar_of (by unfold decScalarRaw; rw [encR_op, encR_d, encR_a, encR_b, encR_f]; rfl) rfl rfl
theorem mulhu (d a b : Reg) : Statement (.mulhu d a b) := scalar_of (by unfold decScalarRaw; rw [encR_op, encR_d, encR_a, encR_b, encR_f]; rfl) rfl rfl
theorem div (d a b : Reg) : Statement (.div d a b) := scalar_of (by unfold decScalarRaw; rw [encR_op, encR_d, encR_a, encR_b, encR_f]; rfl) rfl rfl
theorem divu (d a b : Reg) : Statement (.divu d a b) := scalar_of (by unfold decScalarRaw; rw [encR_op, encR_d, encR_a, encR_b, encR_f]; rfl) rfl rfl
theorem rem (d a b : Reg) : Statement (.rem d a b) := scalar_of (by unfold decScalarRaw; rw [encR_op, encR_d, encR_a, encR_b, encR_f]; rfl) rfl rfl
theorem remu (d a b : Reg) : Statement (.remu d a b) := scalar_of (by unfold decScalarRaw; rw [encR_op, encR_d, encR_a, encR_b, encR_f]; rfl) rfl rfl
theorem min (d a b : Reg) : Statement (.min d a b) := scalar_of (by unfold decScalarRaw; rw [encR_op, encR_d, encR_a, encR_b, encR_f]; rfl) rfl rfl
theorem max (d a b : Reg) : Statement (.max d a b) := scalar_of (by unfold decScalarRaw; rw [encR_op, encR_d, encR_a, encR_b, encR_f]; rfl) rfl rfl
theorem minu (d a b : Reg) : Statement (.minu d a b) := scalar_of (by unfold decScalarRaw; rw [encR_op, encR_d, encR_a, encR_b, encR_f]; rfl) rfl rfl
theorem maxu (d a b : Reg) : Statement (.maxu d a b) := scalar_of (by unfold decScalarRaw; rw [encR_op, encR_d, encR_a, encR_b, encR_f]; rfl) rfl rfl
theorem seq (d a b : Reg) : Statement (.seq d a b) := scalar_of (by unfold decScalarRaw; rw [encR_op, encR_d, encR_a, encR_b, encR_f]; rfl) rfl rfl
theorem sne (d a b : Reg) : Statement (.sne d a b) := scalar_of (by unfold decScalarRaw; rw [encR_op, encR_d, encR_a, encR_b, encR_f]; rfl) rfl rfl
theorem slt (d a b : Reg) : Statement (.slt d a b) := scalar_of (by unfold decScalarRaw; rw [encR_op, encR_d, encR_a, encR_b, encR_f]; rfl) rfl rfl
theorem sltu (d a b : Reg) : Statement (.sltu d a b) := scalar_of (by unfold decScalarRaw; rw [encR_op, encR_d, encR_a, encR_b, encR_f]; rfl) rfl rfl
theorem sle (d a b : Reg) : Statement (.sle d a b) := scalar_of (by unfold decScalarRaw; rw [encR_op, encR_d, encR_a, encR_b, encR_f]; rfl) rfl rfl
theorem sleu (d a b : Reg) : Statement (.sleu d a b) := scalar_of (by unfold decScalarRaw; rw [encR_op, encR_d, encR_a, encR_b, encR_f]; rfl) rfl rfl
theorem clz (d a : Reg) : Statement (.clz d a) := scalar_of (by unfold decScalarRaw; rw [encR_op, encR_d, encR_a, encR_b, encR_f]; rfl) rfl rfl
theorem ctz (d a : Reg) : Statement (.ctz d a) := scalar_of (by unfold decScalarRaw; rw [encR_op, encR_d, encR_a, encR_b, encR_f]; rfl) rfl rfl
theorem popc (d a : Reg) : Statement (.popc d a) := scalar_of (by unfold decScalarRaw; rw [encR_op, encR_d, encR_a, encR_b, encR_f]; rfl) rfl rfl
theorem brev (d a : Reg) : Statement (.brev d a) := scalar_of (by unfold decScalarRaw; rw [encR_op, encR_d, encR_a, encR_b, encR_f]; rfl) rfl rfl
theorem bswap (d a : Reg) : Statement (.bswap d a) := scalar_of (by unfold decScalarRaw; rw [encR_op, encR_d, encR_a, encR_b, encR_f]; rfl) rfl rfl
theorem addw (d a b : Reg) : Statement (.addw d a b) := scalar_of (by unfold decScalarRaw; rw [encR_op, encR_d, encR_a, encR_b, encR_f]; rfl) rfl rfl
theorem subw (d a b : Reg) : Statement (.subw d a b) := scalar_of (by unfold decScalarRaw; rw [encR_op, encR_d, encR_a, encR_b, encR_f]; rfl) rfl rfl
theorem mulw (d a b : Reg) : Statement (.mulw d a b) := scalar_of (by unfold decScalarRaw; rw [encR_op, encR_d, encR_a, encR_b, encR_f]; rfl) rfl rfl
theorem hmix (d a b : Reg) : Statement (.hmix d a b) := scalar_of (by unfold decScalarRaw; rw [encR_op, encR_d, encR_a, encR_b, encR_f]; rfl) rfl rfl
theorem addi (d a : Reg) (imm : BitVec 14) : Statement (.addi d a imm) := scalar_of (by unfold decScalarRaw; rw [encI_op, encI_d, encI_a, encI_imm]; rfl) rfl rfl
theorem andi (d a : Reg) (imm : BitVec 14) : Statement (.andi d a imm) := scalar_of (by unfold decScalarRaw; rw [encI_op, encI_d, encI_a, encI_imm]; rfl) rfl rfl
theorem ori (d a : Reg) (imm : BitVec 14) : Statement (.ori d a imm) := scalar_of (by unfold decScalarRaw; rw [encI_op, encI_d, encI_a, encI_imm]; rfl) rfl rfl
theorem xori (d a : Reg) (imm : BitVec 14) : Statement (.xori d a imm) := scalar_of (by unfold decScalarRaw; rw [encI_op, encI_d, encI_a, encI_imm]; rfl) rfl rfl
theorem shli (d a : Reg) (n : BitVec 6) : Statement (.shli d a n) := scalar_of (by unfold decScalarRaw; rw [encI_op, encI_d, encI_a, encI_imm]; show decShi d a _ = _; unfold decShi; rw [shift_n, shift_mid, shift_top]; rfl) rfl rfl
theorem shri (d a : Reg) (n : BitVec 6) : Statement (.shri d a n) := scalar_of (by unfold decScalarRaw; rw [encI_op, encI_d, encI_a, encI_imm]; show decShi d a _ = _; unfold decShi; rw [shift_n, shift_mid, shift_top]; rfl) rfl rfl
theorem shai (d a : Reg) (n : BitVec 6) : Statement (.shai d a n) := scalar_of (by unfold decScalarRaw; rw [encI_op, encI_d, encI_a, encI_imm]; show decShi d a _ = _; unfold decShi; rw [shift_n, shift_mid, shift_top]; rfl) rfl rfl
theorem rori (d a : Reg) (n : BitVec 6) : Statement (.rori d a n) := scalar_of (by unfold decScalarRaw; rw [encI_op, encI_d, encI_a, encI_imm]; show decShi d a _ = _; unfold decShi; rw [shift_n, shift_mid, shift_top]; rfl) rfl rfl
theorem slti (d a : Reg) (imm : BitVec 14) : Statement (.slti d a imm) := scalar_of (by unfold decScalarRaw; rw [encI_op, encI_d, encI_a, encI_imm]; rfl) rfl rfl
theorem sltui (d a : Reg) (imm : BitVec 14) : Statement (.sltui d a imm) := scalar_of (by unfold decScalarRaw; rw [encI_op, encI_d, encI_a, encI_imm]; rfl) rfl rfl
theorem muli (d a : Reg) (imm : BitVec 14) : Statement (.muli d a imm) := scalar_of (by unfold decScalarRaw; rw [encI_op, encI_d, encI_a, encI_imm]; rfl) rfl rfl
theorem lui (d : Reg) (imm : BitVec 20) : Statement (.lui d imm) := scalar_of (by unfold decScalarRaw; rw [encU_op, encU_d, encU_imm]; rfl) rfl rfl
theorem lhi (d : Reg) (imm : BitVec 20) : Statement (.lhi d imm) := scalar_of (by unfold decScalarRaw; rw [encU_op, encU_d, encU_imm]; rfl) rfl rfl
theorem addpc (d : Reg) (imm : BitVec 20) : Statement (.addpc d imm) := scalar_of (by unfold decScalarRaw; rw [encU_op, encU_d, encU_imm]; rfl) rfl rfl
theorem addiw (d a : Reg) (imm : BitVec 14) : Statement (.addiw d a imm) := scalar_of (by unfold decScalarRaw; rw [encI_op, encI_d, encI_a, encI_imm]; rfl) rfl rfl
theorem beq (a b : Reg) (off : BitVec 14) : Statement (.beq a b off) := scalar_of (by unfold decScalarRaw; rw [encI_op, encI_d, encI_a, encI_imm]; rfl) rfl rfl
theorem bne (a b : Reg) (off : BitVec 14) : Statement (.bne a b off) := scalar_of (by unfold decScalarRaw; rw [encI_op, encI_d, encI_a, encI_imm]; rfl) rfl rfl
theorem blt (a b : Reg) (off : BitVec 14) : Statement (.blt a b off) := scalar_of (by unfold decScalarRaw; rw [encI_op, encI_d, encI_a, encI_imm]; rfl) rfl rfl
theorem bge (a b : Reg) (off : BitVec 14) : Statement (.bge a b off) := scalar_of (by unfold decScalarRaw; rw [encI_op, encI_d, encI_a, encI_imm]; rfl) rfl rfl
theorem bltu (a b : Reg) (off : BitVec 14) : Statement (.bltu a b off) := scalar_of (by unfold decScalarRaw; rw [encI_op, encI_d, encI_a, encI_imm]; rfl) rfl rfl
theorem bgeu (a b : Reg) (off : BitVec 14) : Statement (.bgeu a b off) := scalar_of (by unfold decScalarRaw; rw [encI_op, encI_d, encI_a, encI_imm]; rfl) rfl rfl
theorem bpany (a : Reg) (off : BitVec 14) : Statement (.bpany a off) := scalar_of (by unfold decScalarRaw; rw [encI_op, encI_d, encI_a, encI_imm]; rfl) rfl rfl
theorem bpnone (a : Reg) (off : BitVec 14) : Statement (.bpnone a off) := scalar_of (by unfold decScalarRaw; rw [encI_op, encI_d, encI_a, encI_imm]; rfl) rfl rfl
theorem j (off : BitVec 26) : Statement (.j off) := scalar_of (by unfold decScalarRaw; rw [jump_op, jump_off]; rfl) rfl rfl
theorem jal (off : BitVec 26) : Statement (.jal off) := scalar_of (by unfold decScalarRaw; rw [jump_op, jump_off]; rfl) rfl rfl
theorem jalr (d a : Reg) (imm : BitVec 14) : Statement (.jalr d a imm) := scalar_of (by unfold decScalarRaw; rw [encI_op, encI_d, encI_a, encI_imm]; rfl) rfl rfl
theorem ldb (d a : Reg) (imm : BitVec 14) : Statement (.ldb d a imm) := scalar_of (by unfold decScalarRaw; rw [encI_op, encI_d, encI_a, encI_imm]; rfl) rfl rfl
theorem ldbu (d a : Reg) (imm : BitVec 14) : Statement (.ldbu d a imm) := scalar_of (by unfold decScalarRaw; rw [encI_op, encI_d, encI_a, encI_imm]; rfl) rfl rfl
theorem ldh (d a : Reg) (imm : BitVec 14) : Statement (.ldh d a imm) := scalar_of (by unfold decScalarRaw; rw [encI_op, encI_d, encI_a, encI_imm]; rfl) rfl rfl
theorem ldhu (d a : Reg) (imm : BitVec 14) : Statement (.ldhu d a imm) := scalar_of (by unfold decScalarRaw; rw [encI_op, encI_d, encI_a, encI_imm]; rfl) rfl rfl
theorem ldw (d a : Reg) (imm : BitVec 14) : Statement (.ldw d a imm) := scalar_of (by unfold decScalarRaw; rw [encI_op, encI_d, encI_a, encI_imm]; rfl) rfl rfl
theorem ldwu (d a : Reg) (imm : BitVec 14) : Statement (.ldwu d a imm) := scalar_of (by unfold decScalarRaw; rw [encI_op, encI_d, encI_a, encI_imm]; rfl) rfl rfl
theorem ldd (d a : Reg) (imm : BitVec 14) : Statement (.ldd d a imm) := scalar_of (by unfold decScalarRaw; rw [encI_op, encI_d, encI_a, encI_imm]; rfl) rfl rfl
theorem stb (a b : Reg) (off : BitVec 14) : Statement (.stb a b off) := scalar_of (by unfold decScalarRaw; rw [encI_op, encI_d, encI_a, encI_imm]; rfl) rfl rfl
theorem sth (a b : Reg) (off : BitVec 14) : Statement (.sth a b off) := scalar_of (by unfold decScalarRaw; rw [encI_op, encI_d, encI_a, encI_imm]; rfl) rfl rfl
theorem stw (a b : Reg) (off : BitVec 14) : Statement (.stw a b off) := scalar_of (by unfold decScalarRaw; rw [encI_op, encI_d, encI_a, encI_imm]; rfl) rfl rfl
theorem std (a b : Reg) (off : BitVec 14) : Statement (.std a b off) := scalar_of (by unfold decScalarRaw; rw [encI_op, encI_d, encI_a, encI_imm]; rfl) rfl rfl
theorem lda (d a : Reg) (sc : BitVec 4) (ord : BitVec 2) (dw : Bool) : Statement (.lda d a sc ord dw) := scalar_of (by unfold decScalarRaw; rw [encX_op, encX_d, encX_a, encX_b, encX_sc, encX_ord, encX_dw, encX_zero]; rfl) rfl rfl
theorem str (a b : Reg) (sc : BitVec 4) (ord : BitVec 2) (dw : Bool) : Statement (.str a b sc ord dw) := scalar_of (by unfold decScalarRaw; rw [encX_op, encX_d, encX_a, encX_b, encX_sc, encX_ord, encX_dw, encX_zero]; rfl) rfl rfl
theorem swap (d a b : Reg) (sc : BitVec 4) (ord : BitVec 2) (dw : Bool) : Statement (.swap d a b sc ord dw) := scalar_of (by unfold decScalarRaw; rw [encX_op, encX_d, encX_a, encX_b, encX_sc, encX_ord, encX_dw, encX_zero]; rfl) rfl rfl
theorem aadd (d a b : Reg) (sc : BitVec 4) (ord : BitVec 2) (dw : Bool) : Statement (.aadd d a b sc ord dw) := scalar_of (by unfold decScalarRaw; rw [encX_op, encX_d, encX_a, encX_b, encX_sc, encX_ord, encX_dw, encX_zero]; rfl) rfl rfl
theorem aand (d a b : Reg) (sc : BitVec 4) (ord : BitVec 2) (dw : Bool) : Statement (.aand d a b sc ord dw) := scalar_of (by unfold decScalarRaw; rw [encX_op, encX_d, encX_a, encX_b, encX_sc, encX_ord, encX_dw, encX_zero]; rfl) rfl rfl
theorem aor (d a b : Reg) (sc : BitVec 4) (ord : BitVec 2) (dw : Bool) : Statement (.aor d a b sc ord dw) := scalar_of (by unfold decScalarRaw; rw [encX_op, encX_d, encX_a, encX_b, encX_sc, encX_ord, encX_dw, encX_zero]; rfl) rfl rfl
theorem axor (d a b : Reg) (sc : BitVec 4) (ord : BitVec 2) (dw : Bool) : Statement (.axor d a b sc ord dw) := scalar_of (by unfold decScalarRaw; rw [encX_op, encX_d, encX_a, encX_b, encX_sc, encX_ord, encX_dw, encX_zero]; rfl) rfl rfl
theorem amin (d a b : Reg) (sc : BitVec 4) (ord : BitVec 2) (dw : Bool) : Statement (.amin d a b sc ord dw) := scalar_of (by unfold decScalarRaw; rw [encX_op, encX_d, encX_a, encX_b, encX_sc, encX_ord, encX_dw, encX_zero]; rfl) rfl rfl
theorem amax (d a b : Reg) (sc : BitVec 4) (ord : BitVec 2) (dw : Bool) : Statement (.amax d a b sc ord dw) := scalar_of (by unfold decScalarRaw; rw [encX_op, encX_d, encX_a, encX_b, encX_sc, encX_ord, encX_dw, encX_zero]; rfl) rfl rfl
theorem aminu (d a b : Reg) (sc : BitVec 4) (ord : BitVec 2) (dw : Bool) : Statement (.aminu d a b sc ord dw) := scalar_of (by unfold decScalarRaw; rw [encX_op, encX_d, encX_a, encX_b, encX_sc, encX_ord, encX_dw, encX_zero]; rfl) rfl rfl
theorem amaxu (d a b : Reg) (sc : BitVec 4) (ord : BitVec 2) (dw : Bool) : Statement (.amaxu d a b sc ord dw) := scalar_of (by unfold decScalarRaw; rw [encX_op, encX_d, encX_a, encX_b, encX_sc, encX_ord, encX_dw, encX_zero]; rfl) rfl rfl
theorem cas (d a b : Reg) (sc : BitVec 4) (ord : BitVec 2) (dw : Bool) : Statement (.cas d a b sc ord dw) := scalar_of (by unfold decScalarRaw; rw [encX_op, encX_d, encX_a, encX_b, encX_sc, encX_ord, encX_dw, encX_zero]; rfl) rfl rfl
theorem fence (sc : BitVec 4) (mask : BitVec 4) : Statement (.fence sc mask) := scalar_of (by unfold decScalarRaw; rw [encR_op, encR_d, encR_a, encR_b, encR_sc, encR_fk]; rfl) rfl rfl
theorem vdecl (d a b : Reg) : Statement (.vdecl d a b) := scalar_of (by unfold decScalarRaw; rw [encR_op, encR_d, encR_a, encR_b, encR_f]; rfl) rfl rfl
theorem vsett (d a : Reg) : Statement (.vsett d a) := scalar_of (by unfold decScalarRaw; rw [encR_op, encR_d, encR_a, encR_b, encR_f]; rfl) rfl rfl
theorem vsetl (d a : Reg) : Statement (.vsetl d a) := scalar_of (by unfold decScalarRaw; rw [encR_op, encR_d, encR_a, encR_b, encR_f]; rfl) rfl rfl
theorem vcoll (d a : Reg) : Statement (.vcoll d a) := scalar_of (by unfold decScalarRaw; rw [encR_op, encR_d, encR_a, encR_b, encR_f]; rfl) rfl rfl
theorem vfetch (a : Reg) : Statement (.vfetch a) := scalar_of (by unfold decScalarRaw; rw [encR_op, encR_d, encR_a, encR_b, encR_f]; rfl) rfl rfl
theorem vprot (d a : Reg) : Statement (.vprot d a) := scalar_of (by unfold decScalarRaw; rw [encR_op, encR_d, encR_a, encR_b, encR_f]; rfl) rfl rfl
theorem vsave (d a b : Reg) : Statement (.vsave d a b) := scalar_of (by unfold decScalarRaw; rw [encR_op, encR_d, encR_a, encR_b, encR_f]; rfl) rfl rfl
theorem vload (d a b : Reg) : Statement (.vload d a b) := scalar_of (by unfold decScalarRaw; rw [encR_op, encR_d, encR_a, encR_b, encR_f]; rfl) rfl rfl
theorem cpy (d a b : Reg) : Statement (.cpy d a b) := scalar_of (by unfold decScalarRaw; rw [encR_op, encR_d, encR_a, encR_b, encR_f]; rfl) rfl rfl
theorem cpyR (d a b : Reg) : Statement (.cpyR d a b) := scalar_of (by unfold decScalarRaw; rw [encR_op, encR_d, encR_a, encR_b, encR_f]; rfl) rfl rfl
theorem cpy2 (d a : Reg) : Statement (.cpy2 d a) := scalar_of (by unfold decScalarRaw; rw [encR_op, encR_d, encR_a, encR_b, encR_f]; rfl) rfl rfl
theorem cpy2R (d a : Reg) : Statement (.cpy2R d a) := scalar_of (by unfold decScalarRaw; rw [encR_op, encR_d, encR_a, encR_b, encR_f]; rfl) rfl rfl
theorem stream (d a : Reg) : Statement (.stream d a) := scalar_of (by unfold decScalarRaw; rw [encR_op, encR_d, encR_a, encR_b, encR_f]; rfl) rfl rfl
theorem streamx (a : Reg) : Statement (.streamx a) := scalar_of (by unfold decScalarRaw; rw [encR_op, encR_d, encR_a, encR_b, encR_f]; rfl) rfl rfl
theorem coll (d a : Reg) : Statement (.coll d a) := scalar_of (by unfold decScalarRaw; rw [encR_op, encR_d, encR_a, encR_b, encR_f]; rfl) rfl rfl
theorem tlread (d a : Reg) : Statement (.tlread d a) := scalar_of (by unfold decScalarRaw; rw [encR_op, encR_d, encR_a, encR_b, encR_f]; rfl) rfl rfl
theorem tlwait (a b : Reg) : Statement (.tlwait a b) := scalar_of (by unfold decScalarRaw; rw [encR_op, encR_d, encR_a, encR_b, encR_f]; rfl) rfl rfl
theorem syncw (d a b : Reg) : Statement (.syncw d a b) := scalar_of (by unfold decScalarRaw; rw [encR_op, encR_d, encR_a, encR_b, encR_f]; rfl) rfl rfl
theorem launch (d a : Reg) : Statement (.launch d a) := scalar_of (by unfold decScalarRaw; rw [encR_op, encR_d, encR_a, encR_b, encR_f]; rfl) rfl rfl
theorem graph (d a : Reg) : Statement (.graph d a) := scalar_of (by unfold decScalarRaw; rw [encR_op, encR_d, encR_a, encR_b, encR_f]; rfl) rfl rfl
theorem cancel (d a : Reg) : Statement (.cancel d a) := scalar_of (by unfold decScalarRaw; rw [encR_op, encR_d, encR_a, encR_b, encR_f]; rfl) rfl rfl
theorem cwait (d a b : Reg) : Statement (.cwait d a b) := scalar_of (by unfold decScalarRaw; rw [encR_op, encR_d, encR_a, encR_b, encR_f]; rfl) rfl rfl
theorem signal (d a b : Reg) : Statement (.signal d a b) := scalar_of (by unfold decScalarRaw; rw [encR_op, encR_d, encR_a, encR_b, encR_f]; rfl) rfl rfl
theorem qpush (a : Reg) (q : BitVec 3) : Statement (.qpush a q) := scalar_of (by unfold decScalarRaw; rw [encR_op, encR_d, encR_a, encR_b, encR_f]; show decQmov _ _ _ _ = _; unfold decQmov; rw [if_neg (queue_small q), queue_back]; rfl) rfl rfl
theorem qpop (d : Reg) (q : BitVec 3) : Statement (.qpop d q) := scalar_of (by unfold decScalarRaw; rw [encR_op, encR_d, encR_a, encR_b, encR_f]; show decQmov _ _ _ _ = _; unfold decQmov; rw [if_neg (queue_small q), queue_back]; rfl) rfl rfl
theorem qpeek (d : Reg) (q : BitVec 3) : Statement (.qpeek d q) := scalar_of (by unfold decScalarRaw; rw [encR_op, encR_d, encR_a, encR_b, encR_f]; show decQmov _ _ _ _ = _; unfold decQmov; rw [if_neg (queue_small q), queue_back]; rfl) rfl rfl
theorem qtry (d : Reg) (q : BitVec 3) : Statement (.qtry d q) := scalar_of (by unfold decScalarRaw; rw [encR_op, encR_d, encR_a, encR_b, encR_f]; show decQmov _ _ _ _ = _; unfold decQmov; rw [if_neg (queue_small q), queue_back]; rfl) rfl rfl
theorem sysr (d : Reg) (y : BitVec 12) : Statement (.sysr d y) := scalar_of (by unfold decScalarRaw; rw [encS_op, encS_d, encS_a, encS_k, encS_y]; rfl) rfl rfl
theorem sysw (a : Reg) (y : BitVec 12) : Statement (.sysw a y) := scalar_of (by unfold decScalarRaw; rw [encS_op, encS_d, encS_a, encS_k, encS_y]; rfl) rfl rfl
theorem sysset (d a : Reg) (y : BitVec 12) : Statement (.sysset d a y) := scalar_of (by unfold decScalarRaw; rw [encS_op, encS_d, encS_a, encS_k, encS_y]; rfl) rfl rfl
theorem sysclr (d a : Reg) (y : BitVec 12) : Statement (.sysclr d a y) := scalar_of (by unfold decScalarRaw; rw [encS_op, encS_d, encS_a, encS_k, encS_y]; rfl) rfl rfl
theorem trap (n : BitVec 6) : Statement (.trap n) := scalar_of (by unfold decScalarRaw; rw [encR_op, encR_d, encR_a, encR_b, encR_f]; rfl) rfl rfl
theorem wmark (d : Reg) : Statement (.wmark d) := scalar_of (by unfold decScalarRaw; rw [encR_op, encR_d, encR_a, encR_b, encR_f]; rfl) rfl rfl
theorem tmark (a : Reg) : Statement (.tmark a) := scalar_of (by unfold decScalarRaw; rw [encR_op, encR_d, encR_a, encR_b, encR_f]; rfl) rfl rfl
theorem vadd (v : VArgs) : Statement (.vadd v) := vector_of rfl rfl fun _ => rfl
theorem vsub (v : VArgs) : Statement (.vsub v) := vector_of rfl rfl fun _ => rfl
theorem vmul (v : VArgs) : Statement (.vmul v) := vector_of rfl rfl fun _ => rfl
theorem vmulh (v : VArgs) : Statement (.vmulh v) := vector_of rfl rfl fun _ => rfl
theorem vmin (v : VArgs) : Statement (.vmin v) := vector_of rfl rfl fun _ => rfl
theorem vmax (v : VArgs) : Statement (.vmax v) := vector_of rfl rfl fun _ => rfl
theorem vminu (v : VArgs) : Statement (.vminu v) := vector_of rfl rfl fun _ => rfl
theorem vmaxu (v : VArgs) : Statement (.vmaxu v) := vector_of rfl rfl fun _ => rfl
theorem vabs (v : VArgs) : Statement (.vabs v) := vector_of rfl rfl fun _ => rfl
theorem vneg (v : VArgs) : Statement (.vneg v) := vector_of rfl rfl fun _ => rfl
theorem vsadd (v : VArgs) : Statement (.vsadd v) := vector_of rfl rfl fun _ => rfl
theorem vssub (v : VArgs) : Statement (.vssub v) := vector_of rfl rfl fun _ => rfl
theorem vdiv (v : VArgs) : Statement (.vdiv v) := vector_of rfl rfl fun _ => rfl
theorem vand (v : VArgs) : Statement (.vand v) := vector_of rfl rfl fun _ => rfl
theorem vor (v : VArgs) : Statement (.vor v) := vector_of rfl rfl fun _ => rfl
theorem vxor (v : VArgs) : Statement (.vxor v) := vector_of rfl rfl fun _ => rfl
theorem vandn (v : VArgs) : Statement (.vandn v) := vector_of rfl rfl fun _ => rfl
theorem vnot (v : VArgs) : Statement (.vnot v) := vector_of rfl rfl fun _ => rfl
theorem vshl (v : VArgs) : Statement (.vshl v) := vector_of rfl rfl fun _ => rfl
theorem vshr (v : VArgs) : Statement (.vshr v) := vector_of rfl rfl fun _ => rfl
theorem vsha (v : VArgs) : Statement (.vsha v) := vector_of rfl rfl fun _ => rfl
theorem vclz (v : VArgs) : Statement (.vclz v) := vector_of rfl rfl fun _ => rfl
theorem vpopc (v : VArgs) : Statement (.vpopc v) := vector_of rfl rfl fun _ => rfl
theorem vfadd (v : VArgs) : Statement (.vfadd v) := vector_of rfl rfl fun _ => rfl
theorem vfsub (v : VArgs) : Statement (.vfsub v) := vector_of rfl rfl fun _ => rfl
theorem vfmul (v : VArgs) : Statement (.vfmul v) := vector_of rfl rfl fun _ => rfl
theorem vfmin (v : VArgs) : Statement (.vfmin v) := vector_of rfl rfl fun _ => rfl
theorem vfmax (v : VArgs) : Statement (.vfmax v) := vector_of rfl rfl fun _ => rfl
theorem vfabs (v : VArgs) : Statement (.vfabs v) := vector_of rfl rfl fun _ => rfl
theorem vfneg (v : VArgs) : Statement (.vfneg v) := vector_of rfl rfl fun _ => rfl
theorem vfsgn (v : VArgs) : Statement (.vfsgn v) := vector_of rfl rfl fun _ => rfl
theorem vexp2 (v : VArgs) : Statement (.vexp2 v) := vector_of rfl rfl fun _ => rfl
theorem vlog2 (v : VArgs) : Statement (.vlog2 v) := vector_of rfl rfl fun _ => rfl
theorem vrcp (v : VArgs) : Statement (.vrcp v) := vector_of rfl rfl fun _ => rfl
theorem vrsq (v : VArgs) : Statement (.vrsq v) := vector_of rfl rfl fun _ => rfl
theorem vsqrt (v : VArgs) : Statement (.vsqrt v) := vector_of rfl rfl fun _ => rfl
theorem vfdiv (v : VArgs) : Statement (.vfdiv v) := vector_of rfl rfl fun _ => rfl
theorem vfma (v : VArgs) : Statement (.vfma v) := vector_of rfl rfl fun _ => rfl
theorem vfms (v : VArgs) : Statement (.vfms v) := vector_of rfl rfl fun _ => rfl
theorem vfnma (v : VArgs) : Statement (.vfnma v) := vector_of rfl rfl fun _ => rfl
theorem vfnms (v : VArgs) : Statement (.vfnms v) := vector_of rfl rfl fun _ => rfl
theorem vcmpeq (v : VArgs) : Statement (.vcmpeq v) := vector_of rfl rfl fun _ => rfl
theorem vcmpne (v : VArgs) : Statement (.vcmpne v) := vector_of rfl rfl fun _ => rfl
theorem vcmplt (v : VArgs) : Statement (.vcmplt v) := vector_of rfl rfl fun _ => rfl
theorem vcmple (v : VArgs) : Statement (.vcmple v) := vector_of rfl rfl fun _ => rfl
theorem vcmpgt (v : VArgs) : Statement (.vcmpgt v) := vector_of rfl rfl fun _ => rfl
theorem vcmpge (v : VArgs) : Statement (.vcmpge v) := vector_of rfl rfl fun _ => rfl
theorem vcmpltu (v : VArgs) : Statement (.vcmpltu v) := vector_of rfl rfl fun _ => rfl
theorem vcmpleu (v : VArgs) : Statement (.vcmpleu v) := vector_of rfl rfl fun _ => rfl
theorem vcmpgtu (v : VArgs) : Statement (.vcmpgtu v) := vector_of rfl rfl fun _ => rfl
theorem vcmpgeu (v : VArgs) : Statement (.vcmpgeu v) := vector_of rfl rfl fun _ => rfl
theorem vfcmpeq (v : VArgs) : Statement (.vfcmpeq v) := vector_of rfl rfl fun _ => rfl
theorem vfcmpne (v : VArgs) : Statement (.vfcmpne v) := vector_of rfl rfl fun _ => rfl
theorem vfcmplt (v : VArgs) : Statement (.vfcmplt v) := vector_of rfl rfl fun _ => rfl
theorem vfcmple (v : VArgs) : Statement (.vfcmple v) := vector_of rfl rfl fun _ => rfl
theorem vfcmpgt (v : VArgs) : Statement (.vfcmpgt v) := vector_of rfl rfl fun _ => rfl
theorem vfcmpge (v : VArgs) : Statement (.vfcmpge v) := vector_of rfl rfl fun _ => rfl
theorem vfcmpun (v : VArgs) : Statement (.vfcmpun v) := vector_of rfl rfl fun _ => rfl
theorem vcvt (v : VArgs) : Statement (.vcvt v) := vector_of rfl rfl fun _ => rfl
theorem vscaleKa (v : VArgs) : Statement (.vscaleKa v) := vector_of rfl rfl fun _ => rfl
theorem vscaleKb (v : VArgs) : Statement (.vscaleKb v) := vector_of rfl rfl fun _ => rfl
theorem vmov (v : VArgs) : Statement (.vmov v) := vector_of rfl rfl fun _ => rfl
theorem vsplat (v : VArgs) : Statement (.vsplat v) := vector_of rfl rfl fun _ => rfl
theorem viota (v : VArgs) : Statement (.viota v) := vector_of rfl rfl fun _ => rfl
theorem vsel (v : VArgs) : Statement (.vsel v) := vector_of rfl rfl fun _ => rfl
theorem vgete (v : VArgs) : Statement (.vgete v) := vector_of rfl rfl fun _ => rfl
theorem vsete (v : VArgs) : Statement (.vsete v) := vector_of rfl rfl fun _ => rfl
theorem vrsum (v : VArgs) : Statement (.vrsum v) := vector_of rfl rfl fun _ => rfl
theorem vrsumo (v : VArgs) : Statement (.vrsumo v) := vector_of rfl rfl fun _ => rfl
theorem vrmax (v : VArgs) : Statement (.vrmax v) := vector_of rfl rfl fun _ => rfl
theorem vrmin (v : VArgs) : Statement (.vrmin v) := vector_of rfl rfl fun _ => rfl
theorem vrand (v : VArgs) : Statement (.vrand v) := vector_of rfl rfl fun _ => rfl
theorem vror (v : VArgs) : Statement (.vror v) := vector_of rfl rfl fun _ => rfl
theorem vscan (v : VArgs) : Statement (.vscan v) := vector_of rfl rfl fun _ => rfl
theorem vperm (v : VArgs) : Statement (.vperm v) := vector_of rfl rfl fun _ => rfl
theorem vslup (v : VArgs) : Statement (.vslup v) := vector_of rfl rfl fun _ => rfl
theorem vsldn (v : VArgs) : Statement (.vsldn v) := vector_of rfl rfl fun _ => rfl
theorem vcmpr (v : VArgs) : Statement (.vcmpr v) := vector_of rfl rfl fun _ => rfl
theorem vexpd (v : VArgs) : Statement (.vexpd v) := vector_of rfl rfl fun _ => rfl
theorem vrev (v : VArgs) : Statement (.vrev v) := vector_of rfl rfl fun _ => rfl
theorem vconfl (v : VArgs) : Statement (.vconfl v) := vector_of rfl rfl fun _ => rfl
theorem pand (v : VArgs) : Statement (.pand v) := vector_of rfl rfl fun _ => rfl
theorem por (v : VArgs) : Statement (.por v) := vector_of rfl rfl fun _ => rfl
theorem pxor (v : VArgs) : Statement (.pxor v) := vector_of rfl rfl fun _ => rfl
theorem pandn (v : VArgs) : Statement (.pandn v) := vector_of rfl rfl fun _ => rfl
theorem pnot (v : VArgs) : Statement (.pnot v) := vector_of rfl rfl fun _ => rfl
theorem pset (v : VArgs) : Statement (.pset v) := vector_of rfl rfl fun _ => rfl
theorem pclr (v : VArgs) : Statement (.pclr v) := vector_of rfl rfl fun _ => rfl
theorem pfirst (v : VArgs) : Statement (.pfirst v) := vector_of rfl rfl fun _ => rfl
theorem pcnt (v : VArgs) : Statement (.pcnt v) := vector_of rfl rfl fun _ => rfl
theorem plt (v : VArgs) : Statement (.plt v) := vector_of rfl rfl fun _ => rfl
theorem vld (v : VArgs) : Statement (.vld v) := vector_of rfl rfl fun _ => rfl
theorem vlds (v : VArgs) : Statement (.vlds v) := vector_of rfl rfl fun _ => rfl
theorem vldff (v : VArgs) : Statement (.vldff v) := vector_of rfl rfl fun _ => rfl
theorem vldseg (v : VArgs) : Statement (.vldseg v) := vector_of rfl rfl fun _ => rfl
theorem vst (v : VArgs) : Statement (.vst v) := vector_of rfl rfl fun _ => rfl
theorem vstu (v : VArgs) : Statement (.vstu v) := vector_of rfl rfl fun _ => rfl
theorem vsts (v : VArgs) : Statement (.vsts v) := vector_of rfl rfl fun _ => rfl
theorem vstseg (v : VArgs) : Statement (.vstseg v) := vector_of rfl rfl fun _ => rfl
theorem vldx (v : VArgs) : Statement (.vldx v) := vector_of rfl rfl fun _ => rfl
theorem vstx (v : VArgs) : Statement (.vstx v) := vector_of rfl rfl fun _ => rfl
theorem vstxa (v : VArgs) : Statement (.vstxa v) := vector_of rfl rfl fun _ => rfl
theorem vscldKa (v : VArgs) : Statement (.vscldKa v) := vector_of rfl rfl fun _ => rfl
theorem vscldKb (v : VArgs) : Statement (.vscldKb v) := vector_of rfl rfl fun _ => rfl
theorem mmode (v : VArgs) : Statement (.mmode v) := vector_of rfl rfl fun _ => rfl
theorem mfree (v : VArgs) : Statement (.mfree v) := vector_of rfl rfl fun _ => rfl
theorem mwld (v : VArgs) : Statement (.mwld v) := vector_of rfl rfl fun _ => rfl
theorem mmac (v : VArgs) : Statement (.mmac v) := vector_of rfl rfl fun _ => rfl
theorem mrsmac (v : VArgs) : Statement (.mrsmac v) := vector_of rfl rfl fun _ => rfl
theorem mdrain (v : VArgs) : Statement (.mdrain v) := vector_of rfl rfl fun _ => rfl
theorem mzeroMd (v : VArgs) : Statement (.mzeroMd v) := vector_of rfl rfl (mzeroMd_code v)
theorem mzeroArray (v : VArgs) : Statement (.mzeroArray v) := vector_of rfl rfl (mzeroArray_code v)
theorem mchain (v : VArgs) : Statement (.mchain v) := vector_of rfl rfl fun _ => rfl
theorem nopPacket (p : Packet) : Statement (.nopPacket p) := no_word rfl rfl
theorem jobnew (p : Packet) : Statement (.jobnew p) := no_word rfl rfl
theorem jobend (p : Packet) : Statement (.jobend p) := no_word rfl rfl
theorem phase (p : Packet) : Statement (.phase p) := no_word rfl rfl
theorem graphPacket (p : Packet) : Statement (.graphPacket p) := no_word rfl rfl
theorem launchPacket (p : Packet) : Statement (.launchPacket p) := no_word rfl rfl
theorem cancelPacket (p : Packet) : Statement (.cancelPacket p) := no_word rfl rfl
theorem reserve (p : Packet) : Statement (.reserve p) := no_word rfl rfl
theorem query (p : Packet) : Statement (.query p) := no_word rfl rfl
theorem packetFetch (q : BitVec 3) : Statement (.packetFetch q) := no_word rfl rfl
theorem packetRefetch (q : BitVec 3) : Statement (.packetRefetch q) := no_word rfl rfl
theorem ownerWrite (m : Master) (v : Word) : Statement (.ownerWrite m v) := no_word rfl rfl
theorem heartbeat (m : Master) (v : Word) : Statement (.heartbeat m v) := no_word rfl rfl
theorem sqtailWrite (m : Master) (q : BitVec 3) (v : Word) : Statement (.sqtailWrite m q v) := no_word rfl rfl
theorem sqEnable (m : Master) (q : BitVec 3) (v : Word) : Statement (.sqEnable m q v) := no_word rfl rfl
theorem sqDisable (m : Master) (q : BitVec 3) (v : Word) : Statement (.sqDisable m q v) := no_word rfl rfl
theorem registerWrite (m : Master) (off : BitVec 14) (v : Word) : Statement (.registerWrite m off v) := no_word rfl rfl
theorem linkidleWrite (m : Master) (l : BitVec 4) (v : Word) : Statement (.linkidleWrite m l v) := no_word rfl rfl
theorem i3cRegisterWrite (bytes : List Byte) : Statement (.i3cRegisterWrite bytes) := no_word rfl rfl
theorem i3cRegisterRead (bytes : List Byte) : Statement (.i3cRegisterRead bytes) := no_word rfl rfl
theorem rtCommit (m : Master) (v : Word) : Statement (.rtCommit m v) := no_word rfl rfl
theorem shootDown (m : Master) (v : Word) : Statement (.shootDown m v) := no_word rfl rfl
theorem bufvAdvance (m : Master) (v : Word) : Statement (.bufvAdvance m v) := no_word rfl rfl
theorem poolcfgWrite (m : Master) (die : BitVec 2) (hi : Bool) (v : Word) : Statement (.poolcfgWrite m die hi v) := no_word rfl rfl
theorem podcfgWrite (m : Master) (v : Word) : Statement (.podcfgWrite m v) := no_word rfl rfl
theorem vsscfgWrite (m : Master) (v : Word) : Statement (.vsscfgWrite m v) := no_word rfl rfl
theorem epAging (slot : BitVec 13) : Statement (.epAging slot) := no_word rfl rfl
theorem placementClaim (slot : BitVec 13) : Statement (.placementClaim slot) := no_word rfl rfl
theorem strandStart (k : SId) : Statement (.strandStart k) := no_word rfl rfl
theorem preemptStop (k : SId) : Statement (.preemptStop k) := no_word rfl rfl
theorem notifyWrite (slot : BitVec 13) : Statement (.notifyWrite slot) := no_word rfl rfl
theorem nodeDecide (g : BitVec 13) (n : BitVec 12) : Statement (.nodeDecide g n) := no_word rfl rfl
theorem waitNodePoll (g : BitVec 13) (n : BitVec 12) : Statement (.waitNodePoll g n) := no_word rfl rfl
theorem waitNodeTimeout (g : BitVec 13) (n : BitVec 12) : Statement (.waitNodeTimeout g n) := no_word rfl rfl
theorem copyNodeComplete (g : BitVec 13) (n : BitVec 12) : Statement (.copyNodeComplete g n) := no_word rfl rfl
theorem vectorTrap (k : SId) : Statement (.vectorTrap k) := no_word rfl rfl
theorem cancelDelivery (k : SId) : Statement (.cancelDelivery k) := no_word rfl rfl
theorem cancelTimeout (k : SId) : Statement (.cancelTimeout k) := no_word rfl rfl
theorem laneGroupIssue (core : BitVec 7) (lg : BitVec 4) : Statement (.laneGroupIssue core lg) := no_word rfl rfl
theorem vectorRetire (k : SId) : Statement (.vectorRetire k) := no_word rfl rfl
theorem retarget (k : SId) (ticket : Word) : Statement (.retarget k ticket) := no_word rfl rfl
theorem copyComplete (k : SId) (ticket : Word) : Statement (.copyComplete k ticket) := no_word rfl rfl
theorem syncWordUpdate (k : SId) (ticket : Word) : Statement (.syncWordUpdate k ticket) := no_word rfl rfl
theorem stripLand (k : SId) (ticket : Word) : Statement (.stripLand k ticket) := no_word rfl rfl
theorem chainTimeout (k : SId) : Statement (.chainTimeout k) := no_word rfl rfl
theorem chainStartTimeout (k : SId) : Statement (.chainStartTimeout k) := no_word rfl rfl
theorem wfeTimeout (k : SId) : Statement (.wfeTimeout k) := no_word rfl rfl
theorem linkSleep (l : BitVec 4) : Statement (.linkSleep l) := no_word rfl rfl
theorem linkWake (l : BitVec 4) : Statement (.linkWake l) := no_word rfl rfl
theorem linkWakeComplete (l : BitVec 4) : Statement (.linkWakeComplete l) := no_word rfl rfl
theorem snoopResend (l : BitVec 4) : Statement (.snoopResend l) := no_word rfl rfl
theorem wakeFail (l : BitVec 4) : Statement (.wakeFail l) := no_word rfl rfl
theorem dieFailed (die : BitVec 4) : Statement (.dieFailed die) := no_word rfl rfl
theorem uncorrectableError (e : ErrSite) : Statement (.uncorrectableError e) := no_word rfl rfl
theorem scrubPass (die : BitVec 2) (fixed bad : List Nat) : Statement (.scrubPass die fixed bad) := no_word rfl rfl
theorem flitAccept (port : BitVec 6) (bytes : List Byte) : Statement (.flitAccept port bytes) := no_word rfl rfl
theorem ackTimeout (port : BitVec 6) : Statement (.ackTimeout port) := no_word rfl rfl
theorem linkTrained (port : BitVec 6) (t : Trained) : Statement (.linkTrained port t) := no_word rfl rfl
theorem trainingAttemptTimeout (port : BitVec 6) : Statement (.trainingAttemptTimeout port) := no_word rfl rfl
theorem linkDownRetry (port : BitVec 6) : Statement (.linkDownRetry port) := no_word rfl rfl
theorem rowStale (dev : BitVec 9) : Statement (.rowStale dev) := no_word rfl rfl
theorem transactionReissue (tid : Word) : Statement (.transactionReissue tid) := no_word rfl rfl
theorem admitRetry (tid : Word) : Statement (.admitRetry tid) := no_word rfl rfl
theorem readMsg (msg : Msg) : Statement (.readMsg msg) := no_word rfl rfl
theorem writeMsg (msg : Msg) : Statement (.writeMsg msg) := no_word rfl rfl
theorem atomicMsg (msg : Msg) : Statement (.atomicMsg msg) := no_word rfl rfl
theorem addMsg (msg : Msg) : Statement (.addMsg msg) := no_word rfl rfl
theorem responseMsg (msg : Msg) : Statement (.responseMsg msg) := no_word rfl rfl
theorem admitMsg (msg : Msg) : Statement (.admitMsg msg) := no_word rfl rfl
theorem admitansMsg (msg : Msg) : Statement (.admitansMsg msg) := no_word rfl rfl
theorem noticeMsg (msg : Msg) : Statement (.noticeMsg msg) := no_word rfl rfl
theorem matchMsg (msg : Msg) : Statement (.matchMsg msg) := no_word rfl rfl
theorem stopMsg (msg : Msg) : Statement (.stopMsg msg) := no_word rfl rfl
theorem agreqMsg (msg : Msg) : Statement (.agreqMsg msg) := no_word rfl rfl
theorem proposeMsg (msg : Msg) : Statement (.proposeMsg msg) := no_word rfl rfl
theorem answerMsg (msg : Msg) : Statement (.answerMsg msg) := no_word rfl rfl
theorem commitMsg (msg : Msg) : Statement (.commitMsg msg) := no_word rfl rfl
theorem cackMsg (msg : Msg) : Statement (.cackMsg msg) := no_word rfl rfl
theorem resumeMsg (msg : Msg) : Statement (.resumeMsg msg) := no_word rfl rfl
theorem memberLost (ctx grp : BitVec 16) (rank : BitVec 9) : Statement (.memberLost ctx grp rank) := no_word rfl rfl
theorem chunkMsg (msg : Msg) : Statement (.chunkMsg msg) := no_word rfl rfl
theorem writtenMsg (msg : Msg) : Statement (.writtenMsg msg) := no_word rfl rfl
theorem doneMsg (msg : Msg) : Statement (.doneMsg msg) := no_word rfl rfl
theorem doorbellPoll (qp : BitVec 12) : Statement (.doorbellPoll qp) := no_word rfl rfl
theorem sendRingEntry (qp : BitVec 12) : Statement (.sendRingEntry qp) := no_word rfl rfl
theorem incomingSend (p : RdmaPkt) : Statement (.incomingSend p) := no_word rfl rfl
theorem incomingRdmaWrite (p : RdmaPkt) : Statement (.incomingRdmaWrite p) := no_word rfl rfl
theorem incomingRdmaRead (p : RdmaPkt) : Statement (.incomingRdmaRead p) := no_word rfl rfl
theorem rnrNakReceived (p : RdmaPkt) : Statement (.rnrNakReceived p) := no_word rfl rfl
theorem invalidRequestNak (p : RdmaPkt) : Statement (.invalidRequestNak p) := no_word rfl rfl
theorem sequenceNak (p : RdmaPkt) : Statement (.sequenceNak p) := no_word rfl rfl
theorem rdmaRetransmitTimeout (qp : BitVec 12) : Statement (.rdmaRetransmitTimeout qp) := no_word rfl rfl
theorem cnpReceived (qp : BitVec 12) : Statement (.cnpReceived qp) := no_word rfl rfl
theorem rateIncrease (qp : BitVec 12) : Statement (.rateIncrease qp) := no_word rfl rfl
theorem dbgOpen (m : Master) (v : Word) : Statement (.dbgOpen m v) := no_word rfl rfl
theorem dbgHold (m : Master) (v : Word) : Statement (.dbgHold m v) := no_word rfl rfl
theorem dbgResume (m : Master) (v : Word) : Statement (.dbgResume m v) := no_word rfl rfl
theorem dbgClose (m : Master) (v : Word) : Statement (.dbgClose m v) := no_word rfl rfl
theorem dbgdataWrite (m : Master) (v : Word) : Statement (.dbgdataWrite m v) := no_word rfl rfl
theorem rstep (m : Master) (v : Word) : Statement (.rstep m v) := no_word rfl rfl
theorem rwind (m : Master) (v : Word) : Statement (.rwind m v) := no_word rfl rfl
theorem rdrop (m : Master) (v : Word) : Statement (.rdrop m v) := no_word rfl rfl
theorem traceOpen (m : Master) (v : Word) : Statement (.traceOpen m v) := no_word rfl rfl
theorem traceClose (m : Master) (v : Word) : Statement (.traceClose m v) := no_word rfl rfl
theorem attestGo (m : Master) (v : Word) : Statement (.attestGo m v) := no_word rfl rfl
theorem clockThrottle (mhz : BitVec 16) : Statement (.clockThrottle mhz) := no_word rfl rfl
theorem temperatureSample (temps : List Int) : Statement (.temperatureSample temps) := no_word rfl rfl
theorem undervoltStep (d : BitVec 6) : Statement (.undervoltStep d) := no_word rfl rfl
theorem errorRateCrossing (d : BitVec 6) : Statement (.errorRateCrossing d) := no_word rfl rfl
theorem remeasureEnd (d : BitVec 6) : Statement (.remeasureEnd d) := no_word rfl rfl
theorem holdExpiry (d : BitVec 6) : Statement (.holdExpiry d) := no_word rfl rfl
theorem d3hotEntry (m : Master) : Statement (.d3hotEntry m) := no_word rfl rfl
theorem d0Entry (m : Master) : Statement (.d0Entry m) := no_word rfl rfl
theorem illegalWord (w : BitVec 32) : Statement (.illegalWord w) := no_word rfl rfl
theorem instructionFetchFault (code : Byte) : Statement (.instructionFetchFault code) := no_word rfl rfl
theorem linkRetrainEnd (l : BitVec 4) (ok : Bool) : Statement (.linkRetrainEnd l ok) := no_word rfl rfl
theorem correctedError (e : ErrSite) : Statement (.correctedError e) := no_word rfl rfl
theorem voltageDroop (d : BitVec 6) : Statement (.voltageDroop d) := no_word rfl rfl
theorem i3cDynamicAddress (addr : BitVec 7) : Statement (.i3cDynamicAddress addr) := no_word rfl rfl
theorem rdmaAckReceived (p : RdmaPkt) : Statement (.rdmaAckReceived p) := no_word rfl rfl
theorem rdmaReadResponse (p : RdmaPkt) : Statement (.rdmaReadResponse p) := no_word rfl rfl
theorem incomingAtomicRequest (p : RdmaPkt) : Statement (.incomingAtomicRequest p) := no_word rfl rfl
theorem rnrTimerExpiry (qp : BitVec 12) : Statement (.rnrTimerExpiry qp) := no_word rfl rfl
theorem pfcPauseFrame (port : BitVec 2) (prio : BitVec 3) (paused : Bool) : Statement (.pfcPauseFrame port prio paused) := no_word rfl rfl
theorem vreplay : Statement (.vreplay) := scalar_of (by unfold decScalarRaw; rw [encR_op, encR_d, encR_a, encR_b, encR_f]; rfl) rfl rfl
theorem vsync : Statement (.vsync) := scalar_of (by unfold decScalarRaw; rw [encR_op, encR_d, encR_a, encR_b, encR_f]; rfl) rfl rfl
theorem eret : Statement (.eret) := scalar_of (by unfold decScalarRaw; rw [encR_op, encR_d, encR_a, encR_b, encR_f]; rfl) rfl rfl
theorem halt : Statement (.halt) := scalar_of (by unfold decScalarRaw; rw [encR_op, encR_d, encR_a, encR_b, encR_f]; rfl) rfl rfl
theorem yield : Statement (.yield) := scalar_of (by unfold decScalarRaw; rw [encR_op, encR_d, encR_a, encR_b, encR_f]; rfl) rfl rfl
theorem wfe : Statement (.wfe) := scalar_of (by unfold decScalarRaw; rw [encR_op, encR_d, encR_a, encR_b, encR_f]; rfl) rfl rfl
theorem iflush : Statement (.iflush) := scalar_of (by unfold decScalarRaw; rw [encR_op, encR_d, encR_a, encR_b, encR_f]; rfl) rfl rfl
theorem vstop : Statement (.vstop) := vector_of rfl rfl fun _ => rfl
theorem vnop : Statement (.vnop) := vector_of rfl rfl fun _ => rfl
theorem heartbeatLapse : Statement (.heartbeatLapse) := no_word rfl rfl
theorem placerPass : Statement (.placerPass) := no_word rfl rfl
theorem noticeOriginate : Statement (.noticeOriginate) := no_word rfl rfl
theorem holdComplete : Statement (.holdComplete) := no_word rfl rfl
theorem rstepBlockTimeout : Statement (.rstepBlockTimeout) := no_word rfl rfl
theorem queueResetTruncate : Statement (.queueResetTruncate) := no_word rfl rfl
theorem deviceReset : Statement (.deviceReset) := no_word rfl rfl
theorem lifetimeFlush : Statement (.lifetimeFlush) := no_word rfl rfl
theorem poweredHour : Statement (.poweredHour) := no_word rfl rfl
theorem orderlyPowerDown : Statement (.orderlyPowerDown) := no_word rfl rfl
theorem powerLoss : Statement (.powerLoss) := no_word rfl rfl

end Sys2Proof.Laws.Enc

open Sys2Proof Sys2Proof.Laws.Enc in
theorem Sys2Proof.Laws.Enc.break (n : BitVec 6) : Statement (.break n) := scalar_of (by unfold decScalarRaw; rw [encR_op, encR_d, encR_a, encR_b, encR_f]; rfl) rfl rfl
end

