-- ==== Sys2Proof/Laws/Vector.lean ====
section
/-! SUPPORT. What the shared operations of vector instructions do: readiness at issue, writing elements and predicate bits with the tail,
and the element-wise, all-or-nothing and reducing shapes (R138 to R140, R203, R204, R213, R216). -/

namespace Sys2Proof.Machine

set_option Elab.async false

/-! ### The entry -/

/-- An execution's entry changes nothing of the state but the queue. -/
theorem State.entryFor_state (s : State) (i : Instr) : (s.entryFor i).2.2 = { s with me := { s.me with q := (s.entryFor i).2.2.me.q } } := by
  simp only [State.entryFor]
  split
  · split <;> rfl
  · rfl

theorem State.entryFor_eq (s : State) (i : Instr) :
    s.entryFor i = ((s.entryFor i).1, s.atEntry i, { s with me := { s.me with q := (s.entryFor i).2.2.me.q } }) := by
  rw [← State.entryFor_state]; rfl

/-- The state in which an instruction issues. -/
abbrev State.issuing (s : State) (i : Instr) : State := { s with me := { s.me with q := (s.entryFor i).2.2.me.q } }

/-- The entry as it issues: with the lane groups that serve it. -/
def State.issuingEntry (s : State) (i : Instr) : QEntry := { s.atEntry i with lanes := some (s.entryLanes i) }

theorem List.find?_false {α : Type} (l : List α) (p : α → Bool) (h : ∀ x ∈ l, p x = false) : l.find? p = none := by
  rw [List.find?_eq_none]
  intro x hx
  simp [h x hx]

/-- Whose the strand's parts are does not depend on its queue (R415). -/
theorem State.foreignIn_queue (s : State) (q : List QEntry) (mask : Nat) :
    ({ s with me := { s.me with q := q } } : State).foreignIn mask = s.foreignIn mask := by
  have owners : ({ s with me := { s.me with q := q } } : State).ownersBeside { s.me with q := q } = s.ownersBeside s.me := by
    unfold State.ownersBeside State.allStrands
    rw [List.filter_cons_of_neg (by simp), List.filter_cons_of_neg (by simp)]
  show Nat.land (Strand.foreignAmong _ _) mask = Nat.land (Strand.foreignAmong _ _) mask
  rw [owners]; rfl

/-- A ready instruction is performed (R140). -/
theorem State.issue_ready (s : State) (i : Instr) (needs : VCtx → QEntry → Needs) (go : VCtx → Nat → QEntry → State → Out)
    (h : s.VReady i (needs (s.entryCtx i) (s.atEntry i))) :
    s.issue i needs go = go (s.entryCtx i) (s.entryFor i).1 (s.issuingEntry i) (s.issuing i) := by
  unfold State.issue
  rw [State.entryFor_eq]
  have ctx : State.vctx (s.issuing i) (s.atEntry i) = s.entryCtx i := rfl
  have own : State.foreignIn (s.issuing i) ((needs (s.entryCtx i) (s.atEntry i)).parts i) = 0 := (State.foreignIn_queue s _ _).trans h.own
  have ops : (needs (s.entryCtx i) (s.atEntry i)).ops.all (fun o => State.operandOk (s.issuing i) (s.entryCtx i) o.2 o.1) = true :=
    List.all_eq_true.2 fun o ho => h.operands o ho
  have lanes : ((s.atEntry i).lanes.getD (Core.lanes s.core (s.entryCtx i).vpm)).isEmpty = false := by
    have := h.lanes
    unfold State.entryLanes at this
    cases e : (s.atEntry i).lanes.getD (Core.lanes s.core (s.entryCtx i).vpm) with
    | nil => exact absurd e this
    | cons => rfl
  have preds : State.badPred (s.issuing i) (needs (s.entryCtx i) (s.atEntry i)).preds = none := by
    unfold State.badPred
    rw [List.find?_false]
    · rfl
    · intro p hp
      by_cases hz : p = 0
      · simp [hz]
      · have := h.preds p hp hz
        simp [this]
  have dest : ((vScalarDest i).any (Strand.asyncDests (s.issuing i).me).contains) = false := by
    cases e : vScalarDest i with
    | none => rfl
    | some d =>
      have : ((Strand.asyncDests (s.issuing i).me).contains d) = false := by
        rw [show Strand.asyncDests (s.issuing i).me = s.me.asyncDests from rfl]
        simpa using h.dest d e
      exact this
  simp only [ctx, own, ops, preds, dest, lanes]
  rfl

/-! ### Writing a register group -/

theorem VReg.put_nil (r : VReg) (f : Fmt) : r.put f [] = r := by
  have : badAfter f r.bad [] [] = r.bad := by simp [badAfter]
  unfold VReg.put
  simp only [List.foldl_nil, this]

/-- What one step over a group does to each register. -/
theorem vget_group {α : Type} {n : Nat} (d : α) (v : Nat) (F : Nat → α → α) (one : Vector α n → Nat → Vector α n)
    (h : ∀ rs j r, vget (one rs j) r d = if v + j = r ∧ r < n then F j (vget rs r d) else vget rs r d) (g : Nat) (rs : Vector α n) (r : Nat) :
    vget ((List.range g).foldl one rs) r d = if v ≤ r ∧ r < v + g ∧ r < n then F (r - v) (vget rs r d) else vget rs r d := by
  induction g with
  | zero => rw [if_neg (by omega)]; rfl
  | succ g ih =>
    rw [List.range_succ, List.foldl_append, List.foldl_cons, List.foldl_nil, h, ih]
    by_cases e : v + g = r ∧ r < n
    · rw [if_pos e, if_neg (by omega), if_pos (by omega), show r - v = g by omega]
    · rw [if_neg e]
      by_cases k : v ≤ r ∧ r < v + g ∧ r < n
      · rw [if_pos k, if_pos (by omega)]
      · rw [if_neg k, if_neg (by omega)]

/-- The puts that fall on register j of a group. -/
abbrev putsAt (c : VCtx) (ws : List Put) (j : Nat) : List Put := putsIn c.mvl j ws

theorem afterPuts_at (c : VCtx) (ws : List Put) (k old : Nat) (_hm : 0 < c.mvl) :
    afterPuts c.f (k % c.mvl) (putsAt c ws (k / c.mvl)) old = afterPuts c.f k ws old := by
  induction ws generalizing old with
  | nil => rfl
  | cons w t ih =>
    have split_ : ∀ a : Nat, (a / c.mvl = k / c.mvl ∧ a % c.mvl = k % c.mvl) ↔ a = k := by
      intro a
      constructor
      · rintro ⟨h1, h2⟩
        rw [← Nat.div_add_mod a c.mvl, ← Nat.div_add_mod k c.mvl, h1, h2]
      · rintro rfl; exact ⟨rfl, rfl⟩
    rw [show afterPuts c.f k (w :: t) old = afterPuts c.f k t (if w.i = k then c.f.pad w.x else old) from rfl, ← ih]
    unfold putsAt putsIn
    by_cases e : w.i / c.mvl = k / c.mvl
    · rw [List.filter_cons_of_pos (by simpa using e), List.map_cons]
      rw [show ∀ (a : Put) (l : List Put), afterPuts c.f (k % c.mvl) (a :: l) old =
        afterPuts c.f (k % c.mvl) l (if a.i = k % c.mvl then c.f.pad a.x else old) from fun _ _ => rfl]
      congr 1
      by_cases g : w.i = k
      · rw [if_pos g, if_pos (by rw [g])]
      · rw [if_neg g, if_neg (fun h => g ((split_ _).1 ⟨e, h⟩))]
    · rw [List.filter_cons_of_neg (by simpa using e), if_neg (fun h => e (by rw [h]))]

/-- The registers after elements of a group are written. -/
theorem State.putAll_regs (s : State) (c : VCtx) (v : Nat) (ws : List Put) (r : Nat) :
    vget (s.putAll c (.reg v) ws).me.vs.regs r {} =
      if v ≤ r ∧ r < v + c.g ∧ r < 64 then (vget s.me.vs.regs r {}).put c.f (putsAt c ws (r - v)) else vget s.me.vs.regs r {} := by
  refine vget_group ({} : VReg) v (fun j x => x.put c.f (putsAt c ws j)) _ (fun rs j r => ?_) c.g _ r
  show vget (if (putsAt c ws j).isEmpty then rs else vset rs (v + j) ((vget rs (v + j) {}).put c.f (putsAt c ws j))) r {} = _
  split
  · next h =>
    have e : putsAt c ws j = [] := List.isEmpty_iff.1 h
    rw [e, VReg.put_nil]
    split <;> rfl
  · rw [vget_vset]
    split
    · next h => rw [h.1]
    · rfl

/-- The height of the elements written. -/
def topOf (ws : List Put) : Nat := (ws.map fun w => w.i + 1).foldl max 0

/-- The registers after the tail of a group (R204). -/
theorem State.tail_regs (s : State) (c : VCtx) (v : Nat) (ws : List Put) (r : Nat) :
    vget (s.tail c (.reg v) ws).me.vs.regs r {} =
      if c.ta = true ∧ v ≤ r ∧ r < v + c.g ∧ r < 64 then
        (vget s.me.vs.regs r {}).setMark (max (min (vget s.me.vs.regs r {}).mark (min c.mvl (c.vl - (r - v) * c.mvl))) (topOf (putsAt c ws (r - v))))
      else vget s.me.vs.regs r {} := by
  unfold State.tail
  by_cases h : c.ta = true
  · rw [if_neg (by simp [h])]
    simp only [h, true_and]
    refine vget_group ({} : VReg) v (fun j x => x.setMark (max (min x.mark (min c.mvl (c.vl - j * c.mvl))) (topOf (putsAt c ws j)))) _
      (fun rs j r => ?_) c.g _ r
    show vget (vset rs (v + j) _) r {} = _
    rw [vget_vset]
    split
    · next h => rw [h.1]; rfl
    · rfl
  · rw [if_pos (by simp [h]), if_neg (fun k => h k.1)]

theorem le_foldl_max (l : List Nat) (x a : Nat) (h : x ∈ l ∨ x ≤ a) : x ≤ l.foldl max a := by
  induction l generalizing a with
  | nil => rcases h with h | h
           · cases h
           · exact h
  | cons y t ih =>
    rw [List.foldl_cons]
    apply ih
    rcases h with h | h
    · rcases List.mem_cons.1 h with rfl | h
      · right; exact Nat.le_max_right _ _
      · left; exact h
    · right; exact Nat.le_trans h (Nat.le_max_left _ _)

theorem lt_topOf (ws : List Put) (w : Put) (h : w ∈ ws) : w.i < topOf ws := le_foldl_max _ _ _ (.inl (List.mem_map.2 ⟨w, h, rfl⟩))

/-- The state after elements are written to a destination, with the tail. -/
abbrev State.written (s : State) (c : VCtx) (v : VArgs) (d : Dest) (ws : List Put) : State := ((s.putAll c d ws).tail c d ws).healPred c v d

/-- An element of a register group after writes, where one of them falls on it or it lay below the mark (R204). -/
theorem State.written_reg (s : State) (c : VCtx) (a : VArgs) (v : Nat) (ws : List Put) (k : Nat) (hf : c.f.valid = true) (hg : v + c.g ≤ 64)
    (hk : k < c.vl) (hv : c.vl ≤ c.g * c.mvl) (h : (∃ w ∈ ws, w.i = k) ∨ k % c.mvl < (vget s.me.vs.regs (v + k / c.mvl) {}).mark) :
    ((s.written c a (.reg v) ws).elem c c.f (.reg v) k).1 = afterPuts c.f k ws (s.elem c c.f (.reg v) k).1 := by
  have hm : 0 < c.mvl := by
    rcases Nat.eq_zero_or_pos c.mvl with e | e
    · rw [e] at hv; omega
    · exact e
  have hj : k / c.mvl < c.g := (Nat.div_lt_iff_lt_mul hm).2 (by omega)
  have hr : v ≤ v + k / c.mvl ∧ v + k / c.mvl < v + c.g ∧ v + k / c.mvl < 64 :=
    ⟨Nat.le_add_right _ _, Nat.add_lt_add_left hj v, Nat.lt_of_lt_of_le (Nat.add_lt_add_left hj v) hg⟩
  have hs : v + k / c.mvl - v = k / c.mvl := Nat.add_sub_cancel_left _ _
  show VReg.pat (vget (State.tail (s.putAll c (.reg v) ws) c (.reg v) ws).me.vs.regs (v + k / c.mvl) {}) c.f (k % c.mvl) = _
  have core : VReg.pat (vget (s.putAll c (.reg v) ws).me.vs.regs (v + k / c.mvl) {}) c.f (k % c.mvl) = afterPuts c.f k ws (s.elem c c.f (.reg v) k).1 := by
    rw [State.putAll_regs, if_pos hr, hs, VReg.pat_put _ _ _ _ hf, afterPuts_at c ws k _ hm]
    rfl
  rw [State.tail_regs]
  split
  · rw [VReg.pat_setMark, core]
    rw [hs]
    have hmod := Nat.mod_lt k hm
    have hdm := Nat.div_add_mod k c.mvl
    rw [Nat.mul_comm] at hdm
    rcases h with ⟨w, hw, hi⟩ | h
    · apply Nat.lt_of_lt_of_le _ (Nat.le_max_right _ _)
      have := lt_topOf (putsAt c ws (k / c.mvl)) { w with i := w.i % c.mvl }
        (List.mem_map.2 ⟨w, List.mem_filter.2 ⟨hw, by simp [hi]⟩, rfl⟩)
      simpa [hi] using this
    · apply Nat.lt_of_lt_of_le _ (Nat.le_max_left _ _)
      apply Nat.lt_min.2
      refine ⟨?_, Nat.lt_min.2 ⟨hmod, by omega⟩⟩
      rw [State.putAll_regs, if_pos hr]
      exact (VReg.mark_put _ _ _ _).2 (.inl h)
  · exact core

/-- An element of an accumulator after writes (R212). -/
theorem State.written_acc (s : State) (c : VCtx) (a : VArgs) (m : Nat) (ws : List Put) (k : Nat) (hf : c.f.valid = true) (hm : m < 16) :
    ((s.written c a (.acc m) ws).elem c c.f (.acc m) k).1 = afterPuts c.f k ws (s.elem c c.f (.acc m) k).1 := by
  have e : (s.written c a (.acc m) ws).me.vs.accs = vset s.me.vs.accs m ((vget s.me.vs.accs m {}).put c.f ws) := by
    have : (s.putAll c (.acc m) ws).tail c (.acc m) ws = s.putAll c (.acc m) ws := by unfold State.tail; cases c.ta <;> rfl
    unfold State.written
    rw [this]
    rfl
  show c.f.load (vget (s.written c a (.acc m) ws).me.vs.accs m {}).data k = _
  rw [e, vget_vset, if_pos ⟨rfl, hm⟩, Acc.load_put _ _ _ _ hf]
  rfl

/-! ### Element-wise instructions -/

/-- What an element-wise instruction that nothing stops writes: every active element, and zeros under Z. -/
def State.elemPuts (s : State) (c : VCtx) (v : VArgs) (work : Nat → Elt) : List Put :=
  ((s.activeIdx c v).map fun i => ⟨i, (work i).x, (work i).carry⟩) ++
    (if v.z then ((List.range c.vl).filter fun i => !s.active v i).map fun i => ⟨i, 0, false⟩ else [])

theorem State.clearSdc_none (s : State) (h : s.me.due.sdc = none) : s.clearSdc = s := by
  unfold State.clearSdc State.setMe
  rw [← h]

/-- An element-wise instruction whose consumed sources carry no poison performs all its elements (R213). -/
theorem State.runElems_clean (s : State) (c : VCtx) (n : Nat) (e : QEntry) (v : VArgs) (d : Dest) (eb : Nat) (work : Nat → Elt)
    (fresh : e.rest = none) (unwritten : e.clean = 0 ∧ e.soiled = 0) (agree : s.me.due.sdc = none) (clean : ∀ k, k < c.vl → s.active v k = true → (work k).bad = false) :
    s.runElems c n e v d eb work =
      .next ((s.written c v d (s.elemPuts c v work)).complete n e (((s.activeIdx c v).map fun k => (work k).flags).foldl Nat.lor 0)) := by
  have todo : (List.range c.vl).filter (e.remains eb) = List.range c.vl := by
    rw [List.filter_eq_self]; intro i _; simp [QEntry.remains, fresh]
  have mis : s.miscomputes c v = none := by unfold State.miscomputes; rw [agree]; split <;> rfl
  have poisoned : ((((List.range c.vl).filter (s.active v)).map fun i => (i, work i)).filter (·.2.bad)) = [] := by
    rw [List.filter_eq_nil_iff]
    intro a ha
    obtain ⟨i, hi, rfl⟩ := List.mem_map.1 ha
    have := List.mem_filter.1 hi
    simp [clean i (List.mem_range.1 this.1) this.2]
  have old : e.old = [] := by simp [QEntry.old, unwritten.1, unwritten.2, putsOf]
  unfold State.runElems
  simp only [todo, mis, poisoned, old, List.nil_append, State.clearSdc_none s agree, List.map_nil, List.append_nil, List.isEmpty_nil, if_true, List.map_map]
  rfl

theorem State.mem_elemPuts (s : State) (c : VCtx) (v : VArgs) (work : Nat → Elt) (w : Put) :
    w ∈ s.elemPuts c v work ↔ (w.i < c.vl ∧ s.active v w.i = true ∧ w.x = (work w.i).x ∧ w.bad = (work w.i).carry) ∨
      (v.z = true ∧ w.i < c.vl ∧ s.active v w.i = false ∧ w.x = 0 ∧ w.bad = false) := by
  unfold State.elemPuts State.activeIdx
  rw [List.mem_append]
  constructor
  · rintro (h | h)
    · obtain ⟨i, hi, rfl⟩ := List.mem_map.1 h
      have := List.mem_filter.1 hi
      exact .inl ⟨List.mem_range.1 this.1, this.2, rfl, rfl⟩
    · by_cases hz : v.z = true
      · rw [if_pos hz] at h
        obtain ⟨i, hi, rfl⟩ := List.mem_map.1 h
        have := List.mem_filter.1 hi
        exact .inr ⟨hz, List.mem_range.1 this.1, by simpa using this.2, rfl, rfl⟩
      · rw [if_neg hz] at h; cases h
  · rintro (⟨h1, h2, h3, h4⟩ | ⟨hz, h1, h2, h3, h4⟩)
    · left
      refine List.mem_map.2 ⟨w.i, List.mem_filter.2 ⟨List.mem_range.2 h1, h2⟩, ?_⟩
      cases w; simp_all
    · right
      rw [if_pos hz]
      refine List.mem_map.2 ⟨w.i, List.mem_filter.2 ⟨List.mem_range.2 h1, by simp [h2]⟩, ?_⟩
      cases w; simp_all

/-- The writes `us` below VL, as a function of the element: what `new` gives, and zeros under Z elsewhere. -/
structure Covers (c : VCtx) (v : VArgs) (us : List Put) (new : Nat → Option Nat) : Prop where
  sound : ∀ w ∈ us, new w.i = some w.x ∨ (new w.i = none ∧ v.z = true ∧ w.x = 0)
  inside : ∀ w ∈ us, w.i < c.vl
  full : ∀ k, k < c.vl → (new k).isSome = true ∨ v.z = true → ∃ w ∈ us, w.i = k

/-- The pattern of an element after covered writes. -/
theorem Covers.after {c : VCtx} {v : VArgs} {us : List Put} {new : Nat → Option Nat} (cov : Covers c v us new) (k old : Nat) (hk : k < c.vl) :
    afterPuts c.f k us old = match new k with
      | some x => c.f.pad x
      | none => if v.z = true then 0 else old := by
  cases hn : new k with
  | some x =>
    apply afterPuts_all
    · intro u hu hi
      rcases cov.sound u hu with h | ⟨h, -⟩
      · rw [hi, hn] at h; exact (Option.some.inj h).symm
      · rw [hi, hn] at h; cases h
    · exact cov.full k hk (.inl (by rw [hn]; rfl))
  | none =>
    by_cases hz : v.z = true
    · simp only [hz, if_true]
      rw [afterPuts_all c.f k 0]
      · simp
      · intro u hu hi
        rcases cov.sound u hu with h | ⟨-, -, h⟩
        · rw [hi, hn] at h; cases h
        · exact h
      · exact cov.full k hk (.inr hz)
    · simp only [hz]
      apply afterPuts_none
      intro u hu hi
      rcases cov.sound u hu with h | ⟨-, h, -⟩
      · rw [hi, hn] at h; cases h
      · exact hz h

/-- The writes of an element-wise instruction. -/
theorem State.covers_elems (s : State) (c : VCtx) (v : VArgs) (work : Nat → Elt) :
    Covers c v (s.elemPuts c v work) fun k => if s.active v k then some (work k).x else none := by
  refine ⟨fun w hw => ?_, fun w hw => ?_, fun k hk h => ?_⟩
  · rcases (s.mem_elemPuts c v work w).1 hw with ⟨-, h1, h2, -⟩ | ⟨hz, -, h1, h2, -⟩
    · left; simp [h1, h2]
    · right; simp [h1, h2, hz]
  · rcases (s.mem_elemPuts c v work w).1 hw with ⟨h, -⟩ | ⟨-, h, -⟩ <;> exact h
  · by_cases ha : s.active v k = true
    · exact ⟨⟨k, (work k).x, (work k).carry⟩, (s.mem_elemPuts c v work _).2 (.inl ⟨hk, ha, rfl, rfl⟩), rfl⟩
    · have hz : v.z = true := h.resolve_left (by simp [ha])
      exact ⟨⟨k, 0, false⟩, (s.mem_elemPuts c v work _).2 (.inr ⟨hz, hk, by simpa using ha, rfl, rfl⟩), rfl⟩

/-- The group that a destination register names lies within the registers. -/
theorem group_fits (c : VCfg) (v : Reg) (h : c.group ≤ 8) (m : v.toNat % c.group = 0) : v.toNat + c.group ≤ 64 := by
  have hv := v.isLt
  unfold VCfg.group at *
  generalize fld (BitVec.toNat c.vt) 15 13 = x at *
  have hx : x ≤ 3 := by
    rcases Nat.lt_or_ge x 4 with l | l
    · omega
    · have := Nat.pow_le_pow_right (n := 2) (by omega) l; omega
  have : x = 0 ∨ x = 1 ∨ x = 2 ∨ x = 3 := by omega
  rcases this with rfl | rfl | rfl | rfl <;> omega

/-- An instruction that writes elements of a register group or an accumulator: what it leaves (R204, R212). -/
theorem State.givesMoves_of (s : State) (i : Instr) (v : VArgs) (us : List Put) (flags : Nat) (new : Nat → Option Nat)
    (shape : exec i s = .next (((s.issuing i).written (s.entryCtx i) v (destD v) us).complete (s.entryFor i).1 (s.issuingEntry i) flags))
    (ops : s.operandOk (s.entryCtx i) (s.entryCtx i).f (destD v).src = true) (args : accFieldOk v = true) (adm : s.VAdmitted i)
    (cov : Covers (s.entryCtx i) v us new) : s.GivesMoves i v (destD v) flags new := by
  have step := fun k => cov.after k
  refine ⟨_, shape, ?_⟩
  by_cases hk : v.k = .accD
  · have hd : destD v = .acc v.d.toNat := by simp [destD, hk]
    have hm : v.d.toNat < 16 := by simpa [accFieldOk, hk] using args
    rw [hd]
    have elem : ∀ k, (((((s.issuing i).written (s.entryCtx i) v (.acc v.d.toNat) us).complete (s.entryFor i).1 (s.issuingEntry i)
        flags)).elem (s.entryCtx i) (s.entryCtx i).f (Dest.acc v.d.toNat).src k).1 =
        afterPuts (s.entryCtx i).f k us (s.elem (s.entryCtx i) (s.entryCtx i).f (.acc v.d.toNat) k).1 := fun k =>
      (s.issuing i).written_acc (s.entryCtx i) v v.d.toNat us k adm.format hm
    have same : (s.issuing i).written (s.entryCtx i) v (.acc v.d.toNat) us = (s.issuing i).putAll (s.entryCtx i) (.acc v.d.toNat) us := by
      unfold State.written State.healPred State.tail
      cases (s.entryCtx i).ta <;> rfl
    refine ⟨?_, ?_, ?_, ?_, ?_, ?_, ?_⟩
    · rw [same]; rfl
    · intro k x h1 h2
      rw [elem k, step k _ h1, h2]
    · intro k h1 h2 h3
      rw [elem k, step k _ h1, h2]; simp [h3]
    · intro k h1 h2 h3 _
      rw [elem k, step k _ h1, h2]; simp [h3, Dest.src]
    · intro r _; rw [same]; rfl
    · intro m hne
      rw [same]
      show vget (vset s.me.vs.accs v.d.toNat _) m {} = _
      rw [vget_vset, if_neg]
      rintro ⟨rfl, -⟩
      exact hne rfl
    · rw [same]; rfl
  · have hd : destD v = .reg v.d.toNat := by simp [destD, hk]
    rw [hd] at ops ⊢
    simp only [Dest.src, State.operandOk, Bool.and_eq_true, beq_iff_eq, decide_eq_true_eq] at ops
    have hg : v.d.toNat + (s.entryCtx i).g ≤ 64 := group_fits (s.atEntry i).snap.cfg v.d adm.group ops.1.1.1
    have elem : ∀ k, k < (s.entryCtx i).vl → ((∃ w ∈ us, w.i = k) ∨ k % (s.entryCtx i).mvl < (vget s.me.vs.regs (v.d.toNat + k / (s.entryCtx i).mvl) {}).mark) →
        (((((s.issuing i).written (s.entryCtx i) v (.reg v.d.toNat) us).complete (s.entryFor i).1 (s.issuingEntry i)
        flags)).elem (s.entryCtx i) (s.entryCtx i).f (Dest.reg v.d.toNat).src k).1 =
        afterPuts (s.entryCtx i).f k us (s.elem (s.entryCtx i) (s.entryCtx i).f (.reg v.d.toNat) k).1 := fun k h1 h2 =>
      (s.issuing i).written_reg (s.entryCtx i) v v.d.toNat us k adm.format hg h1 ops.2 h2
    have frame : (s.issuing i).written (s.entryCtx i) v (.reg v.d.toNat) us =
        (s.issuing i).setMe fun k => { k with vs := { k.vs with regs := ((s.issuing i).written (s.entryCtx i) v (.reg v.d.toNat) us).me.vs.regs } } := by
      unfold State.written State.healPred State.tail
      cases (s.entryCtx i).ta <;> rfl
    refine ⟨?_, ?_, ?_, ?_, ?_, ?_, ?_⟩
    · rw [frame]; rfl
    · intro k x h1 h2
      rw [elem k h1 (.inl (cov.full k h1 (.inl (by rw [h2]; rfl)))), step k _ h1, h2]
    · intro k h1 h2 h3
      rw [elem k h1 (.inl (cov.full k h1 (.inr h3))), step k _ h1, h2]; simp [h3]
    · intro k h1 h2 h3 h4
      rw [elem k h1 (.inr h4), step k _ h1, h2]; simp [h3, Dest.src]
    · intro r hr
      have := hr v.d.toNat rfl
      show vget (State.tail ((s.issuing i).putAll (s.entryCtx i) (.reg v.d.toNat) us) (s.entryCtx i) (.reg v.d.toNat) us).me.vs.regs r {} = _
      rw [State.tail_regs, if_neg (by omega), State.putAll_regs, if_neg (by omega)]
    · intro m _; rw [frame]; rfl
    · rw [frame]; rfl

/-- An element-wise instruction whose consumed sources carry no poison, as it leaves its issue. -/
theorem State.elems_shape (s : State) (i : Instr) (v : VArgs) (d : Dest) (needs : VCtx → QEntry → Needs) (eb : VCtx → QEntry → Nat)
    (work : VCtx → QEntry → State → Nat → Elt) (fl : Nat → Nat)
    (shape : exec i s = s.issue i needs fun c n e s => s.runElems c n e v d (eb c e) (work c e s))
    (ready : s.VReady i (needs (s.entryCtx i) (s.atEntry i)))
    (clean : ∀ k, k < (s.entryCtx i).vl → s.active v k = true → (work (s.entryCtx i) (s.issuingEntry i) (s.issuing i) k).bad = false)
    (hfl : ∀ k, (work (s.entryCtx i) (s.issuingEntry i) (s.issuing i) k).flags = fl k) :
    exec i s = .next (((s.issuing i).written (s.entryCtx i) v d ((s.issuing i).elemPuts (s.entryCtx i) v (work (s.entryCtx i) (s.issuingEntry i) (s.issuing i)))).complete
      (s.entryFor i).1 (s.issuingEntry i) (s.allFlags (s.entryCtx i) v fl)) := by
  rw [shape, s.issue_ready i needs _ ready, State.runElems_clean (s.issuing i) _ _ (s.issuingEntry i) _ _ _ _ ready.fresh ready.unwritten ready.agree clean]
  congr 2
  unfold State.allFlags
  congr 1
  exact List.map_congr_left fun k _ => hfl k

/-- An element-wise instruction that writes a register group or an accumulator: what it leaves, for any function of its elements (R213). -/
theorem State.givesElems_of (s : State) (i : Instr) (v : VArgs) (needs : VCtx → QEntry → Needs) (eb : VCtx → QEntry → Nat)
    (work : VCtx → QEntry → State → Nat → Elt) (res : Nat → Res)
    (shape : exec i s = s.issue i needs fun c n e s => s.runElems c n e v (destD v) (eb c e) (work c e s))
    (names : ((destD v).src, (s.entryCtx i).f) ∈ (needs (s.entryCtx i) (s.atEntry i)).ops)
    (args : accFieldOk v = true)
    (ready : s.VReady i (needs (s.entryCtx i) (s.atEntry i))) (adm : s.VAdmitted i)
    (clean : ∀ k, k < (s.entryCtx i).vl → s.active v k = true → (work (s.entryCtx i) (s.issuingEntry i) (s.issuing i) k).bad = false)
    (hres : ∀ k, (work (s.entryCtx i) (s.issuingEntry i) (s.issuing i) k).x = (res k).1 ∧ (work (s.entryCtx i) (s.issuingEntry i) (s.issuing i) k).flags = (res k).2) :
    s.GivesElems i v (destD v) res := by
  refine s.givesMoves_of i v _ _ _ (s.elems_shape i v _ needs eb work _ shape ready clean fun k => (hres k).2) (ready.operands _ names) args adm ?_
  have := (s.issuing i).covers_elems (s.entryCtx i) v (work (s.entryCtx i) (s.issuingEntry i) (s.issuing i))
  simp only [hres] at this
  exact this

/-! ### Predicates -/

/-- One write of a predicate bit. -/
def setBit (b : BitVec 8192) (w : Put) : BitVec 8192 := if w.x = 0 then b &&& ~~~(1#8192 <<< w.i) else b ||| (1#8192 <<< w.i)

theorem setBit_bit (b : BitVec 8192) (w : Put) (k : Nat) (hk : k < 8192) :
    (setBit b w).getLsbD k = if w.i = k then decide (w.x ≠ 0) else b.getLsbD k := by
  have one : (1#8192 <<< w.i).getLsbD k = decide (w.i = k) := by
    rw [BitVec.getLsbD_shiftLeft, BitVec.getLsbD_one]
    by_cases h : w.i = k
    · subst h; simp [hk]
    · simp only [hk, decide_true, Bool.true_and, h, decide_false]
      by_cases g : k < w.i
      · simp [g]
      · simp; omega
  unfold setBit
  split
  · next h =>
    rw [BitVec.getLsbD_and, BitVec.getLsbD_not, one]
    by_cases g : w.i = k <;> simp [g, h, hk]
  · next h =>
    rw [BitVec.getLsbD_or, one]
    by_cases g : w.i = k <;> simp [g, h]

/-- A bit after writes in order. -/
theorem setBits_bit (ws : List Put) (b : BitVec 8192) (k : Nat) (hk : k < 8192) :
    (ws.foldl setBit b).getLsbD k = ws.foldl (fun x w => if w.i = k then decide (w.x ≠ 0) else x) (b.getLsbD k) := by
  induction ws generalizing b with
  | nil => rfl
  | cons w t ih => rw [List.foldl_cons, ih, setBit_bit b w k hk]; rfl

theorem foldBit_none (ws : List Put) (k : Nat) (old : Bool) (h : ∀ w ∈ ws, w.i ≠ k) :
    ws.foldl (fun x w => if w.i = k then decide (w.x ≠ 0) else x) old = old := by
  induction ws generalizing old with
  | nil => rfl
  | cons w t ih => rw [List.foldl_cons, if_neg (h w List.mem_cons_self), ih _ fun x hx => h x (List.mem_cons_of_mem _ hx)]

theorem foldBit_all (ws : List Put) (k : Nat) (x old : Bool) (hx : ∀ w ∈ ws, w.i = k → decide (w.x ≠ 0) = x) (h : ∃ w ∈ ws, w.i = k) :
    ws.foldl (fun x w => if w.i = k then decide (w.x ≠ 0) else x) old = x := by
  induction ws generalizing old with
  | nil => obtain ⟨w, hw, -⟩ := h; cases hw
  | cons w t ih =>
    rw [List.foldl_cons]
    by_cases e : ∃ u ∈ t, u.i = k
    · exact ih _ (fun u hu => hx u (List.mem_cons_of_mem _ hu)) e
    · have hw : w.i = k := by
        obtain ⟨u, hu, hj⟩ := h
        rcases List.mem_cons.1 hu with rfl | hu
        · exact hj
        · exact absurd ⟨u, hu, hj⟩ e
      rw [if_pos hw, hx w List.mem_cons_self hw]
      exact foldBit_none t k _ fun u hu hj => e ⟨u, hu, hj⟩

/-- The predicates after bits of one are written, with the tail (R204, R228). -/
theorem State.written_preds (s : State) (c : VCtx) (a : VArgs) (p : Reg) (ws : List Put) (r : Nat) :
    vget (s.written c a (.pred p.toNat) ws).me.vs.preds r 0 =
      if p.toNat = r then (if c.ta = true then (ws.foldl setBit (vget s.me.vs.preds r 0)) &&& BitVec.ofNat 8192 (2 ^ c.vl - 1)
        else ws.foldl setBit (vget s.me.vs.preds r 0)) else vget s.me.vs.preds r 0 := by
  have hp := p.isLt
  have heal : ∀ t : State, (t.healPred c a (.pred p.toNat)).me.vs.preds = t.me.vs.preds := by
    intro t
    simp only [State.healPred]
    split <;> rfl
  rw [State.written, heal]
  unfold State.tail
  cases hta : c.ta
  · show vget (vset s.me.vs.preds p.toNat (ws.foldl setBit (vget s.me.vs.preds p.toNat 0))) r 0 = _
    rw [vget_vset]
    by_cases h : p.toNat = r
    · subst h; simp [hp]
    · simp [h]
  · show vget (vset (vset s.me.vs.preds p.toNat (ws.foldl setBit (vget s.me.vs.preds p.toNat 0))) p.toNat
      (vget (vset s.me.vs.preds p.toNat (ws.foldl setBit (vget s.me.vs.preds p.toNat 0))) p.toNat 0 &&& BitVec.ofNat 8192 (2 ^ c.vl - 1))) r 0 = _
    rw [vget_vset, vget_vset, vget_vset]
    by_cases h : p.toNat = r
    · subst h; simp [hp]
    · simp [h]

theorem State.bit_eq (s : State) (p : Reg) (k : Nat) : s.bit p k = (vget s.me.vs.preds p.toNat 0).getLsbD k := by
  unfold State.bit vget
  rw [Vector.getElem?_eq_getElem p.isLt, Option.getD_some]

theorem mask_bit (n k : Nat) (hk : k < 8192) : (BitVec.ofNat 8192 (2 ^ n - 1)).getLsbD k = decide (k < n) := by
  rw [BitVec.getLsbD_ofNat, Nat.testBit_two_pow_sub_one]
  simp [hk]

/-- An instruction that writes bits of a predicate: what it leaves (R204, R228, R241). -/
theorem State.givesMarks_of (s : State) (i : Instr) (v : VArgs) (p : Reg) (us : List Put) (flags : Nat) (new : Nat → Option Bool)
    (shape : exec i s = .next (((s.issuing i).written (s.entryCtx i) v (.pred p.toNat) us).complete (s.entryFor i).1 (s.issuingEntry i) flags))
    (cov : Covers (s.entryCtx i) v us fun k => (new k).map fun b => if b then 1 else 0) : s.GivesMarks i v p flags new := by
  have frame : (s.issuing i).written (s.entryCtx i) v (.pred p.toNat) us =
      (s.issuing i).setMe fun k => { k with vs := { k.vs with preds := ((s.issuing i).written (s.entryCtx i) v (.pred p.toNat) us).me.vs.preds }
                                            spoiled := { k.spoiled with preds := if ((s.entryCtx i).ta || (s.entryCtx i).vl = 8192) && (v.p == 0 || v.z)
                                              then k.spoiled.preds.filter (· ≠ p) else k.spoiled.preds } } := by
    have ne : (fun x : Reg => decide (x ≠ p)) = fun x : Reg => decide (x.toNat ≠ p.toNat) := by
      funext x
      by_cases h : x = p
      · subst h; simp
      · exact (decide_eq_true (p := x ≠ p) h).trans (decide_eq_true (p := x.toNat ≠ p.toNat) fun e => h (BitVec.eq_of_toNat_eq e)).symm
    rw [ne]
    unfold State.written State.healPred
    by_cases h : (((s.entryCtx i).ta || decide ((s.entryCtx i).vl = 8192)) && (v.p == 0 || v.z)) = true
    · simp only [h, if_true]
      unfold State.tail
      cases (s.entryCtx i).ta <;> rfl
    · simp only [h]
      unfold State.tail
      cases (s.entryCtx i).ta <;> rfl
  have bits := (s.issuing i).written_preds (s.entryCtx i) v p us
  have self : ∀ k, k < 8192 → (((s.issuing i).written (s.entryCtx i) v (.pred p.toNat) us).bit p k) =
      (us.foldl (fun x w => if w.i = k then decide (w.x ≠ 0) else x) (s.bit p k) && (!(s.entryCtx i).ta || decide (k < (s.entryCtx i).vl))) := by
    intro k hk
    rw [State.bit_eq, bits, if_pos rfl]
    show (if (s.entryCtx i).ta = true then us.foldl setBit (vget s.me.vs.preds p.toNat 0) &&& BitVec.ofNat 8192 (2 ^ (s.entryCtx i).vl - 1)
        else us.foldl setBit (vget s.me.vs.preds p.toNat 0)).getLsbD k = _
    rw [State.bit_eq, ← setBits_bit us _ k hk]
    cases (s.entryCtx i).ta
    · simp
    · simp [BitVec.getLsbD_and, mask_bit _ k hk]
  refine ⟨_, shape, ?_, ?_, ?_, ?_, ?_⟩
  · rw [frame]; rfl
  · intro k h0 h1
    refine (self k h0).trans ?_
    cases hn : new k with
    | some b =>
      rw [foldBit_all us k b]
      · simp [h1]
      · intro w hw hi
        rcases cov.sound w hw with h | ⟨h, -⟩
        · rw [hi, hn, Option.map_some] at h
          rw [← Option.some.inj h]; cases b <;> rfl
        · rw [hi, hn] at h; cases h
      · exact cov.full k h1 (.inl (by rw [hn]; rfl))
    | none =>
      cases hz : v.z
      · rw [foldBit_none us k]
        · simp [h1]
        · intro w hw hi
          rcases cov.sound w hw with h | ⟨-, h, -⟩
          · rw [hi, hn] at h; cases h
          · rw [hz] at h; cases h
      · rw [foldBit_all us k false]
        · rfl
        · intro w hw hi
          rcases cov.sound w hw with h | ⟨-, -, h⟩
          · rw [hi, hn] at h; cases h
          · simp [h]
        · exact cov.full k h1 (.inr hz)
  · intro k h0 h1
    refine (self k h0).trans ?_
    rw [foldBit_none us k]
    · cases (s.entryCtx i).ta
      · simp
      · simp [Nat.not_lt.2 h1]
    · intro w hw hi
      have := cov.inside w hw
      omega
  · intro r k hr
    show ((s.issuing i).written (s.entryCtx i) v (.pred p.toNat) us).bit r k = s.bit r k
    rw [State.bit_eq, State.bit_eq, bits, if_neg]
    exact fun e => hr (BitVec.eq_of_toNat_eq e.symm)
  · rw [frame]; rfl

/-- An element-wise instruction that writes a predicate: what it leaves, for any function of its elements (R106, R111, R228). -/
theorem State.givesBits_of (s : State) (i : Instr) (v : VArgs) (p : Reg) (needs : VCtx → QEntry → Needs) (eb : VCtx → QEntry → Nat)
    (work : VCtx → QEntry → State → Nat → Elt) (res : Nat → Bool × Nat)
    (shape : exec i s = s.issue i needs fun c n e s => s.runElems c n e v (.pred p.toNat) (eb c e) (work c e s))
    (ready : s.VReady i (needs (s.entryCtx i) (s.atEntry i)))
    (clean : ∀ k, k < (s.entryCtx i).vl → s.active v k = true → (work (s.entryCtx i) (s.issuingEntry i) (s.issuing i) k).bad = false)
    (hres : ∀ k, (work (s.entryCtx i) (s.issuingEntry i) (s.issuing i) k).x = (if (res k).1 then 1 else 0) ∧
      (work (s.entryCtx i) (s.issuingEntry i) (s.issuing i) k).flags = (res k).2) :
    s.GivesBits i v p res := by
  refine s.givesMarks_of i v p _ _ _ (s.elems_shape i v _ needs eb work _ shape ready clean fun k => (hres k).2) ?_
  have := (s.issuing i).covers_elems (s.entryCtx i) v (work (s.entryCtx i) (s.issuingEntry i) (s.issuing i))
  simp only [hres] at this
  have e : (fun k => (if s.active v k = true then some (res k).1 else none).map fun b => if b = true then 1 else 0) =
      fun k => if (s.issuing i).active v k = true then some (if (res k).1 = true then 1 else 0) else none := by
    funext k
    show _ = if s.active v k = true then _ else _
    by_cases h : s.active v k = true
    · rw [if_pos h, if_pos h]; rfl
    · rw [if_neg h, if_neg h]; rfl
  rw [e]
  exact this

/-! ### All-or-nothing instructions -/

/-- An all-or-nothing instruction whose consumed sources carry no poison is performed (R216). -/
theorem State.runWhole_clean (s : State) (c : VCtx) (n : Nat) (e : QEntry) (v : VArgs) (go : State → State) (agree : s.me.due.sdc = none) :
    s.runWhole c n e v [] go = .next (go s) := by
  have mis : s.miscomputes c v = none := by unfold State.miscomputes; rw [agree]; split <;> rfl
  unfold State.runWhole
  simp only [List.min?_nil, mis, State.clearSdc_none s agree]

/-- A result for a scalar register leaves all but the queue entry as it is (R109, R128). -/
theorem State.givesScalar_of (s : State) (i : Instr) (v : VArgs) (needs : VCtx → QEntry → Needs) (go : VCtx → Nat → QEntry → State → Out)
    (d : Reg) (x : Word) (flags : Nat) (shape : exec i s = s.issue i needs go)
    (ready : s.VReady i (needs (s.entryCtx i) (s.atEntry i)))
    (done : go (s.entryCtx i) (s.entryFor i).1 (s.issuingEntry i) (s.issuing i) = (s.issuing i).runWhole (s.entryCtx i) (s.entryFor i).1 (s.issuingEntry i) v []
      fun s' => (s'.putScalar d x).complete (s.entryFor i).1 (s.issuingEntry i) flags) :
    s.GivesScalar i d x flags := by
  unfold State.GivesScalar
  rw [shape, s.issue_ready i needs go ready, done, State.runWhole_clean (s.issuing i) _ _ _ _ _ ready.agree]
  congr 1
  unfold State.putScalar State.w Strand.w
  by_cases h : d = 0
  · simp only [h, if_true]; rfl
  · simp only [h, if_false]; rfl

/-- The writes of an all-or-nothing instruction with the zeros that Z adds (R241). -/
def wholePuts (c : VCtx) (v : VArgs) (ws : List Put) : List Put :=
  ws ++ (if v.z then ((List.range c.vl).filter fun i => !(ws.any (·.i = i))).map fun i => ⟨i, 0, false⟩ else [])

theorem mem_wholePuts (c : VCtx) (v : VArgs) (ws : List Put) (w : Put) :
    w ∈ wholePuts c v ws ↔ w ∈ ws ∨ (v.z = true ∧ w.i < c.vl ∧ (∀ u ∈ ws, u.i ≠ w.i) ∧ w.x = 0 ∧ w.bad = false) := by
  unfold wholePuts
  rw [List.mem_append]
  apply or_congr Iff.rfl
  by_cases hz : v.z = true
  · rw [if_pos hz]
    constructor
    · intro h
      obtain ⟨i, hi, rfl⟩ := List.mem_map.1 h
      have := List.mem_filter.1 hi
      refine ⟨hz, List.mem_range.1 this.1, ?_, rfl, rfl⟩
      intro u hu e
      have h2 := this.2
      simp only [Bool.not_eq_true', List.any_eq_false, decide_eq_true_eq] at h2
      exact h2 u hu e
    · rintro ⟨-, h1, h2, h3, h4⟩
      refine List.mem_map.2 ⟨w.i, List.mem_filter.2 ⟨List.mem_range.2 h1, ?_⟩, ?_⟩
      · simp only [Bool.not_eq_true', List.any_eq_false, decide_eq_true_eq]
        exact h2
      · cases w; simp_all
  · rw [if_neg hz]
    constructor
    · intro h; cases h
    · rintro ⟨h, -⟩; exact absurd h hz

/-- An all-or-nothing instruction's own writes, as a function of the element, cover with the zeros what it leaves. -/
theorem covers_whole (c : VCtx) (v : VArgs) (ws : List Put) (new : Nat → Option Nat) (sound : ∀ w ∈ ws, w.i < c.vl ∧ new w.i = some w.x)
    (full : ∀ k, k < c.vl → (new k).isSome = true → ∃ w ∈ ws, w.i = k) : Covers c v (wholePuts c v ws) new := by
  refine ⟨fun w hw => ?_, fun w hw => ?_, fun k hk h => ?_⟩
  · rcases (mem_wholePuts c v ws w).1 hw with h | ⟨hz, hi, h1, h2, -⟩
    · exact .inl (sound w h).2
    · right
      refine ⟨?_, hz, h2⟩
      cases e : new w.i with
      | none => rfl
      | some x =>
        obtain ⟨u, hu, ui⟩ := full w.i hi (by rw [e]; rfl)
        exact absurd ui (h1 u hu)
  · rcases (mem_wholePuts c v ws w).1 hw with h | ⟨-, h, -⟩
    · exact (sound w h).1
    · exact h
  · by_cases e : ∃ w ∈ ws, w.i = k
    · obtain ⟨w, hw, hi⟩ := e
      exact ⟨w, (mem_wholePuts c v ws w).2 (.inl hw), hi⟩
    · rcases h with h | h
      · exact absurd (full k hk h) e
      · exact ⟨⟨k, 0, false⟩, (mem_wholePuts c v ws _).2 (.inr ⟨h, hk, fun u hu hi => e ⟨u, hu, hi⟩, rfl, rfl⟩), rfl⟩

/-- An all-or-nothing instruction whose consumed sources carry no poison, as it leaves its issue. -/
theorem State.whole_shape (s : State) (i : Instr) (v : VArgs) (d : Dest) (needs : VCtx → QEntry → Needs)
    (op : State → VCtx → QEntry → List Put × List Nat × Nat) (ws : List Put) (flags : Nat) (shape : exec i s = s.whole i v d needs op)
    (ready : s.VReady i (needs (s.entryCtx i) (s.atEntry i))) (hop : op (s.issuing i) (s.entryCtx i) (s.issuingEntry i) = (ws, [], flags)) :
    exec i s = .next (((s.issuing i).written (s.entryCtx i) v d (wholePuts (s.entryCtx i) v ws)).complete (s.entryFor i).1 (s.issuingEntry i) flags) := by
  unfold State.whole at shape
  rw [s.issue_ready i needs _ ready] at shape
  simp only [hop] at shape
  rw [State.runWhole_clean (s.issuing i) _ _ _ _ _ ready.agree] at shape
  exact shape

end Sys2Proof.Machine
end

