-- ==== Sys2Proof/Tests/Slice0.lean ====
section
/-! SUPPORT. Tests: refused terms for each check of WellFormed, words of the spec that decode, small steps against the spec's worked values, and
for each statement states that meet its hypotheses. -/

namespace Sys2Proof.Machine

set_option Elab.async false

/-! ### Small states -/

/-- A strand with s4 = 40, s5 = −3, s6 the LOCAL window, s7 2 in it and s8 64 past it. -/
def aStrand : Strand :=
  { id := ⟨1, 2, 3⟩, ctx := 5, run := .running, core := 9, pc := 0x1000, lclk := 7
    regs := ((((Vector.replicate 64 (0 : Word)).set 4 40).set 5 (-3)).set 6 0xFFFFFFFFFFE00000).set 7 0xFFFFFFFFFFE00002 |>.set 8 0xFFFFFFFFFFE00040
    tr := { tvec := 0x2000 } }

/-- Its crew: four strands, 64 KiB of core scratch. -/
def aCrew : Crew := { lid := 1, cid := 2, ctx := 5, placed := true, core := 9, strands := 4, live := 4, scr := 16 }

/-- The device with that strand in its turn, in a pod as device 3. -/
def desk : State := { me := aStrand, crew := aCrew, core := { num := 9 }, house := { bootReady := true } }

/-- The same strand with a change. -/
def deskWith (f : Strand → Strand) : State := { desk with me := f aStrand }

theorem desk_ready (code : Byte) : desk.MayEnter code := ⟨by decide, by decide, rfl, by decide⟩

/-- A queue entry of an instruction, captured with the registers and the configuration of the strand. -/
def entryOf (i : Instr) (cfg : VCfg := {}) : QEntry := { instr := i, word := 0, block := 0x3000, idx := 0, fetch := 0, snap := { regs := aStrand.regs, cfg := cfg } }

/-- Operand fields of a vector instruction with vector operands. -/
def vf (d a b : Reg) (c : Reg := 0) (p : Reg := 0) (imm : BitVec 14 := 0) : VArgs := ⟨false, d, a, b, c, p, false, .vec, imm⟩

/-- A pre-empted strand on the same core and slot, that keeps its vector state there. -/
def ousted : Strand := { aStrand with id := ⟨8, 0, 0⟩, run := .preempted, alloc := { vrfSet := 3, accSet := 1 } }

/-- A live job of the strand's context with its tables at device address 0x2000000. -/
def aJob : Job :=
  { slot := 0, gen := 1, live := true, ctx := 5, root := 0x2000000, buft := 0x2010000, keys := [], rsv := 0, policy := {}, retr := {}, code := 0, out := 0, clk := 0
    phase := 0, cancelled := false, endSeq := 0, final := 0 }

/-- Virtual addresses 0 to 1 GiB on memory die 0 by one leaf, 64 to 65 GiB in host memory, 128 to 129 GiB on device 7. -/
def someTables : MemSys :=
  { ram := [(0x2000000, 0x01), (0x2000001, 0x20), (0x2000003, 0x02), (0x2002000, 0x1F), (0x2002008, 0x1F), (0x2002009, 0x02)]
    live := ((((Vector.replicate 256 ({} : Rte)).set 0 ⟨0xB000000000000000, 0⟩).set 1 ⟨0xF000001000000000, 0⟩).set 2 ⟨0xD000002000000000, 0x380⟩) }

/-- The device with that job and those tables; s9 to s11 hold an address of each kind. -/
def mapped : State :=
  { deskWith (fun k => { k with regs := ((k.regs.set 9 0x100).set 10 0x1000000100).set 11 0x2000000100 }) with mem := someTables, cp := { jobs := [aJob] } }

/-- Retriever on for the strand's context, with one segment of so many bytes whose log holds 32. -/
def logging (pol size : Nat) : State :=
  { mapped with cp := { jobs := [{ aJob with policy := { en := true, pol := pol, seg := size }, retr := { tail := Vector.replicate 4 32 } }] } }

/-- Memory with nothing on its way is open at every place. -/
theorem opens {m : MemSys} (h : m.stage = []) (a : m.posted = []) (b : m.hostHold = false) (c : m.hostDead = []) (p : Spot) : m.Open p :=
  ⟨h, fun _ => ⟨a, b, by simp [MemSys.hostFails, c]⟩⟩

/-- A write goes straight through in a state like `mapped`. -/
theorem throughs {s : State} {r : Req} {a : Word} {n : Nat} (g : s.groups = []) (h : s.mem.stage = []) (x : s.mem.posted = []) (b : s.mem.hostHold = false) (c : s.mem.hostDead = [])
    (u : (s.getCore r.core).staging = false) (p : Spot) : s.Through r a n p :=
  ⟨opens h x b c p, u, by simp [State.disturbs, g]⟩

/-- What an address names does not depend on what an access changes. -/
theorem homeOf_access {s u : State} (h : s.sameButAccess u) (m : u.mem = s.mem) (r : Req) (a : Word) (x : Bool) : u.homeOf r a x = s.homeOf r a x := by
  have h1 := h.1
  rw [m] at h1
  rw [h1]
  rfl

/-- An address in a window lands there whatever an access changes, and whatever else memory holds. -/
theorem window_lands {s : State} {r : Req} {a : Word} {n : Need} {o k : Nat} (h : s.homeOf r a n.ex = .window o k) (op : ∀ p, s.mem.Open p) : s.LandsAt r a n ⟨k, 0, false, false⟩ :=
  ⟨op _, fun u hu hm _ => by unfold State.find; rw [homeOf_access hu hm, h, hm]⟩

theorem window_steady {s : State} {r : Req} {a : Word} {n : Need} {o k : Nat} (h : s.homeOf r a n.ex = .window o k) : s.Steady r a n ⟨k, 0, false, false⟩ := by
  intro u h1 h2 h3 _ _ _
  have same : u.homeOf r a n.ex = .window o k := by
    rw [← h]
    simp only [State.homeOf, State.quadCrew, State.crewOf, State.allCrews, State.rteOf, h1, h2, h3]
  simp only [State.find, same]

theorem links_open {s : State} (h : s.links = Vector.replicate 12 {}) : s.linksOpen := fun l => by
  unfold State.link vget
  rw [h]
  by_cases g : l < 12 <;> simp [g]

theorem awake_keeps {s : State} (h : s.linksOpen) (r : Req) (a : Word) (n : Need) : s.heldOn r a n = [] ∧ s.snoopHeld r a n = [] := by
  constructor
  · unfold State.heldOn
    exact List.filter_eq_nil_iff.2 fun l _ => by simp [DieLink.holds, h l]
  · unfold State.snoopHeld
    exact List.filter_eq_nil_iff.2 fun l _ => by simp [h l]

/-- An address whose sector is in the cache of its die lands there while the links are open. -/
theorem cached_find {u : State} {r : Req} {a : Word} {n : Need} {d : Nat} {i : Bool} {l : PLine} (home : u.homeOf r a n.ex = .die d i) (up : u.mem.failed.contains (8 + d) = false)
    (line : (u.mem.lines.find? fun x => x.ctx == r.ctx && x.sector == bf a 55 0 / 256) = some l) (ok : n.admits r.user l.leaf = true) (clean : (n.dirties && !bt l.leaf 6) = false)
    (h : u.linksOpen) : u.find r a n = .spot ⟨l.key + bf a 55 0 % 256, l.tag, bt l.leaf 7, false⟩ u.mem := by
  have q := awake_keeps h r a n
  have c : ¬(n.dirties = true ∧ (!bt l.leaf 6) = true) := fun x => by
    rw [x.1, x.2] at clean
    exact absurd clean (by decide)
  unfold State.find
  simp only [home, up, q.1, q.2, line, ok, if_neg c]
  rfl

theorem cached_lands {s : State} {r : Req} {a : Word} {n : Need} {d : Nat} {i : Bool} {l : PLine} (home : s.homeOf r a n.ex = .die d i) (up : s.mem.failed.contains (8 + d) = false)
    (line : (s.mem.lines.find? fun x => x.ctx == r.ctx && x.sector == bf a 55 0 / 256) = some l) (ok : n.admits r.user l.leaf = true) (clean : (n.dirties && !bt l.leaf 6) = false)
    (op : ∀ p, s.mem.Open p) : s.LandsAt r a n ⟨l.key + bf a 55 0 % 256, l.tag, bt l.leaf 7, false⟩ :=
  ⟨op _, fun u hu hm ho => by rw [← hm]; exact cached_find ((homeOf_access hu hm r a n.ex).trans home) (hm ▸ up) (hm ▸ line) ok clean ho⟩

theorem cached_steady {s : State} {r : Req} {a : Word} {n : Need} {d : Nat} {i : Bool} {l : PLine} (home : s.homeOf r a n.ex = .die d i) (up : s.mem.failed.contains (8 + d) = false)
    (line : (s.mem.lines.find? fun x => x.ctx == r.ctx && x.sector == bf a 55 0 / 256) = some l) (ok : n.admits r.user l.leaf = true) (clean : (n.dirties && !bt l.leaf 6) = false) :
    s.Steady r a n ⟨l.key + bf a 55 0 % 256, l.tag, bt l.leaf 7, false⟩ := by
  intro u h1 h2 h3 h4 h5 ho
  refine cached_find (d := d) (i := i) ?_ (h4 ▸ up) (h5 ▸ line) ok clean ho
  rw [← home]
  simp only [State.homeOf, State.quadCrew, State.crewOf, State.allCrews, State.rteOf, h1, h2, h3]

theorem State.LandsAt.to {s : State} {r : Req} {a : Word} {n : Need} {p q : Spot} (h : s.LandsAt r a n p) (e : p = q) : s.LandsAt r a n q := e ▸ h

/-- A found place, as data: byte number, tag, exemption, host. -/
def placeOf : Found → Option Spot
  | .spot p _ => some p
  | _ => none

/-- What is asked of a found place, of an access performed, of an entry appended: false where there is none. -/
def Found.holds : Found → (Spot → MemSys → Bool) → Bool
  | .spot p m, f => f p m
  | _, _ => false

def Att.holds {α : Type} : Att α → (α → State → Bool) → Bool
  | .ok x s, f => f x s
  | _, _ => false

def Appended.holds : Appended → (State → Bool) → Bool
  | .ok s, f => f s
  | _, _ => false

/-- A launch of the strand's context in this slot. -/
def aLaunch (slot : Nat) : Launch :=
  { slot := slot, gen := 0, ctx := 5, parent := .job 0, node := none, entry := 0x4000, arg := 0, shape := 0x0001000000000000, strands := 0x1000, notify := 0, tag := 0, state := 0, code := 0, out := 1
    clk := 0, elig := 0, nextCid := 1, returned := [], lastPlaced := 0, eligible := true, opened := true, failed := false, cancelled := false, notifyDue := false, doneSeq := none }

/-- The tables with a launch descriptor of two crews at virtual address 0x100, and a graph image of one node at 0x200. -/
def withWork : MemSys :=
  { someTables with ram := [(0x101, 0x40), (0x108, 9), (0x116, 2), (0x119, 0x10), (0x128, 77), (0x200, 1), (0x208, 5), (0x240, 4)] ++ someTables.ram }

/-- The device with work to submit: the strand's launch is in slot 0. -/
def working : State :=
  { mapped with mem := withWork, cp := { jobs := [aJob], launches := [aLaunch 0] }, me := { mapped.me with regs := mapped.me.regs.set 12 0x200 |>.set 13 0x1000000000000000 |>.set 14 0x108 } }

/-- A packet of queue 2 of the job's context, the first of its queue. -/
def packet (b0 : Word := 0) : Packet := { q := 2, opc := 1, rsvZero := true, ctx := 5, b0 := b0, b1 := 0, b2 := 0, b3 := 0, b4 := 0, b5 := 0, stamp := 1 }

/-- An open phase in this slot. -/
def aPhase (slot : Nat) : Phase := { slot := slot, gen := 0, ctx := 5, closed := false, state := 0, code := 0, out := 0, clk := 0, cancelled := false, failed := false, opened := true, order := 0, doneSeq := none }

/-- Queue 2 runs with one packet to take, its rings in device memory; the job's open phase is in slot 0, its launch in slot 3. -/
def queueing : State :=
  { working with cp := { working.cp with
      queues := (Vector.replicate 8 ({} : SubQ)).set 2 { sqbase := 0x3000001, sqcfg := 0x100, tail := 1, cqbase := 0x3001001, st := 1 }
      launches := [aLaunch 3], phases := [aPhase 0], turn := 2 } }

/-- The register block held by host port 0, with queue 2 running and one packet of two taken. -/
def owned : State :=
  { queueing with
    owner := { epoch := 4, holder := some .host0 }
    cp := { queueing.cp with queues := (Vector.replicate 8 ({} : SubQ)).set 2 { sqbase := 0x3000001, sqcfg := 0x100, tail := 2, head := 1, cqbase := 0x3001001, st := 1 } } }

/-- The strand with a queue of three entries: one completed, one that waits and one that trapped. -/
def queued : State := deskWith fun k => { k with q := [{ entryOf (.vadd (vf 1 2 3)) with done := true, flags := 0x100 }, entryOf .vnop, entryOf (.vld (vf 1 4 0))] }

/-- A port whose link to port 0 of device 7 is up, with so many messages that wait for their acknowledgement. -/
def upPort : Port := { stat := 0x0001000280000007, rxSeq := 4, txSeq := 9 }

/-- The device as device 3 of a pod: port 2 leads to device 7. -/
def podded : State := { owned with fab := { owned.fab with podcfg := 0x8000000000000003, ports := owned.fab.ports.set 2 upPort } }

/-- A message from device 7. -/
def fromPeer (body : List Byte) (ctx : BitVec 16 := 5) (tid : Word := 77) : Msg := ⟨7, 3, ctx, tid, 6, body⟩

/-- Rows of a link table for two members joined by one link: port 0 of rank 0 and port 2 of rank 1. -/
def pairRow (port : Nat) (e : Word) : List Word := (List.range 64).map fun p => if p = port then e else 0

/-- Group 9 of the job: devices 7 and 3, this device by rank. -/
def aGroup (rank : Nat) : Group :=
  { ctx := 5, grp := 9, members := if rank = 0 then [3, 7] else [7, 3], rank := rank, joined := true, lost := false, gen := 4, proposed := 4, answered := 4, answers := [], acks := [], proposedAt := 0, agreeing := false
    table := if rank = 0 then [pairRow 2 0x0001000280000007, pairRow 0 0x0001000280020003] else [pairRow 0 0x0001000280020003, pairRow 2 0x0001000280000007]
    trees := [[none, some 0]], issued := 1, calls := [], left := [], colls := [] }

def grouped (g : Group) : State := { podded with groups := [g] }

theorem test_meets_alu : desk.Clear [4, 5] [3] := ⟨by decide, by decide, by decide⟩
theorem test_meets_alu_one : desk.Clear [4] [3] ∧ desk.Clear [] [3] ∧ desk.Clear [3] [3] := ⟨⟨by decide, by decide, by decide⟩, ⟨by decide, by decide, by decide⟩, ⟨by decide, by decide, by decide⟩⟩
theorem test_meets_branch : desk.Clear [4, 5] [] ∧ desk.me.cfg.vl.toNat ≤ 8192 ∧ desk.me.vlPending = false := ⟨⟨by decide, by decide, by decide⟩, by decide, by decide⟩

theorem test_meets_predicate_branch :
    ((deskWith fun k => { k with cfg := { k.cfg with vl := 1 } }).me.vlPending = false ∧ (deskWith fun k => { k with cfg := { k.cfg with vl := 1 } }).me.unfinished = []) ∧
    ((deskWith fun k => { k with cfg := { k.cfg with vl := 8192 } }).me.cfg.vl.toNat ≤ 8192 ∧ desk.foreign.testBit 2 = false ∧ (1 : Reg) ∉ desk.me.spoiled.preds) ∧
    (deskWith fun k => { k with q := [entryOf (.vldff (vf 1 4 0))] }).me.vlPending = true ∧
    vPredDest (.pand (vf 2 1 1)) = some 2 ∧
    ({ desk with strands := [ousted] } : State).foreign.testBit 2 = true ∧
    (3 : Reg) ∈ (deskWith fun k => { k with spoiled := { k.spoiled with preds := [3] } }).me.spoiled.preds := by decide

theorem test_meets_jumps : desk.Clear [] [63] ∧ desk.Clear [4] [63] ∧ (desk.s 4 + BitVec.ofInt 64 (0 : BitVec 14).toInt).toNat % 4 = 0 ∧
    (desk.s 4 + BitVec.ofInt 64 (2 : BitVec 14).toInt).toNat % 4 ≠ 0 := ⟨⟨by decide, by decide, by decide⟩, ⟨by decide, by decide, by decide⟩, by decide, by decide⟩

/-- A load and a store of each width at the LOCAL window; its last byte but seven for eight bytes. -/
theorem test_meets_plain_accesses :
    desk.Clear [6] [3] ∧ desk.Clear [6, 4] [] ∧
    desk.find (desk.me.req (wordOf32 (.ldd 3 6 8))) (desk.s 6 + (8 : BitVec 14).signExtend 64) .read = .spot ⟨2 ^ 53 + 9 * 2 ^ 21 + 8, 0, false, false⟩ desk.mem ∧
    desk.mem.poisoned (2 ^ 53 + 9 * 2 ^ 21 + 8) = false ∧
    desk.find (desk.me.req (wordOf32 (.std 6 4 248))) (desk.s 6 + (248 : BitVec 14).signExtend 64) .write = .spot ⟨2 ^ 53 + 9 * 2 ^ 21 + 248, 0, false, false⟩ desk.mem ∧
    (2 ^ 53 + 9 * 2 ^ 21 + 248) % 256 + 8 ≤ 256 ∧
    desk.logged (desk.me.req (wordOf32 (.std 6 4 248))) (desk.s 6 + (248 : BitVec 14).signExtend 64) ⟨2 ^ 53 + 9 * 2 ^ 21 + 248, 0, false, false⟩ 8 = .ok desk :=
  ⟨⟨by decide, by decide, by decide⟩, ⟨by decide, by decide, by decide⟩, rfl, by decide, rfl, by decide, rfl⟩

theorem test_mapped_is_canonical : mapped.ramOk := by unfold State.ramOk; decide

theorem test_meets_homes :
    mapped.homeOf (mapped.me.req 0) 0x100 false = .die 0 false ∧ mapped.homeOf (mapped.me.req 0) 0x1000000100 false = .host 0 0 ∧
    mapped.homeOf (mapped.me.req 0) 0x2000000100 false = .remote 7 ∧ mapped.scopeOk (mapped.me.req 0) 0x1000000100 4 = false ∧
    mapped.scopeOk (mapped.me.req 0) 0x1000000100 5 = true ∧ mapped.scopeOk (mapped.me.req 0) 0x2000000100 6 = false := by decide

/-- Ordered accesses and atomics: eight bytes at the end of a sector of a die, four of host memory. -/
theorem test_meets_ordered_accesses :
    mapped.Clear [9, 4, 3] [3] ∧ mapped.Clear [10, 4] [] ∧ (mapped.s 9).toNat % 8 = 0 ∧
    (∃ p m, mapped.find (mapped.me.req (wordOf32 (.lda 3 9 0 1 true))) (mapped.s 9) .read = .spot p m ∧ m.Open p ∧ m.poisoned p.key = false) ∧
    (let r := mapped.me.req (wordOf32 (.str 9 4 0 1 true))
     ∃ p m s2, mapped.find r (mapped.s 9) .both = .spot p m ∧ m.Open p ∧ p.key = 0x100 ∧ ({ mapped with mem := m } : State).logged r (mapped.s 9) p 8 = .ok s2 ∧ s2.Through r (mapped.s 9) 8 p) ∧
    (let r := mapped.me.req (wordOf32 (.swap 3 10 4 5 1 false))
     ∃ p m s2, mapped.find r (mapped.s 10) .both = .spot p m ∧ m.Open p ∧ p.host = true ∧ ({ mapped with mem := m } : State).logged r (mapped.s 10) p 4 = .ok s2 ∧ s2.disturbs r (mapped.s 10) 4 = false) :=
  ⟨⟨by decide, by decide, by decide⟩, ⟨by decide, by decide, by decide⟩, by decide, ⟨_, _, rfl, opens rfl rfl rfl rfl _, by decide⟩,
    ⟨_, _, _, rfl, opens rfl rfl rfl rfl _, rfl, rfl, throughs rfl rfl rfl rfl rfl rfl _⟩, ⟨_, _, _, rfl, opens rfl rfl rfl rfl _, rfl, rfl, rfl⟩⟩

/-- A CAS that matches and one that does not, which only reads; the matching one finds the leaf again for its write. -/
theorem test_meets_compare_and_swap :
    let r := mapped.me.req (wordOf32 (.cas 3 9 4 0 1 true))
    ∃ p m m' s2, mapped.find r (mapped.s 9) .probe = .spot p m ∧ m.Open p ∧ m.poisoned p.key = false ∧ p.key % 256 + 8 ≤ 256 ∧ leNat (m.bytesUnder p.tag p.key 8) = (mapped.s 3).toNat % 2 ^ 64 ∧
      leNat (m.bytesUnder p.tag p.key 8) ≠ (mapped.s 4).toNat % 2 ^ 64 ∧ ({ mapped with mem := m } : State).find r (mapped.s 9) .both = .spot p m' ∧ m'.Open p ∧
      ({ mapped with mem := m' } : State).logged r (mapped.s 9) p 8 = .ok s2 ∧ s2.disturbs r (mapped.s 9) 8 = false :=
  ⟨_, _, _, _, rfl, opens rfl rfl rfl rfl _, by decide, by decide, by decide, by decide, rfl, opens rfl rfl rfl rfl _, rfl, rfl⟩

/-- A core that keeps a store in its stage. -/
def staging : State := { mapped with core := { mapped.core with staging := true } }

theorem test_meets_core_stage :
    let r := staging.me.req (wordOf32 (.std 9 4 0))
    staging.Clear [9, 4] [] ∧ (staging.s 9 + (0 : BitVec 14).signExtend 64).toNat % 8 = 0 ∧ staging.logs staging.me.ctx = false ∧ (staging.getCore staging.me.core).staging = true ∧
    (∃ p m, staging.find r (staging.s 9 + (0 : BitVec 14).signExtend 64) .write = .spot p m ∧ p.host = false ∧ ({ staging with mem := m } : State).disturbs r (staging.s 9 + (0 : BitVec 14).signExtend 64) 8 = false) ∧
    (2 : BitVec 4).getLsbD 1 = true ∧ (2 : BitVec 4).getLsbD 2 = false ∧ (2 : BitVec 4).getLsbD 3 = false :=
  ⟨⟨by decide, by decide, by decide⟩, by decide, rfl, rfl, ⟨_, _, rfl, rfl, rfl⟩, by decide⟩

/-- What stops an access: a misaligned address, the scope, no translation, poison, a full log under each policy. -/
theorem test_meets_access_traps :
    mapped.Clear [7, 4, 3] [3] ∧ (mapped.s 7 + (0 : BitVec 14).signExtend 64).toNat % 8 ≠ 0 ∧ (mapped.s 7).toNat % 4 ≠ 0 ∧
    mapped.scopeOk (mapped.me.req (wordOf32 (.lda 3 10 4 1 true))) (mapped.s 10) 4 = false ∧
    desk.find (desk.me.req (wordOf32 (.ldd 3 4 0))) (desk.s 4 + (0 : BitVec 14).signExtend 64) .read = .fault 0x04 ∧
    (∃ p m, ({ mapped with mem := { someTables with bad := [1] } } : State).find (mapped.me.req (wordOf32 (.ldd 3 9 0))) (mapped.s 9 + (0 : BitVec 14).signExtend 64) .read = .spot p m ∧ m.Open p ∧ m.poisoned p.key = true) ∧
    (∃ p m, (logging 0 5).find (mapped.me.req (wordOf32 (.std 9 4 0))) (mapped.s 9 + (0 : BitVec 14).signExtend 64) .write = .spot p m ∧ m.Open p ∧
      ({ logging 0 5 with mem := m } : State).logged (mapped.me.req (wordOf32 (.std 9 4 0))) (mapped.s 9 + (0 : BitVec 14).signExtend 64) p 8 = .full) ∧
    (∃ p m, (logging 2 5).find (mapped.me.req (wordOf32 (.std 9 4 0))) (mapped.s 9 + (0 : BitVec 14).signExtend 64) .write = .spot p m ∧ m.Open p ∧
      ({ logging 2 5 with mem := m } : State).logged (mapped.me.req (wordOf32 (.std 9 4 0))) (mapped.s 9 + (0 : BitVec 14).signExtend 64) p 8 = .stall) ∧
    (∃ p m, mapped.find (mapped.me.req (wordOf32 (.aand 3 10 4 5 1 true))) (mapped.s 10) .both = .spot p m ∧ m.Open p ∧ p.host = true) ∧
    (let s : State := { mapped with links := mapped.links.set 0 { st := .asleep } }
     ∃ ls, s.find (s.me.req (wordOf32 (.ldd 3 9 0))) (s.s 9 + (0 : BitVec 14).signExtend 64) .read = .held ls) :=
  have o (m : MemSys) (h : m.stage = []) (a : m.posted = []) (b : m.hostHold = false) (c : m.hostDead = []) (p : Spot) : m.Open p := opens h a b c p
  ⟨⟨by decide, by decide, by decide⟩, by decide, by decide, by decide, rfl, ⟨_, _, rfl, o _ rfl rfl rfl rfl _, by decide⟩, ⟨_, _, rfl, o _ rfl rfl rfl rfl _, rfl⟩, ⟨_, _, rfl, o _ rfl rfl rfl rfl _, rfl⟩,
    ⟨_, _, rfl, o _ rfl rfl rfl rfl _, rfl⟩, ⟨_, rfl⟩⟩

/-- Addresses without translation at both ends of the gap; the first byte of the LOCAL window, the last of the allocation and the first beyond it. -/
theorem test_meets_windows :
    (2 : Nat) ^ 55 ≤ (0x0080000000000000 : Word).toNat ∧ (0xFF7FFFFFFFFFFFFF : Word).toNat < 2 ^ 64 - 2 ^ 55 ∧
    desk.crewOf (desk.me.req 0) = some aCrew ∧ aCrew.placed = true ∧ 65535 < aCrew.scr * 4096 ∧ aCrew.scr * 4096 ≤ 65536 ∧ Need.read.ex = false := by decide

/-- Translations: one that admits, one that refuses a fetch at user level, none, and a failed die. -/
theorem test_meets_pages :
    mapped.homeOf (mapped.me.req 0) 0x100 false = .die 0 false ∧ (8 + 0 : Nat) ∉ mapped.mem.failed ∧ mapped.mem.lines = [] ∧ mapped.mem.tlbs = [] ∧
    mapped.heldOn (mapped.me.req 0) 0x100 .read ++ mapped.snoopHeld (mapped.me.req 0) 0x100 .read = [] ∧
    (∃ leaf at_ key tag, mapped.translate 5 (.die 0 false) 0x100 = .ok (leaf, at_, key, tag) ∧ leaf.getLsbD 1 = true ∧ leaf.getLsbD 5 = false ∧ at_ % 8 = 0) ∧
    mapped.translate 5 (.die 0 false) 0x4000000000000 = .error 0x04 ∧
    (8 + 0 : Nat) ∈ ({ mapped with mem := { someTables with failed := [8] } } : State).mem.failed :=
  ⟨by decide, by decide, rfl, rfl, by decide, ⟨_, _, _, _, rfl, by decide, by decide, by decide⟩, rfl, by decide⟩

theorem test_meets_trap_entry : desk.MayEnter 0x0D ∧ desk.MayEnter 0x01 := ⟨desk_ready 0x0D, desk_ready 0x01⟩

theorem test_meets_forced_end :
    (deskWith fun k => { k with tr := { k.tr with tvec := 0 } }).me.tr.tvec = 0 ∧ desk.debugStops 0x01 = false ∧
    (deskWith fun k => { k with tr := { k.tr with tcause := 0x8001 } }).me.tr.tcause.getLsbD 15 = true := by decide

theorem test_meets_eret : desk.me.sys = true ∧ desk.me.tr.tcause.getLsbD 63 = false ∧
    (deskWith fun k => { k with tr := { k.tr with tcause := 0x8000000000008001 } }).me.tr.tcause.getLsbD 63 = true := by decide

theorem test_meets_privilege : (deskWith fun k => { k with sys := false }).me.sys = false ∧ (deskWith fun k => { k with sys := false }).MayEnter 0x02 ∧
    (0x100 ≤ (0x105 : BitVec 12).toNat ∧ (0x105 : BitVec 12).toNat ≤ 0x105) ∧ (0x110 ≤ (0x11F : BitVec 12).toNat ∧ (0x11F : BitVec 12).toNat ≤ 0x11F) ∧
    (0x11F < (0x120 : BitVec 12).toNat ∧ 0x105 < (0x106 : BitVec 12).toNat ∧ (0x10F : BitVec 12).toNat < 0x110 ∧ 9 < (0x00A : BitVec 12).toNat ∧ (0x00F : BitVec 12).toNat < 16) :=
  ⟨rfl, ⟨by decide, by decide, rfl, by decide⟩, by decide, by decide, by decide⟩

theorem test_meets_system_registers : desk.Clear [4] [3] ∧ desk.me.vlPending = false ∧ desk.me.sys = true := ⟨⟨by decide, by decide, by decide⟩, by decide, rfl⟩

/-- A copy whose fault is unreported and whose status s4 holds. -/
def faulted : State := deskWith fun k => { k with as := { k.as with stat := [(4, 9)], fins := [⟨9, 0xA0000000000, 0x5000, true, 6⟩] } }

theorem test_meets_scalar_waits :
    (deskWith fun k => { k with as := { k.as with colls := [(4, 5, 1, 1)] } }).me.pending 4 = true ∧ desk.me.pending 4 = false ∧ desk.me.pending 3 = false ∧
    faulted.me.faultOf 4 = some ⟨9, 0xA0000000000, 0x5000, true, 6⟩ ∧ (faulted.setMe (·.reported 9)).MayEnter 0x0E ∧
    (4 : Reg) ∈ (deskWith fun k => { k with spoiled := { k.spoiled with sregs := [4] } }).me.spoiled.sregs ∧ desk.me.faultOf 4 = none ∧ desk.MayEnter 0x06 :=
  ⟨by decide, by decide, by decide, by decide, ⟨by decide, by decide, rfl, by decide⟩, by decide, by decide, desk_ready 6⟩

/-- FENCE with each of its bits and something to wait for, VSYNC with a queue, TMARK outside a trace. -/
theorem test_meets_control :
    ((4 : BitVec 4).getLsbD 2 = true ∧ ∃ e ∈ (deskWith fun k => { k with q := [entryOf (.vld (vf 1 4 0))] }).me.q, e.done = false ∧ isVMem e.instr = true) ∧
    (∃ e ∈ (deskWith fun k => { k with q := [entryOf (.mmac (vf 1 4 0))] }).me.q, e.done = false ∧ isMatrix e.instr = true) ∧
    ((8 : BitVec 4).getLsbD 3 = true ∧ (deskWith fun k => { k with as := { k.as with colls := [(4, 5, 1, 1)] } }).me.as.colls ≠ []) ∧
    (3 : BitVec 4).getLsbD 2 = false ∧ desk.me.q = [] ∧ desk.me.as.copies = [] ∧ desk.me.as.streams = [] ∧ desk.me.as.colls = [] ∧
    (desk.trc.open_ && bf desk.trc.cfg 47 32 == desk.me.ctx.toNat && desk.trc.cfg.getLsbD 1) = false ∧ desk.logs desk.me.ctx = false := by decide

theorem test_meets_wfe :
    (deskWith fun k => { k with event := true }).me.event = true ∧ desk.me.event = false ∧ desk.me.wfeSince = none ∧
    (deskWith fun k => { k with wfeSince := some 0 }).clk.cyc < 0 + 65536 ∧
    0 + 65536 ≤ ({ deskWith (fun k => { k with wfeSince := some 0 }) with clk := { cyc := 65536 } } : State).clk.cyc := by decide

theorem test_meets_halt : desk.me.as.streams = [] ∧ desk.me.as.colls = [] ∧ desk.me.as.subs = [] ∧ desk.me.tr.tcause.getLsbD 17 = false ∧ desk.me.win = [] ∧ desk.me.q = [] ∧ desk.me.as.copies = [] ∧
    2 ≤ desk.crew.live ∧ desk.core.arrays = [] ∧ desk.cores = [] := by decide

/-- Queue registers: none full or empty, one with eight entries, and a strand that waits in QPOP. -/
theorem test_meets_queues :
    desk.Clear [4] [] ∧ desk.Clear [] [3] ∧ desk.Clear [] [3, 4] ∧ desk.crew.queues[0] = [] ∧ desk.waiters 0 0 = [] ∧ desk.waiters 0 1 = [] ∧ desk.waiters 0 2 = [] ∧
    8 ≤ (List.replicate 8 (⟨1, 2, false⟩ : QCell)).length ∧ (List.replicate 7 (⟨1, 2, false⟩ : QCell)).length < 8 ∧
    (let k : Strand := { aStrand with id := ⟨1, 2, 0⟩, qwait := some ⟨0, 1, 1, 9⟩ }
     k.run = .running ∧ k.id ≠ desk.me.id ∧ k.id.lid = desk.crew.lid ∧ k.id.cid = desk.crew.cid ∧ desk.me.qwait = none ∧
     (({ desk with strands := [k] } : State).waiters 0 1).length = 1) :=
  ⟨⟨by decide, by decide, by decide⟩, ⟨by decide, by decide, by decide⟩, ⟨by decide, by decide, by decide⟩, by decide, by decide, by decide, by decide, by decide, by decide, by decide⟩

theorem test_meets_declare :
    (deskWith fun k => { k with alloc := { k.alloc with vrb := 4 }, regs := k.regs.set 5 32 }).Clear [4, 5] [3] ∧ desk.me.q = [] ∧ desk.foreign.testBit 0 = false ∧
    (let s : State := { deskWith (fun k => { k with alloc := { k.alloc with vrfSet := 1 } }) with strands := [ousted] }
     s.foreign.testBit 0 = true ∧ s.foreign ≠ 0) ∧ desk.MayEnter 0x07 :=
  ⟨⟨by decide, by decide, by decide⟩, rfl, by decide, by decide, desk_ready 7⟩

/-- A VT that VSETT takes (FP32, groups of two), one that it refuses, and VL pending. -/
theorem test_meets_type_and_length :
    desk.me.vlPending = false ∧
    ((0x00102054 : Word).toNat < 2 ^ 24 ∧ (Fmt.of (0x00102054 : Word).toNat).valid = true ∧ (0x00102054 : Word).toNat / 2 ^ 20 % 4 = (if (0x00102054 : Word).toNat % 16 = 5 then 2 else 1) ∧
      (0x00102054 : Word).toNat / 2 ^ 13 % 8 < 4) ∧ ¬ (0x01000000 : Word).toNat < 2 ^ 24 ∧
    desk.Clear [4] [3, 3 + 1, 3 + 2] ∧ (deskWith fun k => { k with q := [entryOf (.vldff (vf 1 4 0))] }).me.vlPending = true :=
  ⟨by decide, by decide, by decide, ⟨by decide, by decide, by decide⟩, by decide⟩

/-- Descriptors of VCOLL: none, two dimensions that merge, and four of which the last does not. -/
def collapseDesc (l : List (Nat × Nat)) : List Byte := (l.map fun x => leBytes 8 x.1 ++ leBytes 8 x.2).flatten

theorem test_meets_collapse :
    (desk.s 7).toNat % 8 ≠ 0 ∧ (desk.s 6).toNat % 8 = 0 ∧ (desk.s 6).toNat % 256 + 64 ≤ 256 ∧ desk.MayEnter 0x03 ∧
    (∃ p m, desk.find (desk.me.req (wordOf32 (.vcoll 3 6))) (desk.s 6) .read = .spot p m ∧ m.Open p ∧ m.poisoned p.key = false) ∧
    (let desc := collapseDesc [(4, 1), (8, 4), (2, 100), (0, 0)]
     (∀ x, x < 3 → numAt desc (16 * x) 8 ≠ 0) ∧ numAt desc 48 8 = 0 ∧ (numAt desc 24 8 : Int) = numAt desc 8 8 * numAt desc 0 8 ∧
     (numAt desc 40 8 : Int) ≠ numAt desc 24 8 * numAt desc 16 8) :=
  ⟨by decide, by decide, by decide, desk_ready 3, ⟨_, _, rfl, opens rfl rfl rfl rfl _, by decide⟩, by decide⟩

theorem test_meets_protected : desk.me.q = [] ∧ desk.foreign = 0 ∧ (desk.s 4).getLsbD 0 = desk.me.cfg.vpm ∧ (desk.s 5).getLsbD 0 ≠ desk.me.cfg.vpm ∧ desk.me.vs.cnt = 0 ∧
    (let s := deskWith fun k => { k with vs := { k.vs with cnt := 64, bits := 32 }, alloc := { k.alloc with vrb := 16 } }
     1 ≤ s.me.vs.cnt ∧ s.me.vs.cnt ≤ 64 ∧ s.me.vs.bits ≠ 0) := by decide

/-- A block in the replay buffer: it is fetched, waits for room, and is refused under a format it does not admit. -/
def aBlock : RBlock := { addr := 0xFFFFFFFFFFE00000, insns := [(0x0904024000400000, .vand { vf 1 0 9 with k := .scalarB })] }

def blocked : State := deskWith fun k => { k with replay := [aBlock] }

theorem test_meets_fetch_block :
    blocked.Clear [6] [] ∧ (blocked.s 7).toNat % 8 ≠ 0 ∧ (blocked.s 6).toNat % 8 = 0 ∧ blocked.me.replay.find? (·.addr = blocked.s 6) = some aBlock ∧
    (∀ r ∈ (aBlock.insns.map fun x => vScalarSrcs x.2).flatten, blocked.me.pending r = false ∧ blocked.me.faultOf r = none ∧ r ∉ blocked.me.spoiled.sregs) ∧
    (∀ x ∈ aBlock.insns, formatOk x.2 blocked.me.cfg = true) ∧ blocked.me.q.length + blocked.me.win.length + aBlock.insns.length ≤ 64 ∧
    64 < (List.replicate 64 (entryOf .vstop)).length + 0 + aBlock.insns.length ∧
    formatOk (.vadd (vf 1 2 3)) { vt := 0x00100054 } = false :=
  ⟨⟨by decide, by decide, by decide⟩, by decide, by decide, by decide, by decide, by decide, by decide, by decide, by decide⟩

/-- A held window of an entry that completed and one that trapped. -/
def heldWindow : State :=
  deskWith fun k => { k with win := [{ entryOf (.vadd (vf 1 2 3)) with done := true }, { entryOf (.vld (vf 1 4 0)) with taken := true }], tr := { k.tr with tcause := 0x20000 } }

theorem test_meets_replay_window : desk.me.sys = true ∧ desk.me.tr.tcause.getLsbD 17 = false ∧ heldWindow.me.tr.tcause.getLsbD 17 = true ∧ heldWindow.foreign = 0 ∧
    heldWindow.me.win.length = 2 := by decide

theorem test_meets_save_image :
    desk.Clear [6, 4] [3] ∧ desk.me.inFlight = false ∧ (deskWith fun k => { k with q := [{ entryOf (.vld (vf 1 4 0)) with started := [0] }] }).me.inFlight = true ∧
    (64 : Word).toNat ≥ 64 ∧ (63 : Word).toNat < 64 ∧ desk.foreignUnits 63 = [] ∧ (desk.s 7).toNat % 256 ≠ 0 ∧ (desk.s 6).toNat % 256 = 0 ∧ desk.foreignIn 63 = 0 ∧
    ({ desk with strands := [ousted] } : State).foreignIn 63 ≠ 0 :=
  ⟨⟨by decide, by decide, by decide⟩, by decide, by decide, by decide, by decide, by decide, by decide, by decide, by decide, by decide⟩

/-- Units of another strand under this one's. -/
theorem test_meets_save_foreign :
    let s : State := { deskWith (fun k => { k with alloc := { k.alloc with vrfSet := 1 } }) with strands := [ousted] }
    ∃ x k, s.foreignUnits 63 = [x] ∧ s.strandOf x.1 = some k ∧ x.1 ≠ s.me.id := ⟨_, _, rfl, rfl, by decide⟩

/-- An image without parts, its header alone, at the start of the scratch. -/
theorem test_meets_save_at :
    let s := desk
    let image := (s.me.imaged (s.heldParts s.me (s.s 0).toNat)).image s.imageName
    (s.s 0).toNat < 64 ∧ s.s 6 ≠ 0 ∧ s.linksOpen ∧ s.mem.stage = [] ∧ s.noColl ∧ s.logs s.me.ctx = false ∧ image.1.length = 256 ∧
    (∀ n, n < image.1.length / 256 → s.Steady (s.imageReq (wordOf32 (.vsave 3 6 0))) (s.s 6 + BitVec.ofNat 64 (256 * n)) .write ⟨scrKey 9 0, 0, false, false⟩ ∧ scrKey 9 0 % 256 = 0 ∧ ∀ m, ¬ m < n) := by
  refine ⟨by decide, by decide, links_open rfl, rfl, fun _ h => absurd h (List.not_mem_nil), rfl, by decide +kernel, ?_⟩
  intro n h
  have : n = 0 := by
    have e : ((desk.me.imaged (desk.heldParts desk.me (desk.s 0).toNat)).image desk.imageName).1.length / 256 = 1 := by decide +kernel
    simp only [e] at h
    omega
  subst this
  exact ⟨window_steady (o := 9) (by decide +kernel), by decide, fun m h => Nat.not_lt_zero m h⟩

/-- The scratch holds such an image. -/
def saved : State := { desk with mem := ({} : MemSys).putRaw (scrKey 9 0) ((aStrand.imaged 0).header 256) }

theorem test_meets_load_at :
    let s := saved
    let at_ : Spot := ⟨scrKey 9 0, 0, false, false⟩
    let sector := s.mem.bytesUnder 0 (scrKey 9 0) 256
    let h := headerLoaded sector
    let y := h.fill s.mem.imgs sector []
    s.Clear [6, 0] [3] ∧ s.me.inFlight = false ∧ s.foreignIn 0 = 0 ∧ s.linksOpen ∧ s.mem.stage = [] ∧ s.ReadsAt (s.imageReq (wordOf32 (.vload 3 6 0))) (s.s 6) at_ ∧
    (s.mem.poisoned (scrKey 9 0) = false ∧ h.wrong = false ∧ h.len = 256 ∧ h.offset 6 = 256 ∧ y.fits s.me 0 (numAt sector 0x30 8) = true ∧ y.parts.testBit 4 = false) :=
  ⟨⟨by decide, by decide, by decide⟩, by decide, by decide, links_open rfl, by decide +kernel,
    window_lands (o := 9) (by decide +kernel) (opens (by decide +kernel) (by decide +kernel) (by decide +kernel) (by decide +kernel)), by decide +kernel⟩

/-- What a frame holds: nothing, an array whose lane groups are free, and one of which another strand's array has lane group 0. -/
theorem test_meets_load_frame :
    let a : Arr := { owner := ⟨1, 2, 3⟩, lg := 0, g := 1, rs := false, vpm := false }
    let kept : Kept := { parts := 16, arr := some a }
    let s : State := deskWith fun k => { k with kept := kept }
    desk.me.keptLoaded.fits desk.me 16 1 = false ∧ s.me.keptLoaded.fits s.me 16 1 = true ∧ s.me.keptLoaded.arr = some a ∧ a.holds 0 = true ∧ s.core.arrays = [] ∧
    ({ s with core := { s.core with arrays := [{ a with owner := ⟨8, 0, 0⟩ }] } } : State).core.arrays.any (fun o => o.owner != s.me.id && o.holds 0) = true := by decide +kernel

/-- Operands of a copy: s20 to s23 for CPY, s24 to s27 with its descriptor registers for CPY2, s28 and s29 for their lengths. -/
def copier : State :=
  { deskWith (fun k => { k with regs := (((((((((k.regs.set 20 0xFFFFFFFFFFE00100).set 21 0xFFFFFFFFFFE00000).set 22 0x0001000000000020).set 24 0x10).set 25 8).set 26 0x0001000000000002).set 27 0x0000001000000020).set 28 0x0001020000000020).set 29 0x0001010000000001) })
    with mem := { ram := [(2 ^ 53 + 9 * 2 ^ 21 + 1, 7), (2 ^ 53 + 9 * 2 ^ 21 + 16, 64)] } }

/-- An unfinished copy of 32 bytes within the scratch, none of which has moved. -/
def aCopy : Copy :=
  { ticket := 1, word := 0, user := false, dst := 30, src := 0xFFFFFFFFFFE00000, to_ := 0xFFFFFFFFFFE00100, rowb := 32, rows := 1, sstr := 0, dstr := 0, swi := 0, prog := 0
    uncounted := 0, gen := 0, stamp := 3 }

def copying (c : Copy) : State := { copier with me := { copier.me with as := { copies := [c] }, tlc := 1 } }

/-- A stream of 100 elements in strips of 40. -/
def aStream : Stream :=
  { ticket := 1, word := 0, user := false, dst := 30, desc := 40, total := 100, strip := 40, buf := 4, ns := 0, leb := 2, swi := 1, bases := [(0xFFFFFFFFFFE00000, 4)], delivered := 0
    released := 0, hinted := 0, stamp := 3 }

def streaming (x : Stream) : State := { copier with me := { copier.me with as := { streams := [x] }, tlc := 1 } }

/-- A stream descriptor at byte 512 of the scratch, which s31 addresses: 100 elements of 4 bytes in strips of 40, buffers from 16 KiB, sync word 1. -/
def describing : State :=
  let at_ := 2 ^ 53 + 9 * 2 ^ 21 + 512
  { copier with
    me := { copier.me with regs := copier.me.regs.set 31 0xFFFFFFFFFFE00200 }
    mem := { ram := [(at_, 100), (at_ + 8, 2), (at_ + 9, 4), (at_ + 11, 40), (at_ + 14, 1), (at_ + 18, 0xE0), (at_ + 19, 0xFF), (at_ + 20, 0xFF), (at_ + 21, 0xFF), (at_ + 22, 0xFF),
      (at_ + 23, 0xFF), (at_ + 24, 4)] } }

/-- A sync word of the scratch, at its byte 16, with GEN 5. -/
def synced : State := { describing with mem := { ram := [(2 ^ 53 + 9 * 2 ^ 21 + 28, 5)] } , me := { describing.me with regs := describing.me.regs.set 32 0xFFFFFFFFFFE00010 |>.set 33 4 |>.set 34 5 |>.set 35 0x1000000000000000 } }

theorem test_meets_copy_issue :
    copier.me.run = .running ∧ copier.trc.open_ = false ∧ copier.Clear [20, 20 + 1, 22] [30] ∧ copier.Clear [20, 20 + 1, 24 + 1, 24 + 2, 24 + 3] [24] ∧
    copier.syncKey (copier.me.req 0) (copier.s 20) 1 = some (2 ^ 53 + 9 * 2 ^ 21 + 16) ∧ (copier.s 22).toNat / 2 ^ 41 % 2 ^ 7 = 0 ∧
    (copier.s 28).toNat / 2 ^ 41 % 2 ^ 7 ≠ 0 ∧ 2 ^ 40 < (copier.s 29).toNat % 2 ^ 41 ∧ 0 < 8 * 2 ∧ copier.me.faultOf 30 = none ∧
    32 ≤ (List.replicate 32 aCopy).length :=
  ⟨rfl, rfl, ⟨by decide, by decide, by decide⟩, ⟨by decide, by decide, by decide⟩, by decide, by decide, by decide, by decide, by decide, by decide, by decide⟩

theorem test_meets_copy_progress :
    (copying aCopy).strandOf ⟨1, 2, 3⟩ = some (copying aCopy).me ∧ (copying aCopy).me.as.copies.find? (·.ticket = 1) = some aCopy ∧ aCopy.gen = (copying aCopy).mem.gen ∧
    aCopy.total ≤ ({ aCopy with prog := 32 } : Copy).prog ∧ aCopy.src.toNat % 256 + aCopy.rowb ≤ 256 ∧ aCopy.to_.toNat % 256 + aCopy.rowb ≤ 256 ∧ aCopy.rowb < 256 ∧
    (∀ i, i < aCopy.rowb → aCopy.overlaps (aCopy.to_ + BitVec.ofNat 64 i) = false) ∧
    (let s := copying aCopy
     let r := s.me.creq 0 false 1
     (s.find r aCopy.src .read).holds fun p m => m.stage == [] && !p.host && !m.poisoned p.key &&
      let s1 := ({ s with mem := m } : State).passed r aCopy.src .read p false
      (s1.find r aCopy.to_ .write).holds fun q m2 => decide (q.key % 256 + aCopy.rowb ≤ 256) && (({ s1 with mem := m2 } : State).logged r aCopy.to_ q aCopy.rowb).holds fun s2 =>
        s2.mem.stage == [] && !q.host && !s2.disturbs r aCopy.to_ aCopy.rowb && s2.mem.heal == [] && !s2.trc.open_ && (s2.strandOf ⟨1, 2, 3⟩).isSome) = true ∧
    (copying aCopy).syncKey ((copying aCopy).me.creq 0 false 1) aCopy.to_ 1 = some (2 ^ 53 + 9 * 2 ^ 21 + 16) :=
  ⟨rfl, rfl, rfl, by decide, by decide, by decide, by decide, by decide, by decide +kernel, by decide⟩

/-- A copy taken up again with bytes left, and one with none left. -/
theorem test_meets_copy_resumed :
    (copier.s 30).toNat % 2 ^ 41 < (copier.s 22).toNat % 2 ^ 41 * 1 ∧ (0 : Nat) * 0 ≤ (copier.s 30).toNat % 2 ^ 41 ∧ (30 : Reg) ∉ copier.me.spoiled.sregs ∧
    copier.me.as.copies.length + copier.me.as.streams.length < 32 := by decide

theorem test_meets_stream :
    describing.Clear [31] [30] ∧ (describing.s 31).toNat % 8 = 0 ∧ (describing.s 31).toNat % 256 + 128 ≤ 256 ∧ (describing.s 7).toNat % 8 ≠ 0 ∧
    describing.crewOf (describing.me.req 0) = some aCrew ∧
    (describing.ticketed.find { describing.ticketed.me.req (wordOf32 (.stream 30 31)) with scalar := false, evicts := true } (describing.s 31) .read).holds (fun p m =>
      let desc := m.bytesUnder p.tag p.key 128
      let ctl := numAt desc 8 8
      !m.poisoned p.key && m.stage == [] && !p.host && numAt desc 0 8 == 100 && ctl / 2 ^ 24 % 2 ^ 16 == 40 && ctl / 2 ^ 48 == 1 && ctl / 2 ^ 40 % 2 ^ 8 == 0 && ctl / 2 ^ 17 % 2 ^ 7 == 0 &&
      ctl / 2 ^ 6 % 4 == 0 && ctl / 2 ^ 2 % 4 == 0 && ctl / 2 ^ 8 % 2 ^ 9 == 4 && (desc.drop 0x20).all (· == 0)) = true ∧
    4 * 4096 + 2 * 1 * 256 ≤ aCrew.scr * 4096 :=
  ⟨⟨by decide, by decide, by decide⟩, by decide, by decide, by decide, by decide, by decide, by decide⟩

theorem test_meets_stream_turns :
    (streaming { aStream with delivered := 2 }).fetchable { aStream with delivered := 2 } ≤ 2 ∧ 1 < (streaming { aStream with delivered := 1 }).fetchable { aStream with delivered := 1 } ∧
    1 < ({ aStream with delivered := 1 } : Stream).strips ∧ 0 < (streaming aStream).fetchable aStream ∧ 0 + 1 < aStream.strips ∧ (streaming aStream).s 4 = aStream.desc ∧
    (match (streaming aStream).landStrip ((streaming aStream).me.creq 0 false 1) aStream (List.range 1) (streaming aStream) with
      | .ok _ s1 => s1.crewOf (s1.me.req 0) == some aCrew
      | _ => false) = true :=
  by decide

/-- A strip of 40 elements from the start of the scratch to its buffer at 16 KiB. -/
theorem test_meets_strip :
    (streaming aStream).fetchable aStream > 0 ∧ (streaming aStream).mem.watch = [] ∧ (streaming aStream).logs 5 = false ∧ (streaming aStream).scratchOf (streaming aStream).me = some (scrKey 9 0, 65536) ∧
    (∀ j, j < 40 → (0xFFFFFFFFFFE00000 + BitVec.ofNat 64 (0 * 40 + j) * 4 : Word).toNat % aStream.eb = 0 ∧ (streaming aStream).mem.poisoned (scrKey 9 (4 * j)) = false) ∧
    scrKey 9 (4 * 4096) % 256 = 0 ∧ scrKey 9 0 + 1 * 16 + 16 ≤ scrKey 9 (4 * 4096) := by decide +kernel

theorem test_meets_strip_open : (streaming aStream).linksOpen ∧ (streaming aStream).noColl ∧ (streaming aStream).mem.stage = [] :=
  ⟨links_open rfl, fun _ h => absurd h List.not_mem_nil, rfl⟩

theorem test_meets_strip_lands :
    let s := streaming aStream
    let r := s.me.creq 0 false 1
    s.LandsAt { r with user := false } (0xFFFFFFFFFFE00000 + BitVec.ofNat 64 (4 * 4096)) .write ⟨scrKey 9 (4 * 4096), 0, false, false⟩ ∧
    ∀ j, j < 40 → s.ReadsAt r (0xFFFFFFFFFFE00000 + BitVec.ofNat 64 (0 * 40 + j) * 4) ⟨scrKey 9 (4 * j), 0, false, false⟩ := by
  intro s r
  have op : ∀ p, s.mem.Open p := opens rfl rfl rfl rfl
  have home : ∀ j, j < 40 → s.homeOf r (0xFFFFFFFFFFE00000 + BitVec.ofNat 64 (0 * 40 + j) * 4) Need.read.ex = .window 9 (scrKey 9 (4 * j)) := by decide +kernel
  have c : s.homeOf { r with user := false } (0xFFFFFFFFFFE00000 + BitVec.ofNat 64 (4 * 4096)) Need.write.ex = .window 9 (scrKey 9 (4 * 4096)) := by decide +kernel
  exact ⟨window_lands c op, fun j h => window_lands (home j h) op⟩

theorem test_meets_timelines :
    synced.Clear [32, 33] [3] ∧ synced.s 0 = 0 ∧ (∀ c ∈ (copying { aCopy with ticket := 3 }).me.as.copies, c.ticket.toNat = 2 + 1) ∧
    (synced.timeline 0).isSome = true ∧ (synced.timeline 0x1000000000000000).isSome = true ∧ 3 ≤ (synced.s 5).toNat / 2 ^ 60 ∧ (0x2000000000000000 : Word).toNat / 2 ^ 60 = 2 ∧ synced.groups = [] ∧
    ((copying aCopy).timeline 0).any (fun l => decide (l.value < min 1 l.issued)) = true ∧
    (synced.s 7).toNat % 16 ≠ 0 ∧ (synced.s 32).toNat % 16 = 0 ∧ synced.homeOf (synced.me.req 0) (synced.s 32) false = .window 9 (2 ^ 53 + 9 * 2 ^ 21 + 16) ∧
    synced.homeOf (synced.me.req 0) (synced.s 35) false = .refused 4 ∧
    (synced.find (synced.me.req (wordOf32 (.syncw 3 32 33))) (synced.s 32) .read).holds (fun p m => !m.poisoned p.key && m.stage == [] && !p.host && m.ram.num (2 ^ 53 + 9 * 2 ^ 21 + 28) 4 == 5) = true ∧
    (synced.s 33 = 4 ∧ synced.s 34 = 5) :=
  ⟨⟨by decide, by decide, by decide⟩, by decide, by decide, by decide, by decide, by decide, by decide, by decide, by decide, by decide, by decide, by decide, by decide, by decide, by decide⟩

/-- What LAUNCH or GRAPH of a structure asks of the device, and who asks. -/
def asking (s : State) (d a : Reg) (graph : Bool) : State :=
  let s0 := s.toCp.unstage
  { s0 with me := { s0.me with as := { s0.me.as with
      subs := [{ dst := d, graph := graph, at_ := s.s a, stamp := s.me.lclk + 1, place := s.me.as.ltl.length }]
      ltl := s.me.as.ltl ++ [{ handle := none, stamp := 0, asked := true }] } } }
def asker (s : State) : Req := pkgReq s.me.ctx (s.me.lclk + 1) [16, s.me.id.lid.toNat, s.me.id.cid.toNat, s.me.id.sid.toNat, s.me.as.ltl.length]

/-- The sum of the checks of the descriptor at S(A), and its flags. -/
def checked (a : Reg) (f : Nat → Byte → Bool) : Bool :=
  let s1 := asking working 30 a false
  (s1.find (asker working) (working.s a) .read).holds fun p m =>
    let desc := m.bytesUnder p.tag p.key 64
    let u := ({ s1 with mem := m } : State).passed (asker working) (working.s a) .read p false
    m.stage == [] && !p.host && !m.poisoned p.key && f (u.descCheck aJob (working.s a) desc) (desc.getD 0x14 0 &&& 0x80)

theorem test_meets_launch :
    working.Clear [9] [30] ∧ working.Clear [11] [30] ∧ working.me.run = .running ∧ working.me.as.subs = [] ∧ working.jobOf working.me.ctx = some aJob ∧
    (working.s 9).toNat % 256 + 64 ≤ 256 ∧ checked 9 (fun c b => c == 0 && b == 0) = true ∧ (working.s 14).toNat % 256 + 64 ≤ 256 ∧ checked 14 (fun c _ => c != 0) = true ∧
    working.cancelledObj (.launch 1) = false ∧ working.me.id.lid.toNat % 2 ^ 13 = 1 ∧
    1 ≠ (allocSlot Config.launchSlots ((aLaunch 1 :: working.cp.launches).map fun l => (l.slot, l.gen, l.doneSeq))).1 ∧
    (match (asking working 30 11 false).find (asker working) (working.s 11) .read with | .remote dev => dev == 7 | _ => false) = true ∧ working.fab.txs = [] :=
  ⟨⟨by decide, by decide, by decide⟩, ⟨by decide, by decide, by decide⟩, rfl, rfl, rfl, by decide, by decide +kernel, by decide, by decide +kernel, by decide, by decide, by decide, by decide +kernel, rfl⟩

/-- The same with the sector of the graph image in the cache of its die. -/
def cachedWork : State := { working with mem := { withWork with lines := [⟨5, 2, 0x200, 0x3F, 0x2002000, 175930450378752, 0⟩] } }

theorem test_meets_graph :
    let s := cachedWork
    let at_ : Nat → Spot := fun _ => ⟨0x200, 175930450378752, false, false⟩
    let img := (List.range 128).map fun k => (asking s 30 12 true).mem.byteUnder (at_ 0).tag ((at_ 0).key + k)
    s.Clear [12] [30] ∧ s.me.run = .running ∧ s.me.as.subs = [] ∧ s.jobOf s.me.ctx = some aJob ∧ (asking s 30 12 true).linksOpen ∧ (asking s 30 12 true).mem.stage = [] ∧
    numAt img 0 4 = 1 ∧ numAt img 4 4 = 0 ∧ (s.s 12).toNat % 256 = 0 ∧
    (∀ n, 256 * n < 128 → (asking s 30 12 true).ReadsAt (asker s) (s.s 12 + BitVec.ofNat 64 (if n = 0 then 0 else 256 * n)) (at_ n) ∧ (asking s 30 12 true).mem.poisoned (at_ n).key = false) ∧
    imageOk (s.s 12) img = true ∧ liveGraphs s < Config.maxGraphs ∧ s.cancelledObj (.launch 1) = false ∧ numAt img 0x10 1 % 2 = 0 ∧ s.launchAt 1 = none := by
  intro s at_ img
  refine ⟨⟨by decide, by decide, by decide⟩, rfl, rfl, rfl, links_open rfl, rfl, by decide +kernel, by decide +kernel, by decide, fun n h => ?_, by decide +kernel, by decide, by decide, by decide +kernel, rfl⟩
  have n0 : n = 0 := by omega
  subst n0
  have op : ∀ p, (asking s 30 12 true).mem.Open p := opens rfl rfl rfl rfl
  have q := cached_lands (s := asking s 30 12 true) (r := asker s) (a := s.s 12 + BitVec.ofNat 64 (if 0 = 0 then 0 else 256 * 0)) (n := .read) (d := 0) (i := false)
    (l := ⟨5, 2, 0x200, 0x3F, 0x2002000, 175930450378752, 0⟩) (by decide +kernel) (by decide) (by decide +kernel) (by decide) (by decide) op
  exact ⟨q.to (by decide +kernel), by decide +kernel⟩

/-- A graph image of a node of no kind. -/
theorem test_meets_graph_refused :
    let s := { cachedWork with mem := { cachedWork.mem with ram := cachedWork.mem.ram.set 0x240 0x0F } }
    (asking s 30 12 true).linksOpen ∧ (asking s 30 12 true).mem.stage = [] ∧
    imageOk (s.s 12) ((List.range 128).map fun k => (asking s 30 12 true).mem.byteUnder 175930450378752 (0x200 + k)) = false :=
  ⟨links_open rfl, rfl, by decide +kernel⟩

/-- A launch in slot 3 with a strand of it. -/
def cancellable : State :=
  { working with
    cp := { working.cp with launches := [aLaunch 3] }, strands := [{ aStrand with id := ⟨(aLaunch 3).handle, 0, 0⟩ }], me := working.me.w 13 (aLaunch 3).handle }

theorem test_meets_cancel_and_wait :
    working.Clear [13, 4] [30] ∧ working.object 5 (working.s 4) = none ∧ working.object 5 (working.s 13) = some (.launch 0) ∧ (working.wordOf (.launch 0)).1.toNat % 2 ^ 48 = 1 ∧
    1 ≤ (working.s 4).toNat ∧ (working.s 0).toNat < 1 ∧ cancellable.object 5 (cancellable.s 13) = some (.launch 3) ∧ cancellable.launchAt 3 = some (aLaunch 3) ∧
    (aLaunch 3).nextCid = (aLaunch 3).shape.toNat / 2 ^ 48 ∧ (∀ x ∈ cancellable.cp.launches, x.slot ≠ 3 → x.state ≠ 0) ∧
    (∀ c ∈ cancellable.crews, c.lid ≠ (aLaunch 3).handle ∨ c.placed = true) ∧ (∀ k ∈ cancellable.strands, k.id.lid = (aLaunch 3).handle → k.run = .running) ∧
    cancellable.me.id.lid ≠ (aLaunch 3).handle ∧ cancellable.cp.graphs = [] ∧ cancellable.cp.phases = [] ∧ cancellable.groups = [] ∧ cancellable.fab.loop = [] :=
  ⟨⟨by decide, by decide, by decide⟩, by decide, by decide, by decide, by decide, by decide, by decide, by decide, by decide, by decide, by decide, by decide, by decide, rfl, rfl, rfl, rfl⟩

theorem test_meets_signal :
    let i := Instr.signal 30 9 4
    let r := working.me.req (wordOf32 i)
    working.Clear [9, 4] [30] ∧ (working.s 9).toNat % 8 = 0 ∧ (working.s 7).toNat % 8 ≠ 0 ∧ working.MayEnter 0x03 ∧ working.me.run = .running ∧
    (working.find r (working.s 9) .both).holds (fun p m => !m.poisoned p.key && decide (p.key % 256 + 8 ≤ 256) && m.stage == [] && !p.host &&
      (({ working with mem := m } : State).logged r (working.s 9) p 8).holds fun s2 => !s2.disturbs r (working.s 9) 8 && s2.me == working.me) = true :=
  ⟨⟨by decide, by decide, by decide⟩, by decide, by decide, ⟨by decide, by decide, rfl, by decide⟩, rfl, by decide +kernel⟩

/-! ### Vector instructions that nothing delays -/

/-- Two elements of the format that VT names, in registers v1 to v4; predicate p1 holds element 1. -/
def vecDesk (vt : BitVec 32) (vl : Word := 2) : State :=
  let r (x : Nat) : VReg := ({} : VReg).put (Fmt.of vt.toNat) [⟨0, x, false⟩, ⟨1, x + 3, false⟩]
  deskWith fun k => { k with
    cfg := { vl := vl, mvl := 16, vt := vt }, alloc := { k.alloc with vrb := 64, accn := 16, vrfSet := 1, accSet := 0xFFFF }
    vs := { cnt := 64, bits := 64, regs := (((Vector.replicate 64 ({} : VReg)).set 1 (r 5)).set 2 (r 7)).set 3 (r 9), preds := (Vector.replicate 64 0).set 1 2 } }

/-- The premises of a statement about a vector instruction, as one check. -/
def State.vreadyB (s : State) (i : Instr) (need : Needs) : Bool :=
  s.foreignIn (need.parts i) == 0 && need.ops.all (fun o => s.operandOk (s.entryCtx i) o.2 o.1) && !(s.entryLanes i).isEmpty &&
  need.preds.all (fun p => p == 0 || !s.me.spoiled.preds.contains p) && ((vScalarDest i).all fun d => !s.me.asyncDests.contains d) &&
  (s.atEntry i).rest.isNone && s.me.due.sdc.isNone && decide (s.entryLanes i).Nodup && (s.entryLanes i).all (fun h => decide (h < 16)) &&
  (s.atEntry i).clean == 0 && (s.atEntry i).soiled == 0

theorem vready_of {s : State} {i : Instr} {need : Needs} (h : s.vreadyB i need = true) : s.VReady i need := by
  simp only [State.vreadyB, Bool.and_eq_true, beq_iff_eq, List.all_eq_true, Bool.or_eq_true, Bool.not_eq_true', List.isEmpty_eq_false_iff, Option.isNone_iff_eq_none,
    Option.all_eq_true, decide_eq_true_eq] at h
  obtain ⟨⟨⟨⟨⟨⟨⟨⟨⟨⟨a, b⟩, c⟩, d⟩, e⟩, f⟩, g⟩, n⟩, m⟩, w⟩, z⟩ := h
  exact ⟨a, b, c, ⟨n, m⟩, fun p hp hz hm => (d p hp).elim hz fun h => by simp [hm] at h, fun r hr hm => by simpa [hm] using e r (by simp [hr]), f, ⟨w, z⟩, g⟩

def State.vadmittedB (s : State) (i : Instr) : Bool := i.wf && (s.entryCtx i).f.valid && decide ((s.entryCtx i).g ≤ 8)

theorem vadmitted_of {s : State} {i : Instr} (h : s.vadmittedB i = true) : s.VAdmitted i := by
  simp only [State.vadmittedB, Bool.and_eq_true, decide_eq_true_eq] at h
  exact ⟨h.1.1, h.1.2, h.2⟩

def State.cleanB (s : State) (i : Instr) (v : VArgs) (f : Fmt) (o : Src) : Bool :=
  (List.range (s.entryCtx i).vl).all fun k => !s.active v k || !(s.elem (s.entryCtx i) f o k).2

theorem unpoisoned_of {s : State} {i : Instr} {v : VArgs} {f : Fmt} {o : Src} (h : s.cleanB i v f o = true) : s.unpoisoned i v f o := by
  intro k hk ha
  simpa [ha] using List.all_eq_true.mp h k (List.mem_range.mpr hk)

/-- The premises of an element-wise instruction on its sources. -/
def State.elemsB (s : State) (i : Instr) (v : VArgs) : Bool :=
  let c := s.entryCtx i
  let b := srcB (s.atEntry i) c v
  s.vreadyB i ⟨[((destD v).src, c.f), (srcA v, c.f), (b, c.f), (.reg v.c.toNat, c.f)], [v.p]⟩ && s.vadmittedB i && s.cleanB i v c.f (srcA v) && s.cleanB i v c.f b

/-- Signed words under SAT, with a vector, a scalar, an immediate and an accumulator operand, masked and not. -/
def vforms : List VArgs := [vf 4 1 2, { vf 4 1 2 0 1 with z := true }, { vf 4 1 9 with k := .scalarB }, { vf 4 1 0 0 1 0x3FFF with k := .immB }, { vf 4 1 2 with k := .accA }]

set_option maxRecDepth 20000 in
theorem test_meets_vector_integers : ∀ v ∈ vforms, (vecDesk 0x00900051).elemsB (.vadd v) v = true ∧ (vecDesk 0x00100030).elemsB (.vand v) v = true ∧
    (vecDesk 0x00100051 0).elemsB (.vmulh v) v = true := by decide +kernel

set_option maxRecDepth 20000 in
theorem test_meets_vector_leading_zeros : let s := vecDesk 0x00100051
    (s.elem (s.entryCtx (.vclz (vf 4 1 0))) (s.entryCtx (.vclz (vf 4 1 0))).f (srcA (vf 4 1 0)) 0).1 = 5 := by decide +kernel

set_option maxRecDepth 20000 in
theorem test_meets_vector_floats : ∀ v ∈ vforms, (vecDesk 0x00100054).elemsB (.vfadd v) v = true ∧ (v.k ≠ .accA → v.k ≠ .immB → (vecDesk 0x00100054).elemsB (.vfma { v with c := 3 }) { v with c := 3 } = true) ∧
    (vecDesk 0x00100054).elemsB (.vsqrt { vf 4 1 0 0 v.p with z := v.z }) { vf 4 1 0 0 v.p with z := v.z } = true := by decide +kernel

set_option maxRecDepth 20000 in
theorem test_meets_vector_marks : ∀ v ∈ [vf 3 1 2 0 1, { vf 3 1 0 0 0 1 with k := .immB }], (vecDesk 0x00100051).elemsB (.vcmplt v) v = true ∧
    (vecDesk 0x00100054).elemsB (.vfcmpun v) v = true ∧ (vecDesk 0x00100051).vreadyB (.pand v) ⟨[], [v.p, v.a, v.b]⟩ = true ∧
    (vecDesk 0x00100051).vreadyB (.pfirst v) ⟨[], [v.p, v.a]⟩ = true := by decide +kernel

/-- The check is the premise. -/
theorem test_meets_vector_premises {s : State} {i : Instr} {v : VArgs} (h : s.elemsB i v = true) :
    let c := s.entryCtx i
    let b := srcB (s.atEntry i) c v
    s.VReady i ⟨[((destD v).src, c.f), (srcA v, c.f), (b, c.f), (.reg v.c.toNat, c.f)], [v.p]⟩ ∧ s.VAdmitted i ∧ s.unpoisoned i v c.f (srcA v) ∧ s.unpoisoned i v c.f b := by
  simp only [State.elemsB, Bool.and_eq_true] at h
  exact ⟨vready_of h.1.1.1, vadmitted_of h.1.1.2, unpoisoned_of h.1.2, unpoisoned_of h.2⟩

theorem test_meets_special_points : let f := Fmt.of 0x54
    (f.valid && !f.isInt && !f.mini && decide (f.value 0 0x7FC00000 = .nan false) && decide (f.value 0 0xFF800000 = .inf true) && decide (f.value 0 0x7F800000 = .inf false) &&
      (f.value 0 0x80000000).isZero && (f.value 0 0x80000000).negative && decide (f.value 0 0xBF800000 = .fin true 8388608 (-23) false)) = true := by decide +kernel

def State.readyB (s : State) (i : Instr) (ops : List (Src × Fmt)) (preds : List Reg) : Bool := s.vreadyB i ⟨ops, preds⟩ && s.vadmittedB i

/-- VMOV, VSPLAT, VIOTA, VSEL, VCVT from bytes, VSCALE with blocks of 32 and without, VGETE and VSETE at an element of the group and past it. -/
theorem test_meets_vector_moves : ((let s := vecDesk 0x00100054
     let f := (Fmt.of 0x54)
     s.readyB (.vmov (vf 4 1 0 0 1)) [(.reg 4, f), (.reg 1, f)] [1] && s.readyB (.vsplat { vf 4 0 9 with k := .scalarB }) [(.reg 4, f)] [0] &&
     s.readyB (.viota (vf 4 0 0)) [(.reg 4, f)] [0] && s.readyB (.vsel (vf 4 1 2 1)) [(.reg 4, f), (.reg 1, f), (.reg 2, f)] [0, 1] &&
     s.readyB (.vcvt (vf 4 1 0 0 0 0x30)) [(.reg 4, f), (.reg 1, Fmt.of 0x30)] [0] && s.cleanB (.vcvt (vf 4 1 0 0 0 0x30)) (vf 4 1 0 0 0 0x30) (Fmt.of 0x30) (.reg 1) &&
     s.readyB (.vscaleKa (vf 4 1 0)) [(.reg 4, f), (.reg 1, f)] [0]) &&
    (let s := vecDesk 0x00150054
     s.readyB (.vscaleKb (vf 4 1 0)) [(.reg 4, Fmt.of 0x54), (.reg 1, Fmt.of 0x54)] [0] && (s.entryCtx (.vscaleKb (vf 4 1 0))).bl == 5) &&
    (let s := vecDesk 0x00100051
     let c := s.entryCtx (.vgete (vf 3 1 0 9))
     s.vreadyB (.vgete (vf 3 1 0 9)) ⟨[(.reg 1, c.f)], [0]⟩ && s.vreadyB (.vgete { vf 3 1 0 9 with k := .accA }) ⟨[(.acc 1, c.f)], [0]⟩ &&
     decide (((s.atEntry (.vgete (vf 3 1 0 9))).s 9).toNat < vlmax (s.atEntry (.vgete (vf 3 1 0 9))).snap.cfg c.mvl) &&
     decide (vlmax (s.atEntry (.vgete (vf 3 1 0 4))).snap.cfg c.mvl ≤ ((s.atEntry (.vgete (vf 3 1 0 4))).s 4).toNat) && (s.elem c c.f (.reg 1) 0).2 == false &&
     s.readyB (.vsete { vf 1 0 4 9 with k := .scalarB }) [(.reg 1, c.f)] [0]) ) = true := by decide +kernel

theorem test_meets_vector_reductions : (([0x00100054, 0x00900051] : List (BitVec 32)).all fun vt => let s := vecDesk vt
    s.vreadyB (.vrsum (vf 3 1 0 0 1)) ⟨[(.reg 1, Fmt.of vt.toNat)], [1]⟩ && s.cleanB (.vrsum (vf 3 1 0 0 1)) (vf 3 1 0 0 1) (Fmt.of vt.toNat) (.reg 1) &&
    s.vreadyB (.vrsumo { vf 3 1 0 with k := .accA }) ⟨[(.acc 1, Fmt.of vt.toNat)], [0]⟩ && s.vreadyB (.pcnt (vf 3 1 0)) ⟨[], [0, 1]⟩ ) = true := by decide +kernel

theorem test_meets_vector_cross_lane : (let s := vecDesk 0x00100051
    let f := Fmt.of 0x51
    s.readyB (.vperm (vf 4 1 2)) [(.reg 4, f), (.reg 1, f), (.reg 2, f)] [0] && s.cleanB (.vperm (vf 4 1 2)) (vf 4 1 2) f (.reg 2) &&
    s.readyB (.vslup { vf 4 1 0 0 0 1 with k := .immB }) [(.reg 4, f), (.reg 1, f)] [0] && s.readyB (.vrev (vf 4 1 0)) [(.reg 4, f), (.reg 1, f)] [0] &&
    s.readyB (.vcmpr (vf 4 1 0 0 1)) [(.reg 4, f), (.reg 1, f)] [1] && s.vreadyB (.vconfl (vf 3 1 0 0 1)) ⟨[(.reg 1, f)], [1]⟩ &&
    s.cleanB (.vconfl (vf 3 1 0 0 1)) (vf 3 1 0 0 1) f (.reg 1) && s.readyB (.vscan (vf 4 1 0)) [(.reg 4, f), (.reg 1, f)] [0] &&
    s.cleanB (.vscan (vf 4 1 0)) (vf 4 1 0) f (.reg 1) ) = true := by decide +kernel

/-- VCVT of bytes into the register that holds them. -/
theorem test_meets_vector_convert_in_place : (let s := vecDesk 0x00100054
    let v := vf 1 1 0 0 0 0x30
    let i := Instr.vcvt v
    let c := s.entryCtx i
    let g := Fmt.of 0x30
    let next (t : State) (j : Nat) : State := t.putAll c (destD v) [⟨j, (c.f.round c.nm (g.value c.nm (t.elem c g (srcA v) j).1)).1, false⟩]
    s.readyB i [((destD v).src, c.f), (srcA v, g)] [v.p] && (destD v).src == srcA v && g != c.f && c.vl == 2 && !v.z && s.active v 0 && s.active v 1 &&
    (List.range 2).all fun k => !(((List.range k).foldl next s).elem c g (srcA v) k).2) = true := by decide +kernel

/-! ### Vector accesses in the LOCAL window -/

/-- Where an access of this vector instruction lands, as data. -/
def State.landsB (s : State) (i : Instr) (n : Need) (a : Word) : Bool :=
  match s.find (s.entryReq (s.atEntry i)) a n with
  | .spot p m => decide (p.key % 256 + 4 ≤ 256) && !m.poisoned p.key && !p.host && m.stage == []
  | _ => false

/-- Loads of every shape at the start of the window (s6), strides in s4, indices in v2, a nibble-plane format, and a VLDFF that ends at its second element. -/
theorem test_meets_vector_loads :
    ((let s := vecDesk 0x00100051
      let f := Fmt.of 0x51
      let a := s.s 6
      s.readyB (.vld (vf 4 6 0)) [(.reg 4, f)] [0] && s.readyB (.vlds { vf 4 6 4 with k := .scalarB }) [(.reg 4, f)] [0] && s.readyB (.vldx (vf 4 6 2)) [(.reg 4, f), (.reg 2, f)] [0] &&
      s.cleanB (.vldx (vf 4 6 2)) (vf 4 6 2) f (.reg 2) && s.readyB (.vldff (vf 4 6 0)) [(.reg 4, f)] [0] && s.readyB (.vldseg (vf 4 6 0 2 0 2)) [(.reg 4, f), (.reg 5, f)] [0] &&
      formatOk (.vld (vf 4 6 0)) (s.atEntry (.vld (vf 4 6 0))).snap.cfg && formatOk (.vldseg (vf 4 6 0 2 0 2)) (s.atEntry (.vldseg (vf 4 6 0 2 0 2))).snap.cfg &&
      [a, a + 4, a + 40, a + 12, a + 28].all (s.landsB (.vld (vf 4 6 0)) .read) && a.toNat % 4 == 0) &&
     (let s := vecDesk 0x00100078
      s.readyB (.vld (vf 4 6 0)) [(.reg 4, Fmt.of 0x78)] [0] && decide ((s.s 6).toNat % 64 = 0)) &&
     -- the second element of a VLDFF crosses out of the crew's scratch and faults
     (let s := deskWith fun k => { (vecDesk 0x00100051).me with regs := k.regs.set 6 0xFFFFFFFFFFE0FFFC }
      let i : Instr := .vldff (vf 4 6 0)
      s.readyB i [(.reg 4, Fmt.of 0x51)] [0] && s.landsB i .read (s.s 6) && ((loadOp (s.atEntry i) (s.entryCtx i) (vf 4 6 0) (s.entryReq (s.atEntry i))).check s 1).isSome)) = true := by
  decide +kernel

theorem test_meets_vector_loads_place : let s := vecDesk 0x00100051
    s.linksOpen ∧ s.me.picked = none ∧ s.noColl ∧ s.mem.stage = [] ∧
    s.ReadsAt (s.entryReq (s.atEntry (.vld (vf 4 6 0)))) (s.s 6) ⟨scrKey 9 0, 0, false, false⟩ ∧ s.ReadsAt (s.entryReq (s.atEntry (.vld (vf 4 6 0)))) (s.s 6 + 4) ⟨scrKey 9 4, 0, false, false⟩ := by
  intro s
  have op : ∀ p, s.mem.Open p := opens rfl rfl rfl rfl
  have h0 : s.homeOf (s.entryReq (s.atEntry (.vld (vf 4 6 0)))) (s.s 6) Need.read.ex = .window 9 (scrKey 9 0) := by decide +kernel
  have h4 : s.homeOf (s.entryReq (s.atEntry (.vld (vf 4 6 0)))) (s.s 6 + 4) Need.read.ex = .window 9 (scrKey 9 4) := by decide +kernel
  exact ⟨links_open rfl, rfl, fun _ h => absurd h List.not_mem_nil, rfl, window_lands h0 op, window_lands h4 op⟩

/-- A store of element 1 alone in the window, and its trap at an address that is no multiple of 4. -/
theorem test_meets_vector_stores :
    ((let s := vecDesk 0x00100051
      let f := Fmt.of 0x51
      let i : Instr := .vst (vf 1 6 0 0 1)
      let j : Instr := .vst (vf 1 7 0 0 1)
      s.readyB i [(.reg 1, f)] [1] && formatOk i (s.atEntry i).snap.cfg && (s.activeIdx (s.entryCtx i) (vf 1 6 0 0 1)) == [1] && !(s.elem (s.entryCtx i) f (.reg 1) 1).2 &&
      (s.entryFor i).2.2.landsB i .write (s.s 6 + 4) && (s.accessFault (s.entryReq (s.atEntry j)) (s.s 7 + 4) 4 .write).isSome &&
      s.readyB (.vstxa (vf 1 6 2 0 1)) [(.reg 1, f), (.reg 2, f)] [1] && (s.entryFor i).2.2.landsB i .both (s.s 6 + 40) &&
      s.cleanB (.vstxa (vf 1 6 2 0 1)) (vf 1 6 2 0 1) f (.reg 2))) = true := by
  decide +kernel

theorem test_meets_vector_store_logs : let s := vecDesk 0x00100051
    let i : Instr := .vst (vf 1 6 0 0 1)
    let t := (s.entryFor i).2.2
    let r := s.entryReq (s.atEntry i)
    (t.find r (s.s 6 + 4) .write).holds (fun p m => decide (p.key % 256 + 4 ≤ 256) && !p.host && m.stage == [] && !m.poisoned p.key &&
      (({ t with mem := m } : State).logOld r (s.s 6 + 4) p 4).holds fun s2 => s2.mem.stage == [] && !s2.mem.poisoned p.key && !s2.disturbs r (s.s 6 + 4) 4) = true := by
  decide +kernel

/-- Two elements stored in order, as a segment store of two fields, and into nibble planes. -/
theorem test_meets_vector_store_order :
    ((let s := vecDesk 0x00100051
      let f := Fmt.of 0x51
      let i : Instr := .vstseg (vf 1 6 0 2 0 2)
      s.readyB (.vst (vf 1 6 0)) [(.reg 1, f)] [0] && s.readyB i [(.reg 1, f), (.reg 2, f)] [0] && formatOk i (s.atEntry i).snap.cfg && s.cleanB i (vf 1 6 0 2 0 2) f (.reg 2) &&
      !s.logs s.me.ctx && [s.s 6, s.s 6 + 4].all fun a => s.landsB i .write a) &&
     (let s := vecDesk 0x00100078
      s.readyB (.vst (vf 1 6 0)) [(.reg 1, Fmt.of 0x78)] [0] && decide ((s.s 6).toNat % 64 = 0))) = true := by
  decide +kernel

/-- A place in the window stays whatever else memory holds. -/
theorem test_meets_vector_store_steady : let s := vecDesk 0x00100051
    let i : Instr := .vst (vf 1 6 0)
    s.Steady (s.entryReq (s.atEntry i)) (s.s 6) .write ⟨scrKey 9 0, 0, false, false⟩ := by
  intro s i
  exact window_steady (o := 9) (by decide +kernel)

/-- VSCLD of two entries at the first and the last place of a bank, and past it. -/
theorem test_meets_scale_loads :
    ((let s := vecDesk 0x00100051
      let i : Instr := .vscldKa (vf 0 6 4 0 0 4094)
      s.vreadyB i ⟨[], [0]⟩ && decide ((4094 : BitVec 14).toNat % 4096 + (s.entryCtx i).vl ≤ 4096) && decide (4096 < (4095 : BitVec 14).toNat % 4096 + (s.entryCtx i).vl) &&
      [s.s 6, s.s 6 + 40].all fun a => s.landsB i .read a)) = true := by
  decide +kernel

/-! ### Matrix mode -/

/-- An array of eight rows on lane groups 0 and 1. -/
def anArr (rs : Bool) : Arr := { owner := ⟨1, 2, 3⟩, lg := 0, g := 2, rs := rs, vpm := false }

/-- A tile of signed 32-bit weights. -/
def aTile : Tile := { fmt := 0x051, afmt := 0x051, bl := 0, scf := false, l := 1, weights := [(0, 3)], kb := [], bad := [] }

/-- The strand with these arrays on its core, its registers of 64 elements in 32-bit format. -/
def withArrays (l : List Arr) (vt : BitVec 32 := 0x00100051) : State :=
  let s := vecDesk vt
  { s with core := { num := 9, arrays := l }, me := { s.me with cfg := { s.me.cfg with mvl := 64 } } }

def State.matrixReadyB (s : State) (i : Instr) (parts : Nat) : Bool :=
  s.foreignIn parts == 0 && (s.arrayOf s.me.id).isSome && s.me.run == .running && s.me.due.sdc.isNone && !bt s.me.tr.mrp 63 &&
  encode64 (s.atEntry i).instr == encode64 i && !(s.atEntry i).done && s.me.picked.isNone

/-- MMODE of lane groups 0 and 1 without an array, with one, and while an instruction of another strand uses them; MFREE; MZERO of both kinds. -/
theorem test_meets_matrix_arrays :
    (let v : VArgs := vf 0 0 0 0 0 1
     (withArrays []).foreignIn 0 = 0 ∧ (withArrays []).arrayOf (withArrays []).me.id = none ∧ (withArrays [anArr true]).arrayOf (withArrays []).me.id = some (anArr true) ∧
     (∀ x, x < 16 → (withArrays []).core.inMatrix x = false) ∧ v.imm.toNat / 2 ^ 4 % 2 ^ 4 = 0 ∧ ((withArrays []).core.claims.any (·.1 = (withArrays []).me.id)) = false) ∧
    (let s := { withArrays [] with strands := [{ ousted with run := .running, q := [{ entryOf (.vadd (vf 1 2 3)) { vl := 32, mvl := 64, vt := 0x00100051 } with lanes := some [1, 2] }] }] }
     ∃ k ∈ s.allStrands, k.core = s.core.num ∧ k.onCore = true ∧ ∃ e ∈ k.q, e.done = false ∧ e.fault = none ∧ e.lanes.isSome ∧ ∃ x ∈ e.groups s.core, x < 16 ∧ x < 2) ∧
    (withArrays [anArr true]).foreignIn 2 = 0 ∧ (3 : Reg).toNat < (withArrays []).me.alloc.accn ∧ (anArr true).rs = true ∧
    ({ anArr false with tile := some aTile } : Arr).tile.isSome = true ∧ (anArr true).vpm = ((withArrays [anArr true]).entryCtx (.mzeroArray (vf 0 0 0))).vpm := by
  refine ⟨by decide +kernel, ⟨_, .tail _ (.head _), rfl, rfl, _, .head _, rfl, rfl, rfl, 1, by decide, by decide, by decide⟩, by decide +kernel⟩

theorem test_meets_matrix_weights :
    (let s := withArrays [anArr false]
     let v := vf 0 8 0
     let c := s.entryCtx (.mwld v)
     s.matrixReadyB (.mwld v) 9 && s.me.matrixOk c 8 (32 * 8) && (acfOf c.f c.f 0).isSome && c.bl == 0 && cellL c.f c.f == 1) = true := by decide +kernel

theorem test_meets_matrix_scaled_weights :
    (let s := withArrays [anArr false] 0x00150054
     let v := vf 0 8 0
     let c := s.entryCtx (.mwld v)
     s.matrixReadyB (.mwld v) 9 && s.me.matrixOk c 8 (32 * 32) && c.bl == 5 && decide (cellL c.f c.f ≤ 2 ^ c.bl)) = true := by decide +kernel

theorem test_meets_matrix_products :
    (let s := withArrays [{ anArr false with tile := some aTile }]
     let v := vf 3 8 0 0 0 1
     s.matrixReadyB (.mmac { v with k := .accD }) 11 && (match s.mmacCheck (s.entryCtx (.mmac v)) v with | .ok x => x.1.tile == some aTile && x.2 == .int32 | .error _ => false) &&
     !(anArr false).broken && (anArr false).chain.isNone) = true := by decide +kernel

theorem test_meets_matrix_cells :
    (let s := withArrays [{ anArr true with cf := some .int32, cells := [(0, 7)] }]
     let v := vf 0 8 12 0 0 3
     let d := vf 3 0 0 0 0 24
     s.matrixReadyB (.mrsmac v) 9 && (match s.mrsmacCheck (s.entryCtx (.mrsmac v)) v with | .ok x => x.2 == .int32 | .error _ => false) &&
     s.matrixReadyB (.mdrain { d with k := .accD }) 2 && decide (24 + (anArr true).rows ≤ Acf.int32.rows)) = true := by decide +kernel

theorem test_meets_integer_products :
    (let s := withArrays [anArr false]
     let m : Member := ⟨s.me, entryOf (.mmac (vf 3 8 0)) s.me.cfg, anArr false, aTile⟩
     m.ctx.bl == 0 && !m.ctx.sat && (List.replicate 8 5).length == m.a.rows * m.t.l) = true := by decide +kernel

/-- A strand with an array of the same chain on another core: its MCHAIN arrived. -/
def chainMate (w : Word) (arr : Option (Word × Nat)) : State :=
  let mate : Strand := { ousted with id := ⟨1, 2, 4⟩, run := .running, core := 8, q := [entryOf (.mchain (vf 0 0 9))] }
  let s := withArrays [anArr false]
  { s with me := { s.me with regs := s.me.regs.set 9 w }, strands := [mate], cores := [{ num := 8, arrays := [{ anArr false with owner := ⟨1, 2, 4⟩, arrived := arr }] }] }

theorem test_meets_chains_alone :
    (let w : Word := 0
     let s := chainMate w none
     let v := vf 0 0 9
     s.foreignIn 0 == 0 && s.arrayOf s.me.id == some (anArr false) && ((s.atEntry (.mchain v)).s 9).toNat / 2 ^ 20 % 8 == 0 && chainWordOk 0 && !(s.atEntry (.mchain v)).done &&
     s.arrays.filter (·.owner = s.me.id) == [anArr false] && s.arrays.all fun x => x.owner == s.me.id || x.arrived.isNone) = true := by decide +kernel

/-- Position 0 of a chain of two before its partner (core 8) has arrived, and after it has. -/
theorem test_meets_chains_waits :
    (let s := chainMate 0x07100800 none
     chainWordOk 0x07100800 && (0x07100800 : Word).toNat / 2 ^ 20 % 8 == 1 && (s.arrayOf s.me.id == some (anArr false)) && s.arrays.all fun x => x.owner == s.me.id || x.arrived.isNone) = true := by
  decide +kernel

theorem test_meets_chains_forms :
    (let s := chainMate 0x07100800 (some (0x07110009, 0))
     let w := (s.atEntry (.mchain (vf 0 0 9))).s 9
     let noted : Arr := { anArr false with arrived := some (w, s.clk.cyc) }
     match s.arrays, s.strands with
     | [a, b], [k] => a == anArr false && b.owner == k.id && k.id != s.me.id && k.run == .running && k.ctx == s.me.ctx && b.arrived == some (0x07110009, 0) && k.oldest.isSome &&
         chainAgrees (noted, w, s.me.core) (b, 0x07110009, k.core) && chainAgrees (b, 0x07110009, k.core) (noted, w, s.me.core) && chainWordOk 0x07110009 && s.me.core.toNat / 4 == k.core.toNat / 4 && (0x07110009 : Word).toNat / 2 ^ 24 % 2 ^ 8 == w.toNat / 2 ^ 24 % 2 ^ 8
     | _, _ => false) = true := by decide +kernel

/-- A strand of a formed chain of two whose partner's MMAC has not come, with an MMAC or an MCHAIN in its queue, at this cycle. -/
def chained (i : Instr) (f : Arr → Arr) (cyc : Nat) : State :=
  let pair : List SId := [⟨1, 2, 3⟩, ⟨1, 2, 4⟩]
  let s := withArrays [f { anArr false with tile := some aTile, chain := some 0x07100800, peers := pair }]
  let mate : Strand := { ousted with id := ⟨1, 2, 4⟩, run := .running, core := 8, q := [entryOf (.mchain (vf 0 0 9))] }
  let others : List Core := [{ num := 8, arrays := [{ anArr false with owner := ⟨1, 2, 4⟩, tile := some aTile, chain := some 0x07110009, peers := pair }] }]
  { s with me := { s.me with q := [entryOf i s.me.cfg] }, strands := [mate], cores := others, clk := { desk.clk with cyc := cyc } }

/-- A chained MMAC before it is ready, once its start is noted, and after its chain has dissolved. -/
theorem test_meets_chains_start :
    (let v : VArgs := { vf 3 8 0 0 0 1 with k := .accD }
     let starts (s : State) : Bool := s.foreignIn 11 == 0 && !(s.atEntry (.mmac v)).done &&
       (match s.mmacCheck (s.entryCtx (.mmac v)) v with | .ok x => (s.arrayOf s.me.id == some x.1) && x.2 == .int32 | .error _ => false)
     let s := chained (.mmac v) id 7
     let t := chained (.mmac v) (fun a => { a with ready := some (7, 2, .int32, 0) }) 8
     let u := chained (.mmac v) (fun a => { a with chain := none, peers := [], broken := true }) 7
     starts s && (s.arrayOf s.me.id).any (fun a => !a.broken && a.chain.isSome && a.ready.isNone) &&
     starts t && (t.arrayOf t.me.id).any (fun a => !a.broken && a.chain.isSome && a.ready.isSome && (t.chainOf a).any (·.ready.isNone)) &&
     starts u && (u.arrayOf u.me.id).any (·.broken)) = true := by decide +kernel

/-- A chain's MCHAIN and its first MMAC that wait past 2^20 cycles, and not yet. -/
theorem test_meets_chains_timeouts :
    (let s := chained (.mchain (vf 0 0 9)) (fun a => { a with chain := none, peers := [], arrived := some (0x07100800, 5) }) (2 ^ 20 + 5)
     let t := chained (.mmac (vf 3 8 0 0 0 1)) (fun a => { a with ready := some (5, 1, .int32, 0) }) (2 ^ 20 + 5)
     let waits (s : State) : Bool := (s.strandOf ⟨1, 2, 3⟩).isSome && (s.me.q.findIdx? fun e => !e.done) == some 0
     waits s && waits t && decide (5 + 2 ^ 20 ≤ s.clk.cyc) && decide (s.clk.cyc < 6 + 2 ^ 20) && (s.arrayOf ⟨1, 2, 3⟩).any (fun a => a.arrived.isSome) &&
     (t.arrayOf ⟨1, 2, 3⟩).any fun a => a.ready.isSome && a.chain.isSome && a.peers.contains a.owner && (t.chainOf a).any (·.ready.isNone) &&
       (t.chainOf a).all fun y => y.ready.all fun r => decide (5 ≤ r.1)) = true := by decide +kernel

theorem test_meets_vector_queue : desk.me.run = .running ∧ (queued.me.q.head?.map fun e => (e.done, e.probe)) = some (true, false) ∧
    (deskWith fun k => { k with q := [entryOf .vnop] }).me.q.head?.map (·.done) = some false := by decide

def trapped : State := deskWith fun k => { k with q := [{ entryOf (.vld (vf 1 4 0)) with fault := some ⟨0x04, 0, some 0x800, List.replicate 16 3⟩ }, entryOf .vnop] }

theorem test_meets_vector_trap : (trapped.me.q.head?.bind (·.fault)).map (·.code) = some 0x04 ∧ trapped.me.due.vec = none ∧ trapped.vectorRemote trapped.me = false ∧ trapped.MayEnter 0x04 :=
  ⟨by decide, rfl, by decide, ⟨by decide, by decide, rfl, by decide⟩⟩

/-- The arbiter of lane group 0 has chosen the strand, which has one ready instruction. -/
def issuing : State :=
  { deskWith (fun k => { k with slot := 1, q := [{ entryOf (.vadd (vf 1 2 3)) with done := true }, entryOf (.vadd (vf 1 2 3)) { vl := 3, mvl := 16, vt := 0x00100054 }, entryOf .vnop], cfg := { vl := 3, mvl := 16, vt := 0x00100054 } })
    with core := { num := 9, arbs := (Vector.replicate 16 ({} : LgArb)).set 0 { cur := 1, dc := Vector.replicate 4 2 } } }

theorem test_meets_lane_group_issue : issuing.me.core = (9 : BitVec 7) ∧ (vget (issuing.getCore 9).arbs 0 {}).cur = issuing.me.slot ∧
    vget (vget (issuing.getCore 9).arbs 0 {}).dc issuing.me.slot.toNat 0 ≠ 0 ∧ (issuing.getCore 9).inMatrix 0 = false ∧ issuing.inFlight 9 0 < 8 ∧
    issuing.readyAt issuing.me (issuing.getCore 9) 0 = some 1 := by decide +kernel

/-- A VNOP whose lane groups are all taken by arrays that form, and one that finds them. -/
theorem test_meets_vnop :
    (let s := { vecDesk 0x00100051 with core := { num := 9, claims := [(⟨1, 2, 4⟩, List.range 16)] } }
     s.foreignIn 0 == 0 && (s.entryLanes .vnop).isEmpty && s.core.arrays.isEmpty && (vecDesk 0x00100051).vreadyB .vnop ⟨[], []⟩) = true := by decide +kernel

def lone : State := { queueing with cp := { queueing.cp with jobs := [] } }

theorem test_meets_packet_results :
    ((packet 0).rsvZero = true ∧ ∀ w ∈ [(packet 0).b0, (packet 0).b1, (packet 0).b2, (packet 0).b3, (packet 0).b4, (packet 0).b5], w = 0) ∧
    lone.Takes (packet 0) ∧ lone.jobOf 5 = none ∧ queueing.jobOf 5 = some aJob ∧ queueing.object 5 0 = none ∧
    queueing.object 5 (aLaunch 3).handle = some (.launch 3) ∧ (queueing.launchAt 3).map (fun l => (l.state, l.cancelled, l.nextCid, l.shape.toNat / 2 ^ 48)) = some (0, false, 1, 1) ∧
    (∀ x ∈ queueing.cp.launches, x.slot ≠ 3 → x.state ≠ 0) ∧ queueing.cp.graphs = [] ∧ queueing.groups = [] ∧ queueing.fab.loop = [] ∧
    queueing.crew.lid ≠ (aLaunch 3).handle ∧ ({ queueing with cp := { queueing.cp with phases := [] } } : State).cp.phases = [] ∧
    128 < queueing.reservedElse 5 + 129 % 256 ∧ 128 = queueing.reservedElse 5 + 128 ∧ (packet 0x100).b0.toNat = 256 ∧
    (queueing.phaseAt aJob.phase).isSome = true ∧ (queueing.cp.phases.filter (·.state == 0)).length < 256 ∧ queueing.cp.phases.length < Config.phaseSlots ∧
    (∀ x ∈ queueing.cp.phases, x.slot < queueing.cp.phases.length) :=
  ⟨by simp [packet], ⟨by decide, by decide, by decide, .inl (by decide), rfl, by decide⟩, rfl, rfl, by decide, by decide, by decide, by decide, rfl, rfl, rfl, by decide, rfl, by decide, by decide, by decide, by decide, by decide,
    by decide, by decide⟩

/-- 256 live phases, the open one with work. -/
def crowded : State := { queueing with cp := { queueing.cp with phases := { aPhase 0 with out := 1 } :: (List.range 255).map fun n => aPhase (n + 1) } }

set_option maxRecDepth 8000 in
theorem test_meets_phase_wait : crowded.Takes (packet 0) ∧ (crowded.cp.phases.filter (·.state == 0)).length = 256 ∧ (∀ old, crowded.phaseAt aJob.phase = some old → old.out ≠ 0) :=
  ⟨⟨by decide, by decide, by decide, .inl (by decide), rfl, by decide⟩, by decide, fun old h => by cases h; decide⟩

theorem test_meets_packet_work :
    (∀ w ∈ [(packet 0x100).b1, (packet 0x100).b2, (packet 0x100).b3, (packet 0x100).b4, (packet 0x100).b5], w = 0) ∧
    (∃ c, queueing.find (pkgReq 5 0 [2, 2]) 0x800000000000 .read = .fault c) ∧ (∃ c, queueing.find (pkgReq 5 1 [2, 2]) 0x800000000000 .read = .fault c) ∧
    (∃ p m, queueing.find (pkgReq 5 0 [2, 2]) 0x100 .read = .spot p m ∧ m.poisoned p.key = false ∧ queueing.find (pkgReq 5 1 [2, 2]) 0x100 .read = .spot p m) ∧
    (queueing.find (pkgReq 5 0 [2, 2]) 0x100 .read).holds (fun p m => (({ queueing with mem := m } : State).passed (pkgReq 5 0 [2, 2]) 0x100 .read p false).descCheck aJob 0x100 (m.bytesUnder p.tag p.key 64) == 0) = true ∧
    (queueing.find (pkgReq 5 0 [2, 2]) 0x108 .read).holds (fun p m => (({ queueing with mem := m } : State).passed (pkgReq 5 0 [2, 2]) 0x108 .read p false).descCheck aJob 0x108 (m.bytesUnder p.tag p.key 64) != 0) = true ∧
    (queueing.find (pkgReq 5 0 [2, 2]) 0x200 .read).holds (fun p m => numAt (m.bytesUnder p.tag p.key 64) 0 4 == 1) = true ∧
    (queueing.find (pkgReq 5 0 [2, 2]) 0x180 .read).holds (fun p m => numAt (m.bytesUnder p.tag p.key 64) 0 4 == 0) = true ∧
    queueing.cancelledObj (.phase aJob.phase) = false ∧ (0x100 : Word).toNat % 256 + 64 ≤ 256 :=
  ⟨by simp [packet], ⟨_, rfl⟩, ⟨_, rfl⟩, ⟨_, _, rfl, by decide, rfl⟩, by decide, by decide, by decide, by decide, by decide, by decide⟩

/-- The command processor after it has read the header of the image at this address. -/
def imaged (a : Word) (ram : Mem) : State :=
  let s : State := { queueing with mem := { queueing.mem with ram := queueing.mem.ram ++ ram }, clk := { queueing.clk with cp := queueing.clk.cp + 1 } }
  match s.find (pkgReq 5 0 [2, 2]) a .read with
  | .spot p m => ({ s with mem := m } : State).passed (pkgReq 5 0 [2, 2]) a .read p false
  | _ => s

def State.takesB (s : State) (p : Packet) : Bool :=
  s.accepts p && (s.queue p.q.toNat).st == 1 && (s.queue p.q.toNat).sqcfg.getLsbD 8 && !s.ringDead (s.queue p.q.toNat).cqbase (16 * ((p.stamp.toNat - 1) % (s.queue p.q.toNat).size)) &&
  (s.queue p.q.toNat).cqbase.getLsbD 0 && !s.trc.cap && !s.mem.poisoned (ringKey (s.queue p.q.toNat).cqbase (16 * ((p.stamp.toNat - 1) % (s.queue p.q.toNat).size)))

theorem takes_of {s : State} {p : Packet} (h : s.takesB p = true) : s.Takes p := by
  simp only [State.takesB, Bool.and_eq_true, beq_iff_eq, Bool.not_eq_true'] at h
  obtain ⟨⟨⟨⟨⟨⟨a, b⟩, c⟩, d⟩, e⟩, f⟩, g⟩ := h
  exact ⟨a, ⟨b, c⟩, d, .inl e, f, by rw [if_pos e]; exact g⟩

/-- An image that passes the checks, one of no node, and one whose node is in a page that does not exist. -/
theorem test_meets_packet_graph :
    (let s := imaged 0x200 []
     (s.cpRead s (pkgReq 5 0 [2, 2]) 2 0x200 128).holds (fun img s4 => imageOk 0x200 img && s4.takesB (packet 0x200) && s4.cp.jobs == [aJob] && s4.cp.turn == 2) &&
     (let s := imaged 0x180 []
      (s.cpRead s (pkgReq 5 0 [2, 2]) 2 0x180 64).holds fun img s4 => numAt img 0 4 == 0 && s4.takesB (packet 0x180)) &&
     (let s := imaged 0x3FFFFFC0 [(0x3FFFFFC0, 1)]
      match s.cpRead s (pkgReq 5 0 [2, 2]) 2 0x3FFFFFC0 128 with | .trap _ s4 => s4.takesB (packet 0x3FFFFFC0) | _ => false)) = true := by decide +kernel

set_option maxRecDepth 8000 in
theorem test_meets_jobnew :
    let p : Packet := { packet 0x2000000 with b1 := 0x2010000, b2 := 0x2020000, b4 := 128 }
    (p.rsvZero = true ∧ p.b4.toNat < 256 ∧ p.b5 = 0 ∧ p.b3 = 0 ∧ p.b0.toNat % 8192 = 0 ∧ p.b1.toNat % 64 = 0 ∧ p.b2.toNat % 64 = 0 ∧ dpaOk p.b0.toNat = true ∧ dpaOk p.b1.toNat = true ∧
      dpaOk p.b2.toNat = true) ∧ lone.Takes p ∧ lone.jobOf 5 = none ∧ (lone.cp.jobs.filter (·.live)).length < 256 ∧ lone.reservedElse 5 + 128 ≤ 128 ∧
    128 < lone.reservedElse 5 + 255 ∧ queueing.jobOf 5 = some aJob ∧
    256 ≤ (({ lone with cp := { lone.cp with jobs := (List.range 256).map fun n => { aJob with slot := n, ctx := BitVec.ofNat 16 (n + 6) } } } : State).cp.jobs.filter (·.live)).length :=
  ⟨by decide, ⟨by decide, by decide, by decide, .inl (by decide), rfl, by decide⟩, rfl, by decide, by decide, by decide, rfl, by decide⟩

def idleJob : State := { queueing with cp := { queueing.cp with launches := [] } }

theorem test_meets_jobend : idleJob.Takes (packet 0) ∧ idleJob.object 5 aJob.handle = some (.job 0) ∧ idleJob.sessionOf 5 = false ∧ idleJob.phaseAt 0 = some (aPhase 0) ∧ (aPhase 0).out = 0 ∧
    aJob.out = 0 ∧ (∀ x ∈ idleJob.cp.phases, x.slot ≠ 0 → x.state ≠ 0) ∧ (∀ x ∈ idleJob.cp.jobs, x.slot = 0 → x = aJob) ∧
    idleJob.cp.launches = [] ∧ idleJob.cp.graphs = [] ∧ idleJob.groups = [] ∧ idleJob.fab.loop = [] ∧ idleJob.mem.stage = [] ∧ (idleJob.queue 2).ending = none ∧ (aPhase 0).cancelled = false :=
  ⟨⟨by decide, by decide, by decide, .inl (by decide), rfl, by decide⟩, by decide, by decide, rfl, rfl, rfl, by decide, by decide, rfl, rfl, rfl, rfl, rfl, rfl, rfl⟩

/-- A NOP packet in the queue's first slot, and one with another number. -/
def fetching (stamp : Byte) : State := { queueing with mem := { queueing.mem with ram := queueing.mem.ram ++ [(0x3000000, 1), (0x3000002, 5), (0x3000038, stamp)] } }

theorem test_meets_packet_fetch :
    let s := fetching 1
    s.trc.checks = [] ∧ (s.queue 2).owed = none ∧ (s.queue 2).ending = none ∧ (s.queue 2).held = none ∧ s.nextQueue = some 2 ∧ (s.queue 3).owed = none ∧ s.nextQueue ≠ some 3 ∧
    s.ringDead (s.queue 2).sqbase 0 = false ∧ s.mem.poisoned (ringKey (s.queue 2).sqbase 0) = false ∧ numAt (s.mem.bytesUnder 0 0x3000000 64) 56 8 = 1 ∧
    numAt (s.mem.bytesUnder 0 0x3000000 64) 0 1 = 1 ∧ numAt ((fetching 7).mem.bytesUnder 0 0x3000000 64) 56 8 ≠ 1 ∧
    ({ s with mem := { s.mem with failed := [8] } } : State).ringDead (s.queue 2).sqbase 0 = true ∧ s.trc.open_ = false := by decide

theorem test_meets_packet_refetch :
    let s := (fetching 7).mapQueue 2 fun x => { x with lastRead := some 0, refetch := 255 }
    (s.queue 2).lastRead = some 0 ∧ s.queueOpen 2 = true ∧ s.ringAsleep (s.queue 2).sqbase = false ∧ s.clk.ns < 100 ∧
    ({ s with clk := { s.clk with ns := 100 } } : State).clk.ns = 0 + 100 ∧ (s.queue 2).refetch = 255 := by decide

theorem test_meets_ownership :
    owned.unreached .host0 = false ∧ ({ owned with house := { owned.house with d3hot := Vector.replicate 2 true } } : State).unreached .host0 = true ∧
    ((0x400000000 : Word).toNat / 2 ^ 32 = owned.owner.epoch.toNat ∧ (0x400000000 : Word).toNat / 2 ^ 9 % 2 ^ 23 = 0 ∧ (0x400000000 : Word).toNat / 16 % 16 = 0 ∧ (0x400000000 : Word).toNat % 16 < 4) ∧
    owned.owner.holder = some .host0 ∧ State.reset.owner.holder = none ∧ owned.owner.holder ≠ some .mc ∧ (owned.readReg 0x13F8).isSome = false ∧ (owned.readReg 0x1A0).isSome = false ∧
    (owned.readReg 0x138).isSome = true ∧ (owned.readReg 0x200).isSome = true ∧ owned.clk.ns < owned.owner.beat + 1000000000 ∧
    ({ owned with clk := { owned.clk with ns := 1000000000 } } : State).clk.ns = owned.owner.beat + 1000000000 := by decide

theorem test_meets_submission :
    owned.trc.open_ = false ∧ (owned.queue 2).st = 1 ∧ (owned.queue 2).tail.toNat < (65 : Word).toNat ∧ (65 : Word).toNat ≤ (owned.queue 2).head.toNat + 64 ∧
    (owned.queue 2).head.toNat + 64 < (66 : Word).toNat ∧ (1 : Word).toNat < (owned.queue 2).tail.toNat ∧ (owned.queue 3).st ≠ 1 ∧ owned.house.bootReady = true ∧
    ((0x10A : Word).toNat / 2 ^ 9 = 0 ∧ (0x10A : Word).toNat / 16 % 16 = 0 ∧ (0x10A : Word).toNat % 16 ≤ 10 ∧ (0x10A : Word).getLsbD 8 = true) ∧ ¬ (0x10B : Word).toNat % 16 ≤ 10 ∧
    (owned.queue 3).sqcfg.getLsbD 8 = false ∧ (owned.queue 2).sqcfg.getLsbD 8 = true ∧ (owned.queue 2).ending = none ∧ (owned.queue 2).owed = none := by decide

theorem test_meets_register_block :
    owned.unreached .host0 = false ∧ owned.readReg 0x3FF8 = none ∧ owned.readReg 4 = none ∧ (11 : BitVec 4).toNat < 12 ∧ (1000 : Word).toNat ≤ 1000 ∧ 1000 < (1001 : Word).toNat ∧
    0x3FF8 % 8 = 0 ∧ 0x3FF8 < 0x4000 ∧ ([0, 0x20] : List Byte).length ≠ 3 := by decide

/-- A staged entry that a commit refuses, after one that it does not. -/
def restaged : State := { owned with mem := { owned.mem with staged := ((Vector.replicate 256 ({} : Rte)).set 0 ⟨0xB000000000000000, 0⟩).set 1 ⟨0xBF00000000000000, 0⟩, xinva := 0x10000 } }

set_option maxRecDepth 10000 in
theorem test_meets_maintenance :
    let refused (s : State) (e : Rte) : Bool := e.w0.getLsbD 63 && (e.w0.toNat / 2 ^ 56 % 16 != 0 || e.w0.toNat / 2 ^ 26 % 16 != 0 || e.w1.toNat / 2 ^ 32 != 0 || e.w1.toNat / 2 ^ 5 % 4 != 0 ||
      e.w1.toNat / 4 % 4 != 0 || decide (2 ^ 26 < e.w0.toNat / 2 ^ 30 % 2 ^ 26 + e.w0.toNat % 2 ^ 26 + 1) || (e.w0.toNat / 2 ^ 61 % 4 == 2 && e.w1.toNat / 2 ^ 7 % 2 ^ 9 == s.dev.toNat))
    (∀ n : Fin 256, refused owned owned.mem.staged[n] = false) ∧ refused restaged restaged.mem.staged[(1 : Fin 256)] = true ∧ (∀ k : Fin 256, k < 1 → refused restaged restaged.mem.staged[k] = false) ∧
    restaged.jobOf 5 = some aJob ∧ canonical restaged.mem.xinva = true ∧ restaged.mem.xinva.toNat % 2 ^ 16 = 0 ∧ restaged.jobOf 6 = none ∧ aJob.buft % 64 = 0 ∧
    owned.mem.frames = [] ∧ (1024 : Word).toNat % 2 ^ 11 ≤ 1024 ∧ 1024 < (1025 : Word).toNat % 2 ^ 11 ∧ owned.house.bootReady = true ∧ owned.fab.podcfg.getLsbD 63 = false := by decide

theorem test_meets_commit_waits : owned.mem.committing = false ∧ (∀ l ∈ owned.links.toList, l.snoop = none) ∧
    ∃ l ∈ ({ owned with links := owned.links.set 3 { snoop := some (0, 0) } } : State).links.toList, l.snoop.isSome := by decide

/-- A session of the job, held, whose target is the strand: it has a checkpoint in window 2, with 24 bytes of old values logged since. -/
def aCkpt : Ckpt := { pc := 0x500, regs := (Vector.replicate 64 (0 : Word)).set 4 9, cfg := {}, lclk := 3, tlc := 0, vs := {}, arr := none }

def aLog : LogRec := { seg := 0, at_ := 32, len := 40, hdr := 0x1000000000000002, w1 := 0x100, w2 := 0, w3 := 0, old := [1, 2, 3, 4, 5, 6, 7, 8] }

def debugged (logRec : LogRec) : State :=
  let base := owned
  let job : Job := { aJob with policy := { en := true, pol := 0, seg := 4096 }, retr := { whigh := 2, wlow := 1, tail := Vector.replicate 4 96, log := [logRec] } }
  { base with
    dbg := { ctl := 0xE000000000090005, sel := 0x8000000000000004 }
    me := { base.me with run := .held, ckpts := [(2, aCkpt)], startWin := 2 }
    cp := { base.cp with jobs := [job] } }

def opening (ctl : Word) : State := { owned with dbg := { owned.dbg with ctl := ctl } }

theorem test_meets_debug_sessions :
    (opening 0x8000000000000005).owner.holder = some .host0 ∧ (opening 0x8000000000000005).unreached .host0 = false ∧ (debugged aLog).heldStrands 5 = [(debugged aLog).me.id] ∧
    (debugged aLog).me.run = .held ∧ (debugged aLog).me.due.stop = none ∧ (debugged aLog).me.due.resume = false ∧ (opening 0xE000000000000005).heldStrands 5 = [] ∧
    (debugged aLog).me.tr.tcause.getLsbD 63 = false ∧ (debugged aLog).me.tr.tcause.getLsbD 17 = false ∧
    ((debugged aLog).dbg.ctl.getLsbD 62 = true ∧ ∀ k ∈ (debugged aLog).me :: (debugged aLog).strands, k.as.copies = [] ∧ k.run = .held ∧ k.q = [] ∧ k.as.streams = []) ∧
    (debugged aLog).cp.graphs = [] ∧ (0x8000000000000005 : Word).toNat % 2 ^ 16 = (opening 0xE000000000000005).dbg.ctl.toNat % 2 ^ 16 := by decide

theorem test_meets_rewinding :
    let s := debugged aLog
    (s.dbg.ctl.getLsbD 63 = true ∧ s.dbg.ctl.getLsbD 61 = true) ∧ s.dbgTarget.map (·.id) = some s.me.id ∧ (∀ k ∈ s.strands, k.id ≠ s.me.id) ∧ s.dbg.sel.getLsbD 63 = true ∧ s.dbg.sel.toNat % 2 ^ 12 < 64 ∧
    s.dbg.busy = false ∧ (s.jobOf 5).map (fun j => (j.slot, j.retr.wlow, j.retr.whigh)) = some (0, 1, 2) ∧ (s.jobAt 0).map (·.slot) = some 0 ∧
    (s.me.ckpts.find? (·.1 = 2)).map (·.1) = some 2 ∧ aCkpt.arr = none ∧ s.me.startWin = 2 ∧ (∀ c ∈ s.me.ckpts, c.1 ≠ 1) ∧ s.launchOf s.me = none ∧
    (aLog.hdr.toNat / 2 ^ 60 ≠ 5 ∧ 2 ≤ aLog.hdr.toNat % 2 ^ 32 ∧ aLog.hdr.toNat / 2 ^ 32 % 256 = s.mem.gen.toNat % 256) ∧
    (s.find (s.undoReq 5 (aLog.hdr.toNat / 2 ^ 40 % 2 ^ 16)) aLog.w1 .write).holds (fun p _ => p.key % 256 + 8 ≤ 256) = true ∧ aLog.hdr.getLsbD 56 = false ∧
    ({ s with dbg := { s.dbg with rstep := some (s.me.id, 5, false, s.me.icnt, 0) }, me := { s.me with run := .running } } : State).me.icnt + 1 < 5 ∧ s.me.q = [] ∧ s.me.as.streams = [] ∧
    s.me.win = [] := by decide

theorem test_meets_trace :
    owned.trc.open_ = false ∧ owned.trc.reset = none ∧ owned.trc.checks = [] ∧ (0x800A000000000000 : Word).toNat / 2 ^ 48 % 16 ≤ 10 ∧ ¬ (0x800B000000000000 : Word).toNat / 2 ^ 48 % 16 ≤ 10 ∧
    owned.mem.dpa64 (owned.trc.base.toNat + 8) = 0 ∧ dpaOk 0x4000000 = true ∧ 8 + dpaDie 0x4000000 ∉ owned.mem.failed ∧ dpaOk 0xFFFFFFFFFF000 = false := by decide

/-- A log that holds an entry of another kind only. -/
theorem test_meets_rewinding_undone :
    let e : LogRec := { aLog with hdr := 0x3000000000000002 }
    let s := debugged e
    e.hdr.toNat / 2 ^ 60 ≠ 5 ∧ e.hdr.toNat / 2 ^ 32 % 256 = s.mem.gen.toNat % 256 ∧ s.jobOf 5 = s.jobAt 0 ∧ (s.jobAt 0).isSome = true ∧ s.mem.stage = [] ∧
    ∀ d : Debug, let s1 : State := { s with mem := s.mem.drainAll, dbg := d }
      ∃ u, s1.undoAll s1 5 (([0, 1, 2, 3].map fun n => [e].filter (·.seg = n)).flatten) = .ok () u :=
  ⟨by decide, by decide, rfl, rfl, rfl, fun _ => ⟨_, rfl⟩⟩

/-- Domain 36 undervolts by 50 mV and has been quiet for a day; domain 0 is measured again. -/
def worn : State := { owned with
  clk := { owned.clk with ns := 86400000000000 }
  house := { owned.house with powered := true, domains := (owned.house.domains.set 36 { uven := true, offs := 50, rate := 25 }).set 0 { uven := true, meas := true, measErrs := 9, crossings := 2 } } }

theorem test_meets_lifetime : owned.clk.ns < owned.house.sampledAt + 1000000000 ∧ worn.house.sampledAt + 1000000000 ≤ worn.clk.ns ∧ (36 : BitVec 6).toNat < 37 ∧ 37 ≤ (37 : BitVec 6).toNat ∧
    worn.house.hourAt + 3600000000000 ≤ worn.clk.ns ∧ owned.clk.ns < owned.house.hourAt + 3600000000000 ∧ ((1400 : BitVec 16).toNat ≤ 1400 ∧ 1400 < (1401 : BitVec 16).toNat) := by decide

theorem test_meets_undervolting :
    (let x := worn.domain 36
     x.uven = true ∧ x.hold = false ∧ x.pf = false ∧ x.meas = false ∧ x.offs < 60 ∧ x.quietSince + 86400000000000 ≤ worn.clk.ns ∧ 4 * x.rate ≤ worn.house.pfthr.toNat) ∧
    (let x := worn.domain 0
     x.meas = true ∧ x.measSince + 600000000000 ≤ worn.clk.ns) ∧
    (let s : State := { worn with house := { worn.house with pfthr := 24 } }
     0 < (s.domain 36).offs ∧ s.house.pfthr.toNat < (s.domain 36).rate) ∧
    (let s : State := { worn with house := { worn.house with domains := worn.house.domains.set 5 { hold := true, holdUntil := 86400000000000, rate := 101 } } }
     (s.domain 5).hold = true ∧ (s.domain 5).holdForever = false ∧ (s.domain 5).holdUntil ≤ s.clk.ns ∧ (s.domain 5).offs = 0 ∧ (s.domain 5).meas = false ∧ s.house.pfthr.toNat < (s.domain 5).rate) := by decide

/-- One launch waits, of one crew of two strands with two register blocks each and a page of scratch. -/
def aWait : Launch := { aLaunch 3 with nextCid := 0, shape := 0x0001080001000000, strands := 0x1111, entry := 0x4000, arg := 77, opened := false }

def placing : State := { owned with cp := { owned.cp with launches := [aWait] }, clk := { owned.clk with ns := 12000000, cp := 9 } }

theorem test_meets_placement : placing.waitingLaunches = [aWait] ∧ (placing.launchAt 3).isSome = true ∧ aWait.returned = [] ∧ aWait.crews = aWait.nextCid + 1 ∧ aWait.qh = 0 ∧ placing.cp.claim = none ∧
    placing.jobHeld 5 = false ∧ placing.cp.victims = [] ∧ (∀ k ∈ placing.me :: placing.strands, k.run ≠ .preempted) ∧ placing.trc.open_ = false ∧ (placing.awayCrew aWait 0).isNone = true ∧
    (placing.fits aWait 9).isSome = true ∧ aWait.spc = 2 ∧ aWait.waiting = true ∧ aWait.prio < 7 ∧ aWait.elig + 2000000 ≤ placing.clk.ns ∧ aWait.ep placing.clk.ns = 6 := by decide

set_option maxRecDepth 20000 in
theorem test_meets_choice : placing.chooseNew aWait [aWait.nextCid] = some [9] := by decide

theorem test_meets_strand_start : (deskWith fun k => { k with run := .starting }).me.run = .starting ∧ desk.strands = [] := by decide

def lateLaunch : State := { placing with clk := { placing.clk with ns := 20000000 } }

theorem test_meets_claim : lateLaunch.cp.claim = none ∧ lateLaunch.waitingLaunches = [] ++ aWait :: [] ∧ aWait.ep lateLaunch.clk.ns = 6 ∧ aWait.lastPlaced + 20000000 ≤ lateLaunch.clk.ns ∧
    aWait.slot = (3 : BitVec 13).toNat := by decide

def chosen : State := { queued with cp := { owned.cp with victims := [queued.me.id] } }

theorem test_meets_preempt_stop : chosen.me.run = .running ∧ chosen.me.id ∈ chosen.cp.victims ∧ chosen.awaitsRemote = false ∧ chosen.me.due.forced = none ∧ chosen.vectorRemote chosen.me = false ∧
    chosen.me.oldest.all (fun e => (e.instr.vparts.map (·.vop)).all (· != 0x20)) = true ∧ chosen.me.as.streams = [] ∧
    desk.me.id ∉ desk.cp.victims := by decide

def owing : State := { queued with me := { queued.me with due := { queued.me.due with cancel := some (0x1234, 5) } } }

theorem test_meets_cancel_delivery : owing.me.run = .running ∧ owing.me.oldest.all (fun e => (e.instr.vparts.map (·.vop)).all (· != 0x20)) = true ∧ owing.vectorRemote owing.me = false ∧ owing.me.as.subs = [] ∧ owing.fab.txs = [] ∧ owing.me.as.copies = [] ∧ owing.me.as.streams = [] ∧ owing.me.due.cancel.map (·.2) = some 5 ∧
    owing.awaitsRemote = false ∧ owing.me.due.cancelled = none ∧ 2 ≤ owing.crew.live ∧ owing.core.arrays = [] ∧ owing.cores = [] ∧ owing.groups = [] ∧ owing.clk.ns < 5 + 1000000 ∧
    ({ owing with me := { owing.me with tr := { owing.me.tr with tcause := 0x8000 } } } : State).me.tr.tcause.getLsbD 15 = true := by decide

theorem test_meets_cancel_trap : owing.MayEnter 0x10 := ⟨by decide, by decide, rfl, by decide⟩

/-- The launch's completion word is due at an address; a second launch's at one that no table maps. -/
def notifying (a : Word) : State := { owned with cp := { owned.cp with launches := [{ aLaunch 3 with notify := a, notifyDue := true, state := 1, out := 0 }] } }

theorem test_meets_notify : ((notifying 0x100).owesNotify 3).map (·.gen) = some 0 ∧ (notifying 0x100).cp.owed = [] ∧ ((notifying 0x100).launchAt 3).map (fun l => (l.slot, l.notifyDue)) = some (3, true) ∧
    ((notifying 0x100).find (pkgReq 5 0 [8, 3, 0]) 0x100 .write).holds (fun p m => !p.host && decide (p.key % 256 + 8 ≤ 256) &&
      (({ notifying 0x100 with mem := m } : State).logOld (pkgReq 5 0 [8, 3, 0]) 0x100 p 8).holds fun s2 => s2.cp.launches.length == 1) = true ∧
    (match (notifying 0x100).homeOf (pkgReq 5 0 [8, 3, 0]) 0x100 false with | .host _ _ => false | _ => true) = true ∧
    (match (notifying 0x800000000000).find (pkgReq 5 0 [8, 3, 0]) 0x800000000000 .write with | .fault _ => true | _ => false) = true := by decide

/-- A node of this kind and body; word i of the body stands at offset 8·(i + 1). -/
def aNode (kind : Nat) (ws : List Nat) (st : NodeState := .pending) : Node :=
  { kind := kind, any := false, npred := 0, efirst := 0, body := (ws.map (leBytes 8)).flatten ++ List.replicate (56 - 8 * ws.length) 0, st := st, code := 0, taken := false, since := 0, coll := none, result := 0 }

/-- A graph of the job whose node 0 has completed, with these further nodes. -/
def aGraph (ns : List Node) : Graph :=
  { slot := 6, gen := 0, ctx := 5, parent := .phase 0, tag := 0, nodes := { aNode 6 [0x100] .completed with result := 1, taken := true } :: ns, edges := [(1, 0), (2, 0)], state := 0, code := 0
    out := 2, clk := 0, cancelled := false, failed := false, doneSeq := none }

def graphing (ns : List Node) : State := { owned with cp := { owned.cp with launches := [], graphs := [aGraph ns] } }

theorem test_meets_node_decide :
    let ns := [{ aNode 4 [0x108, 1, 1] with npred := 1 }, { aNode 4 [0x108, 1, 0] with npred := 1, efirst := 1 }, { aNode 5 [0x108, 9, 0] with npred := 2, any := true }, aNode 6 [0x108], aNode 2 [0x100, 0x200, 16],
      aNode 4 [0x109, 1, 0], aNode 5 [0x800000000000, 0, 0]]
    let s := graphing ns
    let gr := aGraph ns
    (s.graphAt 6).isSome = true ∧ gr.state = 0 ∧ 2 ≤ gr.out ∧ (ns.map (·.bodyOk)) = [true, true, true, true, true, false, true] ∧ (s.phaseAt 0).map (·.opened) = some true ∧
    ((s.setNode 6 1 fun x => { x with st := .running, since := s.clk.ns }).find { pkgReq 5 1 [3, 6, 0, 1] with covers := true } 0x108 .both).holds (fun p m => !m.poisoned p.key && decide (p.key % 256 + 8 ≤ 256) && m.stage == [] && !p.host &&
      (({ s.setNode 6 1 fun x => { x with st := .running, since := s.clk.ns } with mem := m } : State).logged { pkgReq 5 1 [3, 6, 0, 1] with covers := true } 0x108 p 8).holds fun s2 => s2.mem.heal == []) = true ∧
    (match s.find { pkgReq 5 1 [3, 6, 0, 7] with covers := true } 0x800000000000 .read with | .fault _ => true | _ => false) = true := by decide +kernel

def aNodeCopy : Copy :=
  { ticket := 0, word := 0, user := false, dst := 0, src := 0x100, to_ := 0x200, rowb := 16, rows := 1, sstr := 0, dstr := 0, swi := 0, prog := 0, uncounted := 0, gen := 0, stamp := 0 }

theorem test_meets_nodes_go_on :
    let w := aNode 5 [0x108, 9, 0x100000000] .running
    (w.word 0x18).toNat / 2 ^ 32 ≠ 0 ∧ w.since + (w.word 0x18).toNat / 2 ^ 32 * 1000 ≤ ({ graphing [w] with clk := { owned.clk with ns := 1000 } } : State).clk.ns ∧ (graphing [w]).clk.ns < w.since + 1000 ∧
    ((graphing [w]).find { pkgReq 5 0 [3, 6, 0, 1] with covers := true } 0x108 .read).holds (fun p m => !m.poisoned p.key && leNat (m.bytesUnder p.tag p.key 8) == 9) = true ∧
    (aNodeCopy.rows = 1 ∧ aNodeCopy.prog = 0 ∧ 0 < aNodeCopy.rowb ∧ aNodeCopy.rowb < 256 ∧ aNodeCopy.src.toNat % 256 + aNodeCopy.rowb ≤ 256 ∧ aNodeCopy.to_.toNat % 256 + aNodeCopy.rowb ≤ 256) ∧
    (∀ i, i < 16 → aNodeCopy.overlaps (aNodeCopy.to_ + BitVec.ofNat 64 i) = false) ∧
    ((graphing [w]).find { pkgReq 5 0 [3, 6, 0, 1] with covers := true } 0x100 .read).holds (fun p m =>
      ((({ graphing [w] with mem := m } : State).passed { pkgReq 5 0 [3, 6, 0, 1] with covers := true } 0x100 .read p false).find { pkgReq 5 0 [3, 6, 0, 1] with covers := true } 0x200 .write).holds fun q m2 => decide (q.key % 256 + 16 ≤ 256) && m2.stage == [] && !q.host &&
        (({ graphing [w] with mem := m2 } : State).logged { pkgReq 5 0 [3, 6, 0, 1] with covers := true } 0x200 q 16).holds fun s2 => s2.mem.heal == []) = true ∧
    aNodeCopy.marked = false ∧ aNodeCopy.swi = 0 ∧ aNodeCopy.gen = owned.mem.gen ∧ aNodeCopy.stop = none := by decide +kernel

/-- Link 3 in a state. -/
def linked (x : DieLink) (now : Nat := 0) : State := { owned with links := vset owned.links 3 x, clk := { owned.clk with ns := now } }

theorem test_meets_die_links :
    ((linked {} 50000).link 3).st = .awake ∧ ((linked {} 50000).link 3).idleNow ≠ 0 ∧ ((linked {} 50000).link 3).idleSince + ((linked {} 50000).link 3).idleNow.toNat * 1000 ≤ (linked {} 50000).clk.ns ∧
    (linked {} 49999).clk.ns < 0 + 50 * 1000 ∧ ((linked { st := .asleep }).link 3).st = .asleep ∧ ((linked { st := .waking 4 } 8004).link 3).st = .waking 4 ∧ 4 + 8000 ≤ (linked { st := .waking 4 } 8004).clk.ns ∧
    ((linked { st := .retraining 4 }).link 3).st = .retraining 4 ∧ ((linked { snoop := some (9, 3) } 8009).link 3).snoop = some (9, 3) ∧ 9 + 2000 * (3 + 1) ≤ (linked { snoop := some (9, 3) } 8009).clk.ns ∧
    3 ∉ (linked { fails := 3 } 20000000).mem.failed ∧ 3 ≤ ((linked { fails := 3 } 20000000).link 3).fails ∧ 0 + 20000000 ≤ (linked { fails := 3 } 20000000).clk.ns ∧
    (∀ k ∈ (linked { fails := 3 }).me :: (linked { fails := 3 }).strands, k.onCore = true → k.core.toNat / 16 ≠ 3) := by decide

/-- A load from memory die 0 finds the link of its own compute die, or of the memory die, asleep. -/
theorem test_meets_held_access :
    ([0, 8].all fun l =>
      let s : State := { mapped with links := vset mapped.links l { st := .asleep } }
      (s.heldOn (s.me.req 0) 0x100 .read).contains l && (match s.find (s.me.req 0) 0x100 .read with | .held _ => true | _ => false)) = true := by decide +kernel

/-- The strand's crew has a message in queue 2; its core holds a dirty and a clean line and an instruction sector. -/
def storing : State := { owned with
  me := { owned.me with id := ⟨1, 2, 0⟩ }
  crew := { owned.crew with queues := vset owned.crew.queues 2 [{ val := 8, stamp := 1 }] }
  core := { owned.core with l1 := [⟨5, 1, 0x20000100, true⟩, ⟨5, 2, 0x20000200, false⟩], icache := [⟨5, 7, [], false⟩] } }

theorem test_meets_store_errors : storing.errAt (.mem (2 ^ 64)) = none ∧ storing.me.run = .running ∧ (∀ k ∈ storing.strands, k.id ≠ storing.me.id) ∧ storing.me.id.lid = storing.crew.lid ∧
    storing.me.id.cid = storing.crew.cid ∧ (storing.crew.queues[(2 : BitVec 3).toNat]'(2 : BitVec 3).isLt).length = 1 ∧ storing.core.num = (9 : BitVec 7) ∧ dpaDie 0x4000000000000 = 1 := by decide

/-- A flit with this header and payload, with its check sum. -/
def flit (h : Nat) (payload : List Byte) : List Byte :=
  let body := leBytes 8 h ++ (payload ++ List.replicate 240 0).take 240
  body ++ leBytes 8 (crc64 body).toNat

/-- A port in a state. -/
def ported (p : Port) (now : Nat := 0) : State := { podded with fab := { podded.fab with ports := podded.fab.ports.set 2 p }, clk := { podded.clk with ns := now } }

theorem test_meets_fabric_ports :
    podded.groups = [] ∧ podded.fab.loop = [] ∧ 2 ≤ (podded.port 2).stat.toNat / 2 ^ 32 % 4 ∧ ¬ 2 ≤ (podded.port 3).stat.toNat / 2 ^ 32 % 4 ∧ (podded.port 2).queue = [] ∧
    (let p := (ported { upPort with unacked := [(1, fromPeer [], 2)] } 20000).port 2
     p.unacked ≠ [] ∧ p.ackAt + 20000 ≤ (ported { upPort with unacked := [(1, fromPeer [], 2)] } 20000).clk.ns ∧ 0 < 2 ∧ 2 ≤ p.pending ∧ p.pending < 2 ^ 12) ∧
    (let p := (ported { stat := 0x80000000 } 1000000000).port 2
     p.stat.toNat / 2 ^ 32 % 4 = 0 ∧ p.since + 1000000000 ≤ 1000000000) ∧
    (let p := (ported { stat := 0x180000000, attempts := 2 } 5000000).port 2
     p.stat.toNat / 2 ^ 32 % 4 = 1 ∧ p.since + 5000000 ≤ 5000000 ∧ 2 ≤ p.attempts ∧ p.unacked = [] ∧ p.queue = []) ∧ (2 : BitVec 2).toNat < 3 := by decide

set_option maxRecDepth 20000 in
theorem test_meets_flits :
    (let f := flit (5 * 2 ^ 52 + 9 * 2 ^ 40 + 2 ^ 34) [1, 0]
     f.length = 256 ∧ crc64 (f.take 248) = BitVec.ofNat 64 (numAt f 248 8) ∧ numAt f 0 8 / 2 ^ 34 % 16 = 1 ∧ BitVec.ofNat 12 (numAt f 0 8 / 2 ^ 52) = (podded.port 2).rxSeq + 1 ∧
     BitVec.ofNat 12 (numAt f 0 8 / 2 ^ 40) = (podded.port 2).txSeq - BitVec.ofNat 12 (podded.port 2).pending) := by decide +kernel

set_option maxRecDepth 20000 in
theorem test_meets_notices :
    podded.inPod = true ∧ ({ podded with clk := { podded.clk with ns := 10000000 } } : State).fab.noticeAt + 10000000 ≤ 10000000 ∧
    (let m := fromPeer (leBytes 4 8 ++ List.replicate 516 0) 0 0
     podded.fab.podcfg.getLsbD 63 = true ∧ msgOk 0x12 m = true ∧ m.sdev ≠ podded.dev ∧ podded.fab.replica = []) ∧
    (let s : State := { grouped (aGroup 1) with fab := { podded.fab with replica := [{ dev := 7, seq := 3, entries := [], at_ := 0 }] }, clk := { podded.clk with ns := 50000000 } }
     (s.fab.replica.find? (·.dev = 7)).map (·.at_) = some 0 ∧ s.groups.length = 1 ∧ (7 : BitVec 9) ≠ s.dev) := by decide

/-- Devices 7, 8 and 3 as ranks 0 to 2, with links of rank 0 to both others. -/
def threesome : Group := { aGroup 1 with
  members := [7, 8, 3], rank := 2
  table := [(List.range 64).map fun p => if p = 0 then 0x0001000280020003 else if p = 1 then 0x0001000280010008 else 0, pairRow 1 0x0001000280010007, pairRow 2 0x0001000280000007] }

set_option maxRecDepth 20000 in
theorem test_meets_row_stale : (deriveTrees threesome.members threesome.table).2 = [⟨0, 1, 1, 1⟩, ⟨0, 0, 2, 2⟩] ∧ threesome.members.getD 1 0 = 8 ∧ threesome.members.getD 0 0 ≠ podded.dev := by decide

/-- A READ, WRITE, ATOMIC or ADD of n bytes at an address. -/
def request (va n : Nat) (opc : Nat := 0) (ord : Nat := 0) (numf : Nat := 0) (arg exp : Nat := 0) (data : List Byte := []) : Msg :=
  fromPeer (leBytes 8 va ++ leBytes 2 n ++ [BitVec.ofNat 8 opc, BitVec.ofNat 8 ord] ++ leBytes 4 numf ++ leBytes 8 arg ++ leBytes 8 exp ++ data)

theorem test_meets_remote_requests :
    podded.inPod = true ∧ ({ podded with fab := { podded.fab with podcfg := 3 } } : State).inPod = false ∧ msgOk 0x01 (request 0x100 16) = true ∧ msgOk 0x01 (request 0x100 16 1) = false ∧
    (request 0x100 16).ddev = podded.dev ∧ ({ request 0x100 16 with ddev := 9 } : Msg).ddev ≠ podded.dev ∧ podded.fab.admits = [] ∧ podded.fab.served = [] ∧
    (match podded.homeOf (reqOf (request 0x100 16)) 0x100 false with | .die _ _ => true | _ => false) = true ∧
    (match podded.homeOf (reqOf (request 0x1000000100 16)) 0x1000000100 false with | .die _ _ => false | _ => true) = true ∧ 0x100 % 256 + 16 ≤ 256 ∧
    (podded.find (reqOf (request 0x100 16)) 0x100 .read).holds (fun p m => !p.host && !m.poisoned p.key && decide (p.key % 256 + 16 ≤ 256)) = true ∧
    msgOk 0x02 (request 0x100 4 0 0 0 0 0 [1, 2, 3, 4]) = true ∧ (request 0x100 4 0 0 0 0 0 [1, 2, 3, 4]).body.length = 32 + 4 ∧ msgOk 0x03 (request 0x108 8 0x2E 0 0 5) = true ∧
    (atomicNew 0x2E 8 7 5 0).isSome = true ∧ msgOk 0x04 (request 0x108 4 0 0 0x54 0 0 [0, 0, 128, 63]) = true ∧
    (match ({ podded with mem := { podded.mem with ram := [] } } : State).find (reqOf (request 0x100 16)) 0x100 .read with | .fault c => c == 4 || c == 5 | _ => false) = true := by decide

/-- A transaction under way with device 7, and messages that end or delay it. -/
def aTx (mt : Byte) (admitted : Bool) (wait : Nat := 0) : Tx :=
  { own := [0], tid := 77, mt := mt, msg := ⟨3, 7, 5, 77, 2, List.replicate 32 0⟩, at_ := 0, admitted := admitted, tries := 1, wait := wait, resp := none }

def sending (tx : Tx) (now : Nat := 0) : State := { podded with fab := { podded.fab with txs := [tx] }, clk := { podded.clk with ns := now } }

theorem test_meets_transactions :
    msgOk 0x10 (fromPeer (leBytes 8 67108864 ++ leBytes 8 1) 0) = true ∧ podded.fab.pool + 67108864 ≤ 2 ^ 26 ∧ 2 ^ 26 < podded.fab.pool + 67108865 ∧ msgOk 0x11 (fromPeer (List.replicate 8 0) 0) = true ∧
    (sending (aTx 1 false)).fab.txs.length = 1 ∧ (aTx 1 false).tid = (fromPeer []).tid ∧ (aTx 1 false).msg.ddev = (fromPeer []).sdev ∧ msgOk 0x05 (fromPeer (List.replicate 8 0)) = true ∧
    (aTx 1 false 3).wait ≠ 0 ∧ 0 + 3 * 1000 ≤ (sending (aTx 1 false 3) 3000).clk.ns ∧ 0 + 100000 ≤ (sending (aTx 1 true) 100000).clk.ns ∧ (sending (aTx 1 true) 99999).clk.ns < 0 + 100000 := by decide

/-- A collective of group 9 under way in two chunks of 64 KiB, issued by the strand. -/
def aColl (num : Nat) : Coll :=
  { num := num, ctl := 0x0009000000000001, count := 131072, src := 0x100, dst := 0x10000, prog := 0x200, stage := 0, sync := 0, list := [], strand := some (desk.me.id, 7), node := none, core := 9, slot := 0
    lid := 1, cid := 2, user := false, nm := 0, flags := 0, marks := [1, 1], parts := [], staged := [], wrote := [], written := [], begun := true, fc := none, stamp := 3, cancel := false }

def collective (rank : Nat) : State := grouped { aGroup rank with colls := [aColl 1] }

/-- A message about group 9 in generation gen. -/
def about (gen : Nat) (more : List Byte := []) : Msg := fromPeer (leBytes 2 9 ++ leBytes 2 0 ++ leBytes 4 gen ++ more)

theorem test_meets_agreement :
    podded.inPod = true ∧ (about 4).ddev = podded.dev ∧ podded.fab.loop = [] ∧ (aGroup 0).ctx = (about 4).ctx ∧ (aGroup 0).grp.toNat = numAt (about 4).body 0 2 ∧ (aGroup 0).members.Nodup ∧ (aGroup 1).members.Nodup ∧
    msgOk 0x22 (about 4 (List.replicate 8 0)) = true ∧ (aGroup 0).gen = 4 ∧ (aGroup 0).agreeing = false ∧ (aGroup 0).members.getD 0 0 = podded.dev ∧ msgOk 0x23 (about 5) = true ∧ (aGroup 1).answered < 5 ∧
    (aGroup 1).members.getD 0 0 ≠ podded.dev ∧ ((aGroup 0).answers.filter (·.1 ≠ 1)).length + 1 < (aGroup 0).members.length ∧ (aGroup 1).gen < 5 ∧ (aGroup 1).colls = [] ∧
    (∀ x ∈ podded.fab.txs, x.mt ≠ 0x28) ∧ msgOk 0x26 (about 4) = true ∧ (aGroup 0).acks.length + 1 < (aGroup 0).members.length ∧ 1 ∉ (aGroup 0).acks ∧ msgOk 0x27 (about 4) = true ∧
    (aGroup 1).trees ≠ [] ∧ (aGroup 1).joined = true ∧ (aGroup 1).running = [] ∧ (1 : BitVec 9).toNat < (aGroup 0).members.length ∧ (aGroup 0).proposedAt + 20000000 ≤ ({ podded with clk := { podded.clk with ns := 20000000 } } : State).clk.ns ∧
    (∀ x ∈ (aGroup 0).answers, x.1 ≠ 1) := by decide

theorem test_meets_agreement_messages : msgOk 0x24 (about 4 (List.replicate 520 0)) = true ∧ msgOk 0x25 (about 5 (leBytes 2 2 ++ List.replicate 1030 0)) = true := by decide +kernel

/-- STOP of collective 1, and 16 bytes of its chunk 0. -/
def stopMsgOf (fc : Byte) : Msg := about 4 (leBytes 4 1 ++ [fc, 0, 0, 0])

def chunkOf : Msg := about 4 (leBytes 4 1 ++ leBytes 4 0 ++ leBytes 4 0 ++ leBytes 4 16 ++ [0, 0] ++ List.replicate 6 0 ++ List.replicate 32 0 ++ List.replicate 16 7)

theorem test_meets_collectives :
    msgOk 0x20 (about 4 (leBytes 4 2 ++ leBytes 2 2 ++ leBytes 2 0 ++ leBytes 8 0x0009000000000001 ++ leBytes 8 1)) = true ∧ (5, (9 : BitVec 16)) ∉ podded.fab.differ ∧
    numAt (about 4 (leBytes 4 2 ++ leBytes 2 2 ++ leBytes 2 0 ++ leBytes 8 0x0009000000000001 ++ leBytes 8 1)).body 0x10 1 % 16 = 1 ∧ (aGroup 0).lost = false ∧ (∀ x ∈ (aGroup 0).left, 2 < x.2) ∧ 0 + 1 < (aGroup 0).members.length ∧
    msgOk 0x21 (stopMsgOf 0x31) = true ∧ (aColl 1).op = 1 ∧ (aColl 1).fc = none ∧ (aColl 1).grp = 9 ∧ (collective 1).me.run ≠ .idle ∧ (collective 1).trc.open_ = false ∧ (collective 1).groups.length = 1 ∧
    msgOk 0x28 chunkOf = true ∧ 0 < (aColl 1).marks.length ∧ numAt chunkOf.body 0x19 1 ≠ 1 ∧ msgOk 0x29 (about 4 (leBytes 4 1 ++ leBytes 4 0)) = true ∧
    (∃ x ∈ (aColl 1).recipients 2 0, x ≠ 1 ∧ (0, x) ∉ (aColl 1).written) ∧ msgOk 0x2A (about 4 (leBytes 4 1 ++ leBytes 4 0)) = true ∧ (aGroup 1).childrenOf 0 1 = [] ∧ (aColl 1).marks.getD 0 3 ≠ 3 ∧
    (aColl 1).marks.getD 1 0 ≠ 3 ∧ bf (aColl 1).sync 63 48 = 0 ∧ ((collective 1).find ((aColl 1).req 5) ((aColl 1).prog + BitVec.ofNat 64 0) .write).holds (fun p _ => !p.host) = true := by decide
/-- A BROADCAST descriptor of one element at virtual address 0x100 of a group led by device 7. -/
def issuingColl (ctl : Byte) : State :=
  { grouped (aGroup 1) with
    mem := { podded.mem with ram := [(0x100, ctl), (0x106, 9), (0x108, 1), (0x111, 2), (0x119, 3), (0x121, 4)] ++ someTables.ram }, me := { mapped.me with id := desk.me.id } }

theorem test_meets_coll :
    (issuingColl 3).Clear [9] [30] ∧ ((issuingColl 3).me.s 9).toNat % 64 = 0 ∧ ((issuingColl 3).me.s 7).toNat % 64 ≠ 0 ∧ (issuingColl 3).fab.loop = [] ∧ (aGroup 1).running.length < 16 ∧ (aGroup 1).lost = false ∧
    (∀ x ∈ (aGroup 1).colls, x.num ≠ (aGroup 1).issued + 1) ∧ (∀ j ∈ (issuingColl 3).cp.jobs, j.policy.en = false) :=
  ⟨⟨by decide, by decide, by decide⟩, by decide, by decide, by decide, by decide, by decide, by decide, by decide⟩

/-- Device 3 knows device 7's link to it. -/
def knowing (g : Group) : State :=
  { grouped g with fab := { (grouped g).fab with replica := [{ dev := 7, seq := 1, entries := pairRow 0 0x0001000280020003, at_ := 0 }] } }

/-- COMMIT and RESUME of a group whose tree's link carries traffic at both ends, and the agreement before them at rank 0. -/
theorem test_meets_agreement_links :
    (let g : Group := { aGroup 1 with agreeing := true, committed := true }
     let s := knowing g
     let body := leBytes 2 9 ++ leBytes 2 0 ++ leBytes 4 5 ++ leBytes 2 2 ++ leBytes 6 0 ++ ((g.table.map fun row => (row.map fun e => leBytes 8 e.toNat).flatten).flatten)
     let table := (List.range 2).map fun k => (numsOf 8 64 (body.drop (16 + 512 * k))).map (BitVec.ofNat 64)
     let carried (l : TLink) : Bool := linkCarries ((s.linksOf (g.members.getD l.u 0)).getD l.p 0) && linkCarries ((s.linksOf (g.members.getD l.v 0)).getD l.q 0)
     msgOk 0x25 (fromPeer body) && table == g.table && (deriveTrees g.members table).2.length == 1 && (deriveTrees g.members table).2.all carried &&
     g.later.isEmpty && g.colls.isEmpty && g.rank != 0 && !g.trees.isEmpty &&
     (let h : Group := { aGroup 0 with agreeing := true, proposed := 5, answers := [] }
      msgOk 0x24 (about 5 (List.replicate 520 0)) && h.rank == 0 && h.agreeing && !h.committed && h.running.isEmpty)) = true := by decide +kernel

/-- RESUME, STOP and a CHUNK at a member whose collective has not begun, and DONE of a chunk that it has written. -/
theorem test_meets_collective_steps :
    (let c : Coll := { aColl 1 with begun := false }
     let d : Coll := { aColl 1 with marks := [2, 1], risen := [0], wrote := [0] }
     !c.skip && c.fc.isNone && !c.begun && decide (0 < c.chunks 2) && d.marks.getD 0 3 == 2 && d.risen.contains 0 && d.wrote.contains 0 && d.parts.isEmpty && d.loose.isEmpty && !d.rewrite &&
     decide (d.marks.getD 1 0 ≠ 3) && c.strand == some (desk.me.id, 7) && msgOk 0x27 (about 4) && (aGroup 1).stopped.isEmpty && (aGroup 1).matched == 0) = true := by decide +kernel

/-- A descriptor that the checks of R385 pass, and one of an operation that they refuse. -/
theorem test_meets_coll_checks :
    (([0x13, 0x1F] : List Byte).map fun ctl =>
      let s := issuingColl ctl
      let s1 : State := { s with me := { s.me with lclk := s.me.lclk + 1 } }
      let r : Req := { s1.me.req (wordOf32 (.coll 30 9)) with scalar := false, evicts := true }
      (s1.readSpan s1 r .read 2 (s.me.s 9) 64).holds fun x s2 =>
        let c := collOfDesc x.1 r (some (s.me.id, 30)) none s.me.cfg.nm s1.me.lclk
        !x.2 && c.op != 0 && s2.collRefused r c (BitVec.ofNat 64 (numAt x.1 0x38 8))) = [false, true] := by decide +kernel

/-! ### Queue pairs -/

/-- Queue pair 3 of the job's context, its table at device address 0x4000000: ready on port 0 with two RNR tries, rings at virtual addresses 0x1000, 0x2000 and
0x3000, its doorbell at 0x100; key 9 admits remote writes and reads of 4 KiB from 0x5000. A SEND of 4 bytes and a RECV of 8 are posted. -/
def qpState (sendOp : Byte := 1) (st : Byte := 1) (sz : Byte := 0) (x : QpSide := { qp := 3 }) : State :=
  { mapped with
    fab := { mapped.fab with qptab := 0x4000000 }, rdma := { qps := [{ x with posted := 2 }] }, clk := { mapped.clk with ns := 200000 }
    mem := { someTables with ram := [(0x100, 2)] ++ (if sendOp = 0 then [] else [(0x1000, sendOp)]) ++ [(0x1001, 1), (0x1009, 0x50), (0x1010, 4), (0x2000, 0x10), (0x2009, 0x51), (0x2010, 8), (0x2030, sz)].filter (·.2 ≠ 0)
      ++ someTables.ram ++ [(0x4000180, st), (0x4000182, 5), (0x4000187, 0x40), (0x4000191, 0x10), (0x4000199, 0x20), (0x40001A1, 0x30), (0x40001A9, 1),
        (0x40001B0, 9), (0x40001B4, 3), (0x40001B9, 0x50), (0x40001C1, 0x10)] } }

/-- A request in flight: operation, PSN 7. -/
def aFlight (op : Byte := 1) : Flight :=
  { num := 1, op := op, psn := 7, pkts := 1, wrid := 0, report := true, laddr := 0x5000, len := 4, pkt := { qp := 3, psn := 7, raddr := 0, rkey := 0, imm := 0, hasImm := false, ecn := false, data := [1, 2, 3, 4], len := 4 } }

/-- A span is written, or faults. -/
def Att.isOk {α : Type} : Att α → Bool
  | .ok _ _ => true
  | _ => false

def Att.faults {α : Type} : Att α → Bool
  | .trap _ _ => true
  | _ => false

/-- A doorbell that is read; a SEND, an empty ring, an operation that no ring has; timers that have run out with tries left and without, and have not. -/
theorem test_meets_rdma_sending :
    (let s := qpState
     let x := s.qpSide 3
     s.qpSt 3 == 1 && (qpState 1 2).qpSt 3 == 2 && (qpState 1 0).qpSt 3 == 0 && x.rnr.isNone && !s.qpPaused 3 && decide (x.rateAt + 50000 ≤ s.clk.ns) &&
     ((s.memRead (s.qpReq 3 [0]) (s.qpWord 3 0x28) 8 .read 0x46).holds fun r _ => leNat r.1 == 2 && !r.2) &&
     ((s.nextEntry 3 false).holds fun e t => match e with
       | some e => e.op == 1 && !e.wrong && e.report && ((t.readSpan t (t.qpReq 3 [1, 1]) .read (spanFuel e.len) e.laddr e.len).holds fun r u => r.1.length == 4 && !r.2 && u.cp.jobs.all fun j => !j.policy.en)
       | none => false) &&
     (((qpState 0).nextEntry 3 false).holds fun e _ => e.isNone) && (((qpState 6).nextEntry 3 false).holds fun e _ => e.any fun e => decide (5 < e.op))) = true := by decide +kernel

theorem test_meets_rdma_timers :
    (let f := aFlight
     let s := qpState 1 1 0 { qp := 3, flight := [f] }
     let tired := qpState 1 1 0 { qp := 3, flight := [f], retries := 7 }
     let rnr (t tries : Nat) := qpState 1 1 0 { qp := 3, flight := [f], rnr := some (t, 7), rnrTries := tries }
     (s.qpSide 3).flight == [f] && decide ((s.qpSide 3).sentAt + 100000 ≤ s.clk.ns) && decide ((tired.qpSide 3).retries = 7) && (rnr 9 0).qpSide 3 != s.qpSide 3 &&
     decide ((rnr 9 0).clk.ns < 200001) && bf ((rnr 9 0).qpWord 3 0) 63 61 == 2 && ((rnr 9 2).qpSide 3).rnrTries == 2) = true := by decide +kernel

/-- A READ in flight whose data can be written, and cannot. -/
theorem test_meets_rdma_answers :
    (let f := aFlight 5
     let s := qpState 1 1 0 { qp := 3, flight := [f] }
     let bad := { f with laddr := 0x4000000000 }
     let t := qpState 1 1 0 { qp := 3, flight := [bad] }
     (s.qpSide 3).flight == [f] && (s.spanWrite s (s.peerReq 3 [1, 2]) (spanFuel 4) f.laddr [1, 2, 3, 4]).isOk && (t.spanWrite t (t.peerReq 3 [1, 2]) (spanFuel 4) bad.laddr [1, 2, 3, 4]).faults) = true := by
  decide +kernel

/-- A RECV of the expected PSN 0, none posted, one of the wrong form, one too short; a region of key 9 within and past its end. -/
theorem test_meets_rdma_requests :
    (let s := qpState
     bf (s.qpWord 3 8) 55 32 == 0 &&
     ((s.nextEntry 3 true).holds fun e t => match e with
       | some e => !e.wrong && decide (e.len = 8) && (t.spanWrite t (t.peerReq 3 [0, 3]) (spanFuel 4) e.laddr [1, 2, 3, 4]).isOk
       | none => false) &&
     ((({ s with rdma := {} } : State).nextEntry 3 true).holds fun e _ => e.isNone) && (((qpState 1 1 1).nextEntry 3 true).holds fun e _ => e.any (·.wrong)) &&
     bf (s.qpWord 3 0x30) 31 0 == 9 && bt (s.qpWord 3 0x30) 32 && bt (s.qpWord 3 0x30) 33 && (s.qpWord 3 0x38).toNat == 0x5000 && (s.qpWord 3 0x40).toNat == 0x1000 &&
     (s.spanWrite s (s.peerReq 3 [0, 4]) (spanFuel 4) 0x5FFC [1, 2, 3, 4]).isOk && ((s.readSpan s (s.peerReq 3 [0, 5]) .read (spanFuel 4) 0x5000 4).holds fun r _ => !r.2)) = true := by decide +kernel

/-! ### Steps and encodings -/

/-- The strand whose core holds the sector of its PC, with this word there, and a queue of two entries. -/
def atWord (w : BitVec 32) (turn : List Turn) : State :=
  let s := deskWith fun k => { k with q := [{ entryOf (.vadd (vf 1 2 3)) with done := true }, entryOf .vnop] }
  { s with agenda := turn, core := { num := 9, icache := [⟨5, 0x10, bytes32 w ++ List.replicate 252 0, true⟩] } }

theorem test_meets_step_scalar :
    (let s := atWord 0x04310500 [.scalar ⟨1, 2, 3⟩]
     let t : State := { s with agenda := [] }
     s.me.run == .running && t.dueFirst.isNone && s.dbg.rstep.isNone && s.me.pc.toNat % 4 == 0 &&
     (s.core.icache.find? fun l => l.ctx == s.me.ctx && l.sector == s.me.pc.toNat / 256 && (s.me.sys || l.user)).any fun l => l.data.length == 256) = true := by decide +kernel

theorem test_meets_step_words : (decodeScalarBytes (bytes32 0x04310500)).map (·.1) = some (.add 3 4 5) ∧ decodeScalarBytes (bytes32 0) = none := ⟨rfl, rfl⟩

theorem test_meets_step_vector :
    (let s := atWord 0 [.vector ⟨1, 2, 3⟩]
     s.me.due.vec.isNone && !s.me.due.halting && s.me.picked.isNone && s.dbg.rstep.isNone && (s.me.q.find? fun x => !x.done).any fun e => e.fault.isNone && e.startedAll s.core) = true := by decide +kernel

/-- A step of that state adds: s3 = s4 + s5, and the PC moves on. -/
theorem test_step_adds : (match step (atWord 0x04310500 [.scalar ⟨1, 2, 3⟩]) with | .next t => t.me.s 3 == 37 && t.me.pc == 0x1004 | _ => false) = true := by decide +kernel

theorem test_step_illegal : (match step (atWord 0 [.scalar ⟨1, 2, 3⟩]) with | .next t => t.me.tr.tcause.toNat % 256 == 1 && t.me.pc == 0x2000 && t.me.tr.tpc == 0x1000 | _ => false) = true := by
  decide +kernel

/-- Words of both widths for each way that an encoding admits its fields, at their ends. -/
theorem test_meets_encodings :
    (([.add 63 0 63, .beq 1 2 0x1FFF, .ldd 63 63 0x2000, .cas 63 62 61 4 3 true, .fence 4 15, .jal 0x2000000, .sysr 7 0, .trap 63] : List Instr).all fun i =>
      i.wf && (match encode32 i with | some w => (decodeScalar w).isSome | none => false)) = true ∧
    (([.vadd { vf 63 62 61 with cr := true }, .vstseg (vf 56 63 0 8 63 3), .mmac { vf 15 63 0 0 0 255 with k := .accD }, .vstop] : List Instr).all fun i =>
      i.wf && (match encode64 i with | some w => (decodeVector w).isSome | none => false)) = true := by decide +kernel

theorem test_meets_memory_stays : desk.ramOk ∧ (∀ code, desk.MayEnter code) ∧ (desk.s 6).toNat % 8 = 0 ∧ (desk.s 7).toNat % 8 ≠ 0 :=
  ⟨by simp only [State.ramOk]; decide, desk_ready, by decide, by decide⟩

/-! ### Words that the spec writes out -/

/-- Scalar words: R84 to R100, and the examples of chapters 4 to 6, 11, 12, 14, 17 and 18. -/
theorem test_decodes_scalar :
    (([(0x04310500, .add 3 4 5), (0x04A2CC38, .hmix 10 11 12), (0x1820E011, .shai 2 3 17), (0x28512346, .lui 5 0x12346), (0x08517FFF, .addi 5 5 0x3FFF),
      (0x2C5FEDCB, .lhi 5 0xFEDCB), (0x0CC3000F, .andi 12 12 15), (0x24D283E8, .muli 13 10 1000), (0x18E30005, .shli 14 12 5), (0x18B29029, .shri 11 10 41),
      (0x10F3C003, .ori 15 15 3), (0x1CC14004, .slti 12 5 4), (0x40D38002, .beq 13 14 2), (0x44C03FF8, .bne 12 0 0x3FF8), (0x58103FFF, .bpany 1 0x3FFF),
      (0x680FC000, .jalr 0 63 0)] : List (Nat × Instr)).all fun x => decodeTableWord 32 x.1 == some x.2) = true := by decide +kernel

theorem test_decodes_scalar_memory :
    (([(0x98308010, .ldd 3 2 16), (0x94604018, .ldwu 6 1 24), (0xA8910008, .std 9 4 8), (0xAC720046, .lda 7 8 4 1 true), (0xB002094A, .str 8 9 4 2 true),
      (0xD841464E, .cas 4 5 6 4 3 true), (0xD8F38A42, .cas 15 14 10 4 0 true), (0xB851874E, .aadd 5 6 7 4 3 true), (0xDC000046, .fence 4 6), (0xDC00007E, .fence 7 14),
      (0xE4A08501, .cpy 10 2 5), (0xE4A08481, .cpyR 10 2 4), (0xE4838F08, .syncw 8 14 15), (0xE4518006, .tlread 5 6), (0xE403D007, .tlwait 15 16), (0xE4030004, .streamx 12),
      (0xE4A2C005, .coll 10 11)] : List (Nat × Instr)).all fun x => decodeTableWord 32 x.1 == some x.2) = true := by decide +kernel

theorem test_decodes_scalar_control :
    (([(0xE0030005, .vfetch 12), (0xE0000006, .vreplay), (0xE0000007, .vsync), (0xE0003C09, .vsave 0 0 60), (0xE0003C0A, .vload 0 0 60), (0xE0310008, .vprot 3 4),
      (0xE8414001, .launch 4 5), (0xE8418004, .cwait 4 6 0), (0xE8008505, .signal 0 2 5), (0xEC014201, .qpush 5 2), (0xEC700202, .qpop 7 2), (0xF0700000, .sysr 7 0),
      (0xF00F1103, .sysw 60 0x103), (0xF3C00100, .sysr 60 0x100), (0xF00F2100, .sysset 0 60 0x100), (0xF4014001, .trap 5), (0xF4000002, .eret), (0xF4000003, .halt),
      (0xF4000005, .wfe), (0xF4300007, .wmark 3), (0xF4008009, .break 2)] : List (Nat × Instr)).all fun x => decodeTableWord 32 x.1 == some x.2) = true := by decide +kernel

/-- Vector words: R102 to R115, and the examples of chapters 4, 11, 12 and 17 to 18. -/
theorem test_decodes_vector_memory :
    (([(0x1804400000000000, .vld (vf 1 4 0)), (0x1808418000404008, .vlds { vf 2 4 6 0 0 8 with k := .scalarB }), (0x180C500000008000, .vldff (vf 3 5 0)),
      (0x181040030000C002, .vldseg (vf 4 4 0 3 0 2)), (0x1918500000000000, .vst (vf 6 5 0)), (0x1918500000004000, .vstu (vf 6 5 0)),
      (0x1908418000408000, .vsts { vf 2 4 6 with k := .scalarB }), (0x191040030000C002, .vstseg (vf 4 4 0 3 0 2)), (0x1A1431C000000002, .vldx (vf 5 3 7 0 0 2)),
      (0x1A1431C000004002, .vstx (vf 5 3 7 0 0 2)), (0x1A1431C000008002, .vstxa (vf 5 3 7 0 0 2)), (0x1A1550000C000002, .vldx (vf 5 21 0 0 3 2)),
      (0x1B00824000400000, .vscldKa { vf 0 8 9 with k := .scalarB }), (0x1B00824000404100, .vscldKb { vf 0 8 9 0 0 256 with k := .scalarB })] : List (Nat × Instr)).all
      fun x => decodeTableWord 64 x.1 == some x.2) = true := by decide +kernel

theorem test_decodes_vector_arithmetic :
    (([(0x0100000000000000, .vstop), (0x0818124000400000, .vadd { vf 6 1 9 with k := .scalarB }), (0x081450000C800001, .vadd { vf 5 5 0 0 3 1 with k := .immB }),
      (0x0904000000800003, .vand { vf 1 0 0 0 0 3 with k := .immB }), (0x0A0810C000010000, .vfmax (vf 2 1 3)), (0x0A04140018400000, .vfadd { vf 1 1 16 0 6 with k := .scalarB }),
      (0x8B10108316000000, .vfma { vf 4 1 2 3 5 with cr := true, z := true }), (0x0C1955800001C000, .vcmpleu (vf 6 21 22)),
      (0x0C0C800000844000, .vfcmpne { vf 3 8 0 with k := .immB }), (0x0E1C60000A000000, .vexp2 { vf 7 6 0 0 2 with z := true }),
      (0x0E0412000E014000, .vfdiv { vf 1 1 8 0 3 with z := true })] : List (Nat × Instr)).all fun x => decodeTableWord 64 x.1 == some x.2) = true := by decide +kernel

theorem test_decodes_vector_moves :
    (([(0x1004A00001400000, .vmov { vf 1 10 0 with k := .accD }), (0x1000018000404000, .vsplat { vf 0 0 6 with k := .scalarB }), (0x1000000000008000, .viota (vf 0 0 0)),
      (0x100C10840000C000, .vsel (vf 3 1 2 4)), (0x1110100000000000, .vrsum (vf 4 1 0)), (0x1114100000004000, .vrsumo (vf 5 1 0)), (0x1128200000008000, .vrmax (vf 10 2 0)),
      (0x121047C000000000, .vperm (vf 4 4 31)), (0x1210100000808010, .vsldn { vf 4 1 0 0 0 16 with k := .immB }), (0x1208000006018000, .vconfl { vf 2 0 0 0 1 with z := true }),
      (0x1304108000000000, .pand (vf 1 1 2)), (0x130C10800000C000, .pandn (vf 3 1 2)), (0x1304000000014000, .pset (vf 1 0 0)), (0x1328600000020000, .pcnt (vf 10 6 0)),
      (0x130C024000424000, .plt { vf 3 0 9 with k := .scalarB })] : List (Nat × Instr)).all fun x => decodeTableWord 64 x.1 == some x.2) = true := by decide +kernel

theorem test_decodes_matrix :
    (([(0x2000000000000001, .mmode (vf 0 0 0 0 0 1)), (0x2000000000000082, .mmode (vf 0 0 0 0 0 0x82)), (0x2000000000004000, .mfree (vf 0 0 0)), (0x2000100000008000, .mwld (vf 0 1 0)),
      (0x200C80000140C0FF, .mmac { vf 3 8 0 0 0 255 with k := .accD }), (0x2000430000010064, .mrsmac (vf 0 4 12 0 0 100)),
      (0x2008000001414040, .mdrain { vf 2 0 0 0 0 64 with k := .accD }), (0x2004000001418000, .mzeroMd { vf 1 0 0 with k := .accD }),
      (0x2000000000018001, .mzeroArray (vf 0 0 0 0 0 1)), (0x200001C00041C000, .mchain { vf 0 0 7 with k := .scalarB })] : List (Nat × Instr)).all
      fun x => decodeTableWord 64 x.1 == some x.2) = true := by decide +kernel

/-! ### Refused terms, one for each check of WellFormed -/

theorem test_refuses_scalar :
    ([.lda 1 2 9 0 true, .lda 1 2 4 2 true, .str 1 2 4 1 true, .swap 1 2 3 9 0 true, .aadd 1 2 3 9 0 true, .aand 1 2 3 9 0 true, .aor 1 2 3 9 0 true, .axor 1 2 3 9 0 true,
      .amin 1 2 3 9 0 true, .amax 1 2 3 9 0 true, .aminu 1 2 3 9 0 true, .amaxu 1 2 3 9 0 true, .cas 1 2 3 9 0 true, .fence 4 0, .fence 9 1, .vcoll 0 4, .vcoll 62 4, .cpy 1 63 2,
      .cpyR 1 63 2, .cpy2 61 2, .cpy2R 1 63, .qtry 63 2, .sysr 1 0xFFF, .sysw 1 0xFFF, .sysset 1 2 0xFFF, .sysclr 1 2 0xFFF] : List Instr).all (!·.wf) = true := by decide +kernel

/-- A K that the form lacks, a field that must be zero, Z without a guard, CR in a memory group, an accumulator past 15, a guard on an array, predicate 0 as a
destination, segments of one field, an immediate past its range. -/
theorem test_refuses_vector :
    ([.vadd { vf 1 2 3 with k := .accD, d := 16 }, .vadd (vf 1 2 3 4), .vadd (vf 1 2 3 0 0 5), .vadd { vf 1 2 3 with z := true }, .vabs { vf 1 2 0 with k := .immB }, .vfma (vf 1 2 3 4 0 1),
      .vcmplt (vf 0 1 2), .vcvt (vf 1 2 0 0 0 0x1000), .vsplat (vf 1 0 2), .viota (vf 1 2 0), .vsel (vf 1 2 3 4 0 1), .vgete (vf 1 2 3), .vsete (vf 1 0 2 3), .vrsum (vf 1 2 3),
      .vperm (vf 1 2 3 4), .vslup (vf 1 2 3), .vrev (vf 1 2 3), .vconfl (vf 0 1 0), .pand (vf 0 1 2), .pset (vf 1 2 0), .plt (vf 1 0 3), .vld { vf 1 2 0 with cr := true }, .vld (vf 1 2 3),
      .vlds (vf 1 2 3), .vldseg (vf 1 2 0 1), .vldseg (vf 62 2 0 3), .vst { vf 1 2 0 0 1 with z := true }, .vsts (vf 1 2 3), .vstseg (vf 1 2 0 9), .vldx (vf 1 2 3 0 0 4),
      .vstx (vf 1 2 3 4), .vscldKa { vf 0 2 3 0 0 4096 with k := .scalarB }, .mmode (vf 0 0 0), .mmode (vf 0 0 0 0 0 0x12), .mfree (vf 0 0 0 0 0 1), .mwld (vf 0 1 0 0 1),
      .mmac { vf 1 2 0 0 0 256 with k := .accD }, .mdrain { vf 2 1 0 0 0 64 with k := .accD }, .mrsmac (vf 0 1 2), .mzeroMd { vf 1 2 0 with k := .accD }, .mzeroArray (vf 0 0 0), .mchain (vf 0 0 1)] : List Instr).all (!·.wf) = true := by decide +kernel

/-- Reserved words of both widths decode to nothing. -/
theorem test_refuses_words : decodeTableWord 32 0 = none ∧ decodeTableWord 32 0x04310501 ≠ decodeTableWord 32 0x04310500 ∧ decodeTableWord 64 0 = none ∧
    decodeTableWord 64 0x0818124001C00000 = none ∧ decodeTableWord 32 0xDC000040 = none := by decide +kernel

/-! ### Worked values of the spec -/

/-- R157: HMIX of 1 and 0, and of zeros. -/
theorem test_hmix : (match exec (.hmix 10 4 0) (deskWith fun k => { k with regs := k.regs.set 4 1 }) with | .next t => t.me.s 10 == 0xB7E1516A2BDE7CEF | _ => false) = true ∧
    (match exec (.hmix 10 0 0) desk with | .next t => t.me.s 10 == 0 | _ => false) = true := by decide +kernel

/-- The table of three constants: LHI over LUI and ADDI. -/
theorem test_lhi : (match exec (.lhi 5 0xFEDCB) (deskWith fun k => { k with regs := k.regs.set 5 0x12345678 }) with | .next t => t.me.s 5 == 0xFEDCB00012345678 | _ => false) = true := by decide +kernel

/-- R205 in the example of chapter 12: two registers of 64 bits under VRB = 1 have 1024 elements. -/
theorem test_vdecl : (match exec (.vdecl 3 4 5) (deskWith fun k => { k with alloc := { k.alloc with vrb := 1 }, regs := (k.regs.set 4 2).set 5 64 }) with
    | .next t => t.me.s 3 == 1024 && t.me.cfg.mvl == 1024 | _ => false) = true := by decide +kernel

/-- R422's example: protected mode leaves 2560 elements of 5376. -/
theorem test_vprot : (match exec (.vprot 3 4) (deskWith fun k => { k with
      alloc := { k.alloc with vrb := 32 }, vs := { k.vs with cnt := 24, bits := 32 }, cfg := { k.cfg with mvl := 5376, vl := 5000 }, regs := k.regs.set 4 1 }) with
    | .next t => t.me.s 3 == 2560 && t.me.cfg.mvl == 2560 && t.me.cfg.vl == 2560 | _ => false) = true := by decide +kernel

/-- The sums of 2^24, 1, 1 and 1 in FP32, as a tree and in order. -/
def sumDesk : State :=
  let s := vecDesk 0x00100054 4
  { s with me := { s.me with vs := { s.me.vs with regs := s.me.vs.regs.set 1 (({} : VReg).put (Fmt.of 0x54) [⟨0, 0x4B800000, false⟩, ⟨1, 0x3F800000, false⟩, ⟨2, 0x3F800000, false⟩, ⟨3, 0x3F800000, false⟩]) } } }

theorem test_vrsum : (match exec (.vrsum (vf 4 1 0)) sumDesk with | .next t => t.me.s 4 == 0x4B800001 | _ => false) = true := by decide +kernel

theorem test_vrsumo : (match exec (.vrsumo (vf 5 1 0)) sumDesk with | .next t => t.me.s 5 == 0x4B800000 | _ => false) = true := by decide +kernel

/-- Chapter 10's example: 0x4000001C00 is interleaved to die 3. -/
theorem test_interleave : interleave 0x4000001C00 = 3 := by decide +kernel

/-- R224: the difference of two zeros of one sign has that sign. -/
theorem test_vfsub_zeros :
    (let zeros : State := let s := vecDesk 0x00100054 1
      { s with me := { s.me with vs := { s.me.vs with regs := (s.me.vs.regs.set 1 (({} : VReg).put (Fmt.of 0x54) [⟨0, 0x80000000, false⟩])).set 2 (({} : VReg).put (Fmt.of 0x54) [⟨0, 0x80000000, false⟩]) } } }
     match exec (.vfsub (vf 4 1 2)) zeros with
     | .next t => (t.elem (zeros.entryCtx (.vfsub (vf 4 1 2))) (Fmt.of 0x54) (.reg 4) 0).1 == 0x80000000
     | _ => false) = true := by decide +kernel

/-- FIPS 197, appendix C.3: the block cipher of R296. -/
theorem test_aes256 : aesEncrypt (roundKeys (List.range 32)) ((List.range 16).map (17 * ·)) =
    [0x8E, 0xA2, 0xB7, 0xCA, 0x51, 0x67, 0x45, 0xBF, 0xEA, 0xFC, 0x49, 0x90, 0x4B, 0x49, 0x60, 0x89] := by decide +kernel

end Sys2Proof.Machine
end

section
/-! The values that the scalar arithmetic instructions compute, as functions of their operands (R155 to R160). -/

namespace Sys2Proof.Machine

/-! ### Comparisons and extrema -/

theorem wBool_of_iff {b : Bool} {p : Prop} [Decidable p] (h : b = true ↔ p) : wBool b = if p then 1 else 0 := by
  unfold wBool; by_cases hp : p
  · rw [if_pos (h.2 hp), if_pos hp]
  · rw [if_neg fun e => hp (h.1 e), if_neg hp]

theorem wBool_bne (a b : Word) : wBool (a != b) = if a = b then 0 else 1 := by
  unfold wBool; by_cases h : a = b <;> simp [h]

theorem minS_eq (a b : Word) : (if b.slt a then b else a) = BitVec.ofInt 64 (min a.toInt b.toInt) := by
  simp only [BitVec.slt_iff_toInt_lt]
  by_cases h : b.toInt < a.toInt
  · rw [if_pos h, Int.min_eq_right (Int.le_of_lt h), BitVec.ofInt_toInt]
  · rw [if_neg h, Int.min_eq_left (Int.not_lt.1 h), BitVec.ofInt_toInt]

theorem maxS_eq (a b : Word) : (if a.slt b then b else a) = BitVec.ofInt 64 (max a.toInt b.toInt) := by
  simp only [BitVec.slt_iff_toInt_lt]
  by_cases h : a.toInt < b.toInt
  · rw [if_pos h, Int.max_eq_right (Int.le_of_lt h), BitVec.ofInt_toInt]
  · rw [if_neg h, Int.max_eq_left (Int.not_lt.1 h), BitVec.ofInt_toInt]

theorem minU_eq (a b : Word) : (if b.ult a then b else a) = BitVec.ofNat 64 (min a.toNat b.toNat) := by
  simp only [BitVec.ult_iff_lt, BitVec.lt_def]
  by_cases h : b.toNat < a.toNat
  · rw [if_pos h, Nat.min_eq_right (Nat.le_of_lt h), BitVec.ofNat_toNat, BitVec.setWidth_eq]
  · rw [if_neg h, Nat.min_eq_left (Nat.not_lt.1 h), BitVec.ofNat_toNat, BitVec.setWidth_eq]

theorem maxU_eq (a b : Word) : (if a.ult b then b else a) = BitVec.ofNat 64 (max a.toNat b.toNat) := by
  simp only [BitVec.ult_iff_lt, BitVec.lt_def]
  by_cases h : a.toNat < b.toNat
  · rw [if_pos h, Nat.max_eq_right (Nat.le_of_lt h), BitVec.ofNat_toNat, BitVec.setWidth_eq]
  · rw [if_neg h, Nat.max_eq_left (Nat.not_lt.1 h), BitVec.ofNat_toNat, BitVec.setWidth_eq]

/-! ### Shifts, products, division -/

/-- Copies of the sign shifted in are a division that rounds downward. -/
theorem sshiftRight_eq_div (a : Word) (n : Nat) : a.sshiftRight n = BitVec.ofInt 64 (a.toInt / 2 ^ n) := by
  rw [BitVec.sshiftRight, Int.shiftRight_eq_div_pow]; push_cast; rfl

theorem rotateRight_eq_or (a : Word) (n : Nat) (h : n < 64) : a.rotateRight n = (a >>> n) ||| (a <<< (64 - n)) := by
  rw [BitVec.rotateRight, Nat.mod_eq_of_lt h]; rfl

theorem mul_eq_ofNat (a b : Word) : a * b = BitVec.ofNat 64 (a.toNat * b.toNat) := by
  rw [BitVec.ofNat_mul, BitVec.ofNat_toNat, BitVec.ofNat_toNat, BitVec.setWidth_eq, BitVec.setWidth_eq]

/-- The quotient truncates toward zero, and −2^63 by −1 wraps to −2^63 (R156). -/
theorem sdiv_eq_ofInt (a b : Word) : a.sdiv b = BitVec.ofInt 64 (a.toInt.tdiv b.toInt) := by
  apply BitVec.eq_of_toInt_eq; rw [BitVec.toInt_sdiv, BitVec.toInt_ofInt]

theorem srem_eq_ofInt (a b : Word) : a.srem b = BitVec.ofInt 64 (a.toInt.tmod b.toInt) := by
  rw [← BitVec.toInt_srem, BitVec.ofInt_toInt]

theorem udiv_eq_ofNat (a b : Word) : a.udiv b = BitVec.ofNat 64 (a.toNat / b.toNat) := by
  apply BitVec.eq_of_toNat_eq
  rw [BitVec.toNat_ofNat, Nat.mod_eq_of_lt (Nat.lt_of_le_of_lt (Nat.div_le_self _ _) a.isLt)]; rfl

theorem umod_eq_ofNat (a b : Word) : a.umod b = BitVec.ofNat 64 (a.toNat % b.toNat) := by
  apply BitVec.eq_of_toNat_eq
  rw [BitVec.toNat_ofNat, Nat.mod_eq_of_lt (Nat.lt_of_le_of_lt (Nat.mod_le _ _) a.isLt)]; rfl

/-! ### Counts of bits -/

theorem countLeading_le (n x : Nat) : countLeading n x ≤ n := by
  induction n with
  | zero => exact Nat.le_refl 0
  | succ n ih => unfold countLeading; split <;> omega

theorem testBit_above_countLeading (n x j : Nat) (h : n - countLeading n x ≤ j) (hj : j < n) : x.testBit j = false := by
  induction n with
  | zero => exact absurd hj (Nat.not_lt_zero j)
  | succ n ih =>
    unfold countLeading at h
    split at h
    · omega
    · next hb =>
      rcases Nat.lt_succ_iff_lt_or_eq.1 hj with hj | rfl
      · exact ih (by omega) hj
      · simpa using hb

theorem testBit_at_countLeading (n x : Nat) (h : countLeading n x < n) : x.testBit (n - 1 - countLeading n x) = true := by
  induction n with
  | zero => exact absurd h (Nat.not_lt_zero _)
  | succ n ih =>
    unfold countLeading at h ⊢
    split at h
    · next hb => rw [if_pos hb]; exact hb
    · next hb =>
      rw [if_neg hb, show n + 1 - 1 - (1 + countLeading n x) = n - 1 - countLeading n x by omega]
      exact ih (by omega)

theorem countTrailing_le (n x : Nat) : countTrailing n x ≤ n := by
  induction n generalizing x with
  | zero => exact Nat.le_refl 0
  | succ n ih => unfold countTrailing; have := ih (x / 2); split <;> omega

theorem testBit_of_lt_countTrailing (n x j : Nat) (h : j < countTrailing n x) : x.testBit j = false := by
  induction n generalizing x j with
  | zero => exact absurd h (Nat.not_lt_zero j)
  | succ n ih =>
    unfold countTrailing at h
    split at h
    · exact absurd h (Nat.not_lt_zero j)
    · next hb =>
      cases j with
      | zero => rw [Nat.testBit_zero]; exact decide_eq_false hb
      | succ j => rw [Nat.testBit_succ]; exact ih _ _ (by omega)

theorem testBit_countTrailing (n x : Nat) (h : countTrailing n x < n) : x.testBit (countTrailing n x) = true := by
  induction n generalizing x with
  | zero => exact absurd h (Nat.not_lt_zero _)
  | succ n ih =>
    unfold countTrailing at h ⊢
    split at h
    · next hb => rw [if_pos hb, Nat.testBit_zero]; exact decide_eq_true hb
    · next hb => rw [if_neg hb, Nat.add_comm 1, Nat.testBit_succ]; exact ih _ (by omega)

theorem countOnes_eq_length (n x : Nat) : countOnes n x = ((List.range n).filter x.testBit).length := by
  induction n generalizing x with
  | zero => rfl
  | succ n ih =>
    have hs : x.testBit ∘ Nat.succ = (x / 2).testBit := funext (Nat.testBit_succ x)
    rw [countOnes, ih, List.range_succ_eq_map, List.filter_cons, List.filter_map, hs, Nat.testBit_zero]
    rcases Nat.mod_two_eq_zero_or_one x with h | h <;> simp [h, Nat.add_comm]

/-! ### Order of bits and of bytes -/

theorem reverse_getLsbD (a : Word) (j : Nat) (h : j < 64) : a.reverse.getLsbD j = a.getLsbD (63 - j) := by
  rw [BitVec.getLsbD_reverse, BitVec.getMsbD]; simp [h]

theorem leBytes_byte (n x j : Nat) (h : j < n) : (leBytes n x).getD j 0 = BitVec.ofNat 8 (x / 256 ^ j) := by
  induction n generalizing x j with
  | zero => exact absurd h (Nat.not_lt_zero j)
  | succ n ih =>
    cases j with
    | zero => rw [Nat.pow_zero, Nat.div_one]; rfl
    | succ j => rw [Nat.pow_succ', ← Nat.div_div_eq_div_mul, ← ih _ _ (Nat.lt_of_succ_lt_succ h)]; rfl

theorem leNat_byte (bs : List Byte) (j : Nat) : BitVec.ofNat 8 (leNat bs / 256 ^ j) = bs.getD j 0 := by
  by_cases h : j < bs.length
  · rw [← leBytes_byte bs.length _ j h, leBytes_leNat]
  · rw [Nat.div_eq_of_lt (Nat.lt_of_lt_of_le (leNat_lt bs) (Nat.pow_le_pow_right (by decide) (Nat.not_lt.1 h))),
      List.getD_eq_getElem?_getD, List.getElem?_eq_none (Nat.not_lt.1 h)]
    rfl

/-- Byte j of a doubleword. -/
theorem extract_byte (x : Nat) (j : Nat) (h : j < 8) : (w64 x).extractLsb' (8 * j) 8 = BitVec.ofNat 8 (x / 256 ^ j) := by
  apply BitVec.eq_of_toNat_eq
  rw [BitVec.extractLsb'_toNat, w64, BitVec.toNat_ofNat, BitVec.toNat_ofNat, Nat.shiftRight_eq_div_pow, Nat.pow_mul]
  have bytes : 256 ^ j * (256 ^ 1 * 256 ^ (7 - j)) = 256 ^ 8 := by
    rw [← Nat.pow_add, ← Nat.pow_add, show j + (1 + (7 - j)) = 8 by omega]
  have e : 2 ^ 64 = 256 ^ j * (2 ^ 8 * 256 ^ (7 - j)) := bytes.symm
  rw [e, show (2 : Nat) ^ 8 = 256 from rfl, Nat.mod_mul_right_div_self, Nat.mod_mul_right_mod]

theorem swapBytes_byte (a : Word) (j : Nat) (h : j < 8) : (swapBytes a).extractLsb' (8 * j) 8 = a.extractLsb' (8 * (7 - j)) 8 := by
  have ha : a = w64 a.toNat := by rw [w64, BitVec.ofNat_toNat, BitVec.setWidth_eq]
  have hr : (leBytes 8 a.toNat).reverse.getD j 0 = (leBytes 8 a.toNat).getD (7 - j) 0 := by
    rw [List.getD_eq_getElem?_getD, List.getElem?_reverse (by rw [leBytes_length]; exact h), leBytes_length,
      List.getD_eq_getElem?_getD]
  rw [swapBytes, extract_byte _ _ h, leNat_byte, hr, leBytes_byte _ _ _ (by omega), ← extract_byte _ _ (by omega), ← ha]

/-! ### Immediates and constants (R158, R160) -/

theorem mulImm_eq (a : Word) (imm : BitVec 14) : a * imm14 imm = BitVec.ofInt 64 (a.toInt * imm.toInt) := by
  rw [BitVec.ofInt_mul, BitVec.ofInt_toInt]; rfl

theorem addImm_eq (a : Word) (imm : BitVec 14) : a + imm14 imm = BitVec.ofInt 64 (a.toInt + imm.toInt) := by
  rw [BitVec.ofInt_add, BitVec.ofInt_toInt]; rfl

theorem imm14_toInt (imm : BitVec 14) : (imm14 imm).toInt = imm.toInt := BitVec.toInt_signExtend_of_le (by decide)

theorem upper20_eq (v : BitVec 20) : upper20 v = BitVec.ofInt 64 (v.toInt * 4096) := by
  have shifted : (v ++ 0#12).toInt = v.toInt * 4096 := by
    rw [BitVec.toInt_eq_toNat_cond, BitVec.toInt_eq_toNat_cond, Laws.Enc.app_num, BitVec.toNat_ofNat]
    split <;> split <;> omega
  rw [upper20, BitVec.signExtend, shifted]

theorem highPart_eq (x : Word) (v : BitVec 20) :
    (x &&& 0xFFFFFFFFFFF#64) ||| (v.setWidth 64 <<< 44) = BitVec.ofNat 64 (v.toNat * 2 ^ 44 + x.toNat % 2 ^ 44) := by
  have low : (x &&& 0xFFFFFFFFFFF#64).toNat = x.toNat % 2 ^ 44 := Nat.and_two_pow_sub_one_eq_mod x.toNat 44
  have bound := v.isLt
  have high : (v.setWidth 64 <<< 44).toNat = v.toNat * 2 ^ 44 := by
    rw [BitVec.toNat_shiftLeft, BitVec.toNat_setWidth, Nat.shiftLeft_eq]
    omega
  have sum := Nat.shiftLeft_add_eq_or_of_lt (Nat.mod_lt x.toNat (Nat.two_pow_pos 44)) v.toNat
  rw [Nat.shiftLeft_eq] at sum
  apply BitVec.eq_of_toNat_eq
  rw [BitVec.toNat_or, low, high, Nat.or_comm, ← sum, BitVec.toNat_ofNat]
  omega

/-! ### The mixing step (R157) -/

/-- HMIX on numbers. -/
def mixNat (x y : Nat) : Nat :=
  let t := (x + y) % 2 ^ 64
  let t := Nat.xor t (t / 2 ^ 29)
  let t := t * 0xB7E1516A9C3F2D85 % 2 ^ 64
  Nat.xor t (t / 2 ^ 32)

theorem xor_shift_toNat (t : Word) (n : Nat) : (t ^^^ (t >>> n)).toNat = Nat.xor t.toNat (t.toNat / 2 ^ n) := by
  rw [BitVec.toNat_xor, BitVec.toNat_ushiftRight, Nat.shiftRight_eq_div_pow, Nat.xor_eq]

theorem hmix_toNat (a b : Word) : (hmix a b).toNat = mixNat a.toNat b.toNat := by
  have multiplier : (0xB7E1516A9C3F2D85#64).toNat = 0xB7E1516A9C3F2D85 := rfl
  unfold hmix mixNat
  rw [xor_shift_toNat, BitVec.toNat_mul, xor_shift_toNat, BitVec.toNat_add, multiplier]

theorem hmix_eq_mixNat (a b : Word) : hmix a b = BitVec.ofNat 64 (mixNat a.toNat b.toNat) := by
  rw [← hmix_toNat, BitVec.ofNat_toNat, BitVec.setWidth_eq]

/-- Mixing in one's own upper bits loses nothing. -/
theorem xor_shift_injective (n : Nat) (h : 0 < n) {x y : Word} (e : x ^^^ (x >>> n) = y ^^^ (y >>> n)) : x = y := by
  have fixed : x ^^^ y = (x ^^^ y) >>> n := by
    rw [BitVec.ushiftRight_xor_distrib]
    have paired : x ^^^ y ^^^ (x >>> n ^^^ y >>> n) = x ^^^ x >>> n ^^^ (y ^^^ y >>> n) := by ac_rfl
    exact BitVec.xor_eq_zero_iff.1 (paired.trans (BitVec.xor_eq_zero_iff.2 e))
  have small : (x ^^^ y).toNat = 0 := by
    have d := congrArg BitVec.toNat fixed
    rw [BitVec.toNat_ushiftRight, Nat.shiftRight_eq_div_pow] at d
    rcases Nat.eq_zero_or_pos (x ^^^ y).toNat with hz | hz
    · exact hz
    · exact absurd (Nat.div_lt_self hz (Nat.one_lt_two_pow (Nat.ne_of_gt h))) (by omega)
  have zero : x ^^^ y = 0#64 := BitVec.eq_of_toNat_eq small
  exact BitVec.xor_eq_zero_iff.1 zero

/-- The multiplier of R157 is odd: it has an inverse. -/
theorem mul_mixer_injective {x y : Word} (e : x * 0xB7E1516A9C3F2D85#64 = y * 0xB7E1516A9C3F2D85#64) : x = y := by
  have inv : 0xB7E1516A9C3F2D85#64 * 0xDEB31A5CFEF7C34D#64 = 1#64 := by decide
  have := congrArg (· * 0xDEB31A5CFEF7C34D#64) e
  simpa only [BitVec.mul_assoc, inv, BitVec.mul_one] using this

theorem hmix_injective {a a' b : Word} (e : hmix a b = hmix a' b) : a = a' :=
  (BitVec.add_left_inj b).1 (xor_shift_injective 29 (by decide) (mul_mixer_injective (xor_shift_injective 32 (by decide) e)))

end Sys2Proof.Machine
end

section
/-! What the scalar arithmetic instructions and branches do when nothing delays or stops them, the words of the ALU-R and immediate
forms, and what decides a branch on a predicate (R88, R155 to R162). -/

namespace Sys2Proof.Machine

/-! ### Instructions that nothing delays -/

/-- Fewer registers read and written, fewer reasons to wait or to stop. -/
theorem State.Clear.mono {s : State} {reads writes reads' writes' : List Reg} (h : s.Clear reads writes) (hr : reads' ⊆ reads)
    (hw : reads' ++ writes' ⊆ reads ++ writes) : s.Clear reads' writes' :=
  ⟨fun r m => h.settled r (hw m), fun r m => h.faultless r (hr m), fun r m => h.stored r (hr m)⟩

/-- An instruction that only computes x, which is y. -/
theorem State.Clear.computes {s : State} {i : Instr} {reads : List Reg} {d : Reg} {x y : Word} (h : s.Clear reads [d])
    (exec_eq : exec i s = s.alu i reads d x) (value : x = y) : s.Computes i d y := by
  rw [State.Computes, State.Gives, exec_eq, State.alu_clear h, value]

theorem State.target_eq (s : State) (off : BitVec 14) : s.target off = s.me.pc + BitVec.ofInt 64 (4 * off.toInt) := by
  rw [BitVec.ofInt_mul]; rfl

/-- A compare and branch goes to its target when its test holds, else to the next instruction (R161). -/
theorem State.Clear.branches {s : State} {i : Instr} {a b : Reg} {off : BitVec 14} {taken : Bool} {test : Prop} (h : s.Clear [a, b] [])
    (exec_eq : exec i s = s.branch i a b off taken) (taken_iff : taken = true ↔ test) :
    (test → s.Gives i 0 0 (s.me.pc + BitVec.ofInt 64 (4 * off.toInt))) ∧ (¬ test → s.Gives i 0 0 (s.me.pc + 4)) := by
  have he := exec_eq.trans (State.branch_clear h)
  refine ⟨fun ht => ?_, fun ht => ?_⟩
  · rw [State.Gives, he, if_pos (taken_iff.2 ht), ← State.target_eq]; rfl
  · rw [State.Gives, he, if_neg fun e => ht (taken_iff.1 e)]

/-! ### Words (R88) -/

theorem encR_eq_or (op : BitVec 6) (d a b : Reg) (f : BitVec 8) : encR op d a b f =
    (op.setWidth 32 <<< 26) ||| (d.setWidth 32 <<< 20) ||| (a.setWidth 32 <<< 14) ||| (b.setWidth 32 <<< 8) ||| f.setWidth 32 := by
  apply BitVec.eq_of_getLsbD_eq
  intro i hi
  simp only [encR, BitVec.getLsbD_append, BitVec.getLsbD_or, BitVec.getLsbD_shiftLeft, BitVec.getLsbD_setWidth]
  grind

theorem encI_eq_or (op : BitVec 6) (d a : Reg) (imm : BitVec 14) : encI op d a imm =
    (op.setWidth 32 <<< 26) ||| (d.setWidth 32 <<< 20) ||| (a.setWidth 32 <<< 14) ||| imm.setWidth 32 := by
  apply BitVec.eq_of_getLsbD_eq
  intro i hi
  simp only [encI, BitVec.getLsbD_append, BitVec.getLsbD_or, BitVec.getLsbD_shiftLeft, BitVec.getLsbD_setWidth]
  grind

/-- A word whose B field is zero. -/
theorem encR_unary_eq_or (op : BitVec 6) (d a : Reg) (f : BitVec 8) : encR op d a 0#6 f =
    (op.setWidth 32 <<< 26) ||| (d.setWidth 32 <<< 20) ||| (a.setWidth 32 <<< 14) ||| f.setWidth 32 := by
  have empty : (0#6).setWidth 32 <<< 8 = 0#32 := rfl
  rw [encR_eq_or, empty, BitVec.or_zero]

/-! ### Branches on a predicate (R162) -/

/-- A branch on a predicate finds a set bit below VL. -/
theorem Strand.anyPred_iff (k : Strand) (p : Reg) (h : k.cfg.vl.toNat ≤ 8192) :
    k.anyPred p = true ↔ ∃ j, j < k.cfg.vl.toNat ∧ (p = 0 ∨ (k.vs.preds[p.toNat]'p.isLt).getLsbD j = true) := by
  unfold Strand.anyPred
  by_cases hp : p = 0
  · rw [if_pos hp, decide_eq_true_iff]
    exact ⟨fun hv => ⟨0, hv, .inl hp⟩, fun ⟨j, hj, _⟩ => Nat.zero_lt_of_lt hj⟩
  · rw [if_neg hp, decide_eq_true_iff, Nat.min_eq_left h]
    constructor
    · intro hne
      obtain ⟨j, hj⟩ := Nat.exists_testBit_of_ne_zero hne
      rw [Nat.testBit_mod_two_pow, Bool.and_eq_true, decide_eq_true_iff] at hj
      exact ⟨j, hj.1, .inr hj.2⟩
    · rintro ⟨j, hj, hp' | hb⟩ hz
      · exact hp hp'
      · have bit := Nat.testBit_mod_two_pow (k.vs.preds[p.toNat]'p.isLt).toNat k.cfg.vl.toNat j
        rw [hz, Nat.zero_testBit, decide_eq_true hj] at bit
        exact Bool.false_ne_true (bit.trans hb)

/-- Part 2 alone of a mask of foreign parts. -/
theorem State.foreignIn_preds (s : State) (h : s.foreign.testBit 2 = true) : s.foreignIn 4 = 4 := by
  apply Nat.eq_of_testBit_eq
  intro b
  rw [State.foreignIn, Nat.land_eq, Nat.testBit_and, show 4 = 2 ^ 2 from rfl, Nat.testBit_two_pow]
  by_cases hb : 2 = b
  · rw [← hb, h]; rfl
  · rw [decide_eq_false hb, Bool.and_false]

/-- What a branch on predicate p waits for (R127): VL and the predicate. -/
def Strand.predAwaits (k : Strand) (p : Reg) : Prop :=
  k.vlPending = true ∨ ∃ e ∈ k.unfinished, vPredDest e.instr = some p

theorem Strand.predAwaits_iff (k : Strand) (p : Reg) :
    ((k.vlPending : Prop) ∨ ((k.unfinished.any fun e => vPredDest e.instr == some p) : Prop)) ↔ k.predAwaits p := by
  simp [Strand.predAwaits]

/-- A branch on a predicate waits, changing nothing, while what it reads is not final (R127). -/
theorem State.predBranch_waits {s : State} {p : Reg} (i : Instr) (off : BitVec 14) (want : Bool) (h : s.me.predAwaits p) :
    s.predBranch i p off want = .next s := by
  unfold State.predBranch
  rw [if_pos ((s.me.predAwaits_iff p).2 h)]

section
variable {s : State} {p : Reg} (i : Instr) (off : BitVec 14) (want : Bool) (final : ¬ s.me.predAwaits p)
include final

/-- Predicates of another owner raise VSTATE (R415). -/
theorem State.predBranch_foreign (h : p ≠ 0 ∧ s.foreign.testBit 2 = true) :
    s.predBranch i p off want = .next (s.trap 0x07 (wordOf32 i) (some 4)) := by
  unfold State.predBranch
  rw [if_neg fun e => final ((s.me.predAwaits_iff p).1 e), if_pos h, State.foreignIn_preds s h.2]; rfl

variable (own : ¬ (p ≠ 0 ∧ s.foreign.testBit 2 = true))
include own

/-- A predicate that lost its storage raises POISON at its internal location (R420). -/
theorem State.predBranch_spoiled (h : p ∈ s.me.spoiled.preds) :
    s.predBranch i p off want = .next (s.trap 0x06 (wordOf32 i) (some (BitVec.ofNat 64 (2 ^ 63 + 256 + p.toNat)))) := by
  have place : spoilAddr 1 p.toNat = BitVec.ofNat 64 (2 ^ 63 + 256 + p.toNat) := by
    rw [spoilAddr, Nat.mod_eq_of_lt (Nat.lt_trans p.isLt (by decide))]; rfl
  unfold State.predBranch
  rw [if_neg fun e => final ((s.me.predAwaits_iff p).1 e), if_neg own, if_pos (List.contains_iff_mem.2 h), place]; rfl

/-- Otherwise the branch goes to its target or on, by what it finds below VL (R162). -/
theorem State.predBranch_clear (h : p ∉ s.me.spoiled.preds) :
    s.predBranch i p off want =
      .next { s with me := s.me.wentOn 0 0 (if s.me.anyPred p = want then s.me.pc + BitVec.ofInt 64 (4 * off.toInt) else s.me.pc + 4) } := by
  unfold State.predBranch
  rw [if_neg fun e => final ((s.me.predAwaits_iff p).1 e), if_neg own, if_neg fun e => h (List.contains_iff_mem.1 e), ← State.target_eq]
  simp only [beq_iff_eq]
  split <;> rfl

end

end Sys2Proof.Machine
end

section
/-! What stops a scalar access, in order (R153, R164 to R170). -/

namespace Sys2Proof.Machine

/-! ### The three shared accesses -/

/-- An access of instruction i to n bytes at addr with this need is stopped by the fault of its translation, at a failed memory die, at a link
that is not awake, and, where it is a read, by poison; where it is one that `logs`, a full log stops it, or holds it under the stall policy. -/
def State.Stops (s : State) (i : Instr) (n : Nat) (need : Need) (addr : Word) (logs : Prop) : Prop :=
  let traps (code : Byte) : Prop := exec i s = .next (s.trap code (wordOf32 i) (some addr))
  let r := s.me.req (wordOf32 i)
  (∀ c, s.find r addr need = .fault c → traps c) ∧
  (s.find r addr need = .dead → traps 0x06) ∧
  (∀ ls, s.find r addr need = .held ls → exec i s = .next (s.holdAt r addr need)) ∧
  (∀ p m, s.find r addr need = .spot p m → m.Open p → need = .read → m.poisoned p.key = true →
    ∃ t, exec i s = .next (t.trap 0x06 (wordOf32 i) (some addr)) ∧ s.sameButAccess t ∧ t.mem = m ∧ t.me = s.me) ∧
  (∀ p m, s.find r addr need = .spot p m → m.Open p → logs →
    (({ s with mem := m } : State).logged r addr p n = .full → traps 0x0B) ∧
    (({ s with mem := m } : State).logged r addr p n = .stall → exec i s = .next s))

/-- A load that meets poison traps; of the rest of the machine only the directory and the links' idle times note the read. -/
theorem State.loadFrom_poisoned {s : State} {info : Word} {d : Reg} {a : Word} {n : Nat} {sg : Bool} {p : Spot} {m : MemSys} (ord : Byte)
    (hf : s.find (s.me.req info) a .read = .spot p m) (ho : m.Open p) (hp : m.poisoned p.key = true) :
    ∃ t, s.loadFrom info d a n sg ord = .next (t.trap 0x06 info (some a)) ∧ s.sameButAccess t ∧ t.mem = m ∧ t.me = s.me := by
  unfold State.loadFrom
  rw [State.memRead_spot ord hf ho, hp]
  obtain ⟨same, me, mem⟩ := State.passed_same ({ s with mem := m } : State) (s.me.req info) a .read p false
  exact ⟨_, rfl, State.sameButAccess_mem m same, mem, me⟩

/-- What stops an instruction that is a load. -/
theorem State.loadFrom_stops {s : State} {i : Instr} {d : Reg} {a : Word} {n : Nat} {sg : Bool} {ord : Byte} {logs : Prop}
    (go : exec i s = s.loadFrom (wordOf32 i) d a n sg ord) (nolog : ¬ logs) : s.Stops i n .read a logs := by
  refine ⟨fun c h => ?_, fun h => ?_, fun ls h => ?_, fun p m h ho _ hp => ?_, fun p m _ _ hl => absurd hl nolog⟩
  · rw [go, State.loadFrom, State.memRead, h]
  · rw [go, State.loadFrom, State.memRead, h]; rfl
  · rw [go, State.loadFrom, State.memRead, h]
  · rw [go]; exact State.loadFrom_poisoned ord h ho hp

/-- What stops an instruction that is a store. -/
theorem State.storeTo_stops {s : State} {i : Instr} {a x : Word} {n : Nat} {need : Need} {ord : Byte} {logs : Prop}
    (go : exec i s = s.storeTo (wordOf32 i) a n x need ord) (writes : need ≠ .read) : s.Stops i n need a logs := by
  refine ⟨fun c h => ?_, fun h => ?_, fun ls h => ?_, fun p m _ _ hr => absurd hr writes, fun p m h ho _ => ⟨fun hl => ?_, fun hl => ?_⟩⟩
  · rw [go, State.storeTo, State.memWrite, h]
  · rw [go, State.storeTo, State.memWrite, h]; rfl
  · rw [go, State.storeTo, State.memWrite, h]
  · rw [go, State.storeTo, State.memWrite_full ord h ho (by rw [leBytes_length]; exact hl)]; rfl
  · rw [go, State.storeTo, State.memWrite_stall ord h ho (by rw [leBytes_length]; exact hl)]

/-- The permissions that an atomic asks for: a CAS only compares at first (R166, R169). -/
def atomicNeed (opc : Nat) : Need := if opc = 0x36 then .probe else .both

/-- An atomic at this device is the read-modify-write of `State.modify`. -/
theorem State.memAtomic_here {s : State} {r : Req} {a : Word} {opc : Nat} (n : Nat) (arg exp : Word) (ord : Byte)
    (h : ∀ dev, s.find r a (atomicNeed opc) ≠ .remote dev) :
    s.memAtomic r a opc n arg exp ord =
      s.modify r a n ord (hostAtomic opc) (opc != 0x36) fun old => atomicNew opc n old arg.toNat exp.toNat := by
  unfold State.memAtomic
  split
  · next dev e => exact absurd e (h dev)
  · rfl

theorem atomicNeed_ne_read (opc : Nat) : atomicNeed opc ≠ .read := by unfold atomicNeed; split <;> decide
theorem atomicNeed_ne_write (opc : Nat) : atomicNeed opc ≠ .write := by unfold atomicNeed; split <;> decide

theorem atomicNeed_eq (opc : Nat) : (if (opc != 0x36) = true then Need.both else Need.probe) = atomicNeed opc := by
  unfold atomicNeed
  by_cases h : opc = 0x36 <;> simp [h]

section
variable {s : State} {r : Req} {a : Word} {hostTakes sure : Bool} {p : Spot} {m : MemSys}
  (h : s.find r a (if sure then .both else .probe) = .spot p m)
include h

/-- A host refuses an operation that it does not take (R170). -/
theorem State.modify_refused (n : Nat) (ord : Byte) (new : Nat → Option Nat) (hp : p.host = true) (ht : hostTakes = false) :
    s.modify r a n ord hostTakes sure new = .trap cPROT s := by
  rw [State.modify, h]
  simp only [hp, ht, Bool.not_false, Bool.and_self, if_true]

/-- A poisoned old value stops a read-modify-write before anything is written. -/
theorem State.modify_poisoned (n : Nat) (ord : Byte) (new : Nat → Option Nat) (ho : m.Open p) (hp : p.host = false)
    (hb : m.poisoned p.key = true) : s.modify r a n ord hostTakes sure new = .trap cPOISON s := by
  rw [State.modify, h]
  simp only [hp, Bool.false_and, Bool.false_eq_true, if_false, ho.drainFor, hb, if_true]

end

section
variable {s : State} {i : Instr} {d : Reg} {a arg exp : Word} {n opc : Nat} {ord : Byte}
  (go : exec i s = s.atomicAt (wordOf32 i) d a opc n arg exp ord)
include go

/-- An atomic at this device takes the trap of its read-modify-write. -/
theorem State.atomicAt_trap {f : Found} {code : Byte} (h : s.find (s.me.req (wordOf32 i)) a (atomicNeed opc) = f)
    (here : ∀ dev, f ≠ .remote dev)
    (hm : s.modify (s.me.req (wordOf32 i)) a n ord (hostAtomic opc) (opc != 0x36) (fun old => atomicNew opc n old arg.toNat exp.toNat)
      = .trap code s) : exec i s = .next (s.trap code (wordOf32 i) (some a)) := by
  rw [go, State.atomicAt, State.memAtomic_here n arg exp ord fun dev e => here dev (h.symm.trans e), hm]

/-- What stops an instruction that is an atomic, before memory is looked at. -/
theorem State.atomicAt_stops {logs : Prop} (nolog : ¬ logs) : s.Stops i n (atomicNeed opc) a logs := by
  refine ⟨fun c h => ?_, fun h => ?_, fun ls h => ?_, fun p m _ _ hr => absurd hr (atomicNeed_ne_read opc), fun p m _ _ hl => absurd hl nolog⟩
  · exact State.atomicAt_trap go h nofun (by rw [State.modify, atomicNeed_eq, h])
  · exact State.atomicAt_trap go h nofun (by rw [State.modify, atomicNeed_eq, h]; rfl)
  · have here : ∀ dev, s.find (s.me.req (wordOf32 i)) a (atomicNeed opc) ≠ .remote dev := by rw [h]; exact nofun
    rw [go, State.atomicAt, State.memAtomic_here n arg exp ord here, State.modify, atomicNeed_eq, h]

variable {p : Spot} {m : MemSys} (h : s.find (s.me.req (wordOf32 i)) a (atomicNeed opc) = .spot p m)
include h

/-- A host takes only some atomics (R170). -/
theorem State.atomicAt_refused (hp : p.host = true) (ht : hostAtomic opc = false) :
    exec i s = .next (s.trap 0x05 (wordOf32 i) (some a)) :=
  State.atomicAt_trap go h nofun (State.modify_refused (by rw [atomicNeed_eq, h]) _ _ _ hp ht)

/-- An atomic reads: poison stops it, and nothing is written. -/
theorem State.atomicAt_poisoned (ho : m.Open p) (hp : p.host = false) (hb : m.poisoned p.key = true) :
    exec i s = .next (s.trap 0x06 (wordOf32 i) (some a)) :=
  State.atomicAt_trap go h nofun (State.modify_poisoned (by rw [atomicNeed_eq, h]) _ _ _ ho hp hb)

end

/-! ### Alignment and scope come before the access -/

section
variable {s : State} {i : Instr} {a b d : Reg} {off : BitVec 14} {n : Nat} {sg : Bool} {logs : Prop}

theorem State.load_stops (h : s.Clear [a] [d]) (go : exec i s = s.load i d a off n sg) (nolog : ¬ logs) :
    let addr := s.s a + off.signExtend 64
    (addr.toNat % n ≠ 0 → exec i s = .next (s.trap 0x03 (wordOf32 i) (some addr))) ∧ (addr.toNat % n = 0 → s.Stops i n .read addr logs) := by
  rw [State.load, State.scalarOp_clear h] at go
  exact ⟨fun ha => go.trans (if_pos ha), fun ha => State.loadFrom_stops (go.trans (if_neg (fun ne => ne ha))) nolog⟩

theorem State.store_stops (h : s.Clear [a, b] []) (go : exec i s = s.store i a b off n) :
    let addr := s.s a + off.signExtend 64
    (addr.toNat % n ≠ 0 → exec i s = .next (s.trap 0x03 (wordOf32 i) (some addr))) ∧ (addr.toNat % n = 0 → s.Stops i n .write addr logs) := by
  rw [State.store, State.scalarOp_clear h] at go
  exact ⟨fun ha => go.trans (if_pos ha), fun ha => State.storeTo_stops (go.trans (if_neg (fun ne => ne ha))) (by decide)⟩

end

section
variable {s : State} {i : Instr} {addr : Word} {sc : BitVec 4} {dw : Bool} {effect : Out}
  (go : exec i s = s.ordered (wordOf32 i) addr sc dw effect)
include go

/-- An ordered access that is aligned and within scope takes its effect (R153, R167). -/
theorem State.ordered_effect (ha : addr.toNat % szBytes dw = 0) (hs : s.scopeOk (s.me.req (wordOf32 i)) addr sc.toNat = true) :
    exec i s = effect := by
  rw [go, State.ordered, if_neg (fun ne => ne ha), hs]; rfl

/-- MISALIGN, then SCOPE, then what stops the effect. -/
theorem State.ordered_stops {need : Need} {logs : Prop} (rest : exec i s = effect → s.Stops i (szBytes dw) need addr logs) :
    (addr.toNat % szBytes dw ≠ 0 → exec i s = .next (s.trap 0x03 (wordOf32 i) (some addr))) ∧
    (addr.toNat % szBytes dw = 0 → s.scopeOk (s.me.req (wordOf32 i)) addr sc.toNat = false →
      exec i s = .next (s.trap 0x09 (wordOf32 i) (some addr))) ∧
    (addr.toNat % szBytes dw = 0 → s.scopeOk (s.me.req (wordOf32 i)) addr sc.toNat = true → s.Stops i (szBytes dw) need addr logs) := by
  refine ⟨fun ha => go.trans (if_pos ha), fun ha hs => ?_, fun ha hs => rest (State.ordered_effect go ha hs)⟩
  rw [go, State.ordered, if_neg (fun ne => ne ha), hs]; rfl

end

/-- R167: host memory needs scope host, a remote device scope pod, every other home takes every scope. -/
theorem State.scopeOk_iff (s : State) (r : Req) (a : Word) (sc : Nat) : s.scopeOk r a sc = true ↔
    (∀ d port, s.homeOf r a false = .host d port → 5 ≤ sc) ∧ (∀ dev, s.homeOf r a false = .remote dev → 7 ≤ sc) := by
  unfold State.scopeOk
  cases s.homeOf r a false <;> simp

section
variable {s : State} {i : Instr} {d a : Reg} {arg exp : Word} {sc : BitVec 4} {ord : Byte} {dw : Bool} {opc : Nat}
  (go : exec i s = s.ordered (wordOf32 i) (s.s a) sc dw (s.atomicAt (wordOf32 i) d (s.s a) opc (szBytes dw) arg exp ord))
include go

/-- Where an atomic lands, a host that does not take it refuses it, and poison elsewhere stops it. -/
theorem State.atomic_lands {refusable : Prop} (refuses : refusable → hostAtomic opc = false) (p : Spot) (m : MemSys)
    (ha : (s.s a).toNat % szBytes dw = 0) (hs : s.scopeOk (s.me.req (wordOf32 i)) (s.s a) sc.toNat = true)
    (h : s.find (s.me.req (wordOf32 i)) (s.s a) (atomicNeed opc) = .spot p m) (ho : m.Open p) :
    (p.host = true → refusable → exec i s = .next (s.trap 0x05 (wordOf32 i) (some (s.s a)))) ∧
    (p.host = false → m.poisoned p.key = true → exec i s = .next (s.trap 0x06 (wordOf32 i) (some (s.s a)))) :=
  have effect := State.ordered_effect go ha hs
  ⟨fun hp hr => State.atomicAt_refused effect h hp (refuses hr), State.atomicAt_poisoned effect h ho⟩

end

/-! ### The ordered instructions, when nothing delays them -/

section
variable {s : State} {d a b : Reg} (sc : BitVec 4) (ord : BitVec 2) (dw : Bool)

theorem exec_lda_clear (h : s.Clear [a] [d]) : exec (.lda d a sc ord dw) s =
    s.ordered (wordOf32 (.lda d a sc ord dw)) (s.s a) sc dw
      (s.loadFrom (wordOf32 (.lda d a sc ord dw)) d (s.s a) (szBytes dw) true (ordByte sc ord dw)) := State.scalarOp_clear h

theorem exec_str_clear (h : s.Clear [a, b] []) : exec (.str a b sc ord dw) s =
    s.ordered (wordOf32 (.str a b sc ord dw)) (s.s a) sc dw
      (s.storeTo (wordOf32 (.str a b sc ord dw)) (s.s a) (szBytes dw) (s.s b) .both (ordByte sc ord dw)) := State.scalarOp_clear h

theorem State.atomic_clear {i : Instr} {opc : Nat} (h : s.Clear [a, b] [d]) : s.atomic i opc d a b sc ord dw =
    s.ordered (wordOf32 i) (s.s a) sc dw
      (s.atomicAt (wordOf32 i) d (s.s a) opc (szBytes dw) (s.s b) 0 (ordByte sc ord dw)) := State.scalarOp_clear h

theorem exec_cas_clear (h : s.Clear [a, b, d] [d]) : exec (.cas d a b sc ord dw) s =
    s.ordered (wordOf32 (.cas d a b sc ord dw)) (s.s a) sc dw
      (s.atomicAt (wordOf32 (.cas d a b sc ord dw)) d (s.s a) 0x36 (szBytes dw) (s.s b) (s.s d) (ordByte sc ord dw)) :=
  State.scalarOp_clear h

end

end Sys2Proof.Machine
end

section
/-! The statements on scalar instructions. -/

namespace Sys2Proof.Machine

/-- Settles O1: every instruction of the group is `State.alu` of its function, whose value the lemmas on values give; the mixing step is two
steps that mix in upper bits, a product by an odd number and a sum, each of which can be undone. -/
theorem registerArithmetic : Obligations.RegisterArithmetic := by
  unfold Obligations.RegisterArithmetic
  refine ⟨fun d a b s h => ?_, fun d a s h => ⟨?_, ?_, ?_, ?_, ?_⟩, fun d a b s h => ⟨?_, ?_, ?_, ?_⟩,
    ⟨mixNat, fun _ _ => rfl, fun d a b s h => ?_, fun x x' y e => ?_⟩, fun d a b => ⟨?_, ?_⟩⟩
  · have shift := Nat.mod_lt (s.s b).toNat (y := 64) (by decide)
    exact ⟨h.computes rfl rfl, h.computes rfl rfl, h.computes rfl rfl, h.computes rfl rfl, h.computes rfl rfl, h.computes rfl rfl,
      h.computes rfl rfl, h.computes rfl rfl, h.computes rfl rfl, h.computes rfl rfl, h.computes rfl (sshiftRight_eq_div _ _),
      h.computes rfl (rotateRight_eq_or _ _ shift), h.computes rfl (mul_eq_ofNat _ _), h.computes rfl rfl, h.computes rfl rfl,
      h.computes rfl (minS_eq _ _), h.computes rfl (maxS_eq _ _), h.computes rfl (minU_eq _ _), h.computes rfl (maxU_eq _ _),
      h.computes rfl (wBool_of_iff beq_iff_eq), h.computes rfl (wBool_bne _ _), h.computes rfl (wBool_of_iff BitVec.slt_iff_toInt_lt),
      h.computes rfl (wBool_of_iff BitVec.ult_iff_lt), h.computes rfl (wBool_of_iff BitVec.sle_iff_toInt_le),
      h.computes rfl (wBool_of_iff BitVec.ule_iff_le), h.computes rfl rfl, h.computes rfl rfl, h.computes rfl rfl⟩
  · exact ⟨_, countLeading_le 64 _, h.computes rfl rfl, testBit_above_countLeading 64 _, testBit_at_countLeading 64 _⟩
  · exact ⟨_, countTrailing_le 64 _, h.computes rfl rfl, testBit_of_lt_countTrailing 64 _, testBit_countTrailing 64 _⟩
  · exact h.computes rfl (congrArg _ (countOnes_eq_length 64 _))
  · exact ⟨_, h.computes rfl rfl, reverse_getLsbD _⟩
  · exact ⟨_, h.computes rfl rfl, swapBytes_byte _⟩
  · exact h.computes rfl (by rw [divS, sdiv_eq_ofInt]; rfl)
  · exact h.computes rfl (by rw [divU, udiv_eq_ofNat]; rfl)
  · exact h.computes rfl (by rw [remS, srem_eq_ofInt])
  · exact h.computes rfl (by rw [remU, umod_eq_ofNat])
  · exact h.computes rfl (hmix_eq_mixNat _ _)
  · rw [← hmix_toNat, ← hmix_toNat] at e
    exact hmix_injective (BitVec.eq_of_toNat_eq e)
  · have word (f : BitVec 8) := congrArg some (encR_eq_or 1 d a b f)
    simp only [List.forall_mem_cons]
    exact ⟨word _, word _, word _, word _, word _, word _, word _, word _, word _, word _, word _, word _, word _, word _, word _, word _, word _,
      word _, word _, word _, word _, word _, word _, word _, word _, word _, word _, word _, word _, word _, word _, word _, word _,
      List.forall_mem_nil _⟩
  · have word (f : BitVec 8) := congrArg some (encR_unary_eq_or 1 d a f)
    simp only [List.forall_mem_cons]
    exact ⟨word _, word _, word _, word _, word _, List.forall_mem_nil _⟩


/-- Settles O2: every immediate form is `State.alu` of its function. -/
theorem immediateArithmetic : Obligations.ImmediateArithmetic := by
  unfold Obligations.ImmediateArithmetic
  refine ⟨fun d a s h => ⟨fun imm => ⟨?_, ?_, ?_, ?_, ?_, ?_, ?_, ?_⟩, fun n => ⟨?_, ?_, ?_, ?_⟩⟩,
    fun d v s => ⟨fun h => ⟨?_, ?_⟩, fun h => ?_⟩, fun d a imm => ?_⟩
  · exact h.computes rfl (addImm_eq _ _)
  · exact h.computes rfl rfl
  · exact h.computes rfl rfl
  · exact h.computes rfl rfl
  · exact h.computes rfl (wBool_of_iff (by rw [BitVec.slt_iff_toInt_lt, imm14_toInt]))
  · exact h.computes rfl (wBool_of_iff BitVec.ult_iff_lt)
  · exact h.computes rfl (mulImm_eq _ _)
  · exact h.computes rfl rfl
  · exact h.computes rfl rfl
  · exact h.computes rfl rfl
  · exact h.computes rfl (sshiftRight_eq_div _ _)
  · exact h.computes rfl (rotateRight_eq_or _ _ n.isLt)
  · exact h.computes rfl (upper20_eq v)
  · exact h.computes rfl (by rw [upper20_eq])
  · exact h.computes rfl (highPart_eq _ _)
  · have word (op : BitVec 6) := congrArg some (encI_eq_or op d a imm)
    simp only [List.forall_mem_cons]
    exact ⟨word _, word _, word _, word _, word _, word _, word _, word _, List.forall_mem_nil _⟩

/-- Settles O3: each branch is `State.branch` with the table's test. -/
theorem compareAndBranch : Obligations.CompareAndBranch := by
  unfold Obligations.CompareAndBranch
  intro a b off s h
  exact ⟨h.branches rfl beq_iff_eq, h.branches rfl bne_iff_ne, h.branches rfl BitVec.slt_iff_toInt_lt,
    h.branches rfl BitVec.sle_iff_toInt_le, h.branches rfl BitVec.ult_iff_lt, h.branches rfl BitVec.ule_iff_le⟩

/-- Settles O4: the four outcomes of `State.predBranch`, for both instructions. -/
theorem predicateBranch : Obligations.PredicateBranch := by
  unfold Obligations.PredicateBranch
  intro p off s vl waits foreign any target clear
  have anyPred : s.me.anyPred p = true ↔ any := s.me.anyPred_iff p vl
  have ends (i : Instr) (want : Bool) (go : exec i s = s.predBranch i p off want) (hc : clear) (pc : Word)
      (hpc : (if s.me.anyPred p = want then target else s.me.pc + 4) = pc) : s.Gives i 0 0 pc := by
    rw [State.Gives, go, State.predBranch_clear i off want hc.1 hc.2.1 hc.2.2, hpc]
  refine ⟨fun hc ha => ⟨?_, ?_⟩, fun hc ha => ⟨?_, ?_⟩, fun hw => ⟨?_, ?_⟩, ?_, ?_⟩
  · exact ends _ true rfl hc _ (if_pos (anyPred.2 ha))
  · exact ends _ false rfl hc _ (if_neg (by simp [anyPred.2 ha]))
  · exact ends _ true rfl hc _ (if_neg fun e => ha (anyPred.1 e))
  · exact ends _ false rfl hc _ (if_pos (by simpa using fun e => ha (anyPred.1 e)))
  · exact State.predBranch_waits _ off true hw
  · exact State.predBranch_waits _ off false hw
  · rintro hw hf i (rfl | rfl)
    · exact State.predBranch_foreign _ off true hw hf
    · exact State.predBranch_foreign _ off false hw hf
  · rintro hw hf hp i (rfl | rfl)
    · exact State.predBranch_spoiled _ off true hw hf hp
    · exact State.predBranch_spoiled _ off false hw hf hp

/-- Settles O8: every access is a load, a store or an atomic behind the checks of alignment and scope, and `State.Stops` says once for each of
the three what stops it. -/
theorem accessTrapsAndScope : Obligations.AccessTrapsAndScope := by
  unfold Obligations.AccessTrapsAndScope
  refine ⟨fun d a b off sc ord dw s h => ?_, State.scopeOk_iff⟩
  intro z plain ordered stops
  have ra : s.Clear [a] [d] := h.mono (by simp) (by simp)
  have rab : s.Clear [a, b] [] := h.mono (by simp) (by simp)
  have rabd : s.Clear [a, b] [d] := h.mono (by simp) (by simp)
  have nolog {i : Instr} {need : Need} (hn : need ≠ .write) (hi : i ≠ .str a b sc ord dw) : ¬ (need = .write ∨ i = .str a b sc ord dw) :=
    fun e => e.elim hn hi
  refine ⟨?_, ?_, ?_⟩
  · simp only [plain, List.forall_mem_cons]
    have load {i : Instr} {n : Nat} {sg : Bool} (go : exec i s = s.load i d a off n sg) (hi : i ≠ .str a b sc ord dw) :=
      State.load_stops ra go (nolog (need := .read) (by decide) hi)
    exact ⟨load rfl nofun, load rfl nofun, load rfl nofun, load rfl nofun, load rfl nofun, load rfl nofun, load rfl nofun,
      State.store_stops rab rfl, State.store_stops rab rfl, State.store_stops rab rfl, State.store_stops rab rfl,
      List.forall_mem_nil _⟩
  · have atomic {i : Instr} (opc : Nat) (go : exec i s = s.atomic i opc d a b sc ord dw) (hi : i ≠ .str a b sc ord dw) :=
      State.ordered_stops (go.trans (State.atomic_clear sc ord dw rabd)) fun e =>
        State.atomicAt_stops e (nolog (atomicNeed_ne_write opc) hi)
    simp only [ordered, List.forall_mem_cons]
    exact ⟨State.ordered_stops (exec_lda_clear sc ord dw ra) fun e => State.loadFrom_stops e (nolog (need := .read) (by decide) nofun),
      State.ordered_stops (exec_str_clear sc ord dw rab) fun e => State.storeTo_stops e (need := .both) (by decide),
      atomic 0x2D rfl nofun, atomic 0x2E rfl nofun, atomic 0x2F rfl nofun, atomic 0x30 rfl nofun, atomic 0x31 rfl nofun,
      atomic 0x32 rfl nofun, atomic 0x33 rfl nofun, atomic 0x34 rfl nofun, atomic 0x35 rfl nofun,
      State.ordered_stops (exec_cas_clear sc ord dw h) fun e => State.atomicAt_stops e (nolog (atomicNeed_ne_write 0x36) nofun),
      List.forall_mem_nil _⟩
  · have atomic {i : Instr} (opc : Nat) {refusable : Prop} (go : exec i s = s.atomic i opc d a b sc ord dw)
        (refuses : refusable → hostAtomic opc = false) := State.atomic_lands (go.trans (State.atomic_clear sc ord dw rabd)) refuses
    simp only [ordered, List.drop_succ_cons, List.drop_zero, List.take_succ_cons, List.take_zero, List.forall_mem_cons]
    exact ⟨atomic 0x2D rfl (by simp), atomic 0x2E rfl (by simp), atomic 0x2F rfl fun _ => rfl, atomic 0x30 rfl fun _ => rfl,
      atomic 0x31 rfl fun _ => rfl, atomic 0x32 rfl fun _ => rfl, atomic 0x33 rfl fun _ => rfl, atomic 0x34 rfl fun _ => rfl,
      atomic 0x35 rfl fun _ => rfl, State.atomic_lands (exec_cas_clear sc ord dw h) (by simp),
      List.forall_mem_nil _⟩

end Sys2Proof.Machine
end

section
/-! The values that VDECL, VSETT and VSETL compute, and what each does when its registers are clear (R131, R201, R202, R205 to R207). -/

namespace Sys2Proof.Machine

/-! ### Fields of VT (R201, R202) -/

theorem fld_eq_div_mod (x hi lo : Nat) : fld x hi lo = x / 2 ^ lo % 2 ^ (hi + 1 - lo) := by
  rw [fld, Nat.shiftRight_eq_div_pow]

/-- Nothing stands above bit 23: the 40 bits of the field are zero. -/
theorem bf_63_24_eq_zero_iff (v : Word) : bf v 63 24 = 0 ↔ v.toNat < 2 ^ 24 := by
  have := v.isLt
  rw [bf, fld_eq_div_mod]
  omega

/-- What VSETT takes (R201). -/
theorem vtValid_iff (v : Word) : vtValid v = true ↔
    v.toNat < 2 ^ 24 ∧ (Fmt.of v.toNat).valid = true ∧ v.toNat / 2 ^ 20 % 4 = (if v.toNat % 16 = 5 then 2 else 1) ∧ v.toNat / 2 ^ 13 % 8 < 4 := by
  have fmt : bf v 3 0 = v.toNat % 16 := by simp [bf, fld_eq_div_mod]
  have slices : bf v 21 20 = v.toNat / 2 ^ 20 % 4 := fld_eq_div_mod _ 21 20
  have grouping : bf v 15 13 = v.toNat / 2 ^ 13 % 8 := fld_eq_div_mod _ 15 13
  rw [vtValid, fmt, slices, grouping]
  simp only [Bool.and_eq_true, beq_iff_eq, decide_eq_true_eq, bf_63_24_eq_zero_iff, and_assoc]

/-- VLMAX with the group size read from VT (R202). -/
theorem vlmax_eq_min (c : VCfg) (mvl : Nat) : vlmax c mvl = min (if c.vpm then 4096 else 8192) (2 ^ (c.vt.toNat / 2 ^ 13 % 8) * mvl) := by
  have group : c.group = 2 ^ (c.vt.toNat / 2 ^ 13 % 8) := congrArg (2 ^ ·) (fld_eq_div_mod _ 15 13)
  rw [vlmax, group]

/-! ### The MVL of a declaration (R205) -/

/-- The budget's elements, in whole blocks of 256; none where an operand is out of range. -/
theorem declMvl_eq (vrb : Nat) (vpm : Bool) (cnt bits : Nat) : declMvl vrb vpm cnt bits =
    if 1 ≤ cnt ∧ cnt ≤ 64 ∧ bits ≠ 0 then
      min (8192 / (if vpm then 2 else 1)) (vrb * 16384 * 8 / ((if vpm then 2 else 1) * cnt * bits)) / 256 * 256
    else 0 := by
  rw [declMvl, ← Nat.div_mul_self_eq_mod_sub_self]
  by_cases inRange : 1 ≤ cnt ∧ cnt ≤ 64 ∧ bits ≠ 0
  · rw [if_pos inRange, if_pos inRange]
  · rw [if_neg inRange, if_neg inRange, Nat.zero_div, Nat.zero_mul]

/-! ### Words (R88) -/

section
variable {op : BitVec 6} {f : BitVec 8} {fixed : BitVec 32} (parts : f.setWidth 32 ||| (op.setWidth 32 <<< 26) = fixed) (d a b : Reg)
include parts

/-- The operation and the function code are the fixed part of a word. -/
theorem encR_eq_fixed_or : encR op d a b f = fixed ||| (d.setWidth 32 <<< 20) ||| (a.setWidth 32 <<< 14) ||| (b.setWidth 32 <<< 8) := by
  rw [encR_eq_or, BitVec.or_comm _ (f.setWidth 32), ← parts]
  simp only [BitVec.or_assoc]

/-- A word whose B field is zero. -/
theorem encR_unary_eq_fixed_or : encR op d a 0#6 f = fixed ||| (d.setWidth 32 <<< 20) ||| (a.setWidth 32 <<< 14) := by
  rw [encR_unary_eq_or, BitVec.or_comm _ (f.setWidth 32), ← parts]
  simp only [BitVec.or_assoc]

end

/-! ### The three instructions, when nothing delays or stops their operands -/

/-- The vector registers alone, part 0 of a mask of foreign parts (R415). -/
theorem State.foreignIn_regs (s : State) : s.foreignIn 1 = (s.foreign.testBit 0).toNat := by
  rw [State.foreignIn, Nat.land_eq, Nat.and_one_is_mod, Nat.testBit_zero]
  rcases Nat.mod_two_eq_zero_or_one s.foreign with even | odd
  · rw [even]; rfl
  · rw [odd]; rfl

/-- An update of the strand that leaves the PC, and then a result. -/
theorem State.setMe_finish (s : State) (f : Strand → Strand) (d : Reg) (x : Word) (keeps_pc : (f s.me).pc = s.me.pc) :
    (s.setMe f).finish d x = { s with me := (f s.me).wentOn d x (s.me.pc + 4) } := by
  rw [State.finish_wentOn, State.setMe_me, keeps_pc]; rfl

theorem Strand.qEmpty_iff (k : Strand) : k.qEmpty = true ↔ k.q = [] := List.isEmpty_iff

section
variable {s : State} {d a b : Reg} (h : s.Clear [a, b] [d])
include h

/-- VDECL waits for the vector queue (R127, R205). -/
theorem State.Clear.vdecl_waits (busy : s.me.q ≠ []) : exec (.vdecl d a b) s = .next s :=
  (State.scalarOp_clear h).trans (if_pos (by rwa [Bool.not_eq_true', Bool.eq_false_iff, Ne, s.me.qEmpty_iff]))

variable (idle : s.me.q = [])
include idle

/-- VDECL traps where the registers are another owner's (R205, R415). -/
theorem State.Clear.vdecl_foreign (foreign : s.foreign.testBit 0 = true) :
    exec (.vdecl d a b) s = .next (s.trap 0x07 (wordOf32 (.vdecl d a b)) (some 1)) := by
  have part : s.foreignIn 1 = 1 := by rw [s.foreignIn_regs, foreign]; rfl
  refine (State.scalarOp_clear h).trans ((if_neg (by simp [s.me.qEmpty_iff, idle])).trans ?_)
  rw [part]; rfl

/-- VDECL declares what the count, the width and the budget give (R205). -/
theorem State.Clear.vdecl_declares (own : s.foreign.testBit 0 = false) :
    let bits := declBits (s.s b).toNat
    let m := declMvl s.me.alloc.vrb s.me.cfg.vpm (s.s a).toNat bits
    exec (.vdecl d a b) s = .next { s with me := (s.me.declare (s.s a).toNat bits m).wentOn d (BitVec.ofNat 64 m) (s.me.pc + 4) } := by
  have part : s.foreignIn 1 = 0 := by rw [s.foreignIn_regs, own]; rfl
  intro bits m
  refine (State.scalarOp_clear h).trans ((if_neg (by simp [s.me.qEmpty_iff, idle])).trans ((if_neg (by simp [part])).trans ?_))
  exact congrArg _ (State.setMe_finish _ _ _ _ rfl)

end

section
variable {s : State} {d a : Reg} (h : s.Clear [a] [d]) (final : s.me.vlPending = false)
include h final

/-- VSETT takes a valid VT and cuts VL (R206). -/
theorem State.Clear.vsett_takes (valid : vtValid (s.s a) = true) :
    exec (.vsett d a) s = .next { s with
      me := ({ s.me with cfg := { s.me.cfg with vt := (s.s a).setWidth 32 } } : Strand).cutVl.wentOn d (s.s a) (s.me.pc + 4) } := by
  refine (State.scalarOp_clear h).trans ((if_neg (by simp [final])).trans ((if_neg (by simp [valid])).trans ?_))
  exact congrArg _ (State.setMe_finish _ _ _ _ rfl)

/-- VSETT refuses any other value (R206). -/
theorem State.Clear.vsett_refuses (invalid : ¬ vtValid (s.s a) = true) : s.Computes (.vsett d a) d 0 := by
  refine (State.scalarOp_clear h).trans ((if_neg (by simp [final])).trans ((if_pos (by simpa using invalid)).trans ?_))
  rw [State.finish_wentOn]

/-- VSETL sets VL and writes it (R207). -/
theorem State.Clear.vsetl_sets :
    let vl := BitVec.ofNat 64 (min (s.s a).toNat (vlmax s.me.cfg s.me.cfg.mvl.toNat))
    exec (.vsetl d a) s = .next { s with me := ({ s.me with cfg := { s.me.cfg with vl := vl } } : Strand).wentOn d vl (s.me.pc + 4) } :=
  (State.scalarOp_clear h).trans ((if_neg (by simp [final])).trans (congrArg _ (State.setMe_finish _ _ _ _ rfl)))

end

end Sys2Proof.Machine
end

section
/-! The statements on declaring and sizing vectors. -/

namespace Sys2Proof.Machine

/-- Settles O17: VDECL waits, traps or declares, and `declMvl_eq` says how many elements. -/
theorem declareRegisters : Obligations.DeclareRegisters := by
  unfold Obligations.DeclareRegisters
  refine ⟨fun d a b s h => ?_, fun d a b => congrArg some (encR_eq_fixed_or rfl d a b)⟩
  intro cnt w bits half m
  have elements : declMvl s.me.alloc.vrb s.me.cfg.vpm cnt bits = m := declMvl_eq _ _ _ _
  refine ⟨fun idle own => ?_, h.vdecl_waits, fun idle foreign enters => ?_⟩
  · rw [h.vdecl_declares idle own, ← elements]; rfl
  · rw [State.Traps, h.vdecl_foreign idle foreign, State.trap_enters enters]

/-- Settles O18: `vtValid_iff` says what VSETT takes, `vlmax_eq_min` where it and VSETL cut VL. -/
theorem typeAndLength : Obligations.TypeAndLength := by
  unfold Obligations.TypeAndLength
  refine ⟨fun d a s h final => ?_, fun d a s h pending => ?_, fun d a => ⟨?_, ?_⟩⟩
  · intro top v valid
    refine ⟨fun hv => ?_, fun hv => h.vsett_refuses final fun e => hv ((vtValid_iff v).1 e), ?_⟩
    · have low : (v.setWidth 32).toNat = v.toNat := by
        rw [BitVec.toNat_setWidth, Nat.mod_eq_of_lt (Nat.lt_trans hv.1 (by decide))]
      rw [h.vsett_takes final ((vtValid_iff v).2 hv), Strand.cutVl, vlmax_eq_min]
      simp only [v, low]; rfl
    · rw [h.vsetl_sets final, vlmax_eq_min]
  · have first : s.Clear [a] [d] := h.mono (by simp) (by simp)
    exact ⟨(State.scalarOp_clear first).trans (if_pos pending), (State.scalarOp_clear first).trans (if_pos pending),
      (State.scalarOp_clear h).trans (if_pos pending)⟩
  · exact congrArg some (encR_unary_eq_fixed_or rfl d a)
  · exact congrArg some (encR_unary_eq_fixed_or rfl d a)

end Sys2Proof.Machine
end
